-- ==== Sys2Proof/Word.lean ====
section
/-! DEFINITION. The word types of the part and the closed sets of names its manual uses (00 "Names", R198). -/

namespace Sys2Proof

/-- One character of the link, and one byte of a payload (09 section 9.2). -/
abbrev Byte := BitVec 8

/-- A two-byte field of a payload (R198). -/
abbrev Half := BitVec 16

/-- An uptime: a 32-bit count of seconds (00 "Time"). -/
abbrev Time := BitVec 32

/-- A temperature, half-band or offset in tenths of a degree (00 "Temperature"). -/
abbrev Temp := Int

/-- The three zones (00 "Terms"). -/
inductive ZoneId | fresh | drawer | freezer
  deriving DecidableEq, Repr

/-- The four requesters of the Cooling Arbiter (02). -/
inductive Requester | fresh | drawer | freezer | defrost
  deriving DecidableEq, Repr

/-- The two evaporators, and so the two valve positions (00 "Terms"). -/
inductive Evap | fresh | freeze
  deriving DecidableEq, Repr

/-- The four doors (04 section 4.1). -/
inductive DoorId | left | right | drawer | freezer
  deriving DecidableEq, Repr

/-- The eight channels, in number order (03). -/
inductive Chan | freshAir | freshEvap | drawerAir | freezerAir | freezerEvap | ambient | discharge | aux
  deriving DecidableEq, Repr

/-- The two ends of the drawer damper (04 section 4.3). -/
inductive DamperEnd | closed | opened
  deriving DecidableEq, Repr

/-- Band positions (00 "Terms", R80). -/
inductive Band | below | inside | above
  deriving DecidableEq, Repr

/-- Classes, lowest urgency first (02 section 2.1, R198). A zone's class is never PRECHILL. -/
inductive Cls | normal | prechill | recovery
  deriving DecidableEq, Repr

/-- The eight channels in number order. -/
def Chan.all : List Chan :=
  [.freshAir, .freshEvap, .drawerAir, .freezerAir, .freezerEvap, .ambient, .discharge, .aux]

/-- The four doors in the order of R198. -/
def DoorId.all : List DoorId := [.left, .right, .drawer, .freezer]

/-- The three zones in the order of R198. -/
def ZoneId.all : List ZoneId := [.fresh, .drawer, .freezer]

/-- The four requesters in the order of R198. -/
def Requester.all : List Requester := [.fresh, .drawer, .freezer, .defrost]

end Sys2Proof
end

