-- ==== Sys2Proof/Config.lean ====
section
/-! DEFINITION. What is fixed for the part: its constants, its default settings and ranges, the thermistor curve, and
the free values that the manual leaves open (constants with no body). -/

namespace Sys2Proof.Config

/-! ### Free values (log 1, log 5, log 7) -/

/-- Free value: whether an idle transmitter makes its choice at the posting of a notice or at the end of the event that
posts it. R192 and R211 allow either ("either may be taken first"). -/
opaque freeChoice : Nat → Bool

/-- Free value: the place in the queue of an event among those that become due in the same moment; the rules say of
coincident events that either may be taken first. -/
opaque freeOrder : Nat → Nat

/-- Free value: the two bytes sent for a count of seconds that has no encoding in two bytes. R198 gives two bytes and
takes 0xFFFF for an absent value. -/
opaque freeHalf : Nat → Half

/-- Free value: the byte sent for the more-flag of a capture record that is empty; R207 and section 11.1 give no value. -/
opaque freeMore : Nat → Byte

/-! ### Fixed times, in seconds unless marked -/

def conversionMs : Nat := 20          -- R64
def debounceMs : Nat := 50            -- R86
def gapMs : Nat := 10                 -- R188
def startWindow : Nat := 10           -- R39
def stepTime : Nat := 5               -- R41
def lockoutTime : Nat := 1800         -- R46
def failureClear : Nat := 600         -- R46
def valveCheck : Nat := 8             -- R50
def stuckTime : Nat := 1800           -- R52
def damperCheck : Nat := 6            -- R101
def runOnLimit : Nat := 480           -- R96
def openSecondsUnit : Nat := 60       -- R91
def recoveryOpen : Nat := 30          -- R17
def selfStart : Nat := 120            -- R169
def serviceIdle : Nat := 300          -- R173
def deferralLimit : Nat := 7200       -- R111
def prechillTime : Nat := 600         -- R113
def prechillWait : Nat := 1800        -- R112
def maxHeat : Nat := 2400             -- R120
def sampleSpacing : Nat := 10         -- R118
def dripTime : Nat := 300             -- R120
def recoveryLimit : Nat := 240        -- R123
def pullDown : Temp := 50             -- R8

/-! ### The load budget (06) -/

def reserve : Nat := 5
def heaterWeight : Nat := 10
def mullionWeight : Nat := 2

/-- The weight of a compressor level (06 section 6.1). -/
def levelWeight : Nat → Nat
  | 0 => 0
  | n + 1 => 4 + 2 * n

/-! ### Capacities -/

def maxReplies : Nat := 4             -- R190
def maxWaiting : Nat := 2             -- R190
def maxLinkTags : Nat := 7            -- R69
def maxPayload : Nat := 56            -- 09 section 9.3

/-! ### Line time. One bit is 5 units of 1/192000 s and one millisecond is 192 of them (38400 bit/s, log 12). -/

def unitsPerMs : Nat := 192
def unitsPerByte : Nat := 50

/-! ### Boundaries that watchers hand once (R58, R97, R142, R61) and the Defrost Unit's by phase (05 section 5.1) -/

def tempMin : Temp := -500
def tempMax : Temp := 1500
def dischargeLow : Temp := 900
def dischargeHigh : Temp := 1050
def freshEvapHigh : Temp := 10
def ambientLow : Temp := 250
def ambientHigh : Temp := 270
def coilHigh : Temp := 200
def coilRecover : Temp := -50

/-- The thermistor curve: raw code and temperature, falling codes (R76). -/
def curve : List (Nat × Temp) :=
  [(4000, -500), (3900, -400), (3750, -300), (3530, -200), (3240, -100), (2880, 0), (2470, 100), (2050, 200)]
  ++ [(1660, 300), (1310, 400), (1020, 500), (620, 700), (370, 900), (230, 1100), (150, 1300), (100, 1500)]

/-- The default scan period of a channel, in seconds (03). -/
def scanPeriod : Chan → Nat
  | .freshAir => 10
  | .freshEvap => 20
  | .drawerAir => 10
  | .freezerAir => 10
  | .freezerEvap => 30
  | .ambient => 60
  | .discharge => 10
  | .aux => 0

end Sys2Proof.Config
end

