-- ==== Sys2Proof/Syntax.lean ====
section
/-! DEFINITION. The commands: one constructor for each of the 78 rows of spec/opcode_table.json. A request carries the tag
of its frame and its payload's fields, each at the width of R198, as the host sent them: their ranges are judged at
execution (R191). CONVERSION_COMPLETE carries the converter's raw code (R75); the pin events carry what the pin shows. -/

namespace Sys2Proof

/-- The commands of the part. -/
inductive Instr where
  /-- GET_STATE (R201). -/
  | getState (tag : Byte)
  /-- START (R171). -/
  | start (tag : Byte)
  /-- STOP (R172). -/
  | stop (tag : Byte)
  /-- RESET (R176). -/
  | reset (tag : Byte)
  /-- SET_ZONE (R2). -/
  | setZone (tag : Byte) (zone carried enabled : Byte) (setpoint halfBand : Half) (normalLevel recoveryLevel : Byte) (onTime offTime : Half) (profile : Byte)
  /-- GET_ZONE (R202). -/
  | getZone (tag : Byte) (zone : Byte)
  /-- SET_TIMING (R57). -/
  | setTiming (tag : Byte) (carried : Byte) (minOff minOn minDwell maxWait maxRun : Half)
  /-- GET_ARBITER (R203). -/
  | getArbiter (tag : Byte) (part : Byte)
  /-- SET_BUDGET (R145). -/
  | setBudget (tag : Byte) (carried budget mode : Byte)
  /-- GET_BUDGET (R205). -/
  | getBudget (tag : Byte)
  /-- SET_CHANNEL (R62). -/
  | setChannel (tag : Byte) (channel carried period policy : Byte) (offset : Half)
  /-- READ_CHANNEL (R85). -/
  | readChannel (tag : Byte) (channel : Byte)
  /-- MEASURE (R70). -/
  | measure (tag : Byte) (channel : Byte)
  /-- CLEAR_QUEUE (R73). -/
  | clearQueue (tag : Byte)
  /-- SUBSTITUTE (R78). -/
  | substitute (tag : Byte) (channel : Byte) (value : Half)
  /-- SET_DEFROST (R127). -/
  | setDefrost (tag : Byte) (carried interval : Byte) (terminate : Half)
  /-- GET_DEFROST (R204). -/
  | getDefrost (tag : Byte)
  /-- DEFROST_START (R125). -/
  | defrostStart (tag : Byte)
  /-- DEFROST_ABORT (R126). -/
  | defrostAbort (tag : Byte)
  /-- GET_FAULT (R207). -/
  | getFault (tag : Byte) (index : Option Byte)
  /-- CLEAR_FAULT (R160). -/
  | clearFault (tag : Byte) (object : Byte)
  /-- SET_NOTICE (R208). -/
  | setNotice (tag : Byte) (carried mapStatus mapZone mapDoor mapDefrost mapMeasure mapBudget quiet urgentWeight routineWeight : Byte) (spacing period ajar : Half)
  /-- SERVICE_ENTER (R173). -/
  | serviceEnter (tag : Byte)
  /-- SERVICE_EXIT (R174). -/
  | serviceExit (tag : Byte)
  /-- FORCE_FRESH_FAN (R179). -/
  | forceFreshFan (tag : Byte) (value : Byte)
  /-- FORCE_FREEZER_FAN (R179). -/
  | forceFreezerFan (tag : Byte) (value : Byte)
  /-- FORCE_CONDENSER_FAN (R179). -/
  | forceCondenserFan (tag : Byte) (value : Byte)
  /-- FORCE_DAMPER_TARGET (R179). -/
  | forceDamperTarget (tag : Byte) (value : Byte)
  /-- FORCE_VALVE_TARGET (R181). -/
  | forceValveTarget (tag : Byte) (value : Byte)
  /-- FORCE_COMPRESSOR_LEVEL (R180). -/
  | forceCompressorLevel (tag : Byte) (value : Byte)
  /-- FORCE_DEFROST_HEATER (R182). -/
  | forceDefrostHeater (tag : Byte) (value : Byte)
  /-- FORCE_MULLION_HEATER (R183). -/
  | forceMullionHeater (tag : Byte) (value : Byte)
  /-- BAD_KIND (R197). -/
  | badKind (tag kind : Byte) (payload : List Byte)
  /-- RECEIVE_CHARACTER (R187). -/
  | receiveCharacter (char : Byte)
  /-- FRAMING_ERROR (R185). -/
  | framingError
  /-- LINE_BREAK (R189). -/
  | lineBreak
  /-- GAP_TIMEOUT (R188). -/
  | gapTimeout
  /-- FRAME_TRANSMITTED (R192). -/
  | frameTransmitted
  /-- ROUTINE_SPACING_END (R194). -/
  | routineSpacingEnd
  /-- POWER_ON_RESET (R175). -/
  | powerOnReset
  /-- COMMANDED_RESET (R176). -/
  | commandedReset
  /-- SELF_START_EXPIRY (R171). -/
  | selfStartExpiry
  /-- SERVICE_IDLE_EXPIRY (R174). -/
  | serviceIdleExpiry
  /-- OFF_PHASE_EXPIRY (R19). -/
  | offPhaseExpiry (zone : ZoneId)
  /-- ON_PHASE_EXPIRY (R19). -/
  | onPhaseExpiry (zone : ZoneId)
  /-- MIN_DWELL_EXPIRY (R35). -/
  | minDwellExpiry
  /-- MAX_WAIT_EXPIRY (R35). -/
  | maxWaitExpiry (requester : Requester)
  /-- MAX_RUN_EXPIRY (R35). -/
  | maxRunExpiry
  /-- RUN_SECOND (R37). -/
  | runSecond
  /-- MIN_OFF_EXPIRY (R38). -/
  | minOffExpiry
  /-- RUN_FEEDBACK (R39). -/
  | runFeedback
  /-- START_WINDOW_END (R40). -/
  | startWindowEnd
  /-- STEP_END (R41). -/
  | stepEnd
  /-- RUNOUT_END (R44). -/
  | runoutEnd
  /-- TRIP (R45). -/
  | trip
  /-- FAILURE_COUNT_RESET (R46). -/
  | failureCountReset
  /-- LOCKOUT_EXPIRY (R47). -/
  | lockoutExpiry
  /-- END_SWITCH_CONFIRM (R50). -/
  | endSwitchConfirm (shown : Option Evap)
  /-- VALVE_CHECK_END (R51). -/
  | valveCheckEnd
  /-- STUCK_RECOVERY_EXPIRY (R53). -/
  | stuckRecoveryExpiry
  /-- CONVERSION_COMPLETE (R66). -/
  | conversionComplete (code : BitVec 12)
  /-- SCAN_EXPIRY (R67). -/
  | scanExpiry (channel : Chan)
  /-- DOOR_INPUT_CHANGE (R86). -/
  | doorInputChange (door : DoorId) (opened : Bool)
  /-- DEBOUNCE_END (R86). -/
  | debounceEnd (door : DoorId)
  /-- AJAR_EXPIRY (R89). -/
  | ajarExpiry (door : DoorId)
  /-- OPEN_SECONDS_DELIVERY (R91). -/
  | openSecondsDelivery (door : DoorId)
  /-- RUN_ON_LIMIT (R96). -/
  | runOnLimit
  /-- DAMPER_POSITION_SWITCH (R101). -/
  | damperPositionSwitch (shown : Option DamperEnd)
  /-- DAMPER_CHECK_END (R102). -/
  | damperCheckEnd
  /-- DEFERRAL_LIMIT (R111). -/
  | deferralLimit
  /-- PRECHILL_DONE (R113). -/
  | prechillDone
  /-- PRECHILL_WAIT_LIMIT (R114). -/
  | prechillWaitLimit
  /-- SAMPLE_TIMER_EXPIRY (R118). -/
  | sampleTimerExpiry
  /-- HEAT_CLOCK_LIMIT (R120). -/
  | heatClockLimit
  /-- DRIP_TIMER_EXPIRY (R122). -/
  | dripTimerExpiry
  /-- RECOVERY_LIMIT_EXPIRY (R123). -/
  | recoveryLimitExpiry
  /-- STATUS_TIMER_EXPIRY (R213). -/
  | statusTimerExpiry
  /-- BAD_LENGTH (R197). -/
  | badLength (tag kind : Byte) (payload : List Byte)
  deriving DecidableEq, Repr

end Sys2Proof
end

