-- ==== Sys2Proof/Decode.lean ====
section
/-! DEFINITION. The request kinds and the payload lengths they take (10 section 10.1). The opcode table gives no row any
bits (its rows are events and requests, not words), so no word spells a command. -/

namespace Sys2Proof

/-- The kind byte, for each of the twenty-four kinds, with the payload lengths it takes (10 section 10.1). -/
def kindTable : List (Byte × List Nat) :=
  [(0x01, [0]), (0x02, [0]), (0x03, [0]), (0x04, [0]), (0x08, [14]), (0x09, [1]), (0x0A, [11]), (0x0B, [1])]
  ++ [(0x0C, [3]), (0x0D, [0]), (0x10, [6]), (0x11, [1]), (0x12, [1]), (0x13, [0]), (0x14, [3]), (0x18, [4])]
  ++ [(0x19, [0]), (0x1A, [1]), (0x20, [0, 1]), (0x21, [1]), (0x24, [16]), (0x28, [0]), (0x29, [0]), (0x2A, [2])]

/-- The payload lengths a kind takes; none for a kind that is no request kind (R197). -/
def takenLengths (kind : Byte) : Option (List Nat) :=
  (kindTable.find? (fun row => row.1 == kind)).map (·.2)

/-- The command that a word spells by the table's bits: the table gives none of its rows bits, so no word spells one. -/
def decodeTableWord (_nbits _w : Nat) : Option Instr := none

end Sys2Proof
end

