-- ==== Sys2Proof/Machine/State.lean ====
section
/-! DEFINITION. The state of the part: every piece of state that the chapters of the manual give its blocks, as plain data,
with the queue of waiting commands; its accessors; and the state after a power-on reset. -/

namespace Sys2Proof.Machine

/-! ### Zone Controllers (01) -/

inductive ZoneState | disabled | paused | idle | calling | cooling | door | held | fault
  deriving DecidableEq, Repr

inductive ControlMode | thermostat | timed
  deriving DecidableEq, Repr

inductive Profile | chill | cold | soft
  deriving DecidableEq, Repr

/-- The causes of a ZONE notice, in the order of section 11.1. -/
inductive ZoneCause
  | call | satisfied | grant | return_ | doorOpen | doorClosed | onTime | hold | holdEnd | damper | disable | enable
  | run | pause
  deriving DecidableEq, Repr

inductive PhaseKind | on | off
  deriving DecidableEq, Repr

/-- The timed phase timer (section 1.8). -/
structure PhaseTimer where
  kind : PhaseKind
  left : Nat
  deriving DecidableEq, Repr

/-- A zone record (section 1.1). `checkDue` is the pull-down check still to be made on the first OK result in IDLE (R8). -/
structure Zone where
  enabled : Bool
  state : ZoneState
  mode : ControlMode
  cls : Cls
  setpoint : Temp
  halfBand : Temp
  normalLevel : Nat
  recoveryLevel : Nat
  onTime : Nat
  offTime : Nat
  profile : Option Profile
  postDefrost : Bool
  lastAir : Option Temp
  lastBand : Option Band
  doorOpenSince : Option Time
  closeMark : Option Cls
  held : Bool
  damperFaulted : Bool
  enteredAt : Time
  timer : Option PhaseTimer
  checkDue : Bool
  deriving DecidableEq, Repr

/-- The three zone records. -/
structure Zones where
  fresh : Zone
  drawer : Zone
  freezer : Zone
  deriving DecidableEq, Repr

def Zones.get (z : Zones) : ZoneId → Zone
  | .fresh => z.fresh
  | .drawer => z.drawer
  | .freezer => z.freezer

def Zones.set (z : Zones) (i : ZoneId) (v : Zone) : Zones :=
  match i with
  | .fresh => { z with fresh := v }
  | .drawer => { z with drawer := v }
  | .freezer => { z with freezer := v }

/-! ### Cooling Arbiter (02) -/

/-- A request list entry (section 2.1). -/
structure Entry where
  requester : Requester
  evap : Evap
  cls : Cls
  wish : Nat
  postedAt : Time
  deriving DecidableEq, Repr

/-- A grant member (section 2.2). -/
structure Member where
  requester : Requester
  cls : Cls
  wish : Nat
  deriving DecidableEq, Repr

inductive GrantPhase | preparing | active
  deriving DecidableEq, Repr

/-- The grant record (section 2.2); its target level is computed (R31). -/
structure Grant where
  evap : Evap
  phase : GrantPhase
  selected : List Member
  holders : List Member
  activation : Option Time
  dwellStart : Option Time
  deriving DecidableEq, Repr

inductive CompState | offLocked | offReady | starting | running | runout | lockout
  deriving DecidableEq, Repr

/-- A step in flight: the level it goes to and the seconds left (R41). -/
structure Step where
  goal : Nat
  left : Nat
  deriving DecidableEq, Repr

/-- The compressor (section 2.4). Each countdown is 0 while its timer does not run. -/
structure Compressor where
  state : CompState
  level : Nat
  step : Option Step
  runStart : Time
  minOffLeft : Nat
  startLeft : Nat
  lockoutLeft : Nat
  failures : Nat
  deriving DecidableEq, Repr

inductive Attempt | first | second | recovery
  deriving DecidableEq, Repr

/-- The routing valve (section 2.6): AT_E, MOVING, STUCK. -/
inductive Valve
  | resting (e : Evap)
  | moving (target : Evap) (attempt : Attempt) (left : Nat)
  | stuck (left : Nat)
  deriving DecidableEq, Repr

/-- The compressor and switching times (section 2.8). -/
structure Timing where
  minOff : Nat
  minOn : Nat
  minDwell : Nat
  maxWait : Nat
  maxRun : Nat
  deriving DecidableEq, Repr

/-- The Cooling Arbiter. `dischargeHigh` is the owner's own memory that DISCHARGE_HIGH is declared and not ended
(R48, R154). -/
structure Arbiter where
  list : List Entry
  grant : Option Grant
  comp : Compressor
  budgetCap : Nat
  dischargeCap : Option Nat
  dischargePos : Option Band
  dischargeFaulted : Bool
  dischargeHigh : Bool
  valve : Valve
  hold : Bool
  notFed : Bool
  timing : Timing
  forcedLevel : Option Nat
  forcedValve : Option Evap
  deriving DecidableEq, Repr

/-! ### Measurement Scheduler (03) -/

inductive Sensor | ok | opened | short
  deriving DecidableEq, Repr

/-- The sources of a conversion, in the order of section 3.1. -/
inductive Source | scan | link | defrost | inject
  deriving DecidableEq, Repr

inductive ClearPolicy | single | joint
  deriving DecidableEq, Repr

/-- A channel record (section 3.1) with the channel's SCAN countdown and its two pending flags. -/
structure Channel where
  period : Nat
  policy : ClearPolicy
  offset : Temp
  low : Temp
  high : Temp
  lastValue : Option Temp
  lastRaw : Option (BitVec 12)
  sensor : Option Sensor
  band : Option Band
  substituted : Bool
  lastSource : Option Source
  lastTime : Option Time
  bad : Nat
  good : Nat
  faulted : Bool
  overrun : Bool
  substitute : Option Temp
  countdown : Nat
  scanFlag : Bool
  injectFlag : Bool
  deriving DecidableEq, Repr

/-- The eight channel records. -/
structure Channels where
  c0 : Channel
  c1 : Channel
  c2 : Channel
  c3 : Channel
  c4 : Channel
  c5 : Channel
  c6 : Channel
  c7 : Channel
  deriving DecidableEq, Repr

def Channels.get (c : Channels) : Chan → Channel
  | .freshAir => c.c0
  | .freshEvap => c.c1
  | .drawerAir => c.c2
  | .freezerAir => c.c3
  | .freezerEvap => c.c4
  | .ambient => c.c5
  | .discharge => c.c6
  | .aux => c.c7

def Channels.set (c : Channels) (i : Chan) (v : Channel) : Channels :=
  match i with
  | .freshAir => { c with c0 := v }
  | .freshEvap => { c with c1 := v }
  | .drawerAir => { c with c2 := v }
  | .freezerAir => { c with c3 := v }
  | .freezerEvap => { c with c4 := v }
  | .ambient => { c with c5 := v }
  | .discharge => { c with c6 := v }
  | .aux => { c with c7 := v }

/-- A conversion queue entry (section 3.4): origin LINK with the host's tag, or origin DEFROST (no tag). -/
structure QEntry where
  chan : Chan
  tag : Option Byte
  deriving DecidableEq, Repr

/-- The conversion in flight (R64): its channel and source, the tag of the LINK entry it serves, the milliseconds left. -/
structure Conversion where
  chan : Chan
  source : Source
  tag : Option Byte
  left : Nat
  deriving DecidableEq, Repr

structure Scheduler where
  ch : Channels
  conv : Option Conversion
  queue : List QEntry
  tags : List Byte
  deriving DecidableEq, Repr

/-! ### Door Monitor (04 section 4.1) -/

inductive DoorState | closed | opened | ajar
  deriving DecidableEq, Repr

/-- A door record. `input` is the switch input level (true: open); `window` the milliseconds left of a debounce window. -/
structure Door where
  input : Bool
  window : Option Nat
  state : DoorState
  openedAt : Option Time
  delivered : Nat
  lastOpen : Option Nat
  deriving DecidableEq, Repr

structure Doors where
  left : Door
  right : Door
  drawer : Door
  freezer : Door
  ajarTime : Nat
  deriving DecidableEq, Repr

def Doors.get (d : Doors) : DoorId → Door
  | .left => d.left
  | .right => d.right
  | .drawer => d.drawer
  | .freezer => d.freezer

def Doors.set (d : Doors) (i : DoorId) (v : Door) : Doors :=
  match i with
  | .left => { d with left := v }
  | .right => { d with right := v }
  | .drawer => { d with drawer := v }
  | .freezer => { d with freezer := v }

/-! ### Air Path Unit (04 sections 4.2, 4.3) -/

inductive Mode | hold | run | service
  deriving DecidableEq, Repr

/-- The damper (section 4.3): CLOSED, OPEN, OPENING or CLOSING (by its end) with its attempt and check, FAILED. -/
inductive Damper
  | resting (e : DamperEnd)
  | travelling (e : DamperEnd) (attempt : Attempt) (left : Nat)
  | failed
  deriving DecidableEq, Repr

/-- The Air Path Unit: outputs, run-on, and the inputs it was last handed. A true fan is ON; `fresh` … `freezerDoor` are
the door states as open (true) or CLOSED; forces are absent outside SERVICE. -/
structure AirPath where
  freshFan : Bool
  freezerFan : Bool
  condenserFan : Bool
  runOn : Option Time
  permit : Bool
  heaterOn : Bool
  freshZone : ZoneState
  drawerZone : ZoneState
  freezerZone : ZoneState
  leftDoor : DoorState
  rightDoor : DoorState
  drawerDoor : DoorState
  freezerDoor : DoorState
  comp : CompState
  mode : Mode
  freshForce : Option Bool
  freezerForce : Option Bool
  condenserForce : Option Bool
  damperForce : Option DamperEnd
  damper : Damper
  target : DamperEnd
  deriving DecidableEq, Repr

/-! ### Defrost Unit (05) -/

inductive Phase | idle | due | prechill | heat | drip | recover
  deriving DecidableEq, Repr

inductive Heater | off | claimed | on
  deriving DecidableEq, Repr

inductive HeaterUse | defrost | service
  deriving DecidableEq, Repr

inductive HeatCause | probe | time | overtemp | abort
  deriving DecidableEq, Repr

/-- The Defrost Unit (section 5.1). `served` says that DEFROST is a holder of an ACTIVE grant, as the unit knows it from a
grant event until the next return (R112); the last four fields are the inputs it is handed. -/
structure Defrost where
  phase : Phase
  credit : Nat
  current : Nat
  next : Nat
  terminate : Temp
  deferral : Nat
  prechill : Nat
  waitLimit : Option Time
  hold : Bool
  heater : Heater
  use : Option HeaterUse
  heatClock : Option Nat
  sampleTimer : Option Time
  dripTimer : Option Time
  recoveryLimit : Option Time
  probeFaulted : Bool
  probeLost : Bool
  lastDuration : Option Nat
  lastCause : Option HeatCause
  interrupted : Bool
  served : Bool
  mode : Mode
  freezerClass : Cls
  freezerDoor : DoorState
  lockout : Bool
  deriving DecidableEq, Repr

/-! ### Load Budget Unit (06) -/

inductive Claim | none_ | waiting | granted
  deriving DecidableEq, Repr

inductive MullionMode | auto | on | off
  deriving DecidableEq, Repr

inductive Mullion | off | on | shed
  deriving DecidableEq, Repr

structure Budget where
  inForce : Nat
  pending : Option Nat
  level : Nat
  heater : Claim
  mullionMode : MullionMode
  ambientWish : Bool
  ambientPos : Option Band
  ambientFaulted : Bool
  force : Option Bool
  mullion : Mullion
  cap : Nat
  mode : Mode
  deriving DecidableEq, Repr

/-! ### Fault Unit (07) -/

/-- The nine codes, in the order of section 7.1 (R206). -/
inductive FaultCode
  | dischargeHigh | defrostOvertemp | compStart | compTrip | compLockout | valveTravel | damperTravel | sensor
  | defrostTimeout
  deriving DecidableEq, Repr

inductive FaultObject
  | compressor | valve | damper | heater
  | channel (c : Chan)
  deriving DecidableEq, Repr

/-- A fault time (R151): the reset count and the uptime. -/
structure FaultTime where
  count : Nat
  at_ : Time
  deriving DecidableEq, Repr

/-- An active fault table entry (section 7.3). `detail` is the sensor state at the last declaration (SENSOR only);
`active` is ACTIVE (true) or LATCHED. -/
structure FaultEntry where
  code : FaultCode
  object : FaultObject
  detail : Option Sensor
  first : FaultTime
  last : FaultTime
  occurrences : Nat
  active : Bool
  deriving DecidableEq, Repr

/-- The capture record (section 7.4) when it is not empty; its priority is the code's. -/
structure Capture where
  code : FaultCode
  object : FaultObject
  detail : Option Sensor
  time : FaultTime
  more : Bool
  deriving DecidableEq, Repr

structure FaultUnit where
  table : List FaultEntry
  capture : Option Capture
  resetCount : Nat
  deriving DecidableEq, Repr

/-! ### Notice Unit (11) -/

inductive Queue | urgent | routine
  deriving DecidableEq, Repr

/-- The keys (section 11.1). -/
inductive NoticeKey
  | status
  | zone (z : ZoneId)
  | door (d : DoorId)
  | defrost
  | measure (tag : Byte)
  | fault
  | budget
  deriving DecidableEq, Repr

structure Notice where
  key : NoticeKey
  payload : List Byte
  deriving DecidableEq, Repr

/-- The class-to-queue map (R210); FAULT is fixed to URGENT. -/
structure NoticeMap where
  status : Queue
  zone : Queue
  door : Queue
  defrost : Queue
  measure : Queue
  budget : Queue
  deriving DecidableEq, Repr

/-- The Notice Unit: its two queues and the notice settings (R208), with the status timer (absent while stopped). -/
structure NoticeUnit where
  urgent : List Notice
  routine : List Notice
  map : NoticeMap
  quiet : Bool
  urgentWeight : Nat
  routineWeight : Nat
  spacing : Nat
  period : Nat
  statusLeft : Option Nat
  deriving DecidableEq, Repr

/-! ### Serial Link Interface (09) -/

/-- A frame without its start marker and check: kind, tag, payload (09 section 9.3). -/
structure Frame where
  kind : Byte
  tag : Byte
  payload : List Byte
  deriving DecidableEq, Repr

inductive RxPhase | hunt | header | body | check
  deriving DecidableEq, Repr

/-- The receiver (section 9.4): its state, the bytes of the partial frame after the start marker in order, the payload
bytes still to come, and the milliseconds since its last character (R188). -/
structure Receiver where
  phase : RxPhase
  bytes : List Byte
  toCome : Nat
  gap : Nat
  deriving DecidableEq, Repr

/-- The request in the execution place: READY, or ANSWERED (R191). -/
structure Placed where
  frame : Frame
  answered : Bool
  deriving DecidableEq, Repr

/-- What a reply answers: the request in the execution place, a frame not admitted (BUSY), or a RESET (R176). -/
inductive ReplyKind | answer | busy | reset
  deriving DecidableEq, Repr

structure Reply where
  frame : Frame
  kind : ReplyKind
  deriving DecidableEq, Repr

/-- What the frame in transmission is. -/
inductive Sent
  | reply (k : ReplyKind)
  | notice (key : NoticeKey) (queue : Queue)
  deriving DecidableEq, Repr

/-- The frame in transmission, with its remaining nominal line time (log 12). -/
structure Sending where
  frame : Frame
  what : Sent
  left : Nat
  deriving DecidableEq, Repr

/-- The Serial Link Interface. `spacing` is present while the ROUTINE spacing runs: the milliseconds since the last byte of
the last ROUTINE notice (R194). `resetTaken` says that a RESET has been executed (R176). `boundary` says that a frame
boundary of the idle transmitter has come in the present event and its choice is still to be made (R192, log 5). -/
structure Link where
  rx : Receiver
  place : Option Placed
  waiting : List Frame
  replies : List Reply
  tx : Option Sending
  turn : Queue
  turnLeft : Nat
  spacing : Option Nat
  resetTaken : Bool
  boundary : Bool
  deriving DecidableEq, Repr

/-! ### Mode Control (08) and the pins -/

inductive ResetCause | powerOn | commanded
  deriving DecidableEq, Repr

structure Control where
  mode : Mode
  selfStart : Option Nat
  serviceIdle : Option Nat
  resetCause : ResetCause
  deriving DecidableEq, Repr

/-- The input pins that the rules read, besides the door inputs (in the door records): what the valve's end switch and the
damper's position switch show (none: neither end), and the run feedback. -/
structure Pins where
  endSwitch : Option Evap
  damperSwitch : Option DamperEnd
  feedback : Bool
  deriving DecidableEq, Repr

/-- The state of the part. `ms` counts the milliseconds within the present second; `free` is the model's own index of the
next free value; `pending` holds the waiting commands, first in first out. -/
structure State where
  uptime : Time
  ms : Nat
  ctl : Control
  zones : Zones
  arb : Arbiter
  sched : Scheduler
  doors : Doors
  air : AirPath
  defrost : Defrost
  budget : Budget
  fault : FaultUnit
  notice : NoticeUnit
  link : Link
  pins : Pins
  free : Nat
  pending : List Instr
  deriving DecidableEq, Repr

/-- No command stops the part with a fault: the manual's faults are records of the Fault Unit (07). -/
inductive Fault
  deriving DecidableEq, Repr

/-- The refusals. No meaning of this model refuses; the one constructor is the host's fixed one. -/
inductive Refusal
  /-- A command with no meaning yet; raised by `exec`'s arms only, and safe. No arm raises it. -/
  | notModelled (mnemonic : String)
  deriving DecidableEq, Repr

/-! ### One update function for each block -/

def State.onCtl (s : State) (f : Control → Control) : State := { s with ctl := f s.ctl }
def State.onZone (s : State) (z : ZoneId) (f : Zone → Zone) : State :=
  { s with zones := s.zones.set z (f (s.zones.get z)) }
def State.onArb (s : State) (f : Arbiter → Arbiter) : State := { s with arb := f s.arb }
def State.onComp (s : State) (f : Compressor → Compressor) : State :=
  { s with arb := { s.arb with comp := f s.arb.comp } }
def State.onSched (s : State) (f : Scheduler → Scheduler) : State := { s with sched := f s.sched }
def State.onChannel (s : State) (c : Chan) (f : Channel → Channel) : State :=
  { s with sched := { s.sched with ch := s.sched.ch.set c (f (s.sched.ch.get c)) } }
def State.onDoor (s : State) (d : DoorId) (f : Door → Door) : State :=
  { s with doors := s.doors.set d (f (s.doors.get d)) }
def State.onAir (s : State) (f : AirPath → AirPath) : State := { s with air := f s.air }
def State.onDefrost (s : State) (f : Defrost → Defrost) : State := { s with defrost := f s.defrost }
def State.onBudget (s : State) (f : Budget → Budget) : State := { s with budget := f s.budget }
def State.onFault (s : State) (f : FaultUnit → FaultUnit) : State := { s with fault := f s.fault }
def State.onNotice (s : State) (f : NoticeUnit → NoticeUnit) : State := { s with notice := f s.notice }
def State.onLink (s : State) (f : Link → Link) : State := { s with link := f s.link }
def State.onPins (s : State) (f : Pins → Pins) : State := { s with pins := f s.pins }

/-! ### Values after a power-on reset -/

/-- The setpoint default of a drawer profile (section 1.2). -/
def Profile.setpoint : Profile → Temp
  | .chill => 10
  | .cold => -15
  | .soft => -60

/-- A zone record after a reset (R4 and the settings tables of section 1.2). -/
def Zone.reset (z : ZoneId) : Zone :=
  let base : Zone :=
    { enabled := true, state := .paused, mode := .thermostat, cls := .normal, setpoint := 30, halfBand := 10
      normalLevel := 2, recoveryLevel := 4, onTime := 900, offTime := 2700, profile := none, postDefrost := false
      lastAir := none, lastBand := none, doorOpenSince := none, closeMark := none, held := false
      damperFaulted := false, enteredAt := 0, timer := none, checkDue := false }
  match z with
  | .fresh => base
  | .drawer => { base with setpoint := Profile.chill.setpoint, halfBand := 8, recoveryLevel := 3, onTime := 600
                           offTime := 3000, profile := some .chill }
  | .freezer => { base with setpoint := -180, halfBand := 15, normalLevel := 3, recoveryLevel := 5, onTime := 1800
                            offTime := 1800 }

/-- A zone's cut-in (R1). -/
def Zone.cutIn (z : Zone) : Temp := z.setpoint + z.halfBand

/-- A zone's cut-out (R1). -/
def Zone.cutOut (z : Zone) : Temp := z.setpoint - z.halfBand

/-- The boundaries that a channel's watcher hands after a reset (R61, R1, R58, R97, R131, R142). -/
def resetBounds : Chan → Temp × Temp
  | .freshAir => ((Zone.reset .fresh).cutOut, (Zone.reset .fresh).cutIn)
  | .freshEvap => (Config.tempMin, Config.freshEvapHigh)
  | .drawerAir => ((Zone.reset .drawer).cutOut, (Zone.reset .drawer).cutIn)
  | .freezerAir => ((Zone.reset .freezer).cutOut, (Zone.reset .freezer).cutIn)
  | .freezerEvap => (Config.tempMin, Config.coilHigh)
  | .ambient => (Config.ambientLow, Config.ambientHigh)
  | .discharge => (Config.dischargeLow, Config.dischargeHigh)
  | .aux => (Config.tempMin, Config.tempMax)

/-- A channel record after a reset, with its watcher's boundaries handed (R63, R67). -/
def Channel.reset (c : Chan) : Channel :=
  { period := Config.scanPeriod c, policy := .joint, offset := 0, low := (resetBounds c).1, high := (resetBounds c).2
    lastValue := none, lastRaw := none, sensor := none, band := none, substituted := false, lastSource := none
    lastTime := none, bad := 0, good := 0, faulted := false, overrun := false, substitute := none
    countdown := Config.scanPeriod c, scanFlag := Config.scanPeriod c != 0, injectFlag := false }

/-- The scheduler after a reset: channel 0, the lowest with its SCAN flag set, is being converted (R64, R67). -/
def Scheduler.reset : Scheduler :=
  { ch := { c0 := Channel.reset .freshAir, c1 := Channel.reset .freshEvap, c2 := Channel.reset .drawerAir
            c3 := Channel.reset .freezerAir, c4 := Channel.reset .freezerEvap, c5 := Channel.reset .ambient
            c6 := Channel.reset .discharge, c7 := Channel.reset .aux }
    conv := some { chan := .freshAir, source := .scan, tag := none, left := Config.conversionMs }
    queue := [], tags := [] }

/-- The valve as its end switch shows it at a reset (R58). -/
def Valve.reset : Option Evap → Valve
  | some e => .resting e
  | none => .moving .freeze .first Config.valveCheck

/-- The arbiter after a reset (R58, R57). -/
def Arbiter.reset (endSwitch : Option Evap) : Arbiter :=
  { list := [], grant := none
    comp := { state := .offLocked, level := 0, step := none, runStart := 0, minOffLeft := 360, startLeft := 0
              lockoutLeft := 0, failures := 0 }
    budgetCap := 5, dischargeCap := none, dischargePos := none, dischargeFaulted := false, dischargeHigh := false
    valve := Valve.reset endSwitch, hold := false, notFed := false
    timing := { minOff := 360, minOn := 120, minDwell := 300, maxWait := 1200, maxRun := 3600 }
    forcedLevel := none, forcedValve := none }

/-- A door record after a reset, its switch reading `input`: an open one starts its debounce window (R87). -/
def Door.reset (input : Bool) : Door :=
  { input := input, window := if input then some Config.debounceMs else none, state := .closed, openedAt := none
    delivered := 0, lastOpen := none }

/-- The Door Monitor after a reset (R87, R89). -/
def Doors.reset (left right drawer freezer : Bool) : Doors :=
  { left := Door.reset left, right := Door.reset right, drawer := Door.reset drawer, freezer := Door.reset freezer
    ajarTime := 120 }

/-- The damper as its position switch shows it at a reset (R105). -/
def Damper.reset : Option DamperEnd → Damper
  | some .closed => .resting .closed
  | _ => .travelling .closed .first Config.damperCheck

/-- The Air Path Unit after a reset (R93, R105). -/
def AirPath.reset (switch : Option DamperEnd) : AirPath :=
  { freshFan := false, freezerFan := false, condenserFan := false, runOn := none, permit := true, heaterOn := false
    freshZone := .paused, drawerZone := .paused, freezerZone := .paused, leftDoor := .closed, rightDoor := .closed
    drawerDoor := .closed, freezerDoor := .closed, comp := .offLocked, mode := .hold, freshForce := none
    freezerForce := none, condenserForce := none, damperForce := none, damper := Damper.reset switch
    target := .closed }

/-- The Defrost Unit after a power-on reset (R131). -/
def Defrost.reset : Defrost :=
  { phase := .idle, credit := 0, current := 8, next := 8, terminate := 80, deferral := 0, prechill := 0
    waitLimit := none, hold := false, heater := .off, use := none, heatClock := none, sampleTimer := none
    dripTimer := none, recoveryLimit := none, probeFaulted := false, probeLost := false, lastDuration := none
    lastCause := none, interrupted := false, served := false, mode := .hold, freezerClass := .normal
    freezerDoor := .closed, lockout := false }

/-- The Load Budget Unit after a reset (R150). -/
def Budget.reset : Budget :=
  { inForce := 28, pending := none, level := 0, heater := .none_, mullionMode := .auto, ambientWish := false
    ambientPos := none, ambientFaulted := false, force := none, mullion := .off, cap := 5, mode := .hold }

/-- The Fault Unit after a power-on reset (R167). -/
def FaultUnit.reset : FaultUnit := { table := [], capture := none, resetCount := 0 }

/-- The Notice Unit after a reset, before it posts its STATUS notice (R210, R208). -/
def NoticeUnit.reset : NoticeUnit :=
  { urgent := [], routine := []
    map := { status := .routine, zone := .routine, door := .routine, defrost := .routine, measure := .routine
             budget := .routine }
    quiet := false, urgentWeight := 4, routineWeight := 1, spacing := 100, period := 60, statusLeft := some 60 }

/-- The receiver in HUNT with no partial frame (R195). -/
def Receiver.hunting : Receiver := { phase := .hunt, bytes := [], toCome := 0, gap := 0 }

/-- The Serial Link Interface after a reset, before its first frame (R195). -/
def Link.reset : Link :=
  { rx := Receiver.hunting, place := none, waiting := [], replies := [], tx := none, turn := .urgent, turnLeft := 4
    spacing := none, resetTaken := false, boundary := false }

/-- Mode Control after a reset of the given cause (R169). -/
def Control.reset (cause : ResetCause) : Control :=
  { mode := .hold, selfStart := some Config.selfStart, serviceIdle := none, resetCause := cause }

/-- Every block at its power-on values, before the Notice Unit's STATUS notice: the doors' inputs and the pins are as they
stand (R175). -/
def State.base (left right drawer freezer : Bool) (pins : Pins) : State :=
  { uptime := 0, ms := 0, ctl := Control.reset .powerOn
    zones := { fresh := Zone.reset .fresh, drawer := Zone.reset .drawer, freezer := Zone.reset .freezer }
    arb := Arbiter.reset pins.endSwitch, sched := Scheduler.reset, doors := Doors.reset left right drawer freezer
    air := AirPath.reset pins.damperSwitch, defrost := Defrost.reset, budget := Budget.reset, fault := FaultUnit.reset
    notice := NoticeUnit.reset, link := Link.reset, pins := pins, free := 0, pending := [] }

/-- The pins at the first start (log 3). -/
def Pins.first : Pins := { endSwitch := some .fresh, damperSwitch := some .closed, feedback := false }

/-- The STATUS notice with cause RESET after a power-on reset that finds the valve AT_FRESH (section 11.1): HOLD,
POWER_ON, uptime 0, OFF_LOCKED, level 0, AT_FRESH, no grant. -/
def resetStatus : List Byte := [0, 0, 0, 0, 0, 0, 0, 0, 0, 0, 0xFF]

/-- The machine right after the first power-on reset: every block at its values, doors closed, and the STATUS notice of
R210 chosen by the idle transmitter (R192, R193: the URGENT turn, holding nothing, passes to ROUTINE). -/
def State.reset : State :=
  { State.base false false false false Pins.first with
    link := { Link.reset with
      tx := some { frame := { kind := 0x40, tag := 0, payload := resetStatus }
                   what := .notice .status .routine, left := 17 * Config.unitsPerByte }
      turn := .routine, turnLeft := 0 } }

end Sys2Proof.Machine
end

