-- ==== Sys2Proof/Machine/Operands.lean ====
section
/-! DEFINITION. The values of payloads (R198): how each is encoded and read, the codes of named values, the carried set
(R199), the status codes, and the check of a frame (R186). -/

namespace Sys2Proof.Machine

/-! ### Bytes, high byte first (R198) -/

def hiByte (v : Half) : Byte := (v >>> 8).setWidth 8
def loByte (v : Half) : Byte := v.setWidth 8

/-- The two-byte field whose bytes are `h` and `l`. -/
def half (h l : Byte) : Half := (h.setWidth 16 <<< 8) ||| l.setWidth 16

/-- Two bytes, high byte first. -/
def be16 (v : Half) : List Byte := [hiByte v, loByte v]

/-- Four bytes, high byte first. -/
def be32 (v : Time) : List Byte :=
  [(v >>> 24).setWidth 8, (v >>> 16).setWidth 8, (v >>> 8).setWidth 8, v.setWidth 8]

def absent8 : Byte := 0xFF
def absent16 : Half := 0xFFFF
def absent32 : Time := 0xFFFFFFFF

/-- What stands for an absent temperature (R198). -/
def absentTemp : Half := 0x8000

def encTemp (t : Temp) : List Byte := be16 (BitVec.ofInt 16 t)

def encTempOpt : Option Temp → List Byte
  | some t => encTemp t
  | none => be16 absentTemp

def encTimeOpt : Option Time → List Byte
  | some t => be32 t
  | none => be32 absent32

/-- A number in one byte (level, count, interval, budget, units). -/
def encNum (n : Nat) : Byte := BitVec.ofNat 8 n

def encNumOpt : Option Nat → Byte
  | some n => encNum n
  | none => absent8

/-- A count of seconds in two bytes. -/
def encSec (n : Nat) : List Byte := be16 (BitVec.ofNat 16 n)

def encSecOpt : Option Nat → List Byte
  | some n => encSec n
  | none => be16 absent16

/-- A count of seconds in four bytes (credit, target, time run). -/
def encLong (n : Nat) : List Byte := be32 (BitVec.ofNat 32 n)

def encBool (b : Bool) : Byte := if b then 1 else 0

/-- An optional named value. -/
def encOpt {α : Type} (code : α → Byte) : Option α → Byte
  | some a => code a
  | none => absent8

/-- The temperature that a two-byte field spells. -/
def decTemp (v : Half) : Temp := v.toInt

/-! ### Codes of named values (R198: the position in the list of values where the field is specified) -/

def zoneCode : ZoneId → Byte
  | .fresh => 0
  | .drawer => 1
  | .freezer => 2

def doorCode : DoorId → Byte
  | .left => 0
  | .right => 1
  | .drawer => 2
  | .freezer => 3

def requesterCode : Requester → Byte
  | .fresh => 0
  | .drawer => 1
  | .freezer => 2
  | .defrost => 3

def evapCode : Evap → Byte
  | .fresh => 0
  | .freeze => 1

def clsCode : Cls → Byte
  | .normal => 0
  | .prechill => 1
  | .recovery => 2

def bandCode : Band → Byte
  | .below => 0
  | .inside => 1
  | .above => 2

def chanNum : Chan → Nat
  | .freshAir => 0
  | .freshEvap => 1
  | .drawerAir => 2
  | .freezerAir => 3
  | .freezerEvap => 4
  | .ambient => 5
  | .discharge => 6
  | .aux => 7

def chanCode (c : Chan) : Byte := encNum (chanNum c)

def zoneStateCode : ZoneState → Byte
  | .disabled => 0
  | .paused => 1
  | .idle => 2
  | .calling => 3
  | .cooling => 4
  | .door => 5
  | .held => 6
  | .fault => 7

def controlModeCode : ControlMode → Byte
  | .thermostat => 0
  | .timed => 1

def profileCode : Profile → Byte
  | .chill => 0
  | .cold => 1
  | .soft => 2

def zoneCauseCode : ZoneCause → Byte
  | .call => 0
  | .satisfied => 1
  | .grant => 2
  | .return_ => 3
  | .doorOpen => 4
  | .doorClosed => 5
  | .onTime => 6
  | .hold => 7
  | .holdEnd => 8
  | .damper => 9
  | .disable => 10
  | .enable => 11
  | .run => 12
  | .pause => 13

def phaseKindCode : PhaseKind → Byte
  | .on => 0
  | .off => 1

def compStateCode : CompState → Byte
  | .offLocked => 0
  | .offReady => 1
  | .starting => 2
  | .running => 3
  | .runout => 4
  | .lockout => 5

def valveCode : Valve → Byte
  | .resting .fresh => 0
  | .resting .freeze => 1
  | .moving _ _ _ => 2
  | .stuck _ => 3

def attemptCode : Attempt → Byte
  | .first => 1
  | .second => 2
  | .recovery => 3

def grantPhaseCode : GrantPhase → Byte
  | .preparing => 0
  | .active => 1

def modeCode : Mode → Byte
  | .hold => 0
  | .run => 1
  | .service => 2

def resetCauseCode : ResetCause → Byte
  | .powerOn => 0
  | .commanded => 1

def doorStateCode : DoorState → Byte
  | .closed => 0
  | .opened => 1
  | .ajar => 2

def damperEndCode : DamperEnd → Byte
  | .closed => 0
  | .opened => 1

/-- The damper's states (section 4.3): CLOSED, OPENING, OPEN, CLOSING, FAILED. -/
def damperCode : Damper → Byte
  | .resting .closed => 0
  | .travelling .opened _ _ => 1
  | .resting .opened => 2
  | .travelling .closed _ _ => 3
  | .failed => 4

def sensorCode : Sensor → Byte
  | .ok => 0
  | .opened => 1
  | .short => 2

/-- A fault's detail: 0 OPEN, 1 SHORT (R206). -/
def detailCode : Sensor → Byte
  | .short => 1
  | _ => 0

def sourceCode : Source → Byte
  | .scan => 0
  | .link => 1
  | .defrost => 2
  | .inject => 3

def policyCode : ClearPolicy → Byte
  | .single => 0
  | .joint => 1

def phaseCode : Phase → Byte
  | .idle => 0
  | .due => 1
  | .prechill => 2
  | .heat => 3
  | .drip => 4
  | .recover => 5

def heaterCode : Heater → Byte
  | .off => 0
  | .claimed => 1
  | .on => 2

def heaterUseCode : HeaterUse → Byte
  | .defrost => 0
  | .service => 1

def heatCauseCode : HeatCause → Byte
  | .probe => 0
  | .time => 1
  | .overtemp => 2
  | .abort => 3

def claimCode : Claim → Byte
  | .none_ => 0
  | .waiting => 1
  | .granted => 2

def mullionModeCode : MullionMode → Byte
  | .auto => 0
  | .on => 1
  | .off => 2

def mullionCode : Mullion → Byte
  | .off => 0
  | .on => 1
  | .shed => 2

/-- The mullion force as GET-BUDGET shows it: 0 ON, 1 OFF (R205). -/
def mullionForceCode (on : Bool) : Byte := if on then 0 else 1

def faultCode : FaultCode → Byte
  | .dischargeHigh => 0
  | .defrostOvertemp => 1
  | .compStart => 2
  | .compTrip => 3
  | .compLockout => 4
  | .valveTravel => 5
  | .damperTravel => 6
  | .sensor => 7
  | .defrostTimeout => 8

/-- The priority of a fault code, 1 the highest (section 7.1). -/
def priority : FaultCode → Nat
  | .dischargeHigh => 1
  | .defrostOvertemp => 1
  | .compStart => 2
  | .compTrip => 2
  | .compLockout => 2
  | .valveTravel => 3
  | .damperTravel => 3
  | .sensor => 4
  | .defrostTimeout => 5

def faultObjectCode : FaultObject → Byte
  | .channel c => chanCode c
  | .compressor => 0x10
  | .valve => 0x11
  | .damper => 0x12
  | .heater => 0x13

def encFaultTime (t : FaultTime) : List Byte := encNum t.count :: be32 t.at_

/-! ### Reading named values: a byte beyond the last position is out of range (R198) -/

def zoneOf (b : Byte) : Option ZoneId :=
  match b.toNat with
  | 0 => some .fresh
  | 1 => some .drawer
  | 2 => some .freezer
  | _ => none

def chanOf (b : Byte) : Option Chan :=
  match b.toNat with
  | 0 => some .freshAir
  | 1 => some .freshEvap
  | 2 => some .drawerAir
  | 3 => some .freezerAir
  | 4 => some .freezerEvap
  | 5 => some .ambient
  | 6 => some .discharge
  | 7 => some .aux
  | _ => none

def profileOf (b : Byte) : Option Profile :=
  match b.toNat with
  | 0 => some .chill
  | 1 => some .cold
  | 2 => some .soft
  | _ => none

def policyOf (b : Byte) : Option ClearPolicy :=
  match b.toNat with
  | 0 => some .single
  | 1 => some .joint
  | _ => none

def mullionModeOf (b : Byte) : Option MullionMode :=
  match b.toNat with
  | 0 => some .auto
  | 1 => some .on
  | 2 => some .off
  | _ => none

def boolOf (b : Byte) : Option Bool :=
  match b.toNat with
  | 0 => some false
  | 1 => some true
  | _ => none

def queueOf (b : Byte) : Option Queue :=
  match b.toNat with
  | 0 => some .urgent
  | 1 => some .routine
  | _ => none

def evapOf (b : Byte) : Option Evap :=
  match b.toNat with
  | 0 => some .fresh
  | 1 => some .freeze
  | _ => none

def damperEndOf (b : Byte) : Option DamperEnd :=
  match b.toNat with
  | 0 => some .closed
  | 1 => some .opened
  | _ => none

def faultObjectOf (b : Byte) : Option FaultObject :=
  match b.toNat with
  | 0x10 => some .compressor
  | 0x11 => some .valve
  | 0x12 => some .damper
  | 0x13 => some .heater
  | _ => (chanOf b).map .channel

/-! ### The carried set (R199) -/

/-- Whether the setting at position `i` is carried. -/
def carries (set : Byte) (i : Nat) : Bool := set.getLsbD i

/-- Whether the carried set names only positions below `n`. -/
def carriesOnly (set : Byte) (n : Nat) : Bool := set.toNat < 2 ^ n

/-- A setting that is not carried is not checked. -/
def checkCarried (set : Byte) (i : Nat) (ok : Bool) : Bool := !carries set i || ok

def inRange (n lo hi : Nat) : Bool := lo ≤ n && n ≤ hi

def tempInRange (t lo hi : Temp) : Bool := lo ≤ t && t ≤ hi

/-! ### Status codes (section 10.1) -/

inductive Status
  | ok | accepted | busy | badKind | badLength | badValue | wrongState | queueFull | denied | tagInUse
  deriving DecidableEq, Repr

def statusCode : Status → Byte
  | .ok => 0
  | .accepted => 1
  | .busy => 2
  | .badKind => 3
  | .badLength => 4
  | .badValue => 5
  | .wrongState => 6
  | .queueFull => 7
  | .denied => 8
  | .tagInUse => 9

/-- The interlocks, in the order of their codes (R209). -/
inductive Interlock
  | minOff | lockout | stuck | budget | door | valveSpeed | heatComp | heatTemp
  deriving DecidableEq, Repr

def interlockCode : Interlock → Byte
  | .minOff => 0
  | .lockout => 1
  | .stuck => 2
  | .budget => 3
  | .door => 4
  | .valveSpeed => 5
  | .heatComp => 6
  | .heatTemp => 7

/-! ### The frame on the line (09 section 9.3) and its check (R186) -/

/-- One shift of the check register. -/
def crcShift (r : Half) : Half := if r.msb then (r <<< 1) ^^^ 0x1021 else r <<< 1

/-- One covered byte taken into the check register. -/
def crcByte (r : Half) (b : Byte) : Half :=
  let x := r ^^^ (b.setWidth 16 <<< 8)
  crcShift (crcShift (crcShift (crcShift (crcShift (crcShift (crcShift (crcShift x)))))))

/-- The check over a list of covered bytes. -/
def crc (bs : List Byte) : Half := bs.foldl crcByte 0xFFFF

/-- The bytes that the check of a frame covers: length, kind, tag and payload. -/
def Frame.covered (f : Frame) : List Byte := encNum f.payload.length :: f.kind :: f.tag :: f.payload

/-- The whole frame as it stands on the line. -/
def Frame.wire (f : Frame) : List Byte := 0xA5 :: f.covered ++ be16 (crc f.covered)

/-- The kind of the reply to a request of kind `k` (R196). -/
def replyKind (k : Byte) : Byte := if k < 0x80 then k + 0x80 else k

/-- A frame's line time in units (log 12). -/
def Frame.lineTime (f : Frame) : Nat := Config.unitsPerByte * (6 + f.payload.length)

end Sys2Proof.Machine
end

