-- ==== Sys2Proof/Machine/Flags.lean ====
section
/-! DEFINITION. What is computed from the state without changing it: times, the judgement of a result, the load sums, the
conditions of the fans and the damper, the levels, and the outputs of the part. -/

namespace Sys2Proof.Machine

/-! ### Time (00 "Time", log 9) -/

/-- The seconds from `t` to `now`. -/
def elapsed (now t : Time) : Nat := (now - t).toNat

/-- Whether the uptime `now` has reached `limit`. -/
def reached (now limit : Time) : Bool := decide ((now - limit).toNat < 2 ^ 31)

/-- The uptime `n` seconds after `now`. -/
def later (now : Time) (n : Nat) : Time := now + BitVec.ofNat 32 n

/-! ### Fixed relations of names -/

/-- The air channel of a zone (01). -/
def zoneChan : ZoneId → Chan
  | .fresh => .freshAir
  | .drawer => .drawerAir
  | .freezer => .freezerAir

def zoneRequester : ZoneId → Requester
  | .fresh => .fresh
  | .drawer => .drawer
  | .freezer => .freezer

/-- The evaporator that a requester needs (02). -/
def requesterEvap : Requester → Evap
  | .fresh => .fresh
  | _ => .freeze

/-- The zone that watches a door (section 4.1). -/
def doorZone : DoorId → ZoneId
  | .left => .fresh
  | .right => .fresh
  | .drawer => .drawer
  | .freezer => .freezer

/-- Whether a door's open seconds go to the Defrost Unit (R91). -/
def doorCounted : DoorId → Bool
  | .drawer => true
  | .freezer => true
  | _ => false

def otherEvap : Evap → Evap
  | .fresh => .freeze
  | .freeze => .fresh

def clsRank : Cls → Nat
  | .normal => 0
  | .prechill => 1
  | .recovery => 2

/-- A class raised to another when that one is higher (R26). -/
def raiseCls (old new : Cls) : Cls := if clsRank old < clsRank new then new else old

def DoorState.isOpen : DoorState → Bool
  | .closed => false
  | _ => true

/-- Whether a door's switch has settled on open: its debounced level (R86). -/
def Door.level (d : Door) : Bool := d.state.isOpen

/-- Whether a compressor state turns or is to turn: STARTING, RUNNING, RUNOUT (section 2.4). -/
def CompState.turning : CompState → Bool
  | .starting => true
  | .running => true
  | .runout => true
  | _ => false

def CompState.running_ : CompState → Bool
  | .running => true
  | .runout => true
  | _ => false

/-- Whether any door of the zone's compartment is open. -/
def zoneDoorOpen (d : Doors) : ZoneId → Bool
  | .fresh => d.left.state.isOpen || d.right.state.isOpen
  | .drawer => d.drawer.state.isOpen
  | .freezer => d.freezer.state.isOpen

/-! ### Judging a result (R75, R76, R80) -/

/-- The sensor state of a raw code (R75). -/
def classify (code : BitVec 12) : Sensor :=
  if code.toNat ≤ 40 then .short else if 4055 ≤ code.toNat then .opened else .ok

/-- Linear interpolation between two breakpoints, half-way rounded toward the warmer tenth (R76). -/
def interpolate (c1 c2 : Nat) (t1 t2 : Temp) (code : Nat) : Temp :=
  t1 + (2 * (t2 - t1) * ((c1 : Int) - code) + ((c1 : Int) - c2)) / (2 * ((c1 : Int) - c2))

/-- The temperature of a code by a list of breakpoints with falling codes (R76). -/
def curveTemp (code : Nat) : List (Nat × Temp) → Temp
  | (c1, t1) :: (c2, t2) :: rest =>
    if c1 ≤ code then t1
    else if c2 ≤ code then interpolate c1 c2 t1 t2 code
    else curveTemp code ((c2, t2) :: rest)
  | [(_, t)] => t
  | [] => 0

def clampTemp (t : Temp) : Temp :=
  if t < Config.tempMin then Config.tempMin else if Config.tempMax < t then Config.tempMax else t

/-- The value of an OK code with a channel's offset (R76). -/
def measuredTemp (code : BitVec 12) (offset : Temp) : Temp := clampTemp (curveTemp code.toNat Config.curve + offset)

/-- The band position of a value (R80). -/
def bandOf (v low high : Temp) : Band := if v < low then .below else if high < v then .above else .inside

/-! ### Zones -/

/-- The speed wish of a zone for a class (section 1.4). -/
def Zone.wish (z : Zone) : Cls → Nat
  | .recovery => z.recoveryLevel
  | _ => z.normalLevel

/-- The class and wish with which a zone posts again for a change of level: NORMAL in TIMED mode (R3, R19). -/
def Zone.postClass (z : Zone) : Cls :=
  match z.mode with
  | .timed => .normal
  | .thermostat => z.cls

/-- Whether the zone's last air result calls for the RECOVERY class at the pull-down check (R8). -/
def Zone.warm (z : Zone) : Bool :=
  match z.lastAir with
  | some t => decide (z.cutIn + Config.pullDown < t)
  | none => false

/-! ### The load (R133, R134, R141) -/

/-- The accounted sum (R133). -/
def Budget.sum (b : Budget) : Nat :=
  Config.levelWeight b.level + (if b.heater = .granted then Config.heaterWeight else 0)
    + (if b.mullion = .on then Config.mullionWeight else 0)

/-- The available units (R134). -/
def Budget.available (b : Budget) : Nat := (b.pending.getD b.inForce) - Config.reserve

/-- The sum less 2 for an ON mullion heater. -/
def Budget.sumBare (b : Budget) : Nat :=
  Config.levelWeight b.level + (if b.heater = .granted then Config.heaterWeight else 0)

/-- Whether a claim of a compressor level fits with the mullion heater counted as sheddable (R134). -/
def Budget.levelFits (b : Budget) (l : Nat) : Bool :=
  Config.levelWeight l + (if b.heater = .granted then Config.heaterWeight else 0) ≤ b.available

/-- Whether a claim of a compressor level fits as the accounted sum stands (R136). -/
def Budget.levelFitsNow (b : Budget) (l : Nat) : Bool :=
  Config.levelWeight l + (if b.heater = .granted then Config.heaterWeight else 0)
    + (if b.mullion = .on then Config.mullionWeight else 0) ≤ b.available

/-- Whether a defrost heater claim fits with the mullion heater counted as sheddable (R134). -/
def Budget.heaterFits (b : Budget) : Bool := b.sumBare + Config.heaterWeight ≤ b.available

/-- Whether a defrost heater claim fits as the accounted sum stands (R138). -/
def Budget.heaterFitsNow (b : Budget) : Bool := b.sum + Config.heaterWeight ≤ b.available

/-- Whether a mullion claim fits (R134). -/
def Budget.mullionFits (b : Budget) : Bool := b.sum + Config.mullionWeight ≤ b.available

/-- Whether a level lies within the available units beside the heater, WAITING or GRANTED (R134). -/
def Budget.capFits (b : Budget) (l : Nat) : Bool :=
  Config.levelWeight l + (if b.heater = .none_ then 0 else Config.heaterWeight) ≤ b.available

/-- The cap: the highest level from 1 to 5 that fits (R134, where it is never below 1). -/
def Budget.capOf (b : Budget) : Nat :=
  if b.capFits 5 then 5 else if b.capFits 4 then 4 else if b.capFits 3 then 3 else if b.capFits 2 then 2 else 1

/-- Whether the mullion heater is wished (R141). -/
def Budget.wished (b : Budget) : Bool :=
  match b.mode with
  | .hold => false
  | .service => b.force == some true
  | .run =>
    match b.mullionMode with
    | .auto => b.ambientWish
    | .on => true
    | .off => false

/-- The fields whose change a BUDGET notice reports (R149). -/
def Budget.reported (b : Budget) : Nat × Option Nat × Nat × Claim × MullionMode × Mullion :=
  (b.inForce, b.pending, b.cap, b.heater, b.mullionMode, b.mullion)

/-! ### Air paths (R94 to R100, R107) -/

/-- When the fresh fan is ON (R95, R107). -/
def AirPath.freshOn (a : AirPath) : Bool :=
  !a.leftDoor.isOpen && !a.rightDoor.isOpen &&
    (match a.mode with
     | .run => a.freshZone == .cooling || a.runOn.isSome
     | .service => a.freshForce == some true
     | .hold => false)

/-- When the freezer fan is ON (R98, R107). -/
def AirPath.freezerOn (a : AirPath) : Bool :=
  !a.freezerDoor.isOpen && a.permit && !a.heaterOn &&
    (match a.mode with
     | .run => a.freezerZone == .cooling || a.drawerZone == .cooling
     | .service => a.freezerForce == some true
     | .hold => false)

/-- When the condenser fan is ON (R99). -/
def AirPath.condenserOn (a : AirPath) : Bool :=
  a.comp.turning || (a.mode == .service && a.condenserForce == some true)

/-- The damper target (R100, R107). -/
def AirPath.targetOf (a : AirPath) : DamperEnd :=
  if !a.drawerDoor.isOpen &&
      (match a.mode with
       | .service => a.damperForce == some .opened
       | _ => a.drawerZone == .cooling)
  then .opened else .closed

/-! ### The arbiter -/

/-- The evaporator at which the valve is confirmed. -/
def Valve.at : Valve → Option Evap
  | .resting e => some e
  | _ => none

def Valve.isMoving : Valve → Bool
  | .moving _ _ _ => true
  | _ => false

def Valve.isStuck : Valve → Bool
  | .stuck _ => true
  | _ => false

/-- Whether the valve is at an evaporator or moving toward it. -/
def Valve.toward (v : Valve) (e : Evap) : Bool :=
  match v with
  | .resting x => x == e
  | .moving x _ _ => x == e
  | .stuck _ => false

/-- Whether the compressor feeds FREEZE (section 2.4). -/
def Arbiter.feedsFreeze (a : Arbiter) : Bool := a.comp.state.turning && a.valve.toward .freeze

/-- The highest speed wish of a list of members (R31). -/
def topWish (ms : List Member) : Nat := ms.foldl (fun n m => max n m.wish) 0

/-- The members that the target level counts: the holders while ACTIVE, the selected members while PREPARING (R31). -/
def Grant.counted (g : Grant) : List Member :=
  match g.phase with
  | .active => g.holders
  | .preparing => g.selected

/-- The target level (R31). -/
def Grant.target (g : Grant) : Nat := topWish g.counted

/-- Whether an entry is eligible (R29). -/
def Arbiter.eligible (a : Arbiter) (e : Entry) : Bool :=
  !(a.hold && e.evap == .freeze) && !a.valve.isStuck && a.comp.state != .lockout

/-- The time that the compressor has run (R37). -/
def timeRun (now : Time) (c : Compressor) : Nat := elapsed now c.runStart

/-! ### Defrost -/

/-- The target credit (R108). -/
def Defrost.target (d : Defrost) : Nat := d.current * 3600

/-- The start conditions of a DUE defrost (R110). -/
def Defrost.startOk (d : Defrost) : Bool :=
  d.mode == .run && d.freezerClass == .normal && !d.freezerDoor.isOpen && !d.lockout

/-- The FREEZER_EVAP boundaries of a phase (section 5.1). -/
def Defrost.bounds (d : Defrost) : Temp × Temp :=
  match d.phase with
  | .heat => (d.terminate, Config.coilHigh)
  | .drip => (d.terminate, Config.coilHigh)
  | .recover => (Config.coilRecover, Config.coilHigh)
  | _ => (Config.tempMin, Config.coilHigh)

/-- The next interval at the end of HEAT (R121). -/
def nextInterval (cause : HeatCause) (duration current next : Nat) : Nat :=
  match cause with
  | .abort => next
  | .probe => if duration < 720 then min (current + 4) 96 else if 1500 < duration then max (current - 4) 4 else current
  | .time => max (current - 4) 4
  | .overtemp => if 1500 < duration then max (current - 4) 4 else current

/-! ### The outputs of the part (00 "The part in its appliance") -/

/-- The speed line: off, or the level it is set to (section 2.4, R41). -/
def State.speedLine (s : State) : Nat :=
  match s.arb.comp.state with
  | .offLocked => 0
  | .offReady => 0
  | .lockout => 0
  | .starting => 1
  | _ => match s.arb.comp.step with
    | some st => st.goal
    | none => s.arb.comp.level

/-- The valve drive: the target while MOVING, else not driven (R50, R52). -/
def State.valveDrive (s : State) : Option Evap :=
  match s.arb.valve with
  | .moving e _ _ => some e
  | _ => none

/-- The damper drive: the end travelled to, else not driven (R101, R102). -/
def State.damperDrive (s : State) : Option DamperEnd :=
  match s.air.damper with
  | .travelling e _ _ => some e
  | _ => none

/-- The defrost heater output (R116). -/
def State.heaterOutput (s : State) : Bool := s.defrost.heater == .on

/-- The mullion heater output (R143). -/
def State.mullionOutput (s : State) : Bool := s.budget.mullion == .on

/-- The bytes of the frame on TXD; none while the line is at mark (R192). -/
def State.txd (s : State) : Option (List Byte) := s.link.tx.map (fun t => t.frame.wire)

end Sys2Proof.Machine
end

