-- ==== Sys2Proof/Machine/Ops.lean ====
section
/-! DEFINITION. The operations that every block uses: posting a notice and the transmit choice (09, 11), the Fault Unit's
declarations and ends (07), and the content of each notice. -/

namespace Sys2Proof.Machine

/-- Advances the index of the next free value (log 1). -/
def takeFree (s : State) : State := { s with free := s.free + 1 }

/-! ### The transmit choice (R192, R193) -/

/-- The kind of a notice (section 11.1). -/
def NoticeKey.kind : NoticeKey → Byte
  | .status => 0x40
  | .zone _ => 0x41
  | .door _ => 0x42
  | .defrost => 0x43
  | .measure _ => 0x44
  | .fault => 0x45
  | .budget => 0x46

def Queue.other : Queue → Queue
  | .urgent => .routine
  | .routine => .urgent

/-- The notices of a queue. -/
def NoticeUnit.get (n : NoticeUnit) : Queue → List Notice
  | .urgent => n.urgent
  | .routine => n.routine

def NoticeUnit.put (n : NoticeUnit) (q : Queue) (l : List Notice) : NoticeUnit :=
  match q with
  | .urgent => { n with urgent := l }
  | .routine => { n with routine := l }

/-- The weight of a queue (R208). -/
def NoticeUnit.weight (n : NoticeUnit) : Queue → Nat
  | .urgent => n.urgentWeight
  | .routine => n.routineWeight

/-- Whether a queue is eligible: it holds a notice, and for ROUTINE the spacing does not run (R193). -/
def eligibleQueue (s : State) (q : Queue) : Bool :=
  !(s.notice.get q).isEmpty && (q == .urgent || s.link.spacing.isNone)

/-- The turn and its count once a queue with no frames left, or not eligible, has forfeited (R193). -/
def turnNow (s : State) : Queue × Nat :=
  if s.link.turnLeft != 0 && eligibleQueue s s.link.turn then (s.link.turn, s.link.turnLeft)
  else (s.link.turn.other, s.notice.weight s.link.turn.other)

/-- Begins the transmission of a frame. -/
def Link.send (l : Link) (f : Frame) (w : Sent) : Link := { l with tx := some { frame := f, what := w, left := f.lineTime } }

/-- The choice between the notice queues by weighted rotation (R193). -/
def rotate (s : State) : State :=
  let t := turnNow s
  match (if eligibleQueue s t.1 then s.notice.get t.1 else []) with
  | n :: rest =>
    { s with notice := s.notice.put t.1 rest
             link := { s.link with turn := t.1, turnLeft := t.2 - 1 }.send
               { kind := n.key.kind, tag := 0, payload := n.payload } (.notice n.key t.1) }
  | [] => { s with link := { s.link with turn := t.1, turnLeft := t.2 } }

/-- The transmit choice of an idle transmitter: the oldest reply, else a notice, else nothing (R192). -/
def transmitChoice (s : State) : State :=
  let s := s.onLink fun l => { l with boundary := false }
  match s.link.replies with
  | r :: rest => s.onLink fun l => { l with replies := rest }.send r.frame (.reply r.kind)
  | [] => rotate s

/-- A frame boundary that came in this event: the idle transmitter makes its choice (R192). -/
def settleLink (s : State) : State :=
  if s.link.tx.isNone && s.link.boundary then transmitChoice s else s

/-! ### Posting a notice (R211, R212) -/

/-- The queue that the map names for a key; FAULT is fixed to URGENT (R210). -/
def NoticeMap.get (m : NoticeMap) : NoticeKey → Queue
  | .status => m.status
  | .zone _ => m.zone
  | .door _ => m.door
  | .defrost => m.defrost
  | .measure _ => m.measure
  | .fault => .urgent
  | .budget => m.budget

/-- Whether QUIET discards notices under a key (R212). -/
def NoticeKey.quieted : NoticeKey → Bool
  | .fault => false
  | .measure _ => false
  | _ => true

def hasKey (k : NoticeKey) (q : List Notice) : Bool := q.any fun n => n.key == k

/-- Replaces the payload of the notice under a key; it keeps its place (R211). -/
def replaceKey (k : NoticeKey) (p : List Byte) (q : List Notice) : List Notice :=
  q.map fun n => if n.key = k then { n with payload := p } else n

/-- Files a notice under its key: in place in either queue, else at the tail of the mapped queue (R211). -/
def NoticeUnit.file (n : NoticeUnit) (k : NoticeKey) (p : List Byte) : NoticeUnit :=
  if hasKey k n.urgent then { n with urgent := replaceKey k p n.urgent }
  else if hasKey k n.routine then { n with routine := replaceKey k p n.routine }
  else n.put (n.map.get k) (n.get (n.map.get k) ++ [{ key := k, payload := p }])

/-- A notice handed to the Notice Unit. Posted to an idle transmitter it makes a frame boundary, whose choice is made at
once or at the end of the event, by a free value (R192, R211, log 5). -/
def postNotice (s : State) (k : NoticeKey) (p : List Byte) : State :=
  if s.notice.quiet && k.quieted then s
  else
    let t := s.onNotice fun n => n.file k p
    if t.link.tx.isSome then t
    else if Config.freeChoice t.free then transmitChoice (takeFree t)
    else (takeFree t).onLink fun l => { l with boundary := true }

/-- A reply appended to the reply list: a frame boundary of an idle transmitter (R191, R192). -/
def appendReply (s : State) (f : Frame) (k : ReplyKind) : State :=
  s.onLink fun l => { l with replies := l.replies ++ [{ frame := f, kind := k }], boundary := l.tx.isNone || l.boundary }

/-! ### The STATUS notice (R213) -/

inductive StatusCause
  | reset | mode | period
  deriving DecidableEq, Repr

def statusCauseCode : StatusCause → Byte
  | .reset => 0
  | .mode => 1
  | .period => 2

/-- The content of a STATUS notice (section 11.1). -/
def statusPayload (s : State) (c : StatusCause) : List Byte :=
  [statusCauseCode c, modeCode s.ctl.mode, resetCauseCode s.ctl.resetCause] ++ be32 s.uptime
    ++ [compStateCode s.arb.comp.state, encNum s.arb.comp.level, valveCode s.arb.valve,
        encOpt evapCode (s.arb.grant.map (·.evap))]

/-- The status timer loaded with a period: a period of 0 stops it (R213). -/
def loadStatus (period : Nat) : Option Nat := if period = 0 then none else some period

/-- Posts a STATUS notice; every posting, also one that QUIET discards, reloads the status timer (R213). -/
def postStatus (s : State) (c : StatusCause) : State :=
  postNotice (s.onNotice fun n => { n with statusLeft := loadStatus n.period }) .status (statusPayload s c)

/-! ### The Fault Unit (07) -/

def FaultEntry.matches (e : FaultEntry) (c : FaultCode) (o : FaultObject) : Bool := e.code == c && e.object == o

def activeCount (t : List FaultEntry) : Nat := (t.filter (·.active)).length

def latchedCount (t : List FaultEntry) : Nat := (t.filter (fun e => !e.active)).length

/-- An entry in the 15-byte form of R207. -/
def encEntry (e : FaultEntry) : List Byte :=
  [faultCode e.code, faultObjectCode e.object, encOpt detailCode e.detail, (if e.active then 0 else 1),
   encNum e.occurrences] ++ encFaultTime e.first ++ encFaultTime e.last

/-- The capture record as it is sent: code, object, priority, detail, time and more. `more` stands for the more-flag of
an empty record, which the manual does not give (log 7). -/
def encCapture (c : Option Capture) (more : Byte) : List Byte :=
  match c with
  | some c =>
    [faultCode c.code, faultObjectCode c.object, encNum (priority c.code), encOpt detailCode c.detail]
      ++ encFaultTime c.time ++ [encBool c.more]
  | none => List.replicate 9 absent8 ++ [more]

inductive FaultCause
  | declared | ended | cleared | reset
  deriving DecidableEq, Repr

def faultCauseCode : FaultCause → Byte
  | .declared => 0
  | .ended => 1
  | .cleared => 2
  | .reset => 3

/-- The content of a FAULT notice (R164, section 11.1). -/
def faultPayload (s : State) (c : FaultCause) (e : Option FaultEntry) : List Byte :=
  faultCauseCode c ::
    (match e with
     | some e => encEntry e
     | none => List.replicate 15 absent8)
    ++ [encNum (activeCount s.fault.table), encNum (latchedCount s.fault.table)]
    ++ encCapture s.fault.capture (Config.freeMore s.free) ++ [encNum s.fault.resetCount]

/-- Posts a FAULT notice (R164); one with an empty capture record uses up a free value (log 7). -/
def postFault (s : State) (c : FaultCause) (e : Option FaultEntry) : State :=
  postNotice (if s.fault.capture.isNone then takeFree s else s) .fault (faultPayload s c e)

/-- The fault time of the moment (R151). -/
def faultNow (s : State) : FaultTime := { count := s.fault.resetCount, at_ := s.uptime }

/-- The entry of a declaration: the one in the table raised, or a new one (R153). -/
def declaredEntry (t : List FaultEntry) (c : FaultCode) (o : FaultObject) (d : Option Sensor) (now : FaultTime) :
    FaultEntry :=
  match t.find? (fun e => e.matches c o) with
  | some e => { e with detail := d, last := now, occurrences := min (e.occurrences + 1) 255, active := true }
  | none => { code := c, object := o, detail := d, first := now, last := now, occurrences := 1, active := true }

/-- The table after a declaration: its entry updated where it stands, or appended (R153). Two entries made within one event
stand in the order taken, where R158 calls the outcome the same (log 33). -/
def declareIn (t : List FaultEntry) (c : FaultCode) (o : FaultObject) (d : Option Sensor) (now : FaultTime) :
    List FaultEntry :=
  let e := declaredEntry t c o d now
  if t.any (fun x => x.matches c o) then t.map (fun x => if x.matches c o then e else x) else t ++ [e]

/-- The capture record after a declaration (R157). -/
def captureIn (r : Option Capture) (c : FaultCode) (o : FaultObject) (d : Option Sensor) (now : FaultTime) :
    Option Capture :=
  let new : Capture := { code := c, object := o, detail := d, time := now, more := false }
  match r with
  | none => some new
  | some old => if priority c < priority old.code then some new else some { old with more := true }

/-- A declaration handed to the Fault Unit: table, capture record, notice (R152). -/
def declareFault (s : State) (c : FaultCode) (o : FaultObject) (d : Option Sensor) : State :=
  let e := declaredEntry s.fault.table c o d (faultNow s)
  let t := s.onFault fun f =>
    { f with table := declareIn f.table c o d (faultNow s), capture := captureIn f.capture c o d (faultNow s) }
  postFault t .declared (some e)

/-- The end of a condition handed to the Fault Unit: an ACTIVE entry is latched, else nothing changes (R155). -/
def endFault (s : State) (c : FaultCode) (o : FaultObject) : State :=
  match s.fault.table.find? (fun e => e.matches c o && e.active) with
  | none => s
  | some e =>
    let l := { e with active := false }
    let t := s.onFault fun f => { f with table := f.table.map fun x => if x.matches c o then { x with active := false } else x }
    postFault t .ended (some l)

/-! ### The contents of the other notices (section 11.1) -/

def zonePayload (z : ZoneId) (r : Zone) (c : Option ZoneCause) : List Byte :=
  [zoneCode z, zoneStateCode r.state, encOpt zoneCauseCode c, controlModeCode r.mode, clsCode r.cls]
    ++ encTempOpt r.lastAir ++ be32 r.enteredAt

def postZone (s : State) (z : ZoneId) (c : Option ZoneCause) : State :=
  postNotice s (.zone z) (zonePayload z (s.zones.get z) c)

/-- Posts a DOOR notice (R92); an open time that has no encoding in two bytes uses up a free value (log 7). -/
def postDoor (s : State) (d : DoorId) (seconds : Option Nat) : State :=
  let head := [doorCode d, doorStateCode (s.doors.get d).state] ++ be32 s.uptime
  match seconds with
  | none => postNotice s (.door d) (head ++ be16 absent16)
  | some n =>
    if n < 0xFFFF then postNotice s (.door d) (head ++ encSec n)
    else postNotice (takeFree s) (.door d) (head ++ be16 (Config.freeHalf s.free))

def defrostPayload (d : Defrost) : List Byte :=
  [phaseCode d.phase] ++ encLong d.credit ++ encLong d.target ++ [encNum d.current, encNum d.next, heaterCode d.heater]
    ++ encSecOpt d.lastDuration ++ [encOpt heatCauseCode d.lastCause, encBool d.probeLost, encBool d.interrupted]

/-- Posts a DEFROST notice (R128). -/
def postDefrost (s : State) : State := postNotice s .defrost (defrostPayload s.defrost)

def budgetPayload (b : Budget) : List Byte :=
  [encNum b.inForce, encNumOpt b.pending, encNum b.available, encNum b.level, claimCode b.heater,
   mullionModeCode b.mullionMode, mullionCode b.mullion, encNum b.sum, encNum b.cap]

/-- Posts a BUDGET notice when a reported field differs from `before` (R149). -/
def reportBudget (before : Budget) (s : State) : State :=
  if s.budget.reported = before.reported then s else postNotice s .budget (budgetPayload s.budget)

end Sys2Proof.Machine
end

