-- ==== Sys2Proof/Machine/Air.lean ====
section
/-! DEFINITION. The Air Path Unit (04 sections 4.2 to 4.4): what each input does to the fans, the run-on and the damper. -/

namespace Sys2Proof.Machine

/-- Outputs and target evaluated anew, and a travel begun when the damper rests away from the target (R93, R101). -/
def AirPath.settle (a : AirPath) : AirPath :=
  let a := { a with freshFan := a.freshOn, freezerFan := a.freezerOn, condenserFan := a.condenserOn, target := a.targetOf }
  match a.damper with
  | .resting e => if e = a.target then a else { a with damper := .travelling a.target .first Config.damperCheck }
  | _ => a

/-- A change of inputs, with the evaluation that follows it (R93). -/
def airInput (s : State) (f : AirPath → AirPath) : State := s.onAir fun a => (f a).settle

/-- Run-on after a FRESH change (R96). -/
def runOnAfter (a : AirPath) (now : Time) (st : ZoneState) (c : ZoneCause) : Option Time :=
  if st = .cooling then none
  else if c = .satisfied ∧ (a.freshZone = .cooling ∨ a.runOn.isSome) then some now
  else a.runOn

/-- A zone's new state with its cause (R7, R93, R96). -/
def airZone (s : State) (z : ZoneId) (st : ZoneState) (c : ZoneCause) : State :=
  airInput s fun a =>
    match z with
    | .fresh => { a with freshZone := st, runOn := runOnAfter a s.uptime st c }
    | .drawer => { a with drawerZone := st }
    | .freezer => { a with freezerZone := st }

/-- A door's new state; an opening LEFT or RIGHT door ends run-on (R88, R96). -/
def airDoor (s : State) (d : DoorId) (st : DoorState) : State :=
  airInput s fun a =>
    match d with
    | .left => { a with leftDoor := st, runOn := if st.isOpen then none else a.runOn }
    | .right => { a with rightDoor := st, runOn := if st.isOpen then none else a.runOn }
    | .drawer => { a with drawerDoor := st }
    | .freezer => { a with freezerDoor := st }

/-- The compressor's new state (R37, R99). -/
def airComp (s : State) (c : CompState) : State := airInput s fun a => { a with comp := c }

/-- The fan permit withdrawn or restored (R98). -/
def airPermit (s : State) (held : Bool) : State := airInput s fun a => { a with permit := held }

/-- The heater's report (R98). -/
def airHeater (s : State) (on : Bool) : State := airInput s fun a => { a with heaterOn := on }

/-- A new mode: run-on lives in RUN only, forces in SERVICE only (R96, R106, R107). -/
def airMode (s : State) (m : Mode) : State :=
  airInput s fun a =>
    { a with mode := m, runOn := if m = .run then a.runOn else none
             freshForce := if m = .service then a.freshForce else none
             freezerForce := if m = .service then a.freezerForce else none
             condenserForce := if m = .service then a.condenserForce else none
             damperForce := if m = .service then a.damperForce else none }

/-- The end of run-on (R96, R97). -/
def endRunOn (s : State) : State := airInput s fun a => { a with runOn := none }

/-- A FRESH_EVAP result: an OK result ABOVE ends an active run-on (R97). -/
def freshEvapResult (s : State) (sensor : Sensor) (band : Option Band) : State :=
  if sensor = .ok ∧ band = some .above ∧ s.air.runOn.isSome then endRunOn s else s

/-- The start of a recovery attempt of a FAILED damper (R104). -/
def damperRecover (s : State) : State :=
  match s.air.damper with
  | .failed => s.onAir fun a => { a with damper := .travelling .closed .recovery Config.damperCheck }
  | _ => s

/-- A confirmed travel: the damper rests, and the end of DAMPER_TRAVEL is handed to the Fault Unit (R101, R104). -/
def damperConfirm (s : State) (e : DamperEnd) : State :=
  endFault (s.onAir fun a => { a with damper := .resting e }) .damperTravel .damper

end Sys2Proof.Machine
end

