-- ==== Sys2Proof/Machine/Zones.lean ====
section
/-! DEFINITION. The acts of a Zone Controller that hand nothing back to the arbiter (01): a change of state, taking up
work, and the four events from the arbiter. -/

namespace Sys2Proof.Machine

/-- A change of state: entered-state-at, then the Air Path Unit, then the ZONE notice (R7). -/
def enterState (s : State) (z : ZoneId) (st : ZoneState) (c : ZoneCause) : State :=
  let s := s.onZone z fun r => { r with state := st, enteredAt := s.uptime }
  postZone (airZone s z st c) z (some c)

/-- The Defrost Unit's knowledge of the FREEZER zone's class (R7). -/
def noteClass (s : State) : State := s.onDefrost fun d => { d with freezerClass := s.zones.freezer.cls }

/-- The resting state of a zone (R5). -/
def Zone.resting (r : Zone) (z : ZoneId) : ZoneState :=
  if z = .drawer ∧ r.damperFaulted then .fault
  else if r.held then .held
  else if r.doorOpenSince.isSome then .door
  else .idle

/-- An OFF phase with the full fallback off-time (R19). -/
def Zone.offPhase (r : Zone) : Option PhaseTimer := some { kind := .off, left := r.offTime }

/-- An ON phase with the full fallback on-time (R19). -/
def Zone.onPhase (r : Zone) : Option PhaseTimer := some { kind := .on, left := r.onTime }

/-- The record of a zone that takes up work: the pull-down check, or an OFF phase, when it enters IDLE (R5, R8, R19). -/
def Zone.workRecord (r : Zone) (z : ZoneId) : Zone :=
  if r.resting z = .idle then
    match r.mode with
    | .thermostat => { r with cls := if r.warm then .recovery else r.cls, checkDue := r.lastAir.isNone, timer := none }
    | .timed => { r with timer := r.offPhase, checkDue := false }
  else { r with timer := none, checkDue := false }

/-- A zone takes up work (R5). -/
def takeUpWork (s : State) (z : ZoneId) (c : ZoneCause) : State :=
  let st := (s.zones.get z).resting z
  noteClass (enterState (s.onZone z fun r => r.workRecord z) z st c)

/-- A grant event (R6). -/
def zoneGrant (s : State) (z : ZoneId) : State :=
  if (s.zones.get z).state = .calling then enterState s z .cooling .grant else s

/-- A return (R13). -/
def zoneReturn (s : State) (z : ZoneId) : State :=
  if (s.zones.get z).state = .cooling then enterState s z .calling .return_ else s

/-- Whether a held event moves a zone in this state to HELD (R14). -/
def ZoneState.holdable : ZoneState → Bool
  | .idle => true
  | .calling => true
  | .cooling => true
  | .door => true
  | _ => false

/-- A held event (R14). -/
def zoneHeld (s : State) (z : ZoneId) : State :=
  let t := s.onZone z fun r => { r with held := true }
  if (s.zones.get z).state.holdable then
    enterState (t.onZone z fun r => { r with timer := none }) z .held .hold
  else t

/-- A released event (R15). -/
def zoneReleased (s : State) (z : ZoneId) : State :=
  let t := s.onZone z fun r => { r with held := false }
  if (s.zones.get z).state = .held then
    takeUpWork (t.onZone z fun r => { r with postDefrost := r.postDefrost || z == .freezer }) z .holdEnd
  else t

end Sys2Proof.Machine
end

