-- ==== Sys2Proof/Machine/Load.lean ====
section
/-! DEFINITION. The Load Budget Unit's accounting (06), as changes of its own record: claims, reports, and settling. -/

namespace Sys2Proof.Machine

/-- Sheds an ON mullion heater (R143). -/
def Budget.shed (b : Budget) : Budget := if b.mullion = .on then { b with mullion := .shed } else b

/-- Whether a compressor claim is granted: level 1 always, a higher one when it lies within the cap and fits (R136). -/
def Budget.grantsLevel (b : Budget) (l : Nat) : Bool := l ≤ 1 || (l ≤ b.cap && b.levelFits l)

/-- A granted compressor claim: the mullion heater is shed when the claim fits only without it (R136). -/
def Budget.claimLevel (b : Budget) (l : Nat) : Budget :=
  if b.levelFitsNow l then { b with level := l } else { b.shed with level := l }

/-- Settling, step 1: a sum above the available units sheds the mullion heater (R135). -/
def Budget.settle1 (b : Budget) : Budget := if b.available < b.sum then b.shed else b

/-- Settling, step 2: a pending budget that the sum fits comes into force (R135, R146). -/
def Budget.settle2 (b : Budget) : Budget :=
  match b.pending with
  | some p => if b.sum ≤ p - Config.reserve then { b with inForce := p, pending := none } else b
  | none => b

/-- Settling, step 3: whether a WAITING heater is granted (R135, R139). -/
def Budget.heaterDue (b : Budget) : Bool := b.heater == .waiting && b.heaterFits

def Budget.settle3 (b : Budget) : Budget :=
  if b.heaterDue then { (if b.heaterFitsNow then b else b.shed) with heater := .granted } else b

/-- Settling, step 4: the mullion claim (R135, R143). -/
def Budget.settle4 (b : Budget) : Budget :=
  if b.mullion ≠ .on ∧ b.wished ∧ b.heater ≠ .waiting then
    { b with mullion := if b.mullionFits then .on else .shed }
  else b

/-- Settling, step 5: the cap computed anew (R134, R135). -/
def Budget.settle5 (b : Budget) : Budget := { b with cap := b.capOf }

/-- Steps 1 to 5 of settling (R135). -/
def Budget.settle (b : Budget) : Budget := b.settle1.settle2.settle3.settle4.settle5

/-- A heater claim judged at once (R138). -/
def Budget.claimHeater (b : Budget) : Budget :=
  if b.heaterFitsNow then { b with heater := .granted }
  else if b.shed.heaterFits then { b.shed with heater := .granted }
  else { b.shed with heater := .waiting }

/-- A mullion heater that is not wished is OFF (R141). -/
def Budget.unwish (b : Budget) : Budget := if b.wished then b else { b with mullion := .off }

/-- A new mode: a force lives in SERVICE only (R144). -/
def Budget.setMode (b : Budget) (m : Mode) : Budget :=
  ({ b with mode := m, force := if m = .service then b.force else none } : Budget).unwish

/-- A SET-BUDGET's budget: in force at once when the sum fits it, else pending (R145, R146). -/
def Budget.takeBudget (b : Budget) (n : Nat) : Budget :=
  if b.sum ≤ n - Config.reserve then { b with inForce := n, pending := none } else { b with pending := some n }

/-- An OK AMBIENT result (R142). -/
def Budget.ambientResult (b : Budget) (p : Band) : Budget :=
  { b with ambientPos := some p
           ambientWish := if b.ambientFaulted then b.ambientWish else
             match p with
             | .above => true
             | .below => false
             | .inside => b.ambientWish }

/-- A faulted event of AMBIENT (R142). -/
def Budget.ambientFault (b : Budget) : Budget := { b with ambientFaulted := true, ambientWish := true }

/-- A recovered event of AMBIENT (R142). -/
def Budget.ambientRecover (b : Budget) : Budget :=
  { b with ambientFaulted := false, ambientWish := b.ambientPos != some .below }

end Sys2Proof.Machine
end

