-- ==== Sys2Proof/Machine/Scheduler.lean ====
section
/-! DEFINITION. The Measurement Scheduler's own acts (03): boundaries, the three sources, the start of a conversion, and
the queue. -/

namespace Sys2Proof.Machine

/-- A watcher's pair of boundaries (R61). -/
def setBounds (s : State) (c : Chan) (b : Temp × Temp) : State :=
  s.onChannel c fun r => { r with low := b.1, high := b.2 }

/-- The lowest channel with its INJECT flag set (R64). -/
def Scheduler.firstInject (k : Scheduler) : Option Chan := Chan.all.find? fun c => (k.ch.get c).injectFlag

/-- The lowest channel with its SCAN flag set (R64). -/
def Scheduler.firstScan (k : Scheduler) : Option Chan := Chan.all.find? fun c => (k.ch.get c).scanFlag

/-- The source of a queue entry: its origin (section 3.1). -/
def QEntry.source (q : QEntry) : Source := if q.tag.isSome then .link else .defrost

/-- The winner among the pending requests: INJECT, then QUEUE, then SCAN (R64). -/
def Scheduler.winner (k : Scheduler) : Option Conversion :=
  match k.firstInject with
  | some c => some { chan := c, source := .inject, tag := none, left := Config.conversionMs }
  | none =>
    match k.queue with
    | q :: _ => some { chan := q.chan, source := q.source, tag := q.tag, left := Config.conversionMs }
    | [] => k.firstScan.map fun c => { chan := c, source := .scan, tag := none, left := Config.conversionMs }

/-- A free converter starts the winner, if any (R64). -/
def Scheduler.startNext (k : Scheduler) : Scheduler :=
  match k.conv with
  | some _ => k
  | none => { k with conv := k.winner }

def startNext (s : State) : State := s.onSched Scheduler.startNext

/-- A conversion in flight that an inject displaces (R65). -/
def Scheduler.displaced (k : Scheduler) : Option Conversion :=
  match k.conv with
  | some v => if v.source = .inject then some v else none
  | none => none

/-- An inject request: it merges with one pending, and cancels a SCAN or QUEUE conversion (R65, R74). -/
def inject (s : State) (c : Chan) : State :=
  let t := s.onChannel c fun r => { r with injectFlag := true }
  startNext (t.onSched fun k => { k with conv := k.displaced })

/-- The Defrost Unit's post: appended when the queue holds no DEFROST entry (R71). -/
def queueDefrost (s : State) : State :=
  if s.sched.queue.any (fun q => q.tag.isNone) then s
  else startNext (s.onSched fun k => { k with queue := k.queue ++ [{ chan := .freezerEvap, tag := none }] })

/-- A MEASURE's entry and tag (R70). -/
def queueLink (s : State) (c : Chan) (tag : Byte) : State :=
  startNext (s.onSched fun k =>
    { k with queue := k.queue ++ [{ chan := c, tag := some tag }], tags := k.tags ++ [tag] })

/-- The LINK entries of the queue. -/
def Scheduler.links (k : Scheduler) : List QEntry := k.queue.filter fun q => q.tag.isSome

/-- CLEAR-QUEUE: every LINK entry and its tag removed, and the conversion of one cancelled (R73). -/
def clearLinks (s : State) : State :=
  startNext (s.onSched fun k =>
    { k with
      queue := k.queue.filter fun q => q.tag.isNone
      tags := k.tags.filter fun t => !(k.links.any fun q => q.tag == some t)
      conv := match k.conv with
        | some v => if v.source = .link then none else some v
        | none => none })

/-- A sent MEASURE notice's tag leaves the set (R72, R214). -/
def releaseTag (s : State) (tag : Byte) : State :=
  s.onSched fun k => { k with tags := k.tags.filter fun t => t != tag }

/-- A SCAN countdown's expiry: reloaded, the flag set, and overrun marked when it was set already (R67). -/
def scanExpiry (s : State) (c : Chan) : State :=
  startNext (s.onChannel c fun r =>
    { r with countdown := r.period, scanFlag := true, overrun := r.overrun || r.scanFlag })

end Sys2Proof.Machine
end

