-- ==== Sys2Proof/Machine/Compressor.lean ====
section
/-! DEFINITION. The compressor's level and the load: the aim and its steps (R34, R41), the Load Budget Unit's answers to
the arbiter and the Defrost Unit (06), and the stop (R43). -/

namespace Sys2Proof.Machine

/-! ### The aim and its steps -/

/-- The lowest of a level, the budget cap and the discharge cap, and never below 1 (R34). -/
def Arbiter.capped (a : Arbiter) (l : Nat) : Nat := max 1 (min l (min a.budgetCap (a.dischargeCap.getD 5)))

/-- The aim level of a compressor that runs (R34; in SERVICE the forced level, R180). -/
def Arbiter.aim (a : Arbiter) (m : Mode) : Nat :=
  if m = .service then
    match a.forcedLevel with
    | some l => a.capped l
    | none => 1
  else
    match a.grant with
    | some g => if g.phase = .active ∧ a.comp.state = .running then a.capped g.target else 1
    | none => 1

/-- A BUDGET claim by the arbiter: the answer carries the cap in force, and a grant that sheds is reported (R136). -/
def claimLevel (s : State) (l : Nat) : State :=
  let t := s.onBudget fun b => b.claimLevel l
  reportBudget s.budget (t.onArb fun a => { a with budgetCap := s.budget.cap })

/-- The compressor steps to a level (R41). -/
def beginStep (s : State) (l : Nat) : State := s.onComp fun c => { c with step := some { goal := l, left := Config.stepTime } }

/-- Whether a step may begin (R41). -/
def Arbiter.stepFree (a : Arbiter) : Bool := a.comp.state.running_ && a.comp.step.isNone

/-- A downward step when the aim lies below the present level (R41). -/
def stepDown (s : State) : State :=
  if s.arb.stepFree ∧ s.arb.aim s.ctl.mode < s.arb.comp.level then beginStep s (s.arb.comp.level - 1) else s

/-- The aim evaluated anew: a step toward it begins, an upward one with its claim and never during a valve move; after a
refusal the aim falls to the cap in the answer (R34, R41, R50). -/
def evalAim (s : State) : State :=
  if s.arb.stepFree ∧ s.arb.comp.level < s.arb.aim s.ctl.mode then
    if s.arb.valve.isMoving then s
    else if s.budget.grantsLevel (s.arb.comp.level + 1) then
      beginStep (claimLevel s (s.arb.comp.level + 1)) (s.arb.comp.level + 1)
    else stepDown (s.onArb fun a => { a with budgetCap := s.budget.cap })
  else stepDown s

/-! ### The Defrost Unit's heater -/

/-- The heater switched on at its grant (R116, R130). -/
def heaterOn (s : State) : State :=
  postDefrost (airHeater (s.onDefrost fun d => { d with heater := .on }) true)

/-! ### Settling (R135) -/

/-- The cap handed to the arbiter when its value has changed (R134). -/
def handCap (s : State) (old : Nat) : State :=
  if s.budget.cap = old then s else s.onArb fun a => { a with budgetCap := s.budget.cap }

/-- The unit settles, reports what differs from `before`, and the arbiter acts on a new cap (R135, R42, R149). What is handed to the
unit one by one within a command is reported one by one (the model's choice, log 41). -/
def settleFrom (s : State) (before : Budget) : State :=
  let t := s.onBudget Budget.settle
  let u := if s.budget.settle1.settle2.heaterDue then heaterOn t else t
  evalAim (reportBudget before (handCap u before.cap))

def settle (s : State) : State := settleFrom s s.budget

/-- A change of the unit's record, and the settling it brings. -/
def budgetChange (s : State) (f : Budget → Budget) : State := settleFrom (s.onBudget f) s.budget

/-- A change that may turn the mullion heater's wish: the unit settles when it does (R141). -/
def wishChange (s : State) (f : Budget → Budget) : State :=
  if (f s.budget).wished = s.budget.wished then s.onBudget f
  else budgetChange s fun b => (f b).unwish

/-- The arbiter's report of the level reached (R137). -/
def reportLevel (s : State) (l : Nat) : State :=
  if s.budget.level = l then s else budgetChange s fun b => { b with level := l }

/-- A heater claim: taken while the heater is NONE, granted at once or WAITING (R138). -/
def heaterClaim (s : State) : State :=
  if s.budget.heater = .none_ then
    let t := s.onBudget Budget.claimHeater
    settleFrom (if t.budget.heater = .granted then heaterOn t else t) s.budget
  else s

/-- A cancellation: taken while the heater is WAITING (R139). -/
def heaterCancel (s : State) : State :=
  if s.budget.heater = .waiting then budgetChange s fun b => { b with heater := .none_ } else s

/-- A release: taken while the heater is GRANTED (R140). -/
def heaterRelease (s : State) : State :=
  if s.budget.heater = .granted then budgetChange s fun b => { b with heater := .none_ } else s

/-- The Defrost Unit claims the heater for a use (R116, R130). -/
def claimFor (s : State) (u : HeaterUse) : State :=
  heaterClaim (s.onDefrost fun d => { d with heater := .claimed, use := some u })

/-- The Defrost Unit gives the heater up: an ON heater is switched off, reported and released, a CLAIMED one has its claim
cancelled (R117, R120). -/
def heaterOff (s : State) : State :=
  let t := s.onDefrost fun d => { d with heater := .off, use := none }
  match s.defrost.heater with
  | .on => heaterRelease (airHeater t false)
  | .claimed => heaterCancel t
  | .off => t

/-! ### Compressor states -/

/-- A change of compressor state, handed to the Air Path Unit (R37). -/
def setComp (s : State) (c : CompState) : State := airComp (s.onComp fun k => { k with state := c }) c

/-- The compressor off: the speed line off, level 0, a step in flight ended (R40, R43, R45). -/
def Compressor.off (c : Compressor) : Compressor := { c with level := 0, step := none, startLeft := 0 }

/-- The compressor goes off into OFF_LOCKED with a full minimum off timer, or into LOCKOUT with its own, and the Load
Budget Unit is told level 0 (R38, R40, R43, R45, R46). -/
def compOff (s : State) (lock : Bool) : State :=
  let t := s.onComp fun c =>
    if lock then { c.off with minOffLeft := 0, lockoutLeft := Config.lockoutTime }
    else { c.off with minOffLeft := s.arb.timing.minOff, lockoutLeft := 0 }
  reportLevel (setComp t (if lock then .lockout else .offLocked)) 0

/-- A stop; one that finds the compressor off changes nothing (R38, R43). -/
def compStop (s : State) : State := if s.arb.comp.state.turning then compOff s false else s

/-- A start: level 1 is claimed, and the start window begins (R39). -/
def compStart (s : State) : State :=
  let t := claimLevel s 1
  setComp (t.onComp fun c => { c with level := 1, startLeft := Config.startWindow }) .starting

end Sys2Proof.Machine
end

