-- ==== Sys2Proof/Machine/Arbiter.lean ====
section
/-! DEFINITION. The Cooling Arbiter (02): grants, selection, switching, the valve, failures, the hold. -/

namespace Sys2Proof.Machine

/-! ### Events handed to requesters -/

/-- A grant event: a zone enters COOLING, DEFROST begins to count and loses its wait limit (R32, R112). -/
def handGrant (s : State) : Requester → State
  | .fresh => zoneGrant s .fresh
  | .drawer => zoneGrant s .drawer
  | .freezer => zoneGrant s .freezer
  | .defrost => s.onDefrost fun d => { d with served := true, waitLimit := none }

/-- A return: a zone goes back to CALLING, DEFROST stops counting (R13, R36, R45). -/
def handReturn (s : State) : Requester → State
  | .fresh => zoneReturn s .fresh
  | .drawer => zoneReturn s .drawer
  | .freezer => zoneReturn s .freezer
  | .defrost => s.onDefrost fun d => { d with served := false }

/-! ### What a grant or a force brings about as soon as it may -/

/-- Whether the heater's interlock allows a compressor that runs with the valve at an evaporator, or moving toward it, in
SERVICE (R116, R178, log 23). -/
def heatClear (s : State) (e : Evap) : Bool := s.defrost.heater == .off || e == .fresh

/-- Whether a forced move toward an evaporator may begin beside the heater: with the compressor off always (R181, log 23). -/
def moveClear (s : State) (e : Evap) : Bool := heatClear s e || !s.arb.comp.state.turning

/-- The evaporator that a standing grant or, in SERVICE, the forced valve target asks the valve for. -/
def valveWanted (s : State) : Option Evap :=
  match s.arb.grant with
  | some g => if g.phase = .preparing then some g.evap else none
  | none => if s.ctl.mode = .service then s.arb.forcedValve.filter (moveClear s) else none

/-- Whether the compressor lets a valve move begin: off, or running at level 1 with no step (R50). -/
def Compressor.letsMove (c : Compressor) : Bool :=
  match c.state with
  | .starting => false
  | .running => c.level == 1 && c.step.isNone
  | .runout => c.level == 1 && c.step.isNone
  | _ => true

/-- The start of a move (R50). -/
def beginMove (s : State) (e : Evap) (t : Attempt) : State :=
  s.onArb fun a => { a with valve := .moving e t Config.valveCheck }

/-- A move toward the wanted evaporator begins when the valve rests elsewhere and the compressor lets it (R39, R50, R181). -/
def tryMove (s : State) : State :=
  match valveWanted s, s.arb.valve.at with
  | some e, some x => if x ≠ e ∧ s.arb.comp.letsMove then beginMove s e .first else s
  | _, _ => s

/-- Whether a start is asked for with the valve where it must be (R39; in SERVICE R180). -/
def startWanted (s : State) : Bool :=
  match s.arb.grant with
  | some g => g.phase == .preparing && s.arb.valve.at == some g.evap
  | none =>
    s.ctl.mode == .service && s.arb.forcedLevel.any (fun l => 1 ≤ l) && s.arb.valve.at.any (heatClear s)

/-- A start begins at OFF_READY unless the discharge position is ABOVE (R39, R48, R180). -/
def tryStart (s : State) : State :=
  if startWanted s ∧ s.arb.comp.state = .offReady ∧ s.arb.dischargePos ≠ some .above then compStart s else s

/-- The members of a grant once it activates (R32). -/
def Grant.activate (g : Grant) (now : Time) : Grant :=
  { g with phase := .active, selected := [], holders := g.holders ++ g.selected
           activation := some (g.activation.getD now), dwellStart := some now }

/-- Activation: the selected members become holders and are handed grant events (R32). -/
def activate (s : State) (g : Grant) : State :=
  (g.selected.map (·.requester)).foldl handGrant
    (s.onArb fun a => { a with grant := some (g.activate s.uptime) })

/-- A PREPARING grant activates when the valve is at its evaporator and the compressor RUNNING (R32). -/
def tryActivate (s : State) : State :=
  match s.arb.grant with
  | some g =>
    if g.phase = .preparing ∧ s.arb.valve.at = some g.evap ∧ s.arb.comp.state = .running then activate s g else s
  | none => s

/-- A compressor in RUNOUT that gets a grant is RUNNING (R44). -/
def leaveRunout (s : State) : State :=
  if s.arb.grant.isSome ∧ s.arb.comp.state = .runout then setComp s .running else s

/-- Everything that has become possible for the grant, or for the forces of SERVICE: activation, the valve move, the start
and the step toward the aim (R32, R34, R39, R44, R50). DESIGN CHOICE, unsafe (log 40): where one event of SERVICE makes both a
waiting forced start and a waiting forced valve move possible, R180 and R181 each let theirs begin; the move begins, and the
start at its end. -/
def advance (s : State) : State := evalAim (tryStart (tryMove (tryActivate (leaveRunout s))))

/-! ### Selection (R29, R30) -/

/-- The best entry: the first of the highest class present. -/
def bestEntry : List Entry → Option Entry
  | [] => none
  | e :: rest =>
    match bestEntry rest with
    | some b => if clsRank e.cls < clsRank b.cls then some b else some e
    | none => some e

def Entry.member (e : Entry) : Member := { requester := e.requester, cls := e.cls, wish := e.wish }

/-- A new PREPARING grant on `e` of the eligible entries for it; the others keep their places (R30, R31, R36). -/
def formGrant (s : State) (e : Evap) : State :=
  let takes := fun x : Entry => s.arb.eligible x && x.evap == e
  s.onArb fun a =>
    { a with
      list := a.list.filter fun x => !takes x
      grant := some { evap := e, phase := .preparing, selected := (a.list.filter takes).map Entry.member
                      holders := [], activation := none, dwellStart := none } }

/-- The entry that a selection would serve, when R30 allows one. -/
def selectable (s : State) : Option Entry :=
  if s.arb.grant.isNone ∧ ¬ s.arb.valve.isMoving ∧ s.arb.comp.state ≠ .lockout ∧ ¬ s.arb.valve.isStuck then
    bestEntry (s.arb.list.filter s.arb.eligible)
  else none

/-- Selection, and what the new grant brings about (R30). -/
def select (s : State) : State :=
  match selectable s with
  | some e => advance (formGrant s e.evap)
  | none => s

/-- The after-grant decision (R33). -/
def afterGrant (s : State) : State :=
  if s.arb.valve.isMoving ∨ s.arb.comp.state = .starting then s
  else if (selectable s).isSome then select s
  else if s.arb.comp.state.running_ then
    if (s.arb.hold ∧ s.arb.feedsFreeze) ∨ s.arb.timing.minOn ≤ timeRun s.uptime s.arb.comp then compStop s
    else evalAim (if s.arb.comp.state = .running then setComp s .runout else s)
  else s

/-! ### Switching (R35, R36) -/

/-- Whether an entry is a ground for a switch from the grant (R35). -/
def Arbiter.ground (a : Arbiter) (g : Grant) (now : Time) (e : Entry) : Bool :=
  a.eligible e && e.evap == otherEvap g.evap &&
    ((e.cls == .recovery && !(g.holders.any fun m => m.cls == .recovery))
      || a.timing.maxWait ≤ elapsed now e.postedAt
      || g.activation.any fun t => a.timing.maxRun ≤ elapsed now t)

/-- Whether a switch is decided (R35). -/
def Arbiter.switches (a : Arbiter) (now : Time) : Bool :=
  match a.grant with
  | some g =>
    g.phase == .active && g.dwellStart.any (fun t => a.timing.minDwell ≤ elapsed now t)
      && a.list.any (a.ground g now)
  | none => false

def Member.entry (m : Member) (now : Time) : Entry :=
  { requester := m.requester, evap := requesterEvap m.requester, cls := m.cls, wish := m.wish, postedAt := now }

/-- Members appended at the list tail with their posted-at at the uptime, and no grant left (R36, R46). -/
def relist (s : State) (ms : List Member) : State :=
  s.onArb fun a => { a with list := a.list ++ ms.map fun m => m.entry s.uptime, grant := none }

/-- A decided switch (R36). -/
def doSwitch (s : State) (g : Grant) : State :=
  let t := (g.holders.map (·.requester)).foldl handReturn (relist s g.holders)
  advance (formGrant t (otherEvap g.evap))

/-- The switch check (R35). -/
def switchCheck (s : State) : State :=
  match s.arb.grant with
  | some g => if s.arb.switches s.uptime then doSwitch s g else s
  | none => s

/-! ### Post, withdraw and release (R26 to R28) -/

def Entry.update (e : Entry) (c : Cls) (wish : Nat) : Entry := { e with cls := raiseCls e.cls c, wish := wish }

def Member.update (m : Member) (c : Cls) (wish : Nat) : Member := { m with cls := raiseCls m.cls c, wish := wish }

/-- Applies a post to the members of a set (R27). -/
def updateMembers (ms : List Member) (r : Requester) (c : Cls) (wish : Nat) : List Member :=
  ms.map fun m => if m.requester = r then m.update c wish else m

def Grant.has (g : Grant) (r : Requester) : Bool :=
  g.selected.any (fun m => m.requester == r) || g.holders.any (fun m => m.requester == r)

/-- A new member at the end of the set it enters (R27). -/
def Grant.join (g : Grant) (m : Member) : Grant :=
  match g.phase with
  | .preparing => { g with selected := g.selected ++ [m] }
  | .active => { g with holders := g.holders ++ [m] }

/-- After an append or a class raise: the switch check for a RECOVERY entry of the other evaporator, or a selection when no
grant exists (R26). -/
def afterEntry (s : State) (r : Requester) (c : Cls) : State :=
  match s.arb.grant with
  | some g => if c = .recovery ∧ requesterEvap r ≠ g.evap then switchCheck s else s
  | none => select s

/-- A post of a requester on the list (R26). The switch check follows a class raise alone: a post that changes only the wish
of an entry already RECOVERY brings none (the model's choice between R26 and R35, log 31). -/
def postListed (s : State) (e : Entry) (c : Cls) (wish : Nat) : State :=
  let t := s.onArb fun a =>
    { a with list := a.list.map fun x => if x.requester = e.requester then x.update c wish else x }
  if clsRank e.cls < clsRank c then afterEntry t e.requester c else t

/-- A post of a requester that is neither on the list nor in the grant (R26, R27). -/
def postNew (s : State) (r : Requester) (c : Cls) (wish : Nat) : State :=
  let append := afterEntry (s.onArb fun a =>
    { a with list := a.list ++ [{ requester := r, evap := requesterEvap r, cls := c, wish := wish, postedAt := s.uptime }] })
    r c
  match s.arb.grant with
  | some g =>
    if g.evap = requesterEvap r then
      let t := s.onArb fun a => { a with grant := some (g.join { requester := r, cls := c, wish := wish }) }
      evalAim (if g.phase = .active then handGrant t r else t)
    else append
  | none => append

/-- A post (R26, R27): discarded outside RUN. -/
def post (s : State) (r : Requester) (c : Cls) (wish : Nat) : State :=
  if s.ctl.mode ≠ .run then s
  else
    match s.arb.list.find? (fun e => e.requester == r) with
    | some e => postListed s e c wish
    | none =>
      match s.arb.grant with
      | some g =>
        if g.has r then
          evalAim (s.onArb fun a =>
            { a with grant := some { g with selected := updateMembers g.selected r c wish
                                            holders := updateMembers g.holders r c wish } })
        else postNew s r c wish
      | none => postNew s r c wish

def Grant.without (g : Grant) (r : Requester) : Grant :=
  { g with selected := g.selected.filter (fun m => m.requester != r), holders := g.holders.filter (fun m => m.requester != r) }

def Grant.isEmpty (g : Grant) : Bool := g.selected.isEmpty && g.holders.isEmpty

/-- A withdrawal or a release (R28, R33). -/
def withdraw (s : State) (r : Requester) : State :=
  let t := s.onArb fun a => { a with list := a.list.filter fun e => e.requester != r }
  match s.arb.grant with
  | some g =>
    if g.has r then
      if (g.without r).isEmpty then afterGrant (t.onArb fun a => { a with grant := none })
      else evalAim (t.onArb fun a => { a with grant := some (g.without r) })
    else t
  | none => t

/-! ### Failures and lockout (R40, R45, R46) -/

/-- The grant dissolved with its members appended, selected first, holders handed a return (R46, R52). -/
def dissolve (s : State) : State :=
  match s.arb.grant with
  | some g => (g.holders.map (·.requester)).foldl handReturn (relist s (g.selected ++ g.holders))
  | none => s

/-- An ACTIVE grant back to PREPARING: its holders go, in order, back to the selected set (R45). -/
def Grant.prepare (g : Grant) : Grant :=
  { g with phase := .preparing, selected := g.selected ++ g.holders, holders := [], dwellStart := none }

/-- An ACTIVE grant returns to PREPARING, each holder handed a return (R45, R48). -/
def unserve (s : State) : State :=
  match s.arb.grant with
  | some g =>
    if g.phase = .active then
      (g.holders.map (·.requester)).foldl handReturn (s.onArb fun a => { a with grant := some g.prepare })
    else s
  | none => s

/-- The failure that brings LOCKOUT: COMP_LOCKOUT declared, the grant dissolved (R46). -/
def enterLockout (s : State) : State := dissolve (declareFault s .compLockout .compressor none)

/-- A failed start or a trip: off, declared, counted; at the third, LOCKOUT (R40, R45, R46). A forced level ends (R180); with
no grant a selection is made (R30), and a valve move that waited for the compressor begins (R39, R50, log 30). -/
def compFail (s : State) (c : FaultCode) : State :=
  let lock := decide (3 ≤ s.arb.comp.failures + 1)
  let t := compOff (s.onArb fun a => { a with forcedLevel := none }) lock
  let u := (declareFault t c .compressor none).onComp fun k => { k with failures := k.failures + 1 }
  if lock then enterLockout u else tryMove (select u)

/-- LOCKOUT's end: the count 0, the end of COMP_LOCKOUT, OFF_LOCKED with a full minimum off timer (R47). -/
def leaveLockout (s : State) : State :=
  let t := s.onComp fun c => { c with failures := 0, lockoutLeft := 0, minOffLeft := s.arb.timing.minOff }
  setComp (endFault t .compLockout .compressor) .offLocked

/-! ### Discharge protection (R48, R49) -/

/-- The discharge cap after an OK result (R48, R49). -/
def Arbiter.capAfter (a : Arbiter) (p : Band) : Option Nat :=
  match p with
  | .below => if a.dischargeFaulted then some 3 else none
  | .inside => some 2
  | .above => a.dischargeCap

/-- The stop of a hot discharge line (R48), after which a selection is made when no grant exists (R30), and a valve move that
waited for the compressor begins (R39, R50, log 30). -/
def stopHot (s : State) : State :=
  if s.arb.comp.state.turning then
    tryMove (select (unserve ((compStop s).onArb fun a => { a with forcedLevel := none })))
  else s

/-- An OK DISCHARGE result (R48). -/
def dischargeResult (s : State) (p : Band) : State :=
  let t := s.onArb fun a => { a with dischargePos := some p, dischargeCap := a.capAfter p }
  match p with
  | .below =>
    advance (endFault (t.onArb fun a => { a with dischargeHigh := false }) .dischargeHigh .compressor)
  | .inside => advance t
  | .above =>
    let u := stopHot t
    if u.arb.dischargeHigh then u
    else declareFault (u.onArb fun a => { a with dischargeHigh := true }) .dischargeHigh .compressor none

/-- A faulted event of DISCHARGE (R49). -/
def dischargeFault (s : State) : State :=
  advance (s.onArb fun a =>
    { a with dischargeFaulted := true, dischargePos := none
             dischargeCap := if a.dischargePos = some .inside then some 2 else some 3 })

/-- A recovered event of DISCHARGE (R49). -/
def dischargeRecover (s : State) : State :=
  advance (s.onArb fun a =>
    { a with dischargeFaulted := false, dischargeCap := if a.dischargePos = some .inside then some 2 else none })

/-! ### The valve (R50 to R53) -/

/-- What follows a valve move's end at an evaporator: a waiting after-grant decision in RUN, else whatever the grant or a
force may now do (R33, R50, R53, R181). -/
def afterArrival (s : State) : State :=
  if s.ctl.mode = .run ∧ s.arb.grant.isNone then afterGrant s else advance s

/-- A confirmed arrival (R50, R53). -/
def valveArrive (s : State) (e : Evap) : State :=
  afterArrival (endFault (s.onArb fun a => { a with valve := .resting e }) .valveTravel .valve)

/-- The valve becomes STUCK (R52; the forces end, R180, R181). -/
def valveStuck (s : State) : State :=
  let t := s.onArb fun a => { a with forcedLevel := none, forcedValve := none }
  dissolve ((compStop (declareFault t .valveTravel .valve none)).onArb fun a => { a with valve := .stuck Config.stuckTime })

/-- The end of a travel check without confirmation (R51, R52, R53). -/
def valveMiss (s : State) (e : Evap) : Attempt → State
  | .first => beginMove s e .second
  | .second => valveStuck s
  | .recovery => s.onArb fun a => { a with valve := .stuck Config.stuckTime }

/-- A recovery attempt of a STUCK valve (R53). -/
def valveRecover (s : State) : State :=
  if s.arb.valve.isStuck then beginMove s .freeze .recovery else s

/-! ### The hold (R54 to R56) -/

/-- The Defrost Unit is handed "hold taken, FREEZE not fed", and claims the heater in HEAT when it is OFF (R116). -/
def defrostNotFed (s : State) : State :=
  if s.defrost.phase = .heat ∧ s.defrost.heater = .off then claimFor s .defrost else s

/-- The report that FREEZE is not fed, once for a hold (R55). -/
def reportNotFed (s : State) : State :=
  if s.arb.hold ∧ ¬ s.arb.notFed ∧ ¬ s.arb.feedsFreeze then
    defrostNotFed (s.onArb fun a => { a with notFed := true })
  else s

/-- Whether an eligible FRESH entry is on the list. -/
def Arbiter.freshWaits (a : Arbiter) : Bool := a.list.any fun e => a.eligible e && e.evap == .fresh

/-- The feeding check (R55). -/
def feedingCheck (s : State) : State :=
  if ¬ s.arb.hold ∨ s.arb.notFed then s
  else if ¬ s.arb.feedsFreeze then reportNotFed s
  else if s.arb.grant.any fun g => g.evap == .fresh then s
  else if s.arb.grant.isNone ∧ s.arb.freshWaits then
    if s.arb.valve.isMoving then s else reportNotFed (select s)
  else reportNotFed (compStop s)

/-- A FREEZE grant dissolved silently by the hold (R54). -/
def dropFreeze (s : State) : State :=
  if s.arb.grant.any fun g => g.evap == .freeze then s.onArb fun a => { a with grant := none } else s

/-- A hold request (R54). -/
def holdRequest (s : State) : State :=
  if s.arb.hold then s
  else
    let dropped := s.arb.grant.any fun g => g.evap == .freeze
    let t := (dropFreeze s).onArb fun a =>
      { a with hold := true, notFed := false
               list := a.list.filter fun e => e.requester != .freezer && e.requester != .drawer }
    let u := feedingCheck (zoneHeld (zoneHeld t .freezer) .drawer)
    if dropped ∧ u.arb.grant.isNone then afterGrant u else u

/-- A release of the hold (R56). -/
def holdRelease (s : State) : State :=
  if s.arb.hold then
    select (zoneReleased (zoneReleased (s.onArb fun a => { a with hold := false }) .freezer) .drawer)
  else s

/-! ### Operating states (R59, R60, R184) -/

/-- The arbiter's part of leaving RUN (R59). -/
def arbLeaveRun (s : State) : State := compStop (s.onArb fun a => { a with list := [], grant := none })

/-- The arbiter's part of leaving SERVICE (R60, R184). -/
def arbLeaveService (s : State) : State :=
  compStop (s.onArb fun a => { a with forcedLevel := none, forcedValve := none })

/-- Run feedback within the start window (R39). -/
def startSuccess (s : State) : State :=
  let t := s.onComp fun c => { c with runStart := s.uptime, startLeft := 0 }
  let u := endFault (endFault (setComp t .running) .compStart .compressor) .compTrip .compressor
  afterArrival (inject u .discharge)

/-- The end of a step (R41). -/
def stepDone (s : State) (l : Nat) : State :=
  let t := s.onComp fun c => { c with level := l, step := none }
  advance (if l < s.arb.comp.level then reportLevel t l else t)

end Sys2Proof.Machine
end

