-- ==== Sys2Proof/Machine/Defrost.lean ====
section
/-! DEFINITION. The Defrost Unit (05): credit, the phases and what ends each, requests, results and modes. -/

namespace Sys2Proof.Machine

/-- Hands the FREEZER_EVAP boundaries of the phase (section 5.1). -/
def defrostBounds (s : State) : State := setBounds s .freezerEvap s.defrost.bounds

/-- The entry to PRECHILL: DEFROST posts, the counts start, a notice (R112). -/
def enterPrechill (s : State) : State :=
  postDefrost (post (s.onDefrost fun d =>
    { d with phase := .prechill, prechill := 0, waitLimit := some (later s.uptime Config.prechillWait) })
    .defrost .prechill 4)

/-- The start conditions evaluated (R110). -/
def evaluate (s : State) : State :=
  if s.defrost.phase = .due ∧ s.defrost.startOk then enterPrechill s else s

/-- The test that makes an IDLE phase DUE (R109). -/
def dueTest (s : State) : State :=
  if s.defrost.phase = .idle ∧ s.defrost.target ≤ s.defrost.credit then
    evaluate (postDefrost (s.onDefrost fun d => { d with phase := .due, deferral := 0 }))
  else s

/-- An addition to the credit, in IDLE only (R108). -/
def addCredit (s : State) (n : Nat) : State :=
  if s.defrost.phase = .idle then dueTest (s.onDefrost fun d => { d with credit := d.credit + n }) else s

/-- The entry to HEAT (R115). -/
def heatEntry (s : State) : State :=
  let t := s.onDefrost fun d =>
    { d with phase := .heat, credit := 0, probeLost := d.probeFaulted, heatClock := some 0 }
  let u := (airPermit (defrostBounds t) false).onDefrost fun d => { d with hold := true }
  postDefrost (queueDefrost ((holdRequest u).onDefrost fun d => { d with sampleTimer := none }))

/-- DEFROST withdrawn from the arbiter; the unit is served no more (R28, R113, R114, R126). -/
def defrostWithdraw (s : State) : State :=
  withdraw (s.onDefrost fun d => { d with served := false }) .defrost

/-- The record at the end of HEAT (R120, R121). -/
def Defrost.endHeat (d : Defrost) (c : HeatCause) (now : Time) : Defrost :=
  let duration := d.heatClock.getD 0
  { d with lastDuration := some duration, heatClock := none, lastCause := some c
           next := nextInterval c duration d.current d.next, interrupted := false
           dripTimer := some (later now Config.dripTime), sampleTimer := none, phase := .drip }

/-- The end of HEAT (R118, R120). -/
def heatEnd (s : State) (c : HeatCause) : State :=
  postDefrost ((heaterOff s).onDefrost fun d => d.endHeat c s.uptime)

/-- The entry to IDLE: a notice, the end of DEFROST_OVERTEMP, and the test of the credit (R124, R109). -/
def becomeIdle (s : State) : State :=
  dueTest (endFault (postDefrost (s.onDefrost fun d => { d with phase := .idle })) .defrostOvertemp .heater)

/-- The end of DRIP (R122). -/
def dripEnd (s : State) : State :=
  let t := holdRelease (s.onDefrost fun d => { d with hold := false })
  postDefrost (defrostBounds (t.onDefrost fun d => { d with phase := .recover, dripTimer := none }))

/-- The end of RECOVER (R123). -/
def recoverEnd (s : State) : State :=
  let t := (airPermit s true).onDefrost fun d => { d with current := d.next, recoveryLimit := none }
  becomeIdle (setBounds t .freezerEvap (Config.tempMin, Config.coilHigh))

/-- A run second (R37, R108, R123). -/
def runSecond (s : State) : State :=
  if s.defrost.phase = .recover ∧ s.defrost.recoveryLimit.isNone then
    s.onDefrost fun d => { d with recoveryLimit := some (later s.uptime Config.recoveryLimit) }
  else addCredit s 1

/-- The overtemperature cut of a SERVICE heater (R130, R182), after which a waiting start or move may begin. -/
def serviceCut (s : State) : State := advance (postDefrost (heaterOff s))

/-- What an OK FREEZER_EVAP result does by phase (R119, R123, R130). -/
def coilOk (s : State) (v : Temp) (b : Band) : State :=
  if s.defrost.phase = .heat then
    if s.defrost.heater = .on ∧ s.defrost.probeLost = false then
      match b with
      | .inside => heatEnd s .probe
      | .above => heatEnd (declareFault s .defrostOvertemp .heater none) .overtemp
      | .below => s
    else s
  else if s.defrost.phase = .recover then
    if b = .below ∧ s.defrost.probeFaulted = false then recoverEnd s else s
  else if s.defrost.heater = .on ∧ s.defrost.use = some .service ∧ Config.coilHigh < v then serviceCut s
  else s

/-- A FREEZER_EVAP result (R118, R119, R123, R130). -/
def coilResult (s : State) (r : Option (Temp × Band)) : State :=
  let t := if s.defrost.phase = .heat then
      s.onDefrost fun d => { d with sampleTimer := some (later s.uptime Config.sampleSpacing) }
    else s
  match r with
  | some (v, b) => coilOk t v b
  | none => t

/-- A faulted event of FREEZER_EVAP (R118). -/
def coilFault (s : State) : State :=
  s.onDefrost fun d => { d with probeFaulted := true, probeLost := d.probeLost || d.phase == .heat }

/-- A recovered event of FREEZER_EVAP (R118). -/
def coilRecover (s : State) : State := s.onDefrost fun d => { d with probeFaulted := false }

/-- Whether a phase is interrupted by leaving RUN or by a reset (R129, R132). -/
def Phase.working : Phase → Bool
  | .prechill => true
  | .heat => true
  | .drip => true
  | .recover => true
  | _ => false

/-- A working defrost interrupted by leaving RUN (R129). -/
def interrupt (s : State) : State :=
  let t := if s.defrost.use = some .defrost then heaterOff s else s
  let t := if s.defrost.phase = .prechill then defrostWithdraw t else t
  let t := if t.defrost.hold then holdRelease (t.onDefrost fun d => { d with hold := false }) else t
  let t := if t.air.permit then t else airPermit t true
  let t := t.onDefrost fun d =>
    { d with prechill := 0, waitLimit := none, heatClock := none, sampleTimer := none, dripTimer := none
             recoveryLimit := none, interrupted := true, credit := d.target }
  becomeIdle (setBounds t .freezerEvap (Config.tempMin, Config.coilHigh))

/-- The Defrost Unit's part of a change of mode (R110, R129, R130). -/
def defrostMode (s : State) (old m : Mode) : State :=
  let t := s.onDefrost fun d => { d with mode := m }
  match old with
  | .run => if s.defrost.phase.working then interrupt t else t
  | .service => if s.defrost.use = some .service then postDefrost (heaterOff t) else t
  | .hold => if m = .run then evaluate t else t

/-- An entry to LOCKOUT handed to the Defrost Unit: a PRECHILL goes to HEAT (R37, R114). -/
def defrostLocked (s : State) : State :=
  let t := s.onDefrost fun d => { d with lockout := true }
  if s.defrost.phase = .prechill then heatEntry (defrostWithdraw t) else t

/-- An exit from LOCKOUT handed to the Defrost Unit (R37, R110). -/
def defrostUnlocked (s : State) : State := evaluate (s.onDefrost fun d => { d with lockout := false })

/-- A FREEZER door state handed to the Defrost Unit (R88, R90, R110). -/
def defrostDoor (s : State) (st : DoorState) : State := evaluate (s.onDefrost fun d => { d with freezerDoor := st })

/-- A change of the FREEZER zone's class handed to the Defrost Unit (R7, R110). -/
def handClass (s : State) : State :=
  if s.defrost.freezerClass = s.zones.freezer.cls then s else evaluate (noteClass s)

/-! ### Failures and LOCKOUT with the Defrost Unit told -/

/-- A failure (R40, R45, R46), with an entry to LOCKOUT handed to the Defrost Unit (R37). -/
def fail (s : State) (c : FaultCode) : State :=
  let t := compFail s c
  if t.arb.comp.state = .lockout then defrostLocked t else t

/-- LOCKOUT ends: the exit is handed to the Defrost Unit, then selection is made (R37, R47, log 10). -/
def lockoutEnd (s : State) : State := select (defrostUnlocked (leaveLockout s))

end Sys2Proof.Machine
end

