-- ==== Sys2Proof/Machine/ZoneRules.lean ====
section
/-! DEFINITION. The acts of a Zone Controller that hand on to the arbiter and to the Defrost Unit (01): results, doors,
TIMED mode, the damper's events, enabling and mode changes. -/

namespace Sys2Proof.Machine

/-- A withdrawal while CALLING, a release while COOLING; nothing in other states (R28). -/
def standDown (s : State) (z : ZoneId) : State :=
  if (s.zones.get z).state = .calling ∨ (s.zones.get z).state = .cooling then withdraw s (zoneRequester z) else s

/-- A zone posts with a class and the wish for it (section 1.4). -/
def zonePost (s : State) (z : ZoneId) (c : Cls) : State := post s (zoneRequester z) c ((s.zones.get z).wish c)

/-! ### Results in THERMOSTAT mode (R8 to R12) -/

/-- The class of a zone's post (R10). -/
def Zone.callClass (r : Zone) (z : ZoneId) : Cls :=
  if r.cls = .recovery ∨ r.closeMark = some .recovery ∨ (z = .freezer ∧ r.postDefrost) then .recovery else .normal

/-- An ABOVE result in IDLE: the zone posts and enters CALLING (R10). -/
def zoneCall (s : State) (z : ZoneId) : State :=
  let c := (s.zones.get z).callClass z
  let t := enterState (s.onZone z fun r => { r with cls := c, closeMark := none, postDefrost := false }) z .calling .call
  handClass (zonePost t z c)

/-- A BELOW result in CALLING or COOLING: the zone withdraws or releases and enters IDLE (R11, R12). -/
def zoneSatisfied (s : State) (z : ZoneId) : State :=
  let t := (standDown s z).onZone z fun r => { r with cls := .normal }
  handClass (enterState t z .idle .satisfied)

/-- A change of class alone: its notice, and the Defrost Unit told (R7). -/
def classChanged (s : State) (z : ZoneId) (before : Cls) : State :=
  if (s.zones.get z).cls = before then s else handClass (postZone s z none)

/-- An INSIDE or BELOW result in IDLE spends the close mark; BELOW makes the class NORMAL (R10). -/
def Zone.idleResult (r : Zone) (b : Band) : Zone :=
  match b with
  | .inside => { r with closeMark := none }
  | .below => { r with closeMark := none, cls := .normal }
  | .above => r

/-- The record after an OK result, with the pull-down check that was still to be made (R8, R10). -/
def Zone.record (r : Zone) (v : Temp) (b : Band) : Zone :=
  let r := { r with lastAir := some v, lastBand := some b }
  if r.checkDue ∧ r.state = .idle then
    { r with checkDue := false, cls := if r.warm then .recovery else r.cls }
  else r

/-- An OK air result (R8 to R12): recorded, then acted on in THERMOSTAT mode. -/
def zoneResult (s : State) (z : ZoneId) (v : Temp) (b : Band) : State :=
  let before := (s.zones.get z).cls
  let t := s.onZone z fun r => r.record v b
  let r := t.zones.get z
  if r.mode = .thermostat then
    if r.state = .idle then
      if b = .above then zoneCall t z else classChanged (t.onZone z fun r => r.idleResult b) z before
    else if (r.state = .calling ∨ r.state = .cooling) ∧ b = .below then zoneSatisfied t z
    else t
  else classChanged t z before

/-! ### TIMED mode (R18 to R20) -/

/-- The timed phase timer at the loss of the sensor (R18). -/
def Zone.faultTimer (r : Zone) : Option PhaseTimer :=
  match r.state with
  | .idle => r.offPhase
  | .calling => r.onPhase
  | .cooling => r.onPhase
  | _ => none

/-- A faulted event of the air channel (R18). -/
def zoneFaulted (s : State) (z : ZoneId) : State :=
  postZone (s.onZone z fun r => { r with mode := .timed, timer := r.faultTimer, closeMark := none }) z none

/-- A recovered event of the air channel (R20). -/
def zoneRecovered (s : State) (z : ZoneId) : State :=
  postZone (s.onZone z fun r => { r with mode := .thermostat, timer := none }) z none

/-- An OFF phase that has run out in IDLE (R19). -/
def offPhaseEnd (s : State) (z : ZoneId) : State :=
  let t := s.onZone z fun r => { r with postDefrost := false, timer := r.onPhase }
  zonePost (enterState t z .calling .call) z .normal

/-- An ON phase that has run out in COOLING (R19). -/
def onPhaseEnd (s : State) (z : ZoneId) : State :=
  enterState ((standDown s z).onZone z fun r => { r with timer := r.offPhase }) z .idle .onTime

/-! ### Doors (R16, R17) -/

/-- An open event (R16). -/
def zoneOpened (s : State) (z : ZoneId) : State :=
  let t := s.onZone z fun r => { r with doorOpenSince := some (r.doorOpenSince.getD s.uptime) }
  let st := (s.zones.get z).state
  if st = .idle ∨ st = .calling ∨ st = .cooling then
    enterState ((standDown t z).onZone z fun r => { r with timer := none }) z .door .doorOpen
  else t

/-- The record of a zone whose last door has closed after `n` seconds (R17). -/
def Zone.closed (r : Zone) (n : Nat) : Zone :=
  let r := { r with doorOpenSince := none }
  if r.state = .door then
    match r.mode with
    | .thermostat => { r with closeMark := some (if Config.recoveryOpen ≤ n then .recovery else .normal) }
    | .timed => { r with timer := r.offPhase }
  else r

/-- A close event (R17). -/
def zoneClosed (s : State) (z : ZoneId) : State :=
  if zoneDoorOpen s.doors z then s
  else
    let r := s.zones.get z
    let n := (r.doorOpenSince.map (elapsed s.uptime)).getD 0
    let t := s.onZone z fun r => r.closed n
    if r.state = .door then enterState t z .idle .doorClosed else t

/-! ### The damper's events (R21, R22) -/

/-- A faulted event of the damper (R21). -/
def drawerFaulted (s : State) : State :=
  let t := s.onZone .drawer fun r => { r with damperFaulted := true }
  match s.zones.drawer.state with
  | .disabled => t
  | .paused => t
  | .fault => t
  | _ => enterState ((standDown t .drawer).onZone .drawer fun r => { r with timer := none }) .drawer .fault .damper

/-- A recovered event of the damper (R22). -/
def drawerRecovered (s : State) : State :=
  let t := s.onZone .drawer fun r => { r with damperFaulted := false }
  if s.zones.drawer.state = .fault then takeUpWork t .drawer .damper else t

/-! ### Enabling and modes (R23 to R25) -/

/-- The marks that an entry to DISABLED or PAUSED clears (R23, R25). -/
def Zone.cleared (r : Zone) : Zone :=
  { r with cls := .normal, closeMark := none, postDefrost := false, timer := none, checkDue := false }

/-- Taking a zone out of service (R23). -/
def zoneDisable (s : State) (z : ZoneId) : State :=
  if (s.zones.get z).state = .disabled then s
  else handClass (enterState ((standDown s z).onZone z Zone.cleared) z .disabled .disable)

/-- Returning a DISABLED zone to service (R24). -/
def zoneEnable (s : State) (z : ZoneId) : State :=
  if (s.zones.get z).state = .disabled then
    if s.ctl.mode = .run then takeUpWork s z .enable else enterState s z .paused .enable
  else s

/-- A zone's part of entering RUN (R25). -/
def zoneRun (s : State) (z : ZoneId) : State :=
  if (s.zones.get z).state = .paused then takeUpWork s z .run else s

/-- A zone's part of leaving RUN (R25). -/
def zonePause (s : State) (z : ZoneId) : State :=
  if (s.zones.get z).state = .disabled then s
  else noteClass (enterState (s.onZone z fun r => { r.cleared with held := false }) z .paused .pause)

end Sys2Proof.Machine
end

