-- ==== Sys2Proof/Machine/Measure.lean ====
section
/-! DEFINITION. The completion of a conversion (03 sections 3.6 to 3.8): the request consumed, the record updated, the
result and the fault events delivered, the MEASURE notice. -/

namespace Sys2Proof.Machine

/-- What a completed conversion gives: the sensor state, and the value with its band position when it is OK (R75, R77). -/
structure Reading where
  sensor : Sensor
  value : Option (Temp × Band)
  deriving DecidableEq, Repr

/-- The reading of a raw code on a channel: the substitute value when there is one, else the code's (R75 to R77, R80). -/
def Channel.reading (r : Channel) (code : BitVec 12) : Reading :=
  match r.substitute with
  | some v => { sensor := .ok, value := some (v, bandOf v r.low r.high) }
  | none =>
    match classify code with
    | .ok =>
      let v := measuredTemp code r.offset
      { sensor := .ok, value := some (v, bandOf v r.low r.high) }
    | x => { sensor := x, value := none }

/-- The channel's flags after a completion: the winner's own is consumed, and JOINT clears both (R66). -/
def Channel.consume (r : Channel) (src : Source) : Channel :=
  match r.policy with
  | .joint => { r with scanFlag := false, injectFlag := false }
  | .single =>
    match src with
    | .scan => { r with scanFlag := false }
    | .inject => { r with injectFlag := false }
    | _ => r

/-- A count of consecutive results raised, saturating at 3 (section 3.8). -/
def bump (n : Nat) : Nat := min (n + 1) 3

/-- The record after a completion (R79, R82, R83). -/
def Channel.record (r : Channel) (src : Source) (code : BitVec 12) (now : Time) : Channel :=
  let x := r.reading code
  let r' := { r with lastRaw := some code, sensor := some (classify code), lastSource := some src, lastTime := some now }
  match x.value with
  | some (v, b) =>
    { r' with lastValue := some v, band := some b, substituted := r.substitute.isSome, bad := 0, good := bump r.good
              faulted := if bump r.good = 3 then false else r.faulted }
  | none =>
    { r' with good := 0, bad := bump r.bad, faulted := if bump r.bad = 3 then true else r.faulted }

/-- The result event to the channel's watcher (R81). -/
def deliver (s : State) (c : Chan) (x : Reading) : State :=
  match c with
  | .freshAir =>
    match x.value with
    | some (v, b) => zoneResult s .fresh v b
    | none => s
  | .drawerAir =>
    match x.value with
    | some (v, b) => zoneResult s .drawer v b
    | none => s
  | .freezerAir =>
    match x.value with
    | some (v, b) => zoneResult s .freezer v b
    | none => s
  | .freshEvap => freshEvapResult s x.sensor (x.value.map (·.2))
  | .freezerEvap => coilResult s x.value
  | .ambient =>
    match x.value with
    | some (_, b) => wishChange s fun k => k.ambientResult b
    | none => s
  | .discharge =>
    match x.value with
    | some (_, b) => dischargeResult s b
    | none => s
  | .aux => s

/-- A faulted event to the watcher (R82). -/
def deliverFaulted (s : State) : Chan → State
  | .freshAir => zoneFaulted s .fresh
  | .drawerAir => zoneFaulted s .drawer
  | .freezerAir => zoneFaulted s .freezer
  | .freshEvap => s
  | .freezerEvap => coilFault s
  | .ambient => wishChange s Budget.ambientFault
  | .discharge => dischargeFault s
  | .aux => s

/-- A recovered event to the watcher (R83). -/
def deliverRecovered (s : State) : Chan → State
  | .freshAir => zoneRecovered s .fresh
  | .drawerAir => zoneRecovered s .drawer
  | .freezerAir => zoneRecovered s .freezer
  | .freshEvap => s
  | .freezerEvap => coilRecover s
  | .ambient => wishChange s Budget.ambientRecover
  | .discharge => dischargeRecover s
  | .aux => s

/-- The sensor fault that a completion declares or ends, `old` being the record before it (R82 to R84). -/
def sensorEvents (s : State) (c : Chan) (old : Channel) (x : Reading) : State :=
  match x.value with
  | none =>
    if bump old.bad = 3 ∧ old.faulted = false then
      deliverFaulted (declareFault s .sensor (.channel c) (some x.sensor)) c
    else s
  | some _ =>
    if bump old.good = 3 ∧ old.faulted then deliverRecovered (endFault s .sensor (.channel c)) c
    else if bump old.good = 3 ∧ old.good ≠ 3 then endFault s .sensor (.channel c)
    else s

/-- The content of a MEASURE notice (R72, section 11.1). -/
def measurePayload (c : Chan) (tag : Byte) (x : Reading) (code : BitVec 12) (substituted : Bool) (now : Time) :
    List Byte :=
  [tag, chanCode c, sensorCode x.sensor] ++ encTempOpt (x.value.map (·.1)) ++ [encOpt bandCode (x.value.map (·.2))]
    ++ be16 (code.setWidth 16) ++ [encBool substituted] ++ be32 now

/-- The MEASURE notice of a LINK entry (R72). -/
def measureNotice (s : State) (v : Conversion) (x : Reading) (code : BitVec 12) : State :=
  match v.tag with
  | some t =>
    postNotice s (.measure t)
      (measurePayload v.chan t x code (s.sched.ch.get v.chan).substituted s.uptime)
  | none => s

/-- The request of a completed conversion consumed and the converter freed (R66). -/
def Scheduler.consume (k : Scheduler) (v : Conversion) : Scheduler :=
  { k with
    ch := k.ch.set v.chan ((k.ch.get v.chan).consume v.source)
    queue := if v.source = .link ∨ v.source = .defrost then k.queue.erase { chan := v.chan, tag := v.tag } else k.queue
    conv := none }

/-- The completion of a conversion (R66). -/
def complete (s : State) (v : Conversion) (code : BitVec 12) : State :=
  let old := s.sched.ch.get v.chan
  let x := old.reading code
  let t := (s.onSched fun k => k.consume v).onChannel v.chan fun r => r.record v.source code s.uptime
  startNext (measureNotice (sensorEvents (deliver t v.chan x) v.chan old x) v x code)

end Sys2Proof.Machine
end

