-- ==== Sys2Proof/Machine/DoorRules.lean ====
section
/-! DEFINITION. The Door Monitor (04 section 4.1): input changes, open and close events, AJAR, and the open seconds. -/

namespace Sys2Proof.Machine

/-- A change of a door's input level (R86). -/
def Door.change (d : Door) (opened : Bool) : Door :=
  if d.input = opened then d
  else { d with input := opened, window := if opened = d.level then none else some Config.debounceMs }

/-- The credit that one open second of a door adds (R108). -/
def doorWeight : DoorId → Nat
  | .freezer => 8
  | .drawer => 4
  | _ => 0

/-- Open seconds handed to the Defrost Unit (R91, R108). -/
def handSeconds (s : State) (d : DoorId) (n : Nat) : State := if n = 0 then s else addCredit s (doorWeight d * n)

/-- A FREEZER door state goes to the Defrost Unit (R88, R90). -/
def freezerDoorTo (s : State) (d : DoorId) (st : DoorState) : State := if d = .freezer then defrostDoor s st else s

/-- An open event (R88). -/
def openEvent (s : State) (d : DoorId) : State :=
  let t := s.onDoor d fun r => { r with state := .opened, openedAt := some s.uptime, delivered := 0 }
  postDoor (freezerDoorTo (airDoor (zoneOpened t (doorZone d)) d .opened) d .opened) d none

/-- The seconds a door has been open (R90). -/
def Door.openFor (r : Door) (now : Time) : Nat := (r.openedAt.map (elapsed now)).getD 0

/-- The inject asked for by the last close of a compartment (R74, R90). -/
def closeInject (s : State) (z : ZoneId) : State := if zoneDoorOpen s.doors z then s else inject s (zoneChan z)

/-- A close event (R90). -/
def closeEvent (s : State) (d : DoorId) : State :=
  let r := s.doors.get d
  let n := r.openFor s.uptime
  let t := s.onDoor d fun r => { r with state := .closed, lastOpen := some n, openedAt := none, delivered := 0 }
  let u := airDoor (closeInject (zoneClosed t (doorZone d)) (doorZone d)) d .closed
  let u := freezerDoorTo u d .closed
  let u := if doorCounted d then handSeconds u d (n - r.delivered) else u
  postDoor u d (some n)

/-- The end of a debounce window (R86). -/
def debounceDone (s : State) (d : DoorId) : State :=
  let r := s.doors.get d
  let t := s.onDoor d fun r => { r with window := none }
  if r.input = r.level then t else if r.input then openEvent t d else closeEvent t d

/-- A door becomes AJAR (R89, R92). -/
def becomeAjar (s : State) (d : DoorId) : State :=
  postDoor (s.onDoor d fun r => { r with state := .ajar }) d (some ((s.doors.get d).openFor s.uptime))

/-- Whether an OPEN door has reached the ajar time (R89). -/
def ajarDue (s : State) (d : DoorId) : Bool :=
  (s.doors.get d).state == .opened && s.doors.ajarTime ≤ (s.doors.get d).openFor s.uptime

def tryAjar (s : State) (d : DoorId) : State := if ajarDue s d then becomeAjar s d else s

/-- Whether sixty more open seconds of a door are to be handed (R91). -/
def deliveryDue (s : State) (d : DoorId) : Bool :=
  doorCounted d && (s.doors.get d).state.isOpen
    && (s.doors.get d).delivered + Config.openSecondsUnit ≤ (s.doors.get d).openFor s.uptime

/-- Sixty open seconds handed (R91). -/
def deliverSeconds (s : State) (d : DoorId) : State :=
  handSeconds (s.onDoor d fun r => { r with delivered := r.delivered + Config.openSecondsUnit }) d Config.openSecondsUnit

end Sys2Proof.Machine
end

