-- ==== Sys2Proof/Machine/Modes.lean ====
section
/-! DEFINITION. Mode Control (08): the changes of mode, and the forces of SERVICE with their interlocks. -/

namespace Sys2Proof.Machine

/-- Applies an act to the three zones in their order. -/
def eachZone (f : State → ZoneId → State) (s : State) : State := ZoneId.all.foldl f s

/-- A change of mode, handed to the blocks in the order of R170. DESIGN CHOICE, unsafe (log 41): what the Load Budget Unit is
handed here (the level-0 report of the stop, the heater's release or cancellation, the mode) counts as events of their own, each
with its own BUDGET notice where it changes something. -/
def setMode (s : State) (m : Mode) : State :=
  let old := s.ctl.mode
  let t := s.onCtl fun c =>
    { c with mode := m, selfStart := none, serviceIdle := if m = .service then some Config.serviceIdle else none }
  let t := if m = .run then eachZone zoneRun t else if old = .run then eachZone zonePause t else t
  let t := if old = .run then arbLeaveRun t else if old = .service then arbLeaveService t else t
  let t := defrostMode t old m
  let t := budgetChange t fun b => b.setMode m
  postStatus (airMode t m) .mode

/-! ### Forces (R178 to R183) -/

/-- The first interlock that holds, in order. -/
def firstLock (l : List (Bool × Interlock)) : Option Interlock := (l.find? (·.1)).map (·.2)

def lockFreshFan (s : State) (on : Bool) : Option Interlock := firstLock [(on && zoneDoorOpen s.doors .fresh, .door)]

def lockFreezerFan (s : State) (on : Bool) : Option Interlock :=
  firstLock [(on && zoneDoorOpen s.doors .freezer, .door), (on && s.defrost.heater != .off, .heatComp)]

def lockDamper (s : State) (e : DamperEnd) : Option Interlock :=
  firstLock [(e == .opened && zoneDoorOpen s.doors .drawer, .door)]

/-- The interlocks of a valve force (R181). -/
def lockValve (s : State) (e : Evap) : Option Interlock :=
  firstLock
    [(s.arb.valve.isStuck, .stuck), (!s.arb.comp.letsMove, .valveSpeed),
     (e == .freeze && s.defrost.heater != .off, .heatComp)]

/-- The interlocks of a compressor force (R180). -/
def lockLevel (s : State) (l : Nat) : Option Interlock :=
  if l = 0 then none
  else firstLock
    [(s.arb.comp.state == .lockout, .lockout), (s.arb.valve.isStuck, .stuck), (s.arb.comp.state == .offLocked, .minOff),
     (s.arb.valve.isMoving && (2 ≤ l || s.arb.comp.state == .offReady), .valveSpeed),
     (s.defrost.heater != .off && s.arb.valve.toward .freeze, .heatComp), (s.arb.budgetCap < l, .budget)]

/-- The interlocks of a defrost heater force (R182). -/
def lockHeater (s : State) (on : Bool) : Option Interlock :=
  let coil := s.sched.ch.get .freezerEvap
  if on then firstLock
    [(s.arb.feedsFreeze || s.air.freezerFan, .heatComp),
     (coil.faulted || coil.lastValue.all (fun v => Config.coilHigh ≤ v), .heatTemp),
     (s.defrost.heater == .off && !s.budget.heaterFits, .budget)]
  else none

/-- The interlock of a mullion heater force (R183). -/
def lockMullion (s : State) (on : Bool) : Option Interlock :=
  firstLock [(on && s.budget.mullion != .on && !s.budget.mullionFits, .budget)]

/-- An admitted valve force (R181). -/
def takeValve (s : State) (e : Evap) : State := advance (s.onArb fun a => { a with forcedValve := some e })

/-- An admitted compressor force (R180). -/
def takeLevel (s : State) (l : Nat) : State :=
  let t := s.onArb fun a => { a with forcedLevel := some l }
  advance (if l = 0 then compStop t else t)

/-- An admitted defrost heater force (R130, R182). -/
def takeHeater (s : State) (on : Bool) : State :=
  if on then (if s.defrost.heater = .off then claimFor s .service else s)
  else if s.defrost.use = some .service then advance (postDefrost (heaterOff s))
  else s

/-- An admitted mullion heater force (R141, R183). -/
def takeMullion (s : State) (on : Bool) : State := wishChange s fun b => { b with force := some on }

/-! ### CLEAR-FAULT at the owners (R160) -/

/-- The clear handed to the arbiter, then to the Air Path Unit (R47, R53, R104). -/
def clearOwners (s : State) : State :=
  damperRecover (valveRecover (if s.arb.comp.state = .lockout then lockoutEnd s else s))

end Sys2Proof.Machine
end

