-- ==== Sys2Proof/Machine/Replies.lean ====
section
/-! DEFINITION. The contents of the replies to the reading requests (10 sections 10.3 to 10.7), each computed from the
state as it stands (R200). -/

namespace Sys2Proof.Machine

/-- The status byte of an OK reply. -/
def okByte : Byte := statusCode .ok

/-- The seconds left of run-on's limit (R201). -/
def runOnLeft (s : State) : Option Nat := s.air.runOn.map fun t => Config.runOnLimit - elapsed s.uptime t

/-- GET-STATE (R201). -/
def replyState (s : State) : List Byte :=
  [okByte, modeCode s.ctl.mode, resetCauseCode s.ctl.resetCause] ++ be32 s.uptime
    ++ encSecOpt s.ctl.selfStart ++ encSecOpt s.ctl.serviceIdle
    ++ [doorStateCode s.doors.left.state, doorStateCode s.doors.right.state, doorStateCode s.doors.drawer.state,
        doorStateCode s.doors.freezer.state, encBool s.air.freshFan, encBool s.air.freezerFan, encBool s.air.condenserFan]
    ++ encSecOpt (runOnLeft s)
    ++ [encBool s.air.permit, damperCode s.air.damper, damperEndCode s.air.target, compStateCode s.arb.comp.state,
        encNum s.arb.comp.level, valveCode s.arb.valve, encOpt evapCode (s.arb.grant.map (·.evap)),
        phaseCode s.defrost.phase, zoneStateCode s.zones.fresh.state, zoneStateCode s.zones.drawer.state,
        zoneStateCode s.zones.freezer.state]

/-- GET-ZONE (R202). -/
def replyZone (z : ZoneId) (r : Zone) : List Byte :=
  [okByte, zoneCode z, encBool r.enabled, zoneStateCode r.state, controlModeCode r.mode, clsCode r.cls]
    ++ encTemp r.setpoint ++ encTemp r.halfBand ++ encTemp r.cutIn ++ encTemp r.cutOut
    ++ [encNum r.normalLevel, encNum r.recoveryLevel] ++ encSec r.onTime ++ encSec r.offTime
    ++ [encOpt profileCode r.profile, encBool r.postDefrost] ++ encTempOpt r.lastAir ++ [encOpt bandCode r.lastBand]
    ++ encTimeOpt r.doorOpenSince ++ [encOpt clsCode r.closeMark, encBool r.held, encBool r.damperFaulted]
    ++ be32 r.enteredAt ++ [encOpt phaseKindCode (r.timer.map (·.kind))] ++ encSecOpt (r.timer.map (·.left))

/-- The target and the attempt of a valve in motion. -/
def valveMotion (v : Valve) : List Byte :=
  match v with
  | .moving e t _ => [evapCode e, attemptCode t]
  | _ => [absent8, absent8]

/-- GET-ARBITER, part MACHINES (R203). -/
def replyMachines (s : State) : List Byte :=
  let a := s.arb
  [okByte, 0, compStateCode a.comp.state, encNum a.comp.level, encNumOpt (a.comp.step.map (·.goal))]
    ++ (if a.comp.state.running_ then encLong (timeRun s.uptime a.comp) else be32 absent32)
    ++ (if a.comp.state = .offLocked then encSec a.comp.minOffLeft else be16 absent16)
    ++ (if a.comp.state = .lockout then encSec a.comp.lockoutLeft else be16 absent16)
    ++ [valveCode a.valve] ++ valveMotion a.valve
    ++ (match a.valve with
        | .stuck n => encSec n
        | _ => be16 absent16)
    ++ [encBool a.hold, encBool a.notFed, encNum a.budgetCap, encNumOpt a.dischargeCap, encOpt bandCode a.dischargePos,
        encNum a.comp.failures, encNumOpt a.forcedLevel, encOpt evapCode a.forcedValve]

/-- A place of the LIST reply (R203). -/
def encPlace (e : Entry) : List Byte :=
  [requesterCode e.requester, evapCode e.evap, clsCode e.cls, encNum e.wish] ++ be32 e.postedAt

/-- `n` places of `k` bytes, those beyond the list filled with 0xFF. -/
def places (n k : Nat) (l : List (List Byte)) : List Byte :=
  (l.take n).flatten ++ List.replicate ((n - l.length) * k) absent8

/-- GET-ARBITER, part LIST (R203). -/
def replyList (a : Arbiter) : List Byte :=
  [okByte, 1, encNum a.list.length] ++ places 4 8 (a.list.map encPlace)

/-- A member's place in the GRANT reply: requester, set, class, wish (R203). -/
def encMember (set : Byte) (m : Member) : List Byte := [requesterCode m.requester, set, clsCode m.cls, encNum m.wish]

/-- GET-ARBITER, part GRANT (R203). -/
def replyGrant (a : Arbiter) : List Byte :=
  match a.grant with
  | some g =>
    [okByte, 2, 1, evapCode g.evap, grantPhaseCode g.phase] ++ encTimeOpt g.activation ++ encTimeOpt g.dwellStart
      ++ [encNum g.target, encNum (g.selected.length + g.holders.length)]
      ++ places 4 4 (g.selected.map (encMember 0) ++ g.holders.map (encMember 1))
  | none => [okByte, 2, 0] ++ List.replicate 28 absent8

/-- READ-CHANNEL (R85). -/
def replyChannel (k : Scheduler) (c : Chan) : List Byte :=
  let r := k.ch.get c
  [okByte, chanCode c, encNum r.period, policyCode r.policy] ++ encTemp r.offset ++ encTemp r.low ++ encTemp r.high
    ++ encTempOpt r.lastValue
    ++ (match r.lastRaw with
        | some x => be16 (x.setWidth 16)
        | none => be16 absent16)
    ++ [encOpt sensorCode r.sensor, encOpt bandCode r.band, encBool r.substituted, encOpt sourceCode r.lastSource]
    ++ encTimeOpt r.lastTime ++ [encNum r.bad, encNum r.good, encBool r.faulted, encBool r.overrun]
    ++ encTempOpt r.substitute ++ [encBool r.scanFlag, encBool r.injectFlag]
    ++ (if r.period = 0 then be16 absent16 else encSec r.countdown)
    ++ [encNum (k.queue.countP fun q => q.chan == c),
        encOpt sourceCode ((k.conv.filter fun v => v.chan == c).map (·.source))]

/-- GET-DEFROST (R204). -/
def replyDefrost (d : Defrost) : List Byte :=
  [okByte, phaseCode d.phase] ++ encLong d.credit ++ encLong d.target ++ [encNum d.current, encNum d.next]
    ++ encTemp d.terminate ++ encSec d.deferral ++ encSec d.prechill ++ encTimeOpt d.waitLimit
    ++ [(if d.hold then 0 else 1), heaterCode d.heater, encOpt heaterUseCode d.use] ++ encSecOpt d.heatClock
    ++ [encBool d.probeFaulted, encBool d.probeLost] ++ encSecOpt d.lastDuration
    ++ [encOpt heatCauseCode d.lastCause, encBool d.interrupted]

/-- GET-BUDGET (R205). -/
def replyBudget (b : Budget) : List Byte :=
  [okByte, encNum b.inForce, encNumOpt b.pending, encNum Config.reserve, encNum b.available, encNum b.level,
   encNum (Config.levelWeight b.level), claimCode b.heater, mullionModeCode b.mullionMode, encBool b.ambientWish,
   encOpt bandCode b.ambientPos, encBool b.ambientFaulted, encOpt mullionForceCode b.force, mullionCode b.mullion,
   encNum b.sum, encNum b.cap]

/-- GET-FAULT from a start index (R165, R207). `more` stands for the more-flag of an empty record (log 7). -/
def replyFault (f : FaultUnit) (start : Nat) (more : Byte) : List Byte :=
  let page := (f.table.drop start).take 2
  [okByte, encNum f.resetCount, encNum (activeCount f.table), encNum (latchedCount f.table)]
    ++ encCapture f.capture more ++ [encNum start, encNum page.length] ++ (page.map encEntry).flatten

end Sys2Proof.Machine
end

