-- ==== Sys2Proof/Machine/Requests.lean ====
section
/-! DEFINITION. The requests at their execution (10): each owner's checks, its acts, and the reply it forms. An answer is
the state and the payload of the reply, its status byte first (R196). -/

namespace Sys2Proof.Machine

abbrev Answer := State × List Byte

/-- A refusal: the status alone, and nothing changed (R196). -/
def refuse (s : State) (x : Status) : Answer := (s, [statusCode x])

/-- An OK reply with the status alone. -/
def done (s : State) : Answer := (s, [okByte])

/-- A reply with content. -/
def answer (s : State) (p : List Byte) : Answer := (s, p)

/-! ### Mode and reset requests (R171 to R176) -/

def doStart (s : State) : Answer := if s.ctl.mode = .hold then done (setMode s .run) else refuse s .wrongState

def doStop (s : State) : Answer :=
  match s.ctl.mode with
  | .run => done (setMode s .hold)
  | .hold => done (s.onCtl fun c => { c with selfStart := none })
  | .service => refuse s .wrongState

def doServiceEnter (s : State) : Answer :=
  if s.ctl.mode = .hold then done (setMode s .service) else refuse s .wrongState

def doServiceExit (s : State) : Answer :=
  if s.ctl.mode = .service then done (setMode s .hold) else refuse s .wrongState

/-- RESET: the waiting requests are discarded, and no further request is executed (R176). -/
def doReset (s : State) : Answer := done (s.onLink fun l => { l with resetTaken := true, waiting := [] })

/-! ### SET-ZONE (R1 to R3, R23, R24) -/

/-- The fields of a SET-ZONE after its zone byte. -/
structure ZoneFields where
  carried : Byte
  enabled : Byte
  setpoint : Half
  halfBand : Half
  normalLevel : Byte
  recoveryLevel : Byte
  onTime : Half
  offTime : Half
  profile : Byte
  deriving DecidableEq, Repr

/-- The setpoint range of a drawer profile (section 1.2). -/
def Profile.inRange (p : Profile) (t : Temp) : Bool :=
  match p with
  | .chill => tempInRange t (-10) 30
  | .cold => tempInRange t (-30) 0
  | .soft => tempInRange t (-80) (-40)

/-- The drawer profile in force after the request. -/
def ZoneFields.profileAfter (f : ZoneFields) (r : Zone) : Option Profile :=
  if carries f.carried 7 then profileOf f.profile else r.profile

/-- The setpoint after the request (R2, R3). -/
def ZoneFields.setpointAfter (f : ZoneFields) (r : Zone) : Temp :=
  if carries f.carried 1 then decTemp f.setpoint
  else if carries f.carried 7 then
    match profileOf f.profile with
    | some p => p.setpoint
    | none => r.setpoint
  else r.setpoint

/-- The setpoint's check: FRESH and FREEZER by their own range, DRAWER by the profile in force after the request (R2). -/
def ZoneFields.setpointOk (f : ZoneFields) (z : ZoneId) (r : Zone) : Bool :=
  match z with
  | .fresh => checkCarried f.carried 1 (tempInRange (decTemp f.setpoint) 10 70)
  | .freezer => checkCarried f.carried 1 (tempInRange (decTemp f.setpoint) (-240) (-140))
  | .drawer =>
    match f.profileAfter r with
    | some p => p.inRange (f.setpointAfter r)
    | none => false

/-- The half-band's range (section 1.2). -/
def halfBandOk (z : ZoneId) (t : Temp) : Bool :=
  match z with
  | .freezer => tempInRange t 5 30
  | _ => tempInRange t 3 25

/-- The whole check of a SET-ZONE (R2). -/
def ZoneFields.ok (f : ZoneFields) (z : ZoneId) (r : Zone) : Bool :=
  checkCarried f.carried 0 (boolOf f.enabled).isSome
    && f.setpointOk z r
    && checkCarried f.carried 2 (halfBandOk z (decTemp f.halfBand))
    && checkCarried f.carried 3 (inRange f.normalLevel.toNat 1 5)
    && checkCarried f.carried 4 (inRange f.recoveryLevel.toNat 1 5)
    && checkCarried f.carried 5 (inRange f.onTime.toNat 60 7200)
    && checkCarried f.carried 6 (inRange f.offTime.toNat 60 7200)
    && checkCarried f.carried 7 (z == .drawer && (profileOf f.profile).isSome)

/-- The record with all carried settings taken together (R2, R3). -/
def ZoneFields.apply (f : ZoneFields) (r : Zone) : Zone :=
  { r with
    enabled := if carries f.carried 0 then (boolOf f.enabled).getD r.enabled else r.enabled
    setpoint := f.setpointAfter r
    halfBand := if carries f.carried 2 then decTemp f.halfBand else r.halfBand
    normalLevel := if carries f.carried 3 then f.normalLevel.toNat else r.normalLevel
    recoveryLevel := if carries f.carried 4 then f.recoveryLevel.toNat else r.recoveryLevel
    onTime := if carries f.carried 5 then f.onTime.toNat else r.onTime
    offTime := if carries f.carried 6 then f.offTime.toNat else r.offTime
    profile := f.profileAfter r }

/-- Hands a zone's boundaries when a setpoint, half-band or profile is taken (R1). -/
def zoneBounds (s : State) (z : ZoneId) (carried : Byte) : State :=
  if carries carried 1 ∨ carries carried 2 ∨ carries carried 7 then
    setBounds s (zoneChan z) ((s.zones.get z).cutOut, (s.zones.get z).cutIn)
  else s

/-- The effect of a carried `enabled` (R23, R24). -/
def zoneEnabled (s : State) (z : ZoneId) (f : ZoneFields) : State :=
  if carries f.carried 0 then
    match boolOf f.enabled with
    | some true => zoneEnable s z
    | some false => zoneDisable s z
    | none => s
  else s

/-- A CALLING or COOLING zone posts again when the level for its present class has changed (R3). -/
def zoneRepost (s : State) (z : ZoneId) (old : Zone) : State :=
  let r := s.zones.get z
  if (r.state = .calling ∨ r.state = .cooling) ∧ r.wish r.postClass ≠ old.wish r.postClass then zonePost s z r.postClass
  else s

/-- SET-ZONE (R2). -/
def doSetZone (s : State) (zone : Byte) (f : ZoneFields) : Answer :=
  match zoneOf zone with
  | none => refuse s .badValue
  | some z =>
    let old := s.zones.get z
    if f.ok z old then
      done (zoneRepost (zoneEnabled (zoneBounds (s.onZone z f.apply) z f.carried) z f) z old)
    else refuse s .badValue

def doGetZone (s : State) (zone : Byte) : Answer :=
  match zoneOf zone with
  | none => refuse s .badValue
  | some z => answer s (replyZone z (s.zones.get z))

/-! ### SET-TIMING and GET-ARBITER (R57, R203) -/

structure TimingFields where
  carried : Byte
  minOff : Half
  minOn : Half
  minDwell : Half
  maxWait : Half
  maxRun : Half
  deriving DecidableEq, Repr

def TimingFields.ok (f : TimingFields) : Bool :=
  carriesOnly f.carried 5
    && checkCarried f.carried 0 (inRange f.minOff.toNat 180 900)
    && checkCarried f.carried 1 (inRange f.minOn.toNat 60 600)
    && checkCarried f.carried 2 (inRange f.minDwell.toNat 60 1200)
    && checkCarried f.carried 3 (inRange f.maxWait.toNat 300 3600)
    && checkCarried f.carried 4 (inRange f.maxRun.toNat 600 7200)

def TimingFields.apply (f : TimingFields) (t : Timing) : Timing :=
  { minOff := if carries f.carried 0 then f.minOff.toNat else t.minOff
    minOn := if carries f.carried 1 then f.minOn.toNat else t.minOn
    minDwell := if carries f.carried 2 then f.minDwell.toNat else t.minDwell
    maxWait := if carries f.carried 3 then f.maxWait.toNat else t.maxWait
    maxRun := if carries f.carried 4 then f.maxRun.toNat else t.maxRun }

/-- Whether an expiry of a carried time falls at or before the uptime (R57). -/
def expiryPast (a : Arbiter) (now : Time) (carried : Byte) : Bool :=
  (carries carried 2 && (a.grant.bind (·.dwellStart)).any (fun t => a.timing.minDwell ≤ elapsed now t))
    || (carries carried 3 && a.list.any (fun e => a.timing.maxWait ≤ elapsed now e.postedAt))
    || (carries carried 4 && (a.grant.bind (·.activation)).any (fun t => a.timing.maxRun ≤ elapsed now t))

/-- SET-TIMING (R57). -/
def doSetTiming (s : State) (f : TimingFields) : Answer :=
  if f.ok then
    let t := s.onArb fun a => { a with timing := f.apply a.timing }
    done (if expiryPast t.arb t.uptime f.carried then switchCheck t else t)
  else refuse s .badValue

def doGetArbiter (s : State) (part : Byte) : Answer :=
  match part.toNat with
  | 0 => answer s (replyMachines s)
  | 1 => answer s (replyList s.arb)
  | 2 => answer s (replyGrant s.arb)
  | _ => refuse s .badValue

/-! ### SET-BUDGET (R145 to R147) -/

structure BudgetFields where
  carried : Byte
  budget : Byte
  mode : Byte
  deriving DecidableEq, Repr

def BudgetFields.ok (f : BudgetFields) : Bool :=
  carriesOnly f.carried 2 && checkCarried f.carried 0 (inRange f.budget.toNat 20 40)
    && checkCarried f.carried 1 (mullionModeOf f.mode).isSome

/-- The budget taken first, then the mode, and the wish evaluated anew (R145). -/
def BudgetFields.apply (f : BudgetFields) (b : Budget) : Budget :=
  let b := if carries f.carried 0 then b.takeBudget f.budget.toNat else b
  ({ b with mullionMode := if carries f.carried 1 then (mullionModeOf f.mode).getD b.mullionMode else b.mullionMode } :
    Budget).unwish

/-- SET-BUDGET: one settling and at most one notice (R145); a carried set of 0 changes nothing (R199). -/
def doSetBudget (s : State) (f : BudgetFields) : Answer :=
  if f.ok then (if f.carried = 0 then done s else done (budgetChange s f.apply)) else refuse s .badValue

/-! ### Measurement (R62, R68, R70, R73, R78, R85) -/

structure ChannelFields where
  carried : Byte
  period : Byte
  policy : Byte
  offset : Half
  deriving DecidableEq, Repr

def ChannelFields.ok (f : ChannelFields) : Bool :=
  carriesOnly f.carried 3 && checkCarried f.carried 1 (policyOf f.policy).isSome
    && checkCarried f.carried 2 (tempInRange (decTemp f.offset) (-50) 50)

/-- The carried settings taken together; a carried period reloads or stops the countdown (R62, R68). -/
def ChannelFields.apply (f : ChannelFields) (r : Channel) : Channel :=
  { r with
    period := if carries f.carried 0 then f.period.toNat else r.period
    countdown := if carries f.carried 0 then f.period.toNat else r.countdown
    policy := if carries f.carried 1 then (policyOf f.policy).getD r.policy else r.policy
    offset := if carries f.carried 2 then decTemp f.offset else r.offset }

def doSetChannel (s : State) (channel : Byte) (f : ChannelFields) : Answer :=
  match chanOf channel with
  | none => refuse s .badValue
  | some c => if f.ok then done (s.onChannel c f.apply) else refuse s .badValue

/-- READ-CHANNEL: overrun becomes no once the reply has been formed (R85). -/
def doReadChannel (s : State) (channel : Byte) : Answer :=
  match chanOf channel with
  | none => refuse s .badValue
  | some c => answer (s.onChannel c fun r => { r with overrun := false }) (replyChannel s.sched c)

/-- MEASURE: value, tag and room are checked in this order (R70). -/
def doMeasure (s : State) (tag channel : Byte) : Answer :=
  match chanOf channel with
  | none => refuse s .badValue
  | some c =>
    if s.sched.tags.contains tag then refuse s .tagInUse
    else if Config.maxLinkTags ≤ s.sched.tags.length then refuse s .queueFull
    else answer (queueLink s c tag) [statusCode .accepted]

def doClearQueue (s : State) : Answer := answer (clearLinks s) [okByte, encNum s.sched.links.length]

/-- The carried substitute value: a temperature, or "none" (R78). -/
def substituteOf (v : Half) : Option Temp := if v = absentTemp then none else some (decTemp v)

/-- SUBSTITUTE: DENIED for FREEZER_EVAP and DISCHARGE (R78). -/
def doSubstitute (s : State) (channel : Byte) (value : Half) : Answer :=
  match chanOf channel with
  | none => refuse s .badValue
  | some c =>
    if (substituteOf value).all (fun t => tempInRange t Config.tempMin Config.tempMax) then
      if c = .freezerEvap ∨ c = .discharge then refuse s .denied
      else done (s.onChannel c fun r => { r with substitute := substituteOf value })
    else refuse s .badValue

/-! ### Defrost (R125 to R127) -/

structure DefrostFields where
  carried : Byte
  interval : Byte
  terminate : Half
  deriving DecidableEq, Repr

def DefrostFields.ok (f : DefrostFields) : Bool :=
  carriesOnly f.carried 2 && checkCarried f.carried 0 (inRange f.interval.toNat 4 96)
    && checkCarried f.carried 1 (tempInRange (decTemp f.terminate) 40 150)

def DefrostFields.apply (f : DefrostFields) (d : Defrost) : Defrost :=
  { d with next := if carries f.carried 0 then f.interval.toNat else d.next
           terminate := if carries f.carried 1 then decTemp f.terminate else d.terminate }

/-- SET-DEFROST: a terminate temperature taken in HEAT or DRIP hands the boundaries; a change posts a notice (R127). -/
def doSetDefrost (s : State) (f : DefrostFields) : Answer :=
  if f.ok then
    let t := s.onDefrost f.apply
    let t := if carries f.carried 1 ∧ (s.defrost.phase = .heat ∨ s.defrost.phase = .drip) then defrostBounds t else t
    done (if t.defrost.next = s.defrost.next ∧ t.defrost.terminate = s.defrost.terminate then t else postDefrost t)
  else refuse s .badValue

/-- DEFROST START (R125). -/
def doDefrostStart (s : State) : Answer :=
  if s.defrost.phase = .idle then done (dueTest (s.onDefrost fun d => { d with credit := d.target }))
  else refuse s .wrongState

/-- DEFROST ABORT (R126). -/
def doDefrostAbort (s : State) : Answer :=
  match s.defrost.phase with
  | .due => done (becomeIdle (s.onDefrost fun d => { d with credit := 0 }))
  | .prechill =>
    done (becomeIdle ((defrostWithdraw s).onDefrost fun d => { d with credit := 0, prechill := 0, waitLimit := none }))
  | .heat => done (heatEnd s .abort)
  | _ => refuse s .wrongState

/-- DEFROST: the action is checked before the phase (R125, R197). -/
def doDefrost (s : State) (action : Byte) : Answer :=
  match action.toNat with
  | 0 => doDefrostStart s
  | 1 => doDefrostAbort s
  | _ => refuse s .badValue

/-! ### Faults (R159 to R162, R207) -/

/-- GET-FAULT; a reply with an empty capture record uses up a free value (log 7). -/
def doGetFault (s : State) (index : Option Byte) : Answer :=
  let start := (index.map BitVec.toNat).getD 0
  if 15 < start then refuse s .badValue
  else answer (if s.fault.capture.isNone then takeFree s else s) (replyFault s.fault start (Config.freeMore s.free))

/-- Whether a CLEAR-FAULT naming `o` (none: ALL) removes an entry (R161). -/
def clears (o : Option FaultObject) (e : FaultEntry) : Bool := !e.active && o.all (fun x => e.object == x)

/-- The object that a CLEAR-FAULT names: ALL, or one object; none for a value out of range (R159). -/
def clearObject (b : Byte) : Option (Option FaultObject) :=
  if b = 0xFF then some none else (faultObjectOf b).map some

/-- The table and the capture record cleared, with a notice when either changed (R160 to R162). -/
def clearRecord (s : State) (o : Option FaultObject) : State :=
  let t := s.onFault fun f => { f with table := f.table.filter fun e => !clears o e, capture := none }
  if s.fault.table.any (clears o) ∨ s.fault.capture.isSome then postFault t .cleared none else t

/-- CLEAR-FAULT (R159, R160). -/
def doClearFault (s : State) (object : Byte) : Answer :=
  match clearObject object with
  | none => refuse s .badValue
  | some o =>
    let removed := s.fault.table.countP (clears o)
    answer (clearOwners (clearRecord s o)) [okByte, encNum removed, encNum (s.fault.table.length - removed)]

/-! ### SET-NOTICE (R208) -/

structure NoticeFields where
  carried : Byte
  mapStatus : Byte
  mapZone : Byte
  mapDoor : Byte
  mapDefrost : Byte
  mapMeasure : Byte
  mapBudget : Byte
  quiet : Byte
  urgentWeight : Byte
  routineWeight : Byte
  spacing : Half
  period : Half
  ajar : Half
  deriving DecidableEq, Repr

/-- The carried map: none when a byte is above 1. -/
def NoticeFields.map (f : NoticeFields) : Option NoticeMap :=
  match queueOf f.mapStatus, queueOf f.mapZone, queueOf f.mapDoor, queueOf f.mapDefrost, queueOf f.mapMeasure,
    queueOf f.mapBudget with
  | some a, some b, some c, some d, some e, some g =>
    some { status := a, zone := b, door := c, defrost := d, measure := e, budget := g }
  | _, _, _, _, _, _ => none

def NoticeFields.ok (f : NoticeFields) : Bool :=
  carriesOnly f.carried 7 && checkCarried f.carried 0 f.map.isSome
    && checkCarried f.carried 1 (boolOf f.quiet).isSome
    && checkCarried f.carried 2 (inRange f.urgentWeight.toNat 1 8)
    && checkCarried f.carried 3 (inRange f.routineWeight.toNat 1 8)
    && checkCarried f.carried 4 (inRange f.spacing.toNat 0 1000)
    && checkCarried f.carried 5 (inRange f.period.toNat 0 3600)
    && checkCarried f.carried 6 (inRange f.ajar.toNat 30 600)

/-- The Notice Unit's settings; a carried period reloads the status timer at once (R213). -/
def NoticeFields.apply (f : NoticeFields) (n : NoticeUnit) : NoticeUnit :=
  { n with
    map := if carries f.carried 0 then f.map.getD n.map else n.map
    quiet := if carries f.carried 1 then (boolOf f.quiet).getD n.quiet else n.quiet
    urgentWeight := if carries f.carried 2 then f.urgentWeight.toNat else n.urgentWeight
    routineWeight := if carries f.carried 3 then f.routineWeight.toNat else n.routineWeight
    spacing := if carries f.carried 4 then f.spacing.toNat else n.spacing
    period := if carries f.carried 5 then f.period.toNat else n.period
    statusLeft := if carries f.carried 5 then loadStatus f.period.toNat else n.statusLeft }

/-- Whether the running spacing has reached its setting (R194). -/
def spacingOver (s : State) : Bool := s.link.spacing.any (fun n => s.notice.spacing ≤ n)

/-- The end of the ROUTINE spacing: a frame boundary of an idle transmitter, whose choice is made at the end of the event
(R192, R194, log 36). No spacing then runs until the next ROUTINE notice has been sent (log 37). -/
def endSpacing (s : State) : State :=
  s.onLink fun l => { l with spacing := none, boundary := l.tx.isNone || l.boundary }

/-- A new ajar time: the doors in OPEN that have reached it become AJAR at once (R89), in the order LEFT, RIGHT, DRAWER,
FREEZER (the model's choice, log 32). -/
def setAjar (s : State) (n : Nat) : State :=
  DoorId.all.foldl tryAjar { s with doors := { s.doors with ajarTime := n } }

/-- SET-NOTICE (R208). A spacing that it ends lets the reply be chosen first (log 36). A longer spacing taken when none runs
takes effect at the next ROUTINE notice (log 37). -/
def doSetNotice (s : State) (f : NoticeFields) : Answer :=
  if f.ok then
    let t := s.onNotice f.apply
    let t := if carries f.carried 4 ∧ spacingOver t then endSpacing t else t
    done (if carries f.carried 6 then setAjar t f.ajar.toNat else t)
  else refuse s .badValue

/-! ### SERVICE-FORCE (R178, R209) -/

/-- A force: its value, then the mode, then the interlocks are checked (R178). The interlocks are checked also for a force
equal to the one standing (the model's choice, log 35). -/
def doForce {α : Type} (s : State) (value : Option α) (lock : α → Option Interlock) (take : α → State) : Answer :=
  match value with
  | none => refuse s .badValue
  | some v =>
    if s.ctl.mode = .service then
      match lock v with
      | some i => (s, [statusCode .denied, interlockCode i])
      | none => done (take v)
    else refuse s .wrongState

/-- The levels that a compressor force takes. -/
def levelOf (b : Byte) : Option Nat := if b.toNat ≤ 5 then some b.toNat else none

def doForceFreshFan (s : State) (v : Byte) : Answer :=
  doForce s (boolOf v) (lockFreshFan s) fun on => airInput s fun a => { a with freshForce := some on }

def doForceFreezerFan (s : State) (v : Byte) : Answer :=
  doForce s (boolOf v) (lockFreezerFan s) fun on => airInput s fun a => { a with freezerForce := some on }

def doForceCondenserFan (s : State) (v : Byte) : Answer :=
  doForce s (boolOf v) (fun _ => none) fun on => airInput s fun a => { a with condenserForce := some on }

def doForceDamper (s : State) (v : Byte) : Answer :=
  doForce s (damperEndOf v) (lockDamper s) fun e => airInput s fun a => { a with damperForce := some e }

def doForceValve (s : State) (v : Byte) : Answer := doForce s (evapOf v) (lockValve s) (takeValve s)

def doForceLevel (s : State) (v : Byte) : Answer := doForce s (levelOf v) (lockLevel s) (takeLevel s)

def doForceHeater (s : State) (v : Byte) : Answer := doForce s (boolOf v) (lockHeater s) (takeHeater s)

def doForceMullion (s : State) (v : Byte) : Answer := doForce s (boolOf v) (lockMullion s) (takeMullion s)

/-- SERVICE-FORCE by its output byte (R209). -/
def doServiceForce (s : State) (output v : Byte) : Answer :=
  match output.toNat with
  | 0 => doForceFreshFan s v
  | 1 => doForceFreezerFan s v
  | 2 => doForceCondenserFan s v
  | 3 => doForceDamper s v
  | 4 => doForceValve s v
  | 5 => doForceLevel s v
  | 6 => doForceHeater s v
  | 7 => doForceMullion s v
  | _ => refuse s .badValue

end Sys2Proof.Machine
end

