-- ==== Sys2Proof/Machine/Link.lean ====
section
/-! DEFINITION. The Serial Link Interface (09) and the execution of a request (R191, R197), the resets (R175, R176), and the
end of a command. -/

namespace Sys2Proof.Machine

/-! ### Execution of a request -/

/-- The byte of a payload at a place. -/
def Frame.byte (f : Frame) (n : Nat) : Byte := f.payload.getD n 0

/-- The two-byte field of a payload that begins at a place. -/
def Frame.field (f : Frame) (n : Nat) : Half := half (f.byte n) (f.byte (n + 1))

/-- The fields of a SET-ZONE. -/
def Frame.zoneFields (f : Frame) : ZoneFields :=
  { carried := f.byte 1, enabled := f.byte 2, setpoint := f.field 3, halfBand := f.field 5, normalLevel := f.byte 7
    recoveryLevel := f.byte 8, onTime := f.field 9, offTime := f.field 11, profile := f.byte 13 }

/-- The fields of a SET-TIMING. -/
def Frame.timingFields (f : Frame) : TimingFields :=
  { carried := f.byte 0, minOff := f.field 1, minOn := f.field 3, minDwell := f.field 5, maxWait := f.field 7
    maxRun := f.field 9 }

/-- The fields of a SET-NOTICE. -/
def Frame.noticeFields (f : Frame) : NoticeFields :=
  { carried := f.byte 0, mapStatus := f.byte 1, mapZone := f.byte 2, mapDoor := f.byte 3, mapDefrost := f.byte 4
    mapMeasure := f.byte 5, mapBudget := f.byte 6, quiet := f.byte 7, urgentWeight := f.byte 8, routineWeight := f.byte 9
    spacing := f.field 10, period := f.field 12, ajar := f.field 14 }

/-- The owner of a request of a known kind and of a length its kind takes (10 section 10.1). -/
def handle (s : State) (f : Frame) : Answer :=
  match f.kind.toNat with
  | 0x01 => answer s (replyState s)
  | 0x02 => doStart s
  | 0x03 => doStop s
  | 0x04 => doReset s
  | 0x08 => doSetZone s (f.byte 0) f.zoneFields
  | 0x09 => doGetZone s (f.byte 0)
  | 0x0A => doSetTiming s f.timingFields
  | 0x0B => doGetArbiter s (f.byte 0)
  | 0x0C => doSetBudget s { carried := f.byte 0, budget := f.byte 1, mode := f.byte 2 }
  | 0x0D => answer s (replyBudget s.budget)
  | 0x10 => doSetChannel s (f.byte 0) { carried := f.byte 1, period := f.byte 2, policy := f.byte 3, offset := f.field 4 }
  | 0x11 => doReadChannel s (f.byte 0)
  | 0x12 => doMeasure s f.tag (f.byte 0)
  | 0x13 => doClearQueue s
  | 0x14 => doSubstitute s (f.byte 0) (f.field 1)
  | 0x18 => doSetDefrost s { carried := f.byte 0, interval := f.byte 1, terminate := f.field 2 }
  | 0x19 => answer s (replyDefrost s.defrost)
  | 0x1A => doDefrost s (f.byte 0)
  | 0x20 => doGetFault s f.payload.head?
  | 0x21 => doClearFault s (f.byte 0)
  | 0x24 => doSetNotice s f.noticeFields
  | 0x28 => doServiceEnter s
  | 0x29 => doServiceExit s
  | 0x2A => doServiceForce s (f.byte 0) (f.byte 1)
  | _ => refuse s .badKind

/-- The service idle timer restarted by a request that reaches its owner in SERVICE (R174, R197). -/
def restartIdle (s : State) : State :=
  if s.ctl.mode = .service then s.onCtl fun c => { c with serviceIdle := some Config.serviceIdle } else s

/-- The interface's two checks, then the owner (R197). The service idle timer is restarted before the owner acts, so a GET-STATE
shows it in full (the model's choice, log 38). -/
def judge (s : State) (f : Frame) : Answer :=
  match takenLengths f.kind with
  | none => refuse s .badKind
  | some ls => if ls.contains f.payload.length then handle (restartIdle s) f else refuse s .badLength

/-- A reply frame (R196). -/
def replyFrame (f : Frame) (p : List Byte) : Frame := { kind := replyKind f.kind, tag := f.tag, payload := p }

/-- What a reply to a frame answers: a RESET once it has been taken, else the request in the execution place (R176). -/
def replyKindOf (s : State) : ReplyKind := if s.link.resetTaken then .reset else .answer

/-- The READY request executed: it becomes ANSWERED and its reply is appended (R191). -/
def execute (s : State) (f : Frame) : State :=
  let r := judge s f
  appendReply (r.1.onLink fun l => { l with place := some { frame := f, answered := true } }) (replyFrame f r.2)
    (replyKindOf r.1)

/-- A READY request is executed when the reply list has a free place (R191). -/
def executeReady (s : State) : State :=
  match s.link.place with
  | some p => if p.answered = false ∧ s.link.replies.length < Config.maxReplies then execute s p.frame else s
  | none => s

/-! ### The end of a command -/

/-- Whether two states differ in what brings a feeding check (R55). -/
def feedingMoved (s t : State) : Bool :=
  !(s.arb.comp.state == t.arb.comp.state && s.arb.valve == t.arb.valve && s.arb.grant == t.arb.grant)

/-- The feeding check made again after an event that changed the compressor state, the valve or the grant (R55). -/
def recheck (s t : State) : State := if feedingMoved s t then feedingCheck t else t

/-- The end of a command that led from `s` to `t`: the feeding check (R55), the boundary that came in it (R192), and a
READY request for which a reply place has become free (R191). DESIGN CHOICE, unsafe (log 42): the feeding check that a request
brings is made after its reply has been appended, so an idle transmitter sends no notice of that check before the reply. -/
def finish (s t : State) : State :=
  let u := settleLink (recheck s t)
  settleLink (recheck u (executeReady u))

/-! ### The inbound request list (R190) -/

/-- The BUSY reply to a frame (R190). -/
def busyReply (s : State) (f : Frame) : State :=
  if s.link.replies.length < Config.maxReplies then appendReply s (replyFrame f [statusCode .busy]) .busy else s

/-- A good frame joins the inbound request list (R190; after a RESET it is discarded, R176). -/
def handFrame (s : State) (f : Frame) : State :=
  if s.link.resetTaken then s
  else
    match s.link.place with
    | none => executeReady (s.onLink fun l => { l with place := some { frame := f, answered := false } })
    | some _ =>
      if s.link.waiting.length < Config.maxWaiting then s.onLink fun l => { l with waiting := l.waiting ++ [f] }
      else busyReply s f

/-! ### The receiver (R185 to R189) -/

/-- The receiver back in HUNT, a partial frame discarded. -/
def dropPartial (s : State) : State := s.onLink fun l => { l with rx := Receiver.hunting }

/-- A received frame with its check judged; none for a bad one (R186). -/
def judgeFrame (bytes : List Byte) : Option Frame :=
  match bytes with
  | n :: k :: t :: rest =>
    let p := rest.take n.toNat
    if rest.drop n.toNat = be16 (crc (n :: k :: t :: p)) then some { kind := k, tag := t, payload := p } else none
  | _ => none

/-- The receiver once the tag has come (R187). -/
def afterTag (bytes : List Byte) : Receiver :=
  let n := (bytes.headD 0).toNat
  if n = 0 then { phase := .check, bytes := bytes, toCome := 0, gap := 0 }
  else { phase := .body, bytes := bytes, toCome := n, gap := 0 }

/-- The receiver after a character, with the whole frame's bytes when it is complete (R187). -/
def Receiver.take (r : Receiver) (c : Byte) : Receiver × Option (List Byte) :=
  let bs := r.bytes ++ [c]
  match r.phase with
  | .hunt => (if c = 0xA5 then { phase := .header, bytes := [], toCome := 0, gap := 0 } else Receiver.hunting, none)
  | .header =>
    if r.bytes = [] ∧ Config.maxPayload < c.toNat then (Receiver.hunting, none)
    else if bs.length = 3 then (afterTag bs, none)
    else ({ r with bytes := bs, gap := 0 }, none)
  | .body =>
    ({ phase := if r.toCome ≤ 1 then .check else .body, bytes := bs, toCome := r.toCome - 1, gap := 0 }, none)
  | .check =>
    if bs.length = (r.bytes.headD 0).toNat + 5 then (Receiver.hunting, some bs)
    else ({ r with bytes := bs, gap := 0 }, none)

/-- A character taken by the receiver; a good frame goes to the inbound request list (R187). -/
def takeCharacter (s : State) (c : Byte) : State :=
  let r := s.link.rx.take c
  let t := s.onLink fun l => { l with rx := r.1 }
  match r.2.bind judgeFrame with
  | some f => handFrame t f
  | none => t

/-! ### Resets (R175, R176) -/

/-- Every block at its power-on values, with the pins and the model's own fields as they stand (R175). -/
def freshState (s : State) : State :=
  { State.base s.doors.left.input s.doors.right.input s.doors.drawer.input s.doors.freezer.input s.pins with
    free := s.free, pending := s.pending }

/-- A power-on reset, and the STATUS notice that follows it (R175, R210). -/
def powerOn (s : State) : State := postStatus (freshState s) .reset

/-- What the Defrost Unit keeps at a commanded reset (R132). -/
def Defrost.kept (d : Defrost) : Defrost :=
  { Defrost.reset with
    credit := if d.phase.working then d.target else d.credit
    current := d.current, next := d.next, lastDuration := d.lastDuration, lastCause := d.lastCause
    interrupted := d.phase.working }

/-- What the Fault Unit keeps at a commanded reset (R168). -/
def FaultUnit.kept (f : FaultUnit) : FaultUnit := { f with resetCount := min (f.resetCount + 1) 255 }

/-- The ends that the owners hand after a commanded reset (R58, R105, R132, R168), in the order in which R168 names them (the
model's choice, log 34). -/
def ownersEnds (s : State) : State :=
  let t := endFault s .compLockout .compressor
  let t := if t.arb.valve.at.isSome then endFault t .valveTravel .valve else t
  let t := if t.air.damper = .resting .closed then endFault t .damperTravel .damper else t
  endFault t .defrostOvertemp .heater

/-- A commanded reset: the blocks, the STATUS notice, the FAULT notice of what is kept, the owners' ends, and a defrost
that is due again (R176, R168, R132). -/
def commanded (s : State) : State :=
  let t := { freshState s with
             ctl := Control.reset .commanded, defrost := s.defrost.kept, fault := s.fault.kept }
  let t := postStatus t .reset
  let t := if t.fault.table ≠ [] ∨ t.fault.capture.isSome then postFault t .reset none else t
  dueTest (ownersEnds t)

/-! ### The transmitter (R192, R194) -/

/-- The execution place freed: the oldest waiting request moves up and is executed (R191). -/
def moveUp (s : State) : State :=
  match s.link.waiting with
  | f :: rest =>
    executeReady (s.onLink fun l => { l with place := some { frame := f, answered := false }, waiting := rest })
  | [] => s.onLink fun l => { l with place := none }

/-- A sent notice reported: a ROUTINE one begins the spacing, a MEASURE one releases its tag (R194, R214). The spacing that
then runs is the only one that a later setting can lengthen (log 37). -/
def noticeSent (s : State) (k : NoticeKey) (q : Queue) : State :=
  let t := s.onLink fun l => { l with spacing := if q = .routine ∧ s.notice.spacing ≠ 0 then some 0 else l.spacing }
  match k with
  | .measure tag => releaseTag t tag
  | _ => t

/-- What the end of a frame brings before the transmit choice (R191, R192, R194). -/
def frameEnd (s : State) : Sent → State
  | .reply .answer => moveUp s
  | .reply .busy => s
  | .reply .reset => s
  | .notice k q => noticeSent s k q

/-- The end of the last byte of the frame in transmission (R192); that of a RESET reply is the reset (R176). -/
def frameSent (s : State) : State :=
  match s.link.tx with
  | some t =>
    if t.what = .reply .reset then commanded s
    else transmitChoice ((frameEnd s t.what).onLink fun l => { l with tx := none })
  | none => s

end Sys2Proof.Machine
end

