-- ==== Sys2Proof/Machine/Clock.lean ====
section
/-! DEFINITION. The passing of time (log 2): one millisecond of the part, the second boundary, and the commands that have
become due. -/

namespace Sys2Proof.Machine

/-! ### What counts in a millisecond -/

def Door.tick (d : Door) : Door := { d with window := d.window.map (· - 1) }

def Doors.tick (d : Doors) : Doors :=
  { d with left := d.left.tick, right := d.right.tick, drawer := d.drawer.tick, freezer := d.freezer.tick }

def Conversion.tick (v : Conversion) : Conversion := { v with left := v.left - 1 }

def Receiver.tick (r : Receiver) : Receiver := if r.phase = .hunt then r else { r with gap := r.gap + 1 }

def Sending.tick (t : Sending) : Sending := { t with left := t.left - Config.unitsPerMs }

def Link.tick (l : Link) : Link :=
  { l with rx := l.rx.tick, tx := l.tx.map Sending.tick, spacing := l.spacing.map (· + 1) }

/-! ### What counts in a second -/

/-- The timed phase timer: an OFF phase counts in IDLE, an ON phase in COOLING (R19). -/
def Zone.tick (r : Zone) : Zone :=
  { r with timer := r.timer.map fun t =>
      if (t.kind = .off ∧ r.state = .idle) ∨ (t.kind = .on ∧ r.state = .cooling) then { t with left := t.left - 1 } else t }

def Compressor.tick (c : Compressor) : Compressor :=
  { c with
    step := c.step.map fun t => { t with left := t.left - 1 }
    minOffLeft := if c.state = .offLocked then c.minOffLeft - 1 else c.minOffLeft
    startLeft := if c.state = .starting then c.startLeft - 1 else c.startLeft
    lockoutLeft := if c.state = .lockout then c.lockoutLeft - 1 else c.lockoutLeft }

def Valve.tick (v : Valve) : Valve :=
  match v with
  | .moving e t n => .moving e t (n - 1)
  | .stuck n => .stuck (n - 1)
  | .resting e => .resting e

def Damper.tick (d : Damper) : Damper :=
  match d with
  | .travelling e t n => .travelling e t (n - 1)
  | .resting e => .resting e
  | .failed => .failed

def Channel.tick (r : Channel) : Channel := { r with countdown := r.countdown - 1 }

def Channels.tick (k : Channels) : Channels :=
  { c0 := k.c0.tick, c1 := k.c1.tick, c2 := k.c2.tick, c3 := k.c3.tick, c4 := k.c4.tick, c5 := k.c5.tick
    c6 := k.c6.tick, c7 := k.c7.tick }

/-- The counts of the Defrost Unit: deferral in DUE and RUN, prechill while served, the heat clock while the heater is ON
in HEAT (R111, R112, R116). DESIGN CHOICE, unsafe (log 39): the deferral count does not pass its limit of 7200. The spec gives
no outcome where a STOP is taken between the second that makes it 7200 and the DEFERRAL_LIMIT of that second: the count then
stays 7200 in HOLD or SERVICE, and the defrost goes to HEAT at the first second back in RUN. -/
def Defrost.tick (d : Defrost) : Defrost :=
  { d with
    deferral := if d.phase = .due ∧ d.mode = .run then min (d.deferral + 1) Config.deferralLimit else d.deferral
    prechill := if d.phase = .prechill ∧ d.served then d.prechill + 1 else d.prechill
    heatClock := if d.phase = .heat ∧ d.heater = .on then d.heatClock.map (· + 1) else d.heatClock }

def Control.tick (c : Control) : Control :=
  { c with selfStart := c.selfStart.map (· - 1), serviceIdle := c.serviceIdle.map (· - 1) }

/-- A second of the part: the uptime rises and every timer in seconds counts (00 "Time"). -/
def secondTick (s : State) : State :=
  { s with
    uptime := s.uptime + 1
    ctl := s.ctl.tick
    zones := { fresh := s.zones.fresh.tick, drawer := s.zones.drawer.tick, freezer := s.zones.freezer.tick }
    arb := { s.arb with comp := s.arb.comp.tick, valve := s.arb.valve.tick }
    sched := { s.sched with ch := s.sched.ch.tick }
    air := { s.air with damper := s.air.damper.tick }
    defrost := s.defrost.tick
    notice := { s.notice with statusLeft := s.notice.statusLeft.map (· - 1) } }

/-- A millisecond of the part, with the second that it may complete. -/
def msTick (s : State) : State :=
  let t := { s with
    doors := s.doors.tick, link := s.link.tick
    sched := { s.sched with conv := s.sched.conv.map Conversion.tick } }
  if s.ms + 1 = 1000 then secondTick { t with ms := 0 } else { t with ms := s.ms + 1 }

/-! ### When a command of time is due -/

def windowDue (s : State) (d : DoorId) : Bool := (s.doors.get d).window == some 0

/-- Whether the gap within a frame can have exceeded its limit: 10 whole milliseconds since the end of the last character
(R188, log 21). -/
def gapDue (s : State) : Bool := s.link.rx.phase != .hunt && Config.gapMs ≤ s.link.rx.gap

/-- Whether no character that began within the gap's limit can still end: a character takes less than a millisecond (R188,
log 21). -/
def gapOver (s : State) : Bool := s.link.rx.phase != .hunt && Config.gapMs + 1 ≤ s.link.rx.gap

def frameDue (s : State) : Bool := s.link.tx.any fun t => t.left == 0

def phaseDue (s : State) (z : ZoneId) (k : PhaseKind) (st : ZoneState) : Bool :=
  let r := s.zones.get z
  r.mode == .timed && r.state == st && r.timer == some { kind := k, left := 0 }

/-- The second at which the grant's minimum dwell expires (R35). -/
def dwellDue (s : State) : Bool :=
  s.arb.grant.any fun g => g.phase == .active && g.dwellStart.any fun t => elapsed s.uptime t == s.arb.timing.minDwell

/-- The second at which an entry's maximum wait expires (R35). -/
def waitDue (s : State) (r : Requester) : Bool :=
  s.arb.list.any fun e => e.requester == r && elapsed s.uptime e.postedAt == s.arb.timing.maxWait

/-- The second at which the grant's maximum run expires (R35). -/
def runDue (s : State) : Bool :=
  s.arb.grant.any fun g => g.activation.any fun t => elapsed s.uptime t == s.arb.timing.maxRun

/-- Whether a run second is to be reported (R37). -/
def runSecondDue (s : State) : Bool := s.arb.comp.state.running_ && s.arb.valve == .resting .freeze

def minOffDue (s : State) : Bool := s.arb.comp.state == .offLocked && s.arb.comp.minOffLeft == 0

def windowEndDue (s : State) : Bool := s.arb.comp.state == .starting && s.arb.comp.startLeft == 0

def stepDue (s : State) : Bool := s.arb.comp.step.any fun t => t.left == 0

def runoutDue (s : State) : Bool :=
  s.arb.comp.state == .runout && s.arb.timing.minOn ≤ timeRun s.uptime s.arb.comp

def clearCountDue (s : State) : Bool :=
  s.arb.comp.state.running_ && s.arb.comp.failures != 0 && Config.failureClear ≤ timeRun s.uptime s.arb.comp

def lockoutDue (s : State) : Bool := s.arb.comp.state == .lockout && s.arb.comp.lockoutLeft == 0

/-- The target and attempt of a valve move whose check has ended (R51). -/
def valveCheckDue (s : State) : Option (Evap × Attempt) :=
  match s.arb.valve with
  | .moving e t 0 => some (e, t)
  | _ => none

def stuckDue (s : State) : Bool := s.arb.valve == .stuck 0

def scanDue (s : State) (c : Chan) : Bool :=
  (s.sched.ch.get c).period != 0 && (s.sched.ch.get c).countdown == 0

def runOnDue (s : State) : Bool := s.air.runOn.any fun t => Config.runOnLimit ≤ elapsed s.uptime t

/-- The attempt of a damper travel whose check has ended (R102, R104). -/
def damperCheckDue (s : State) : Option Attempt :=
  match s.air.damper with
  | .travelling _ t 0 => some t
  | _ => none

/-- The deferral count at its limit in DUE, while the part is in RUN (R111); a count left at its limit by a STOP is due again
at the first second back in RUN (log 39). -/
def deferralDue (s : State) : Bool :=
  s.defrost.phase == .due && s.defrost.mode == .run && Config.deferralLimit ≤ s.defrost.deferral

def prechillDue (s : State) : Bool := s.defrost.phase == .prechill && Config.prechillTime ≤ s.defrost.prechill

def waitLimitDue (s : State) : Bool := s.defrost.phase == .prechill && s.defrost.waitLimit.any (reached s.uptime)

def sampleDue (s : State) : Bool := s.defrost.phase == .heat && s.defrost.sampleTimer.any (reached s.uptime)

def heatDue (s : State) : Bool :=
  s.defrost.phase == .heat && s.defrost.heatClock.any fun n => Config.maxHeat ≤ n

def dripDue (s : State) : Bool := s.defrost.phase == .drip && s.defrost.dripTimer.any (reached s.uptime)

def recoverDue (s : State) : Bool := s.defrost.phase == .recover && s.defrost.recoveryLimit.any (reached s.uptime)

/-! ### The commands that a tick puts on the queue -/

/-- A command that is put on the queue when it is due. -/
def when_ (due : Bool) (c : Instr) : List Instr := if due then [c] else []

/-- The commands due in milliseconds. -/
def dueMs (s : State) : List Instr :=
  DoorId.all.flatMap (fun d => when_ (windowDue s d) (.debounceEnd d))
    ++ when_ (gapOver s) .gapTimeout ++ when_ (frameDue s) .frameTransmitted
    ++ when_ (spacingOver s) .routineSpacingEnd

/-- The commands due at a second: those of Mode Control, the zones and the arbiter. -/
def dueSecondA (s : State) : List Instr :=
  when_ (s.ctl.selfStart == some 0) .selfStartExpiry ++ when_ (s.ctl.serviceIdle == some 0) .serviceIdleExpiry
    ++ when_ (s.notice.statusLeft == some 0) .statusTimerExpiry
    ++ ZoneId.all.flatMap (fun z => when_ (phaseDue s z .off .idle) (.offPhaseExpiry z))
    ++ ZoneId.all.flatMap (fun z => when_ (phaseDue s z .on .cooling) (.onPhaseExpiry z))
    ++ when_ (dwellDue s) .minDwellExpiry
    ++ Requester.all.flatMap (fun r => when_ (waitDue s r) (.maxWaitExpiry r))
    ++ when_ (runDue s) .maxRunExpiry ++ when_ (runSecondDue s) .runSecond ++ when_ (minOffDue s) .minOffExpiry
    ++ when_ (windowEndDue s) .startWindowEnd ++ when_ (stepDue s) .stepEnd ++ when_ (runoutDue s) .runoutEnd
    ++ when_ (clearCountDue s) .failureCountReset ++ when_ (lockoutDue s) .lockoutExpiry
    ++ when_ (valveCheckDue s).isSome .valveCheckEnd ++ when_ (stuckDue s) .stuckRecoveryExpiry

/-- The commands due at a second: those of the scheduler, the doors, the air paths and the Defrost Unit. -/
def dueSecondB (s : State) : List Instr :=
  Chan.all.flatMap (fun c => when_ (scanDue s c) (.scanExpiry c))
    ++ DoorId.all.flatMap (fun d => when_ (ajarDue s d) (.ajarExpiry d))
    ++ DoorId.all.flatMap (fun d => when_ (deliveryDue s d) (.openSecondsDelivery d))
    ++ when_ (runOnDue s) .runOnLimit ++ when_ (damperCheckDue s).isSome .damperCheckEnd
    ++ when_ (deferralDue s) .deferralLimit ++ when_ (prechillDue s) .prechillDone
    ++ when_ (waitLimitDue s) .prechillWaitLimit ++ when_ (sampleDue s) .sampleTimerExpiry
    ++ when_ (heatDue s) .heatClockLimit ++ when_ (dripDue s) .dripTimerExpiry
    ++ when_ (recoverDue s) .recoveryLimitExpiry

/-- Every command that is due; those in seconds only at a second boundary. -/
def dueCommands (s : State) : List Instr := dueMs s ++ (if s.ms = 0 then dueSecondA s ++ dueSecondB s else [])

/-- A list in the order that the free values from index `k` on give: either of coincident events may be first (log 5). -/
def arrange (k : Nat) : List Instr → List Instr
  | [] => []
  | [c] => [c]
  | c :: rest => (arrange (k + 1) rest).insertIdx (Config.freeOrder k % (rest.length + 1)) c

/-- What the part does with no command waiting: a millisecond passes, and the commands that have become due are put on the
queue (log 2). -/
def tick (s : State) : State :=
  let t := msTick s
  let due := dueCommands t
  { t with pending := arrange t.free due, free := t.free + due.length }

end Sys2Proof.Machine
end

