-- ==== Sys2Proof/Machine/RequestRows.lean ====
section
/-! DEFINITION. The meanings of the request commands: each is the request's frame handed to the inbound request list (R190,
log 4), with the layout of its payload (10). -/

namespace Sys2Proof.Machine

/-- The outcome of a command whose effect is `t`, with the end of the command (R55, R191, R192). -/
def outcome (s t : State) : Host.Outcome State Fault Refusal := .next (finish s t)

/-- A request's frame. -/
def request (kind tag : Byte) (payload : List Byte) : Frame := { kind := kind, tag := tag, payload := payload }

/-- A request command: its frame is handed to the inbound request list. -/
def runRequest (s : State) (f : Frame) : Host.Outcome State Fault Refusal := outcome s (handFrame s f)

/-- GET_STATE (R201). -/
def execGetState (tag : Byte) (s : State) : Host.Outcome State Fault Refusal :=
  runRequest s (request 0x01 tag [])

/-- START (R171). -/
def execStart (tag : Byte) (s : State) : Host.Outcome State Fault Refusal :=
  runRequest s (request 0x02 tag [])

/-- STOP (R172). -/
def execStop (tag : Byte) (s : State) : Host.Outcome State Fault Refusal :=
  runRequest s (request 0x03 tag [])

/-- RESET (R176). -/
def execReset (tag : Byte) (s : State) : Host.Outcome State Fault Refusal :=
  runRequest s (request 0x04 tag [])

/-- SET_ZONE (R2). -/
def execSetZone (tag : Byte) (zone carried enabled : Byte) (setpoint halfBand : Half) (normalLevel recoveryLevel : Byte) (onTime offTime : Half) (profile : Byte) (s : State) : Host.Outcome State Fault Refusal :=
  runRequest s (request 0x08 tag ([zone, carried, enabled] ++ be16 setpoint ++ be16 halfBand ++ [normalLevel, recoveryLevel] ++ be16 onTime
      ++ be16 offTime ++ [profile]))

/-- GET_ZONE (R202). -/
def execGetZone (tag : Byte) (zone : Byte) (s : State) : Host.Outcome State Fault Refusal :=
  runRequest s (request 0x09 tag ([zone]))

/-- SET_TIMING (R57). -/
def execSetTiming (tag : Byte) (carried : Byte) (minOff minOn minDwell maxWait maxRun : Half) (s : State) : Host.Outcome State Fault Refusal :=
  runRequest s (request 0x0A tag ([carried] ++ be16 minOff ++ be16 minOn ++ be16 minDwell ++ be16 maxWait ++ be16 maxRun))

/-- GET_ARBITER (R203). -/
def execGetArbiter (tag : Byte) (part : Byte) (s : State) : Host.Outcome State Fault Refusal :=
  runRequest s (request 0x0B tag ([part]))

/-- SET_BUDGET (R145). -/
def execSetBudget (tag : Byte) (carried budget mode : Byte) (s : State) : Host.Outcome State Fault Refusal :=
  runRequest s (request 0x0C tag ([carried, budget, mode]))

/-- GET_BUDGET (R205). -/
def execGetBudget (tag : Byte) (s : State) : Host.Outcome State Fault Refusal :=
  runRequest s (request 0x0D tag [])

/-- SET_CHANNEL (R62). -/
def execSetChannel (tag : Byte) (channel carried period policy : Byte) (offset : Half) (s : State) : Host.Outcome State Fault Refusal :=
  runRequest s (request 0x10 tag ([channel, carried, period, policy] ++ be16 offset))

/-- READ_CHANNEL (R85). -/
def execReadChannel (tag : Byte) (channel : Byte) (s : State) : Host.Outcome State Fault Refusal :=
  runRequest s (request 0x11 tag ([channel]))

/-- MEASURE (R70). -/
def execMeasure (tag : Byte) (channel : Byte) (s : State) : Host.Outcome State Fault Refusal :=
  runRequest s (request 0x12 tag ([channel]))

/-- CLEAR_QUEUE (R73). -/
def execClearQueue (tag : Byte) (s : State) : Host.Outcome State Fault Refusal :=
  runRequest s (request 0x13 tag [])

/-- SUBSTITUTE (R78). -/
def execSubstitute (tag : Byte) (channel : Byte) (value : Half) (s : State) : Host.Outcome State Fault Refusal :=
  runRequest s (request 0x14 tag ([channel] ++ be16 value))

/-- SET_DEFROST (R127). -/
def execSetDefrost (tag : Byte) (carried interval : Byte) (terminate : Half) (s : State) : Host.Outcome State Fault Refusal :=
  runRequest s (request 0x18 tag ([carried, interval] ++ be16 terminate))

/-- GET_DEFROST (R204). -/
def execGetDefrost (tag : Byte) (s : State) : Host.Outcome State Fault Refusal :=
  runRequest s (request 0x19 tag [])

/-- DEFROST_START (R125). -/
def execDefrostStart (tag : Byte) (s : State) : Host.Outcome State Fault Refusal :=
  runRequest s (request 0x1A tag [0])

/-- DEFROST_ABORT (R126). -/
def execDefrostAbort (tag : Byte) (s : State) : Host.Outcome State Fault Refusal :=
  runRequest s (request 0x1A tag [1])

/-- GET_FAULT (R207). -/
def execGetFault (tag : Byte) (index : Option Byte) (s : State) : Host.Outcome State Fault Refusal :=
  runRequest s (request 0x20 tag (index.toList))

/-- CLEAR_FAULT (R160). -/
def execClearFault (tag : Byte) (object : Byte) (s : State) : Host.Outcome State Fault Refusal :=
  runRequest s (request 0x21 tag ([object]))

/-- SET_NOTICE (R208). -/
def execSetNotice (tag : Byte) (carried mapStatus mapZone mapDoor mapDefrost mapMeasure mapBudget quiet urgentWeight routineWeight : Byte) (spacing period ajar : Half) (s : State) : Host.Outcome State Fault Refusal :=
  runRequest s (request 0x24 tag ([carried, mapStatus, mapZone, mapDoor, mapDefrost, mapMeasure, mapBudget, quiet, urgentWeight, routineWeight]
      ++ be16 spacing ++ be16 period ++ be16 ajar))

/-- SERVICE_ENTER (R173). -/
def execServiceEnter (tag : Byte) (s : State) : Host.Outcome State Fault Refusal :=
  runRequest s (request 0x28 tag [])

/-- SERVICE_EXIT (R174). -/
def execServiceExit (tag : Byte) (s : State) : Host.Outcome State Fault Refusal :=
  runRequest s (request 0x29 tag [])

/-- FORCE_FRESH_FAN (R179). -/
def execForceFreshFan (tag : Byte) (value : Byte) (s : State) : Host.Outcome State Fault Refusal :=
  runRequest s (request 0x2A tag ([0, value]))

/-- FORCE_FREEZER_FAN (R179). -/
def execForceFreezerFan (tag : Byte) (value : Byte) (s : State) : Host.Outcome State Fault Refusal :=
  runRequest s (request 0x2A tag ([1, value]))

/-- FORCE_CONDENSER_FAN (R179). -/
def execForceCondenserFan (tag : Byte) (value : Byte) (s : State) : Host.Outcome State Fault Refusal :=
  runRequest s (request 0x2A tag ([2, value]))

/-- FORCE_DAMPER_TARGET (R179). -/
def execForceDamperTarget (tag : Byte) (value : Byte) (s : State) : Host.Outcome State Fault Refusal :=
  runRequest s (request 0x2A tag ([3, value]))

/-- FORCE_VALVE_TARGET (R181). -/
def execForceValveTarget (tag : Byte) (value : Byte) (s : State) : Host.Outcome State Fault Refusal :=
  runRequest s (request 0x2A tag ([4, value]))

/-- FORCE_COMPRESSOR_LEVEL (R180). -/
def execForceCompressorLevel (tag : Byte) (value : Byte) (s : State) : Host.Outcome State Fault Refusal :=
  runRequest s (request 0x2A tag ([5, value]))

/-- FORCE_DEFROST_HEATER (R182). -/
def execForceDefrostHeater (tag : Byte) (value : Byte) (s : State) : Host.Outcome State Fault Refusal :=
  runRequest s (request 0x2A tag ([6, value]))

/-- FORCE_MULLION_HEATER (R183). -/
def execForceMullionHeater (tag : Byte) (value : Byte) (s : State) : Host.Outcome State Fault Refusal :=
  runRequest s (request 0x2A tag ([7, value]))

/-- BAD_KIND (R197). -/
def execBadKind (tag : Byte) (kind : Byte) (payload : List Byte) (s : State) : Host.Outcome State Fault Refusal :=
  runRequest s (request kind tag payload)

/-- BAD_LENGTH (R197). -/
def execBadLength (tag kind : Byte) (payload : List Byte) (s : State) : Host.Outcome State Fault Refusal :=
  runRequest s (request kind tag payload)

end Sys2Proof.Machine
end

