-- ==== Sys2Proof/Machine/LineRows.lean ====
section
/-! DEFINITION. The meanings of the line's events, the resets, and the timers of Mode Control and the Notice Unit. An event
whose condition does not hold changes nothing (log 6). -/

namespace Sys2Proof.Machine

/-- An event that acts when its condition holds (log 6). -/
def runWhen (s : State) (due : Bool) (t : State) : Host.Outcome State Fault Refusal := outcome s (if due then t else s)

/-- RECEIVE_CHARACTER (R187). -/
def execReceiveCharacter (char : Byte) (s : State) : Host.Outcome State Fault Refusal := outcome s (takeCharacter s char)

/-- FRAMING_ERROR (R185). -/
def execFramingError (s : State) : Host.Outcome State Fault Refusal := outcome s (dropPartial s)

/-- LINE_BREAK (R189, R177). -/
def execLineBreak (s : State) : Host.Outcome State Fault Refusal := outcome s (dropPartial s)

/-- GAP_TIMEOUT (R188). -/
def execGapTimeout (s : State) : Host.Outcome State Fault Refusal := runWhen s (gapDue s) (dropPartial s)

/-- FRAME_TRANSMITTED (R192). -/
def execFrameTransmitted (s : State) : Host.Outcome State Fault Refusal := outcome s (frameSent s)

/-- ROUTINE_SPACING_END (R194). -/
def execRoutineSpacingEnd (s : State) : Host.Outcome State Fault Refusal := runWhen s (spacingOver s) (endSpacing s)

/-- POWER_ON_RESET (R175). -/
def execPowerOnReset (s : State) : Host.Outcome State Fault Refusal := outcome s (powerOn s)

/-- COMMANDED_RESET: it takes place at the end of the RESET reply (R176). -/
def execCommandedReset (s : State) : Host.Outcome State Fault Refusal :=
  runWhen s (s.link.tx.any fun t => t.what == .reply .reset) (commanded s)

/-- SELF_START_EXPIRY (R171). -/
def execSelfStartExpiry (s : State) : Host.Outcome State Fault Refusal :=
  runWhen s (s.ctl.mode == .hold && s.ctl.selfStart == some 0) (setMode s .run)

/-- SERVICE_IDLE_EXPIRY (R174). -/
def execServiceIdleExpiry (s : State) : Host.Outcome State Fault Refusal :=
  runWhen s (s.ctl.mode == .service && s.ctl.serviceIdle == some 0) (setMode s .hold)

/-- STATUS_TIMER_EXPIRY (R213). -/
def execStatusTimerExpiry (s : State) : Host.Outcome State Fault Refusal :=
  runWhen s (s.notice.statusLeft == some 0) (postStatus s .period)

end Sys2Proof.Machine
end

