-- ==== Sys2Proof/Machine/ArbiterRows.lean ====
section
/-! DEFINITION. The meanings of the events of the zones' timers and of the Cooling Arbiter. An event whose condition does
not hold changes nothing (log 6). -/

namespace Sys2Proof.Machine

/-- OFF_PHASE_EXPIRY (R19). -/
def execOffPhaseExpiry (zone : ZoneId) (s : State) : Host.Outcome State Fault Refusal :=
  runWhen s (phaseDue s zone .off .idle) (offPhaseEnd s zone)

/-- ON_PHASE_EXPIRY (R19). -/
def execOnPhaseExpiry (zone : ZoneId) (s : State) : Host.Outcome State Fault Refusal :=
  runWhen s (phaseDue s zone .on .cooling) (onPhaseEnd s zone)

/-- MIN_DWELL_EXPIRY (R35). -/
def execMinDwellExpiry (s : State) : Host.Outcome State Fault Refusal := runWhen s (dwellDue s) (switchCheck s)

/-- MAX_WAIT_EXPIRY (R35). -/
def execMaxWaitExpiry (requester : Requester) (s : State) : Host.Outcome State Fault Refusal :=
  runWhen s (waitDue s requester) (switchCheck s)

/-- MAX_RUN_EXPIRY (R35). -/
def execMaxRunExpiry (s : State) : Host.Outcome State Fault Refusal := runWhen s (runDue s) (switchCheck s)

/-- RUN_SECOND (R37). -/
def execRunSecond (s : State) : Host.Outcome State Fault Refusal := runWhen s (runSecondDue s) (runSecond s)

/-- MIN_OFF_EXPIRY (R38). -/
def execMinOffExpiry (s : State) : Host.Outcome State Fault Refusal :=
  runWhen s (minOffDue s) (advance (setComp s .offReady))

/-- Run feedback present at the pin. -/
def feedback (s : State) (on : Bool) : State := s.onPins fun p => { p with feedback := on }

/-- RUN_FEEDBACK: in STARTING the start succeeds, else the feedback is disregarded (R39, R45). -/
def execRunFeedback (s : State) : Host.Outcome State Fault Refusal :=
  outcome s (if s.arb.comp.state = .starting then startSuccess (feedback s true) else feedback s true)

/-- START_WINDOW_END (R40). -/
def execStartWindowEnd (s : State) : Host.Outcome State Fault Refusal := runWhen s (windowEndDue s) (fail s .compStart)

/-- STEP_END (R41). -/
def execStepEnd (s : State) : Host.Outcome State Fault Refusal :=
  runWhen s (stepDue s) (stepDone s ((s.arb.comp.step.map (·.goal)).getD s.arb.comp.level))

/-- RUNOUT_END (R44). -/
def execRunoutEnd (s : State) : Host.Outcome State Fault Refusal := runWhen s (runoutDue s) (compStop s)

/-- TRIP: loss of run feedback; in RUNNING or RUNOUT a failure, an ACTIVE grant going back to PREPARING (R45). -/
def execTrip (s : State) : Host.Outcome State Fault Refusal :=
  outcome s (if s.arb.comp.state.running_ then unserve (fail (feedback s false) .compTrip) else feedback s false)

/-- FAILURE_COUNT_RESET (R46). -/
def execFailureCountReset (s : State) : Host.Outcome State Fault Refusal :=
  runWhen s (clearCountDue s) (s.onComp fun c => { c with failures := 0 })

/-- LOCKOUT_EXPIRY (R47). -/
def execLockoutExpiry (s : State) : Host.Outcome State Fault Refusal := runWhen s (lockoutDue s) (lockoutEnd s)

/-- Whether a valve move is confirmed by what the end switch shows (R50). -/
def confirmed (s : State) (shown : Option Evap) : Option Evap :=
  match s.arb.valve with
  | .moving e _ _ => if shown = some e then some e else none
  | _ => none

/-- END_SWITCH_CONFIRM: what the end switch shows; the target of a move confirms it, anything else is disregarded (R50). -/
def execEndSwitchConfirm (shown : Option Evap) (s : State) : Host.Outcome State Fault Refusal :=
  let t := s.onPins fun p => { p with endSwitch := shown }
  outcome s (match confirmed s shown with
    | some e => valveArrive t e
    | none => t)

/-- VALVE_CHECK_END (R51). -/
def execValveCheckEnd (s : State) : Host.Outcome State Fault Refusal :=
  outcome s (match valveCheckDue s with
    | some (e, t) => valveMiss s e t
    | none => s)

/-- STUCK_RECOVERY_EXPIRY (R53). -/
def execStuckRecoveryExpiry (s : State) : Host.Outcome State Fault Refusal := runWhen s (stuckDue s) (valveRecover s)

end Sys2Proof.Machine
end

