-- ==== Sys2Proof/Machine/UnitRows.lean ====
section
/-! DEFINITION. The meanings of the events of the Measurement Scheduler, the Door Monitor, the Air Path Unit and the
Defrost Unit. An event whose condition does not hold changes nothing (log 6). -/

namespace Sys2Proof.Machine

/-- CONVERSION_COMPLETE: the raw code of the conversion in flight, 20 ms after its start (R64, R66). -/
def execConversionComplete (code : BitVec 12) (s : State) : Host.Outcome State Fault Refusal :=
  outcome s (match s.sched.conv with
    | some v => if v.left = 0 then complete s v code else s
    | none => s)

/-- SCAN_EXPIRY (R67). -/
def execScanExpiry (channel : Chan) (s : State) : Host.Outcome State Fault Refusal :=
  runWhen s (scanDue s channel) (scanExpiry s channel)

/-- DOOR_INPUT_CHANGE: what the door's switch reads (R86). -/
def execDoorInputChange (door : DoorId) (opened : Bool) (s : State) : Host.Outcome State Fault Refusal :=
  outcome s (s.onDoor door fun d => d.change opened)

/-- DEBOUNCE_END (R86). -/
def execDebounceEnd (door : DoorId) (s : State) : Host.Outcome State Fault Refusal :=
  runWhen s (windowDue s door) (debounceDone s door)

/-- AJAR_EXPIRY (R89). -/
def execAjarExpiry (door : DoorId) (s : State) : Host.Outcome State Fault Refusal :=
  runWhen s (ajarDue s door) (becomeAjar s door)

/-- OPEN_SECONDS_DELIVERY (R91). -/
def execOpenSecondsDelivery (door : DoorId) (s : State) : Host.Outcome State Fault Refusal :=
  runWhen s (deliveryDue s door) (deliverSeconds s door)

/-- RUN_ON_LIMIT (R96). -/
def execRunOnLimit (s : State) : Host.Outcome State Fault Refusal := runWhen s (runOnDue s) (endRunOn s)

/-- A confirmed damper travel; a recovery attempt also hands the recovered event to the DRAWER zone, and then the target is
evaluated (R101, R104). -/
def damperArrive (s : State) (e : DamperEnd) (t : Attempt) : State :=
  let u := damperConfirm s e
  airInput (if t = .recovery then drawerRecovered u else u) fun a => a

/-- DAMPER_POSITION_SWITCH: what the position switch shows; the end travelled to confirms, anything else does not (R101). -/
def execDamperPositionSwitch (shown : Option DamperEnd) (s : State) : Host.Outcome State Fault Refusal :=
  let u := s.onPins fun p => { p with damperSwitch := shown }
  outcome s (match s.air.damper with
    | .travelling e t _ => if shown = some e then damperArrive u e t else u
    | _ => u)

/-- A travel check that ends without confirmation (R102, R104). -/
def damperMiss (s : State) : Attempt → State
  | .first => s.onAir fun a => { a with damper := .travelling a.target .second Config.damperCheck }
  | .second =>
    drawerFaulted (declareFault (s.onAir fun a => { a with damper := .failed }) .damperTravel .damper none)
  | .recovery => s.onAir fun a => { a with damper := .failed }

/-- DAMPER_CHECK_END (R102). -/
def execDamperCheckEnd (s : State) : Host.Outcome State Fault Refusal :=
  outcome s (match damperCheckDue s with
    | some t => damperMiss s t
    | none => s)

/-- DEFERRAL_LIMIT (R111). -/
def execDeferralLimit (s : State) : Host.Outcome State Fault Refusal := runWhen s (deferralDue s) (heatEntry s)

/-- PRECHILL_DONE (R113). -/
def execPrechillDone (s : State) : Host.Outcome State Fault Refusal :=
  runWhen s (prechillDue s) (heatEntry (defrostWithdraw s))

/-- PRECHILL_WAIT_LIMIT (R114). -/
def execPrechillWaitLimit (s : State) : Host.Outcome State Fault Refusal :=
  runWhen s (waitLimitDue s) (heatEntry (defrostWithdraw s))

/-- SAMPLE_TIMER_EXPIRY (R118). -/
def execSampleTimerExpiry (s : State) : Host.Outcome State Fault Refusal :=
  runWhen s (sampleDue s) (queueDefrost (s.onDefrost fun d => { d with sampleTimer := none }))

/-- HEAT_CLOCK_LIMIT: DEFROST_TIMEOUT is declared and ended, and HEAT ends with cause TIME (R120, R156). -/
def execHeatClockLimit (s : State) : Host.Outcome State Fault Refusal :=
  runWhen s (heatDue s)
    (heatEnd (endFault (declareFault s .defrostTimeout .heater none) .defrostTimeout .heater) .time)

/-- DRIP_TIMER_EXPIRY (R122). -/
def execDripTimerExpiry (s : State) : Host.Outcome State Fault Refusal := runWhen s (dripDue s) (dripEnd s)

/-- RECOVERY_LIMIT_EXPIRY (R123). -/
def execRecoveryLimitExpiry (s : State) : Host.Outcome State Fault Refusal := runWhen s (recoverDue s) (recoverEnd s)

end Sys2Proof.Machine
end

