-- ==== Sys2Proof/Machine/Dispatch.lean ====
section
/-! DEFINITION. One arm for each command: a direct call of its meaning. -/

namespace Sys2Proof.Machine

def exec (i : Instr) (s : State) : Host.Outcome State Fault Refusal :=
  match i with
  | .getState tag => Sys2Proof.Machine.execGetState tag s
  | .start tag => Sys2Proof.Machine.execStart tag s
  | .stop tag => Sys2Proof.Machine.execStop tag s
  | .reset tag => Sys2Proof.Machine.execReset tag s
  | .setZone tag zone carried enabled setpoint halfBand normalLevel recoveryLevel onTime offTime profile => Sys2Proof.Machine.execSetZone tag zone carried enabled setpoint halfBand normalLevel recoveryLevel onTime offTime profile s
  | .getZone tag zone => Sys2Proof.Machine.execGetZone tag zone s
  | .setTiming tag carried minOff minOn minDwell maxWait maxRun => Sys2Proof.Machine.execSetTiming tag carried minOff minOn minDwell maxWait maxRun s
  | .getArbiter tag part => Sys2Proof.Machine.execGetArbiter tag part s
  | .setBudget tag carried budget mode => Sys2Proof.Machine.execSetBudget tag carried budget mode s
  | .getBudget tag => Sys2Proof.Machine.execGetBudget tag s
  | .setChannel tag channel carried period policy offset => Sys2Proof.Machine.execSetChannel tag channel carried period policy offset s
  | .readChannel tag channel => Sys2Proof.Machine.execReadChannel tag channel s
  | .measure tag channel => Sys2Proof.Machine.execMeasure tag channel s
  | .clearQueue tag => Sys2Proof.Machine.execClearQueue tag s
  | .substitute tag channel value => Sys2Proof.Machine.execSubstitute tag channel value s
  | .setDefrost tag carried interval terminate => Sys2Proof.Machine.execSetDefrost tag carried interval terminate s
  | .getDefrost tag => Sys2Proof.Machine.execGetDefrost tag s
  | .defrostStart tag => Sys2Proof.Machine.execDefrostStart tag s
  | .defrostAbort tag => Sys2Proof.Machine.execDefrostAbort tag s
  | .getFault tag index => Sys2Proof.Machine.execGetFault tag index s
  | .clearFault tag object => Sys2Proof.Machine.execClearFault tag object s
  | .setNotice tag carried mapStatus mapZone mapDoor mapDefrost mapMeasure mapBudget quiet urgentWeight routineWeight spacing period ajar => Sys2Proof.Machine.execSetNotice tag carried mapStatus mapZone mapDoor mapDefrost mapMeasure mapBudget quiet urgentWeight routineWeight spacing period ajar s
  | .serviceEnter tag => Sys2Proof.Machine.execServiceEnter tag s
  | .serviceExit tag => Sys2Proof.Machine.execServiceExit tag s
  | .forceFreshFan tag value => Sys2Proof.Machine.execForceFreshFan tag value s
  | .forceFreezerFan tag value => Sys2Proof.Machine.execForceFreezerFan tag value s
  | .forceCondenserFan tag value => Sys2Proof.Machine.execForceCondenserFan tag value s
  | .forceDamperTarget tag value => Sys2Proof.Machine.execForceDamperTarget tag value s
  | .forceValveTarget tag value => Sys2Proof.Machine.execForceValveTarget tag value s
  | .forceCompressorLevel tag value => Sys2Proof.Machine.execForceCompressorLevel tag value s
  | .forceDefrostHeater tag value => Sys2Proof.Machine.execForceDefrostHeater tag value s
  | .forceMullionHeater tag value => Sys2Proof.Machine.execForceMullionHeater tag value s
  | .badKind tag kind payload => Sys2Proof.Machine.execBadKind tag kind payload s
  | .receiveCharacter char => Sys2Proof.Machine.execReceiveCharacter char s
  | .framingError => Sys2Proof.Machine.execFramingError s
  | .lineBreak => Sys2Proof.Machine.execLineBreak s
  | .gapTimeout => Sys2Proof.Machine.execGapTimeout s
  | .frameTransmitted => Sys2Proof.Machine.execFrameTransmitted s
  | .routineSpacingEnd => Sys2Proof.Machine.execRoutineSpacingEnd s
  | .powerOnReset => Sys2Proof.Machine.execPowerOnReset s
  | .commandedReset => Sys2Proof.Machine.execCommandedReset s
  | .selfStartExpiry => Sys2Proof.Machine.execSelfStartExpiry s
  | .serviceIdleExpiry => Sys2Proof.Machine.execServiceIdleExpiry s
  | .offPhaseExpiry zone => Sys2Proof.Machine.execOffPhaseExpiry zone s
  | .onPhaseExpiry zone => Sys2Proof.Machine.execOnPhaseExpiry zone s
  | .minDwellExpiry => Sys2Proof.Machine.execMinDwellExpiry s
  | .maxWaitExpiry requester => Sys2Proof.Machine.execMaxWaitExpiry requester s
  | .maxRunExpiry => Sys2Proof.Machine.execMaxRunExpiry s
  | .runSecond => Sys2Proof.Machine.execRunSecond s
  | .minOffExpiry => Sys2Proof.Machine.execMinOffExpiry s
  | .runFeedback => Sys2Proof.Machine.execRunFeedback s
  | .startWindowEnd => Sys2Proof.Machine.execStartWindowEnd s
  | .stepEnd => Sys2Proof.Machine.execStepEnd s
  | .runoutEnd => Sys2Proof.Machine.execRunoutEnd s
  | .trip => Sys2Proof.Machine.execTrip s
  | .failureCountReset => Sys2Proof.Machine.execFailureCountReset s
  | .lockoutExpiry => Sys2Proof.Machine.execLockoutExpiry s
  | .endSwitchConfirm shown => Sys2Proof.Machine.execEndSwitchConfirm shown s
  | .valveCheckEnd => Sys2Proof.Machine.execValveCheckEnd s
  | .stuckRecoveryExpiry => Sys2Proof.Machine.execStuckRecoveryExpiry s
  | .conversionComplete code => Sys2Proof.Machine.execConversionComplete code s
  | .scanExpiry channel => Sys2Proof.Machine.execScanExpiry channel s
  | .doorInputChange door opened => Sys2Proof.Machine.execDoorInputChange door opened s
  | .debounceEnd door => Sys2Proof.Machine.execDebounceEnd door s
  | .ajarExpiry door => Sys2Proof.Machine.execAjarExpiry door s
  | .openSecondsDelivery door => Sys2Proof.Machine.execOpenSecondsDelivery door s
  | .runOnLimit => Sys2Proof.Machine.execRunOnLimit s
  | .damperPositionSwitch shown => Sys2Proof.Machine.execDamperPositionSwitch shown s
  | .damperCheckEnd => Sys2Proof.Machine.execDamperCheckEnd s
  | .deferralLimit => Sys2Proof.Machine.execDeferralLimit s
  | .prechillDone => Sys2Proof.Machine.execPrechillDone s
  | .prechillWaitLimit => Sys2Proof.Machine.execPrechillWaitLimit s
  | .sampleTimerExpiry => Sys2Proof.Machine.execSampleTimerExpiry s
  | .heatClockLimit => Sys2Proof.Machine.execHeatClockLimit s
  | .dripTimerExpiry => Sys2Proof.Machine.execDripTimerExpiry s
  | .recoveryLimitExpiry => Sys2Proof.Machine.execRecoveryLimitExpiry s
  | .statusTimerExpiry => Sys2Proof.Machine.execStatusTimerExpiry s
  | .badLength tag kind payload => Sys2Proof.Machine.execBadLength tag kind payload s

end Sys2Proof.Machine
end

