-- ==== Sys2Proof/Safety.lean ====
section
/-! DEFINITION. What the statements speak of: the laws that every step keeps (air paths, load, link, arbiter, heater,
conversion queue), the situations in which a request is executed at once and an event changes only what its rule names, and
what a reply looks like. -/

namespace Sys2Proof.Machine

/-! ### Air paths (R93 to R100) -/

/-- The fans and the damper target are as their conditions say (R93). -/
def AirPath.Follows (a : AirPath) : Prop :=
  a.freshFan = a.freshOn ∧ a.freezerFan = a.freezerOn ∧ a.condenserFan = a.condenserOn ∧ a.target = a.targetOf

/-- The Air Path Unit knows of each door whether it is CLOSED (R88, R90). -/
def DoorsKnown (s : State) : Prop :=
  s.air.leftDoor.isOpen = s.doors.left.state.isOpen ∧ s.air.rightDoor.isOpen = s.doors.right.state.isOpen
    ∧ s.air.drawerDoor.isOpen = s.doors.drawer.state.isOpen ∧ s.air.freezerDoor.isOpen = s.doors.freezer.state.isOpen

/-- The Air Path Unit's outputs follow their conditions, and it knows whether the defrost heater is ON (R93, R98). -/
def FansFollow (s : State) : Prop := s.air.Follows ∧ s.air.heaterOn = (s.defrost.heater == .on)

/-- The law of the air paths: the outputs follow their conditions, the doors are known, and the Air Path Unit has the mode of
the part (R94, R170). -/
def AirLaw (s : State) : Prop := FansFollow s ∧ DoorsKnown s ∧ s.air.mode = s.ctl.mode

/-! ### Load (R133) -/

/-- The highest level of the compressor: its level, or the level a step goes to. -/
def Compressor.top (c : Compressor) : Nat := max c.level ((c.step.map (·.goal)).getD 0)

/-- A compressor that is off has level 0 and no step in flight (section 2.4). -/
def Compressor.Sound (c : Compressor) : Prop := c.state.turning = true ∨ (c.level = 0 ∧ c.step = none)

/-- The accounted sum lies within the budget in force less the reserve (R133), a pending budget lies below the budget in
force (R146), and budgets lie in their range (R145). -/
def Budget.Sound (b : Budget) : Prop :=
  b.sum + Config.reserve ≤ b.inForce ∧ 20 ≤ b.inForce ∧ b.inForce ≤ 40 ∧ (∀ p ∈ b.pending, 20 ≤ p ∧ p < b.inForce)

/-- The law of the load: the accounting is sound, an off compressor has no level, and the accounted level is never below
the compressor's (R133). -/
def LoadLaw (s : State) : Prop :=
  s.budget.Sound ∧ s.arb.comp.Sound ∧ s.arb.comp.top ≤ s.budget.level

/-! ### Link (R190 to R192, R211) -/

/-- The keys of the queued notices. -/
def noticeKeys (s : State) : List NoticeKey := (s.notice.urgent ++ s.notice.routine).map (·.key)

/-- The law of the link between two events: one notice a key (R211); at most 4 replies and 2 waiting requests, none waiting
beside an empty execution place (R190); no reply waits for an idle transmitter (R192); and a READY request waits only for
a place in a full reply list (R191). -/
def LinkLaw (s : State) : Prop :=
  (noticeKeys s).Nodup ∧ s.link.replies.length ≤ Config.maxReplies ∧ s.link.waiting.length ≤ Config.maxWaiting
    ∧ (s.link.place = none → s.link.waiting = []) ∧ s.link.boundary = false ∧ (s.link.tx = none → s.link.replies = [])
    ∧ (∀ p ∈ s.link.place, p.answered = false → Config.maxReplies ≤ s.link.replies.length)

/-! ### The arbiter (R26, R50, R52) -/

/-- The requesters with an entry on the request list or a place in the grant. -/
def Arbiter.requesters (a : Arbiter) : List Requester :=
  a.list.map (·.requester) ++ (a.grant.map fun g => (g.selected ++ g.holders).map (·.requester)).getD []

/-- The compressor is off, or runs at level 1 with no step in flight (R50). -/
def Compressor.slow (c : Compressor) : Prop :=
  c.state.turning = false ∨ (c.state.running_ = true ∧ c.level = 1 ∧ c.step = none)

/-- The law of the arbiter: one entry or place a requester (R26), each for the evaporator it needs (section 2.1), the members
of a grant for the grant's (section 2.2); the valve moves only with the compressor off or at level 1 (R50); and it is STUCK,
or tries to recover, only with the compressor off (R52, R53). -/
def ArbLaw (a : Arbiter) : Prop :=
  a.requesters.Nodup ∧ (∀ e ∈ a.list, e.evap = requesterEvap e.requester)
    ∧ (∀ g ∈ a.grant, ∀ m ∈ g.selected ++ g.holders, requesterEvap m.requester = g.evap)
    ∧ (∀ e t n, a.valve = .moving e t n → a.comp.slow ∧ (t = .recovery → a.comp.state.turning = false))
    ∧ (∀ n, a.valve = .stuck n → a.comp.state.turning = false)

/-- The weight of the accounted level, with the defrost heater's when it is GRANTED (R133). -/
def Budget.weighs (b : Budget) : Nat :=
  (if b.level = 0 then 0 else 2 * b.level + 2) + if b.heater = .granted then 10 else 0

/-- The units available: those of the pending budget, else of the budget in force, less the reserve (R134). -/
def Budget.units (b : Budget) : Nat := b.pending.getD b.inForce - 5

/-- What settling makes of a record `b` (R135): a pending budget that the sum fits without the mullion heater comes into force
(R146), a WAITING heater that fits so is granted (R139), the mullion heater is shed where it does not fit and taken back where it
is wished and fits beside no WAITING claim (R143), and the cap is the highest level that fits beside the heater (R134). -/
def Budget.SettlesTo (b u : Budget) : Prop :=
  u = { b with inForce := u.inForce, pending := u.pending, heater := u.heater, mullion := u.mullion, cap := u.cap }
  ∧ (b.pending = none → u.inForce = b.inForce ∧ u.pending = none)
  ∧ (∀ p, b.pending = some p → b.weighs ≤ p - 5 → u.inForce = p ∧ u.pending = none)
  ∧ (∀ p, b.pending = some p → p - 5 < b.weighs → u.inForce = b.inForce ∧ u.pending = some p)
  ∧ u.heater = (if b.heater = .waiting ∧ b.weighs + 10 ≤ b.units then .granted else b.heater)
  ∧ (b.wished = true → u.heater ≠ .waiting → u.mullion = if u.weighs + 2 ≤ u.units then .on else .shed)
  ∧ (b.wished = false ∨ u.heater = .waiting →
      u.mullion = if b.mullion = .on ∧ u.units < u.weighs + 2 then .shed else b.mullion)
  ∧ 1 ≤ u.cap ∧ u.cap ≤ 5
  ∧ ∀ l, 2 ≤ l → l ≤ 5 → (l ≤ u.cap ↔ 2 * l + 2 + (if u.heater = .none_ then 0 else 10) ≤ u.units)

/-! ### Steps (R34, R41, R42) -/

/-- What the arbiter does on its aim with the compressor running at level `n` and no step in flight, `b` being the load's record
(R34, R41, R50): a downward step begins at once; an upward one waits for a moving valve, and begins with its claim accounted when
the claim is granted (R136); a refused claim brings the cap in force, to which the aim falls. -/
def Stepped (n : Nat) (b : Budget) (aim : Nat) (t : State) : Prop :=
  let begins := fun l : Nat => t.arb.comp.step = some { goal := l, left := 5 } ∧ t.speedLine = l
  let fits := n = 0 ∨ (n + 1 ≤ b.cap ∧ 2 * n + 4 + (if b.heater = .granted then 10 else 0) ≤ b.pending.getD b.inForce - 5)
  (aim < n → begins (n - 1) ∧ t.budget.level = b.level)
  ∧ (aim = n → t.arb.comp.step = none ∧ t.budget.level = b.level)
  ∧ (n < aim → t.arb.valve.isMoving = true → t.arb.comp.step = none ∧ t.budget.level = b.level)
  ∧ (n < aim → ¬ t.arb.valve.isMoving = true → fits → begins (n + 1) ∧ t.budget.level = n + 1)
  ∧ (n < aim → ¬ t.arb.valve.isMoving = true → ¬ fits → t.budget.level = b.level ∧ t.arb.budgetCap = b.cap
      ∧ (n ≤ b.cap → t.arb.comp.step = none))

/-! ### Selection and switching (R30, R35, R36) -/

/-- The first entry of the highest class of a list (R30). -/
def FirstOfHighest (l : List Entry) (x : Entry) : Prop :=
  ∃ before after, l = before ++ x :: after ∧ (∀ y ∈ before, clsRank y.cls < clsRank x.cls)
    ∧ ∀ y ∈ after, clsRank y.cls ≤ clsRank x.cls

/-- Of a list's entries, those eligible for an evaporator have gone, in their order, into a new grant for it, and the others
keep their places (R30, R36). -/
def GrantFormed (s : State) (all : List Entry) (e : Evap) (t : State) : Prop :=
  let taken := fun x : Entry => s.arb.eligible x && x.evap == e
  t.arb.list = (all.filter fun x => !taken x)
  ∧ ∃ g, t.arb.grant = some g ∧ g.evap = e
    ∧ g.selected ++ g.holders = (all.filter taken).map fun x => { requester := x.requester, cls := x.cls, wish := x.wish }

/-- A switch from the grant is decided (R35): it is ACTIVE, its minimum dwell over, and an eligible entry for the other
evaporator is RECOVERY with no such holder, or has waited the maximum wait, or the grant has run the maximum run. -/
def Arbiter.Decides (a : Arbiter) (g : Grant) (now : Time) : Prop :=
  g.phase = .active ∧ (∃ d, g.dwellStart = some d ∧ a.timing.minDwell ≤ elapsed now d)
    ∧ ∃ e ∈ a.list, a.eligible e = true ∧ e.evap = otherEvap g.evap
      ∧ ((e.cls = .recovery ∧ ∀ m ∈ g.holders, m.cls ≠ .recovery) ∨ a.timing.maxWait ≤ elapsed now e.postedAt
        ∨ ∃ d, g.activation = some d ∧ a.timing.maxRun ≤ elapsed now d)

/-- A switch (R36): the grant's holders are back at the list's tail, posted now, and a grant for the other evaporator is
formed. -/
def Switched (s : State) (g : Grant) (t : State) : Prop :=
  GrantFormed s (s.arb.list ++ g.holders.map fun m => { requester := m.requester, evap := requesterEvap m.requester
                                                        cls := m.cls, wish := m.wish, postedAt := s.uptime })
    (otherEvap g.evap) t

/-! ### The heater (R116, R130) -/

/-- A claim as the Load Budget Unit holds it for a heater of the Defrost Unit (R138 to R140). -/
def Heater.claim : Heater → Claim
  | .off => .none_
  | .claimed => .waiting
  | .on => .granted

/-- The law of the heater: claimed or ON, it finds FREEZE not fed (R116, R178), and serves a defrost in HEAT that holds the
arbiter, or SERVICE (R116, R130); the hold stands in HEAT and DRIP alone, with no FREEZE grant (R54, R115, R122); outside RUN
no defrost works, and the arbiter has neither entry nor grant (R59, R129); both the mode and the claim are known alike. -/
def HeaterLaw (s : State) : Prop :=
  (s.defrost.heater ≠ .off → s.arb.feedsFreeze = false
      ∧ ((s.defrost.use = some .defrost ∧ s.defrost.phase = .heat ∧ s.arb.hold = true)
        ∨ (s.defrost.use = some .service ∧ s.ctl.mode = .service)))
    ∧ (s.arb.hold = true → s.defrost.hold = true ∧ (s.defrost.phase = .heat ∨ s.defrost.phase = .drip)
        ∧ ∀ g ∈ s.arb.grant, g.evap = .fresh)
    ∧ (s.ctl.mode ≠ .run → s.defrost.phase.working = false ∧ s.arb.list = [] ∧ s.arb.grant = none)
    ∧ s.defrost.mode = s.ctl.mode ∧ s.budget.heater = s.defrost.heater.claim

/-! ### The conversion queue (R69) -/

/-- The tag of a MEASURE notice's key. -/
def NoticeKey.tag? : NoticeKey → Option Byte
  | .measure t => some t
  | _ => none

/-- The tag of the MEASURE notice that a frame in transmission carries. -/
def Sent.tag? : Sent → Option Byte
  | .notice k _ => k.tag?
  | .reply _ => none

/-- The tags of the MEASURE notices not yet sent: those queued, and that of the one in transmission. -/
def noticeTags (s : State) : List Byte :=
  (noticeKeys s).filterMap NoticeKey.tag? ++ (s.link.tx.bind fun x => x.what.tag?).toList

/-- The tags of the LINK entries of the conversion queue. -/
def Scheduler.linkTags (k : Scheduler) : List Byte := k.queue.filterMap (·.tag)

/-- The conversion in flight serves the entry of the queue that its source names, and carries its tag (R64). -/
def Scheduler.Serves (k : Scheduler) : Prop :=
  ∀ v ∈ k.conv, (v.source = .link → v.tag.isSome = true) ∧ (v.source ≠ .link → v.tag = none)
    ∧ (v.source = .link ∨ v.source = .defrost → { chan := v.chan, tag := v.tag } ∈ k.queue)

/-- The law of the conversion queue: at most one DEFROST entry; the set of outstanding tags holds, each once and at most 7,
the tags of the LINK entries and of the MEASURE notices not yet sent; a conversion serves its entry. -/
def QueueLaw (s : State) : Prop :=
  (s.sched.queue.filter (fun q => q.tag.isNone)).length ≤ 1 ∧ s.sched.Serves
    ∧ s.sched.tags.Perm (s.sched.linkTags ++ noticeTags s) ∧ s.sched.tags.Nodup ∧ s.sched.tags.length ≤ 7

/-! ### Situations and replies -/

/-- A request handed in now is executed at once: the execution place is empty, no RESET has been taken, and the reply list
has a free place (R190, R191). -/
def Ready (s : State) : Prop :=
  s.link.place = none ∧ s.link.resetTaken = false ∧ s.link.replies.length < Config.maxReplies

/-- The phase in which a defrost that has become IDLE comes to rest: a credit at its target makes it DUE, or PRECHILL when the
start conditions hold (R109, R110). -/
def Defrost.restPhase (d : Defrost) : Phase :=
  if d.credit < d.current * 3600 then .idle
  else if d.mode = .run ∧ d.freezerClass = .normal ∧ d.freezerDoor = .closed ∧ d.lockout = false then .prechill else .due

/-- The reply frame stands in the reply list or is in transmission. -/
def Carries (s : State) (f : Frame) : Prop :=
  (∃ r ∈ s.link.replies, r.frame = f) ∨ (∃ x ∈ s.link.tx, x.frame = f)

/-- The reply to a request of a kind and tag: its kind with 0x80 added, its tag, and a payload (09 section 9.3). -/
def replyTo (kind tag : Byte) (payload : List Byte) : Frame :=
  { kind := kind + 0x80, tag := tag, payload := payload }

/-- In a command that began in `s`, the READY request of frame `f` has been executed at `u` (R191): its owner's acts, with the
feeding check that they bring (R55), and of the rest the link alone. -/
def Executed (s u : State) (f : Frame) (t : State) : Prop :=
  ∃ l, t = { recheck s { (judge u f).1 with link := l } with link := t.link }

/-! ### Settings (the host's own: written by their requests, and by a reset) -/

/-- A zone's settings (section 1.2). -/
abbrev Zone.settings (r : Zone) : Bool × Temp × Temp × Nat × Nat × Nat × Nat × Option Profile :=
  (r.enabled, r.setpoint, r.halfBand, r.normalLevel, r.recoveryLevel, r.onTime, r.offTime, r.profile)

/-- A channel's settings: those of SET-CHANNEL (R62) and the substitute value (R78). -/
abbrev Channel.settings (r : Channel) : Nat × ClearPolicy × Temp × Option Temp := (r.period, r.policy, r.offset, r.substitute)

/-- What a completion writes of a channel's record (R79). -/
abbrev Channel.result (r : Channel) : Option Temp × Option (BitVec 12) × Option Sensor × Option Band × Bool × Option Source
    × Option Time × Nat × Nat × Bool :=
  (r.lastValue, r.lastRaw, r.sensor, r.band, r.substituted, r.lastSource, r.lastTime, r.bad, r.good, r.faulted)

/-- The budget that a SET-BUDGET last asked for: the pending one, else the one in force (R145, R146). -/
abbrev Budget.asked (b : Budget) : Nat := b.pending.getD b.inForce

/-- The notice settings (R208). -/
abbrev NoticeUnit.settings (n : NoticeUnit) : NoticeMap × Bool × Nat × Nat × Nat × Nat :=
  (n.map, n.quiet, n.urgentWeight, n.routineWeight, n.spacing, n.period)

/-- The frame that a request row is the arrival of (log 4), with the payload of its kind (10 sections 10.3 to 10.9). -/
def frameOf : Instr → Option Frame
  | .getState tag => some (request 0x01 tag [])
  | .start tag => some (request 0x02 tag [])
  | .stop tag => some (request 0x03 tag [])
  | .reset tag => some (request 0x04 tag [])
  | .setZone tag zone carried enabled setpoint halfBand normalLevel recoveryLevel onTime offTime profile =>
    some (request 0x08 tag ([zone, carried, enabled] ++ be16 setpoint ++ be16 halfBand ++ [normalLevel, recoveryLevel]
      ++ be16 onTime ++ be16 offTime ++ [profile]))
  | .getZone tag zone => some (request 0x09 tag [zone])
  | .setTiming tag carried minOff minOn minDwell maxWait maxRun =>
    some (request 0x0A tag ([carried] ++ be16 minOff ++ be16 minOn ++ be16 minDwell ++ be16 maxWait ++ be16 maxRun))
  | .getArbiter tag part => some (request 0x0B tag [part])
  | .setBudget tag carried budget mode => some (request 0x0C tag [carried, budget, mode])
  | .getBudget tag => some (request 0x0D tag [])
  | .setChannel tag channel carried period policy offset =>
    some (request 0x10 tag ([channel, carried, period, policy] ++ be16 offset))
  | .readChannel tag channel => some (request 0x11 tag [channel])
  | .measure tag channel => some (request 0x12 tag [channel])
  | .clearQueue tag => some (request 0x13 tag [])
  | .substitute tag channel value => some (request 0x14 tag ([channel] ++ be16 value))
  | .setDefrost tag carried interval terminate => some (request 0x18 tag ([carried, interval] ++ be16 terminate))
  | .getDefrost tag => some (request 0x19 tag [])
  | .defrostStart tag => some (request 0x1A tag [0])
  | .defrostAbort tag => some (request 0x1A tag [1])
  | .getFault tag index => some (request 0x20 tag index.toList)
  | .clearFault tag object => some (request 0x21 tag [object])
  | .setNotice tag carried mapStatus mapZone mapDoor mapDefrost mapMeasure mapBudget quiet urgentWeight routineWeight spacing
      period ajar =>
    some (request 0x24 tag ([carried, mapStatus, mapZone, mapDoor, mapDefrost, mapMeasure, mapBudget, quiet, urgentWeight,
      routineWeight] ++ be16 spacing ++ be16 period ++ be16 ajar))
  | .serviceEnter tag => some (request 0x28 tag [])
  | .serviceExit tag => some (request 0x29 tag [])
  | .forceFreshFan tag value => some (request 0x2A tag [0, value])
  | .forceFreezerFan tag value => some (request 0x2A tag [1, value])
  | .forceCondenserFan tag value => some (request 0x2A tag [2, value])
  | .forceDamperTarget tag value => some (request 0x2A tag [3, value])
  | .forceValveTarget tag value => some (request 0x2A tag [4, value])
  | .forceCompressorLevel tag value => some (request 0x2A tag [5, value])
  | .forceDefrostHeater tag value => some (request 0x2A tag [6, value])
  | .forceMullionHeater tag value => some (request 0x2A tag [7, value])
  | .badKind tag kind payload => some (request kind tag payload)
  | .badLength tag kind payload => some (request kind tag payload)
  | _ => none

/-! ### Zones (R5, R25) -/

/-- The state in which a zone takes up work (R5): FAULT for a DRAWER with a faulted damper, else HELD under a hold, else DOOR with
a door open, else IDLE. -/
def workState (z : ZoneId) (r : Zone) : ZoneState :=
  if z = .drawer ∧ r.damperFaulted = true then .fault
  else if r.held = true then .held
  else if r.doorOpenSince ≠ none then .door
  else .idle

/-- The zone's record `r` after taking up work (R5): its state, with the pull-down check in THERMOSTAT mode (R8) and an OFF
phase in TIMED mode (R19). -/
def tookUpWork (z : ZoneId) (now : Time) (r : Zone) : Zone :=
  let idle := fun m : ControlMode => workState z r = .idle ∧ r.mode = m
  { r with
    state := workState z r
    enteredAt := now
    timer := if idle .timed then some { kind := .off, left := r.offTime } else none
    checkDue := decide (idle .thermostat ∧ r.lastAir = none)
    cls := if idle .thermostat ∧ r.lastAir.any (fun v => r.setpoint + r.halfBand + 50 < v) = true then .recovery else r.cls }

/-- The zone's record `r` after it has left work for a state, with the marks that this clears (R23, R25). -/
def leftWork (st : ZoneState) (now : Time) (r : Zone) : Zone :=
  { r with state := st, enteredAt := now, cls := .normal, closeMark := none, postDefrost := false, timer := none
           checkDue := false }

/-! ### Settings kept -/

/-- The same settings stand in both states. -/
def SameSettings (s t : State) : Prop :=
  (∀ z, (t.zones.get z).settings = (s.zones.get z).settings) ∧ (∀ c, (t.sched.ch.get c).settings = (s.sched.ch.get c).settings)
    ∧ t.arb.timing = s.arb.timing ∧ t.budget.mullionMode = s.budget.mullionMode ∧ t.budget.asked = s.budget.asked
    ∧ t.defrost.terminate = s.defrost.terminate ∧ t.notice.settings = s.notice.settings
    ∧ t.doors.ajarTime = s.doors.ajarTime

/-- Every entry of the fault table keeps a place in it (R155), and the reset count stands. -/
def FaultsStay (f g : FaultUnit) : Prop :=
  (∀ e ∈ f.table, ∃ e' ∈ g.table, e'.code = e.code ∧ e'.object = e.object) ∧ g.resetCount = f.resetCount

/-- What a command that writes no setting leaves as it is: the time, Mode Control, the doors, the pins, the waiting commands
and every setting; and no entry leaves the fault table. -/
def Kept (s t : State) : Prop :=
  t.uptime = s.uptime ∧ t.ms = s.ms ∧ t.pending = s.pending ∧ t.ctl = s.ctl ∧ t.doors = s.doors ∧ t.pins = s.pins
    ∧ SameSettings s t ∧ FaultsStay s.fault t.fault

/-- The command ends at a next state in which the reply of this payload is on its way, and of which `Q` holds. -/
def Answers (c : Instr) (s : State) (kind tag : Byte) (p : List Byte) (Q : State → Prop) : Prop :=
  ∃ t, exec c s = .next t ∧ Carries t (replyTo kind tag p) ∧ Q t

/-- The command ends at a next state of which `Q` holds. -/
def Leads (c : Instr) (s : State) (Q : State → Prop) : Prop := ∃ t, exec c s = .next t ∧ Q t

/-- `t` is `u` but for the link. -/
def OnlyLink (u t : State) : Prop := t = { u with link := t.link }

/-- `t` is `u` but for the link, the notice queues, the status timer and the index of the next free value. -/
def OnlyNotices (u t : State) : Prop :=
  t = { u with link := t.link, notice := t.notice, free := t.free } ∧ t.notice.settings = u.notice.settings

/-- The part has come from `s` into a mode: Mode Control and the blocks that are handed it say so, both its timers but
SERVICE's own are absent, and nothing of `Kept` but Mode Control has changed (R170 to R174). -/
def Entered (s : State) (m : Mode) (t : State) : Prop :=
  t.ctl = { s.ctl with mode := m, selfStart := none, serviceIdle := if m = .service then some 300 else none }
    ∧ Kept { s with ctl := t.ctl } t ∧ t.air.mode = m ∧ t.defrost.mode = m ∧ t.budget.mode = m

/-- The part has left RUN (R25, R59, R129): every zone in service is PAUSED, no entry and no grant are left, and a defrost at
work is interrupted, with the hold and the permit given back, and due again at once. -/
def LeftRun (s t : State) : Prop :=
  (∀ z, let r := s.zones.get z
    (r.state ≠ .disabled → t.zones.get z = leftWork .paused s.uptime { r with held := false })
    ∧ (r.state = .disabled → (t.zones.get z).state = .disabled))
  ∧ t.arb.list = [] ∧ t.arb.grant = none ∧ t.arb.hold = false
  ∧ t.defrost.heater = .off ∧ t.defrost.current = s.defrost.current
  ∧ (s.defrost.phase = .idle ∨ s.defrost.phase = .due → t.defrost.phase = s.defrost.phase ∧ t.defrost.credit = s.defrost.credit)
  ∧ (s.defrost.phase ≠ .idle → s.defrost.phase ≠ .due → t.defrost.phase = .due ∧ t.defrost.hold = false
      ∧ t.defrost.interrupted = true ∧ t.defrost.credit = s.defrost.current * 3600 ∧ t.defrost.heatClock = none
      ∧ t.defrost.dripTimer = none ∧ t.defrost.recoveryLimit = none ∧ t.air.permit = true)

/-- The part has entered RUN (R25): every PAUSED zone has taken up work, and a DISABLED one stays so. -/
def EnteredRun (s t : State) : Prop :=
  ∀ z, let r := s.zones.get z
    (r.state = .paused → t.zones.get z = tookUpWork z s.uptime r) ∧ (r.state = .disabled → t.zones.get z = r)

/-- A compressor in OFF_LOCKED with a full minimum off timer, its level 0, its speed line off and no step in flight (R38). -/
def OffFull (t : State) : Prop :=
  t.arb.comp.state = .offLocked ∧ t.arb.comp.minOffLeft = t.arb.timing.minOff ∧ t.arb.comp.level = 0
    ∧ t.arb.comp.step = none ∧ t.speedLine = 0

/-- The request is answered with a status alone, and changes nothing but the link and, in SERVICE, the service idle timer
(R174, R196). -/
def Refused (c : Instr) (s : State) (kind tag : Byte) (x : Status) : Prop :=
  Answers c s kind tag [statusCode x] (OnlyLink (restartIdle s))

/-- A requester has no entry on the request list and no place in the grant. -/
def Unlisted (s : State) (r : Requester) : Prop := r ∉ s.arb.requesters

/-- An entry of this code and object stands in the fault table. -/
def Recorded (s : State) (c : FaultCode) (o : FaultObject) : Prop := ∃ e ∈ s.fault.table, e.code = c ∧ e.object = o

end Sys2Proof.Machine
end

