-- ==== Sys2Proof/WellFormed.lean ====
section
/-! DEFINITION. Which commands are well formed:
a BAD_KIND names no kind of the table, a BAD_LENGTH names a kind of the table with a length it does not take, and a
payload fits a frame (09 section 9.3). -/

namespace Sys2Proof

/-- Whether a command is well formed. -/
def WellFormed (i : Instr) : Bool :=
  match i with
  | .badKind _ kind payload => (takenLengths kind).isNone && decide (payload.length ≤ Config.maxPayload)
  | .badLength _ kind payload =>
    (match takenLengths kind with
     | some ls => !ls.contains payload.length
     | none => false) && decide (payload.length ≤ Config.maxPayload)
  | _ => true

end Sys2Proof
end

