-- ==== Sys2Proof/Certificates/Slice0/Obligations.lean ====
section
/-! DEFINITION. The statements for the provers. A statement about a request has the premise that it is executed at once
(`Ready`), one about an event of the blocks the law of the link (`LinkLaw`), which is itself stated of every step. -/

open Sys2Proof Sys2Proof.Machine

/-! ### Steps and laws -/

/-- Step of a state with a command in front is the command's meaning on the state with the queue's rest. -/
def Obligations.StepTakesFrontCommand : Prop :=
  ∀ (c : Instr) (s : State), step { s with pending := c :: s.pending } = exec c s

/-- With no command waiting a millisecond passes (the model's choice, log 2): the uptime rises at each thousandth, the
commands then due wait in some order, and the fault table, the settings and the pins stand. -/
def Obligations.EmptyQueuePassesAMillisecond : Prop :=
  ∀ s : State, s.pending = [] → ∃ t, step s = .next t
    ∧ (if s.ms + 1 = 1000 then t.ms = 0 ∧ t.uptime = s.uptime + 1 else t.ms = s.ms + 1 ∧ t.uptime = s.uptime)
    ∧ t.pending.Perm (dueCommands t) ∧ t.ctl.mode = s.ctl.mode ∧ t.fault = s.fault ∧ t.pins = s.pins
    ∧ t.budget = s.budget ∧ SameSettings s t

/-- The state after reset obeys the laws of the air paths, the load, the link, the arbiter, the heater and the conversion
queue, and no fault is recorded. -/
def Obligations.ResetObeysTheLaws : Prop :=
  AirLaw State.reset ∧ LoadLaw State.reset ∧ LinkLaw State.reset ∧ ArbLaw State.reset.arb ∧ HeaterLaw State.reset
    ∧ QueueLaw State.reset ∧ State.reset.fault.table = [] ∧ State.reset.pending = []

/-- Every step keeps the law of the air paths, the Air Path Unit's mode being that of the part (R170), which means at the
outputs (R94, R95, R98): no compartment fan runs beside its open door, none outside RUN and SERVICE, the freezer fan never beside
the defrost heater. Of the damper it says that its target is CLOSED with the drawer's door open; toward that target it travels. -/
def Obligations.EveryStepKeepsTheAirLaw : Prop :=
  (∀ s t : State, AirLaw s → step s = .next t → AirLaw t)
  ∧ ∀ s : State, AirLaw s →
    (s.air.freshFan = true → s.doors.left.state = .closed ∧ s.doors.right.state = .closed ∧ s.ctl.mode ≠ .hold)
    ∧ (s.air.freezerFan = true → s.doors.freezer.state = .closed ∧ s.heaterOutput = false ∧ s.ctl.mode ≠ .hold)
    ∧ (s.air.target = .opened → s.doors.drawer.state = .closed)

/-- Every step keeps the law of the load: the accounted sum stays within the budget in force less the reserve. -/
def Obligations.EveryStepKeepsTheLoadLaw : Prop := ∀ s t : State, LoadLaw s → step s = .next t → LoadLaw t

/-- Every step keeps the law of the link. -/
def Obligations.EveryStepKeepsTheLinkLaw : Prop := ∀ s t : State, LinkLaw s → step s = .next t → LinkLaw t

/-- Every step keeps the law of the arbiter: one entry or place a requester (R26), each for the evaporator it needs (section 2.1);
the routing valve moves only with the compressor off or at level 1 with no step in flight (R50), and is STUCK, or tries to
recover, only with the compressor off (R52, R53). -/
def Obligations.EveryStepKeepsTheArbiterLaw : Prop := ∀ s t : State, ArbLaw s.arb → step s = .next t → ArbLaw t.arb

/-- Every step keeps, with the law of the arbiter, the law of the heater (R116, R129, R130, R178), which means at the outputs:
while the defrost heater is ON the compressor does not feed FREEZE, the part is not in HOLD, the heater serves a HEAT that holds
the arbiter or SERVICE, and, with the law of the air paths, the freezer fan stands still. -/
def Obligations.EveryStepKeepsTheHeaterLaw : Prop :=
  (∀ s t : State, ArbLaw s.arb → HeaterLaw s → step s = .next t → HeaterLaw t)
  ∧ ∀ s : State, HeaterLaw s → s.heaterOutput = true →
    ¬ (s.arb.comp.state.turning = true ∧ s.arb.valve.toward .freeze = true) ∧ s.ctl.mode ≠ .hold
    ∧ ((s.defrost.phase = .heat ∧ s.arb.hold = true ∧ s.ctl.mode = .run) ∨ s.ctl.mode = .service)
    ∧ (AirLaw s → s.air.freezerFan = false)

/-- Every step keeps the law of the conversion queue: at most one DEFROST entry (R71); at most 7 outstanding tags, each once,
that of a LINK entry or of a MEASURE notice not yet sent (R69, R70, R72, R214); and the conversion in flight of a QUEUE source
serves an entry that still stands in the queue (R64, R66). So the queue never holds more than 8 entries. -/
def Obligations.EveryStepKeepsTheQueueLaw : Prop :=
  (∀ s t : State, QueueLaw s → step s = .next t → QueueLaw t) ∧ ∀ s : State, QueueLaw s → s.sched.queue.length ≤ 8

/-- A compressor in OFF_LOCKED with time left on its minimum off timer stays there under every command but a reset, and no
command changes the timer: no start can come earlier (R38). -/
def Obligations.MinimumOffTimeHolds : Prop :=
  ∀ (c : Instr) (s t : State), s.arb.comp.state = .offLocked → 0 < s.arb.comp.minOffLeft → c ≠ .powerOnReset →
    ((∃ x ∈ s.link.tx, x.what = .reply .reset) → c ≠ .commandedReset ∧ c ≠ .frameTransmitted) → exec c s = .next t →
    t.arb.comp.state = .offLocked ∧ t.arb.comp.minOffLeft = s.arb.comp.minOffLeft ∧ t.speedLine = 0

/-! ### Requests: reading -/

/-- GET_STATE, GET_ZONE, GET_ARBITER, GET_DEFROST and READ_CHANNEL are answered (section 10.3: R200, R201) from the state with the
service idle timer restarted, so that a GET_STATE in SERVICE shows that timer in full (the model's choice, log 38). They change
nothing else, but that a READ_CHANNEL's overrun mark then becomes no (R85). The unused places of part 2 of GET_ARBITER read 0xFF
(the model's reading, log 24). -/
def Obligations.ReadingRequestsAreAnswered : Prop :=
  ∀ (s : State) (tag : Byte), Ready s →
    Answers (.getState tag) s 0x01 tag (replyState (restartIdle s)) (OnlyLink (restartIdle s))
    ∧ (∀ (b : Byte) (z : ZoneId), zoneOf b = some z →
        Answers (.getZone tag b) s 0x09 tag (replyZone z (s.zones.get z)) (OnlyLink (restartIdle s)))
    ∧ Answers (.getArbiter tag 0) s 0x0B tag (replyMachines s) (OnlyLink (restartIdle s))
    ∧ Answers (.getArbiter tag 1) s 0x0B tag (replyList s.arb) (OnlyLink (restartIdle s))
    ∧ Answers (.getArbiter tag 2) s 0x0B tag (replyGrant s.arb) (OnlyLink (restartIdle s))
    ∧ Answers (.getDefrost tag) s 0x19 tag (replyDefrost s.defrost) (OnlyLink (restartIdle s))
    ∧ (∀ (b : Byte) (c : Chan), chanOf b = some c → Answers (.readChannel tag b) s 0x11 tag (replyChannel s.sched c)
        (OnlyLink ((restartIdle s).onChannel c fun r => { r with overrun := false })))

/-- GET_BUDGET is answered with the sixteen bytes of R205, and changes nothing else. -/
def Obligations.GetBudgetReply : Prop :=
  ∀ (s : State) (tag : Byte), Ready s →
    Answers (.getBudget tag) s 0x0D tag
      [0, encNum s.budget.inForce, encNumOpt s.budget.pending, 5, encNum s.budget.available, encNum s.budget.level,
       encNum (Config.levelWeight s.budget.level),
       (match s.budget.heater with | .none_ => 0 | .waiting => 1 | .granted => 2),
       mullionModeCode s.budget.mullionMode, encBool s.budget.ambientWish, encOpt bandCode s.budget.ambientPos,
       encBool s.budget.ambientFaulted, (match s.budget.force with | some true => 0 | some false => 1 | none => 0xFF),
       (match s.budget.mullion with | .off => 0 | .on => 1 | .shed => 2), encNum s.budget.sum, encNum s.budget.cap]
      (OnlyLink (restartIdle s))

/-- GET_FAULT is answered with the capture record and at most two entries from its start index, the oldest when it has
none; the more-flag of an empty capture record is a free value (log 7), and nothing else changes. -/
def Obligations.GetFaultReadsAPage : Prop :=
  ∀ (s : State) (tag : Byte) (i : Option Byte), Ready s → (∀ n ∈ i, n.toNat ≤ 15) →
    Answers (.getFault tag i) s 0x20 tag (replyFault s.fault ((i.map BitVec.toNat).getD 0) (Config.freeMore s.free))
      (fun t => t = { restartIdle s with link := t.link, free := if s.fault.capture.isNone then s.free + 1 else s.free })

/-! ### Requests: refused -/

/-- A request that names what is out of range is refused with BAD_VALUE, in every mode, and changes nothing. -/
def Obligations.ValuesOutOfRangeAreRefused : Prop :=
  ∀ (s : State) (tag b v : Byte) (h : Half), Ready s →
    (2 < b.toNat → Refused (.getZone tag b) s 0x09 tag .badValue ∧ Refused (.getArbiter tag b) s 0x0B tag .badValue
        ∧ ∀ (carried enabled nl rl prof : Byte) (sp hb on off : Half),
          Refused (.setZone tag b carried enabled sp hb nl rl on off prof) s 0x08 tag .badValue)
    ∧ (7 < b.toNat → Refused (.readChannel tag b) s 0x11 tag .badValue ∧ Refused (.measure tag b) s 0x12 tag .badValue
        ∧ Refused (.substitute tag b h) s 0x14 tag .badValue
        ∧ ∀ (carried p q : Byte) (x : Half), Refused (.setChannel tag b carried p q x) s 0x10 tag .badValue)
    ∧ (15 < b.toNat → Refused (.getFault tag (some b)) s 0x20 tag .badValue)
    ∧ (7 < b.toNat → b.toNat < 0x10 ∨ 0x13 < b.toNat → b ≠ 0xFF → Refused (.clearFault tag b) s 0x21 tag .badValue)
    ∧ (1 < v.toNat → Refused (.forceFreshFan tag v) s 0x2A tag .badValue ∧ Refused (.forceFreezerFan tag v) s 0x2A tag .badValue
        ∧ Refused (.forceCondenserFan tag v) s 0x2A tag .badValue ∧ Refused (.forceDamperTarget tag v) s 0x2A tag .badValue
        ∧ Refused (.forceValveTarget tag v) s 0x2A tag .badValue ∧ Refused (.forceDefrostHeater tag v) s 0x2A tag .badValue
        ∧ Refused (.forceMullionHeater tag v) s 0x2A tag .badValue)
    ∧ (5 < v.toNat → Refused (.forceCompressorLevel tag v) s 0x2A tag .badValue)

/-- A request that its mode or its phase does not allow is refused with WRONG_STATE, and changes nothing. -/
def Obligations.RequestsOutOfPlaceAreRefused : Prop :=
  ∀ (s : State) (tag v : Byte), Ready s →
    (s.ctl.mode ≠ .hold → Refused (.start tag) s 0x02 tag .wrongState ∧ Refused (.serviceEnter tag) s 0x28 tag .wrongState)
    ∧ (s.ctl.mode = .service → Refused (.stop tag) s 0x03 tag .wrongState)
    ∧ (s.ctl.mode ≠ .service → Refused (.serviceExit tag) s 0x29 tag .wrongState)
    ∧ (s.defrost.phase ≠ .idle → Refused (.defrostStart tag) s 0x1A tag .wrongState)
    ∧ (s.defrost.phase = .idle ∨ s.defrost.phase = .drip ∨ s.defrost.phase = .recover →
        Refused (.defrostAbort tag) s 0x1A tag .wrongState)
    ∧ (s.ctl.mode ≠ .service → v.toNat ≤ 1 →
        Refused (.forceFreshFan tag v) s 0x2A tag .wrongState ∧ Refused (.forceFreezerFan tag v) s 0x2A tag .wrongState
        ∧ Refused (.forceCondenserFan tag v) s 0x2A tag .wrongState ∧ Refused (.forceDamperTarget tag v) s 0x2A tag .wrongState
        ∧ Refused (.forceValveTarget tag v) s 0x2A tag .wrongState ∧ Refused (.forceDefrostHeater tag v) s 0x2A tag .wrongState
        ∧ Refused (.forceMullionHeater tag v) s 0x2A tag .wrongState)
    ∧ (s.ctl.mode ≠ .service → v.toNat ≤ 5 → Refused (.forceCompressorLevel tag v) s 0x2A tag .wrongState)

/-- A frame of an unknown kind is answered BAD_KIND and one of a length its kind does not take BAD_LENGTH; neither restarts
the service idle timer or changes anything else (R197). -/
def Obligations.UnknownFramesAreAnswered : Prop :=
  ∀ (s : State) (tag kind : Byte) (payload : List Byte), Ready s →
    (WellFormed (.badKind tag kind payload) = true → ∃ t, exec (.badKind tag kind payload) s = .next t ∧ OnlyLink s t
      ∧ Carries t { kind := if kind < 0x80 then kind + 0x80 else kind, tag := tag, payload := [3] })
    ∧ (WellFormed (.badLength tag kind payload) = true → ∃ t, exec (.badLength tag kind payload) s = .next t ∧ OnlyLink s t
      ∧ Carries t { kind := kind + 0x80, tag := tag, payload := [4] })

/-- A request of any row that finds the execution place occupied waits while a waiting place is free; with both occupied it is
answered BUSY, or discarded when the reply list is full (R190). That the command is the arrival of its frame is the model's
choice (log 4). -/
def Obligations.FullListsTurnRequestsAway : Prop :=
  ∀ (s : State) (c : Instr) (f : Frame), LinkLaw s → s.link.place ≠ none → s.link.resetTaken = false → frameOf c = some f →
    (s.link.waiting.length < 2 → exec c s = .next { s with link := { s.link with waiting := s.link.waiting ++ [f] } })
    ∧ (s.link.waiting.length = 2 → s.link.replies.length < 4 → ∃ t, exec c s = .next t ∧ OnlyLink s t
        ∧ t.link.waiting = s.link.waiting ∧ t.link.place = s.link.place
        ∧ Carries t { kind := if f.kind < 0x80 then f.kind + 0x80 else f.kind, tag := f.tag, payload := [2] })
    ∧ (s.link.waiting.length = 2 → s.link.replies.length = 4 → exec c s = .next s)

/-! ### Requests: modes -/

/-- RESET is answered OK; the requests that wait are discarded, and nothing else changes until its reply is sent (R176): so
also where the RESET itself has waited and moves up to the execution place with requests behind it. A request that arrives
once it has been taken is discarded without a reply (that the command is the arrival of its frame is the model's choice, log
4). -/
def Obligations.ResetRequestIsTaken : Prop :=
  ∀ (s : State) (tag : Byte),
    let taken := fun t : State => OnlyLink (restartIdle s) t ∧ t.link.resetTaken = true ∧ t.link.waiting = []
    (Ready s → Answers (.reset tag) s 0x04 tag [0] taken)
    ∧ (∀ x rest, LinkLaw s → s.link.tx = some x → x.what = .reply .answer → s.link.resetTaken = false →
        s.link.waiting = { kind := 0x04, tag := tag, payload := [] } :: rest → Answers .frameTransmitted s 0x04 tag [0] taken)
    ∧ (∀ c f, LinkLaw s → s.link.resetTaken = true → frameOf c = some f → exec c s = .next s)

/-- START, STOP, SERVICE_ENTER and SERVICE_EXIT make their mode (R171 to R174): entering RUN, the PAUSED zones take up work
(R25); leaving it, the zones are PAUSED, the arbiter is emptied, and a defrost at work is interrupted (R25, R59, R129);
leaving RUN or SERVICE stops a compressor that turns (R59, R60). -/
def Obligations.ModeRequestsMakeTheirMode : Prop :=
  ∀ (s : State) (tag : Byte), Ready s →
    (s.ctl.mode = .hold → Answers (.start tag) s 0x02 tag [0] (fun t => Entered s .run t ∧ EnteredRun s t))
    ∧ (s.ctl.mode = .run → Answers (.stop tag) s 0x03 tag [0] (fun t =>
        Entered s .hold t ∧ (ArbLaw s.arb → HeaterLaw s → LeftRun s t) ∧ (LoadLaw s → s.arb.comp.state.turning = true → OffFull t)))
    ∧ (s.ctl.mode = .hold → Answers (.stop tag) s 0x03 tag [0] (OnlyLink (s.onCtl fun c => { c with selfStart := none })))
    ∧ (s.ctl.mode = .hold → Answers (.serviceEnter tag) s 0x28 tag [0] (Entered s .service))
    ∧ (s.ctl.mode = .service → Answers (.serviceExit tag) s 0x29 tag [0] (fun t =>
        Entered s .hold t ∧ t.arb.forcedLevel = none ∧ t.arb.forcedValve = none ∧ t.air.freshForce = none
          ∧ t.air.freezerForce = none ∧ t.air.condenserForce = none ∧ t.air.damperForce = none ∧ t.budget.force = none
          ∧ (LoadLaw s → s.arb.comp.state.turning = true → OffFull t)))

/-! ### Requests: settings -/

/-- SET_ZONE (R1 to R3): when every carried setting is in its range the zone has the new settings, else nothing changes. With
neither `enabled` nor a level carried, or with a level that does not change the wish of a CALLING or COOLING zone for its present
class, nothing but the zone's record and its channel's boundaries changes. A CALLING or COOLING zone whose wish changes posts it
again (R3): its entry, of no lower class, has the new wish, and nothing else of the arbiter changes, so no switch check follows
(the model's choice between R26 and R35, log 31); or its place in the grant has it, with the higher of the two classes. `enabled`
= no takes a zone out of service (R23), `enabled` = yes returns a DISABLED one, in RUN to work (R24). The ranges are those of
section 1.2, for the DRAWER setpoint those of the profile in force after the request (R2). -/
def Obligations.SetZoneTakesItsSettings : Prop :=
  (∀ (s : State) (tag b carried enabled nl rl prof : Byte) (sp hb on off : Half) (z : ZoneId), Ready s → zoneOf b = some z →
    let f : ZoneFields := { carried := carried, enabled := enabled, setpoint := sp, halfBand := hb, normalLevel := nl
                            recoveryLevel := rl, onTime := on, offTime := off, profile := prof }
    let c := Instr.setZone tag b carried enabled sp hb nl rl on off prof
    let r := s.zones.get z
    let taken := zoneBounds ((restartIdle s).onZone z f.apply) z carried
    let cls := r.postClass
    let wish := (f.apply r).wish cls
    let zr := zoneRequester z
    (f.ok z r = false → Refused c s 0x08 tag .badValue)
    ∧ (f.ok z r = true → Answers c s 0x08 tag [0] (Kept ((restartIdle s).onZone z f.apply)))
    ∧ (f.ok z r = true → carries carried 0 = false →
        (carries carried 3 = false ∧ carries carried 4 = false) ∨ (r.state ≠ .calling ∧ r.state ≠ .cooling) ∨ wish = r.wish cls →
        Answers c s 0x08 tag [0] (OnlyLink taken))
    ∧ (f.ok z r = true → (carries carried 0 = true → enabled = 1) → r.state = .calling ∨ r.state = .cooling → wish ≠ r.wish cls →
        s.ctl.mode = .run →
        ((∃ e ∈ s.arb.list, e.requester = zr) → (∀ e ∈ s.arb.list, e.requester = zr → clsRank cls ≤ clsRank e.cls) →
          Answers c s 0x08 tag [0] (OnlyLink { taken with arb := { s.arb with
            list := s.arb.list.map fun e => if e.requester = zr then { e with wish := wish } else e } }))
        ∧ ∀ g, (∀ e ∈ s.arb.list, e.requester ≠ zr) → s.arb.grant = some g → (∃ m ∈ g.selected ++ g.holders, m.requester = zr) →
          let again := fun m : Member => if m.requester = zr then { m with cls := raiseCls m.cls cls, wish := wish } else m
          Answers c s 0x08 tag [0] (fun t => t.arb.list = s.arb.list
            ∧ t.arb.grant = some { g with selected := g.selected.map again, holders := g.holders.map again }))
    ∧ (carried = 1 → (enabled = 0 ∧ r.state = .disabled) ∨ (enabled = 1 ∧ r.state ≠ .disabled) → f.ok z r = true →
        Answers c s 0x08 tag [0] (OnlyLink ((restartIdle s).onZone z fun r => { r with enabled := enabled == 1 })))
    ∧ (carried = 1 → enabled = 0 → r.state ≠ .disabled → f.ok z r = true → Answers c s 0x08 tag [0] (fun t =>
        t.zones.get z = leftWork .disabled s.uptime { r with enabled := false }
        ∧ (r.state = .calling ∨ r.state = .cooling → Unlisted t (zoneRequester z))))
    ∧ (carried = 1 → enabled = 1 → r.state = .disabled → f.ok z r = true → Answers c s 0x08 tag [0] (fun t =>
        t.zones.get z = if s.ctl.mode = .run then tookUpWork z s.uptime { r with enabled := true }
          else { r with enabled := true, state := .paused, enteredAt := s.uptime })))
  ∧ ∀ (f : ZoneFields) (z : ZoneId) (r : Zone),
    let has := fun n => carries f.carried n = true
    let profile := if has 7 then profileOf f.profile else r.profile
    let setpoint : Temp := if has 1 then f.setpoint.toInt
      else if has 7 then (if profile = some .chill then 10 else if profile = some .cold then -15 else -60) else r.setpoint
    (f.ok z r = true ↔ (has 0 → f.enabled.toNat ≤ 1)
      ∧ (z = .fresh → has 1 → 10 ≤ f.setpoint.toInt ∧ f.setpoint.toInt ≤ 70)
      ∧ (z = .freezer → has 1 → -240 ≤ f.setpoint.toInt ∧ f.setpoint.toInt ≤ -140)
      ∧ (z = .drawer → (profile = some .chill ∧ -10 ≤ setpoint ∧ setpoint ≤ 30)
          ∨ (profile = some .cold ∧ -30 ≤ setpoint ∧ setpoint ≤ 0) ∨ (profile = some .soft ∧ -80 ≤ setpoint ∧ setpoint ≤ -40))
      ∧ (has 2 → if z = .freezer then 5 ≤ f.halfBand.toInt ∧ f.halfBand.toInt ≤ 30
          else 3 ≤ f.halfBand.toInt ∧ f.halfBand.toInt ≤ 25)
      ∧ (has 3 → 1 ≤ f.normalLevel.toNat ∧ f.normalLevel.toNat ≤ 5)
      ∧ (has 4 → 1 ≤ f.recoveryLevel.toNat ∧ f.recoveryLevel.toNat ≤ 5)
      ∧ (has 5 → 60 ≤ f.onTime.toNat ∧ f.onTime.toNat ≤ 7200)
      ∧ (has 6 → 60 ≤ f.offTime.toNat ∧ f.offTime.toNat ≤ 7200)
      ∧ (has 7 → z = .drawer ∧ f.profile.toNat ≤ 2))
    ∧ (f.ok z r = true → f.apply r = { r with
        enabled := if has 0 then f.enabled == 1 else r.enabled
        setpoint := setpoint, profile := profile
        halfBand := if has 2 then f.halfBand.toInt else r.halfBand
        normalLevel := if has 3 then f.normalLevel.toNat else r.normalLevel
        recoveryLevel := if has 4 then f.recoveryLevel.toNat else r.recoveryLevel
        onTime := if has 5 then f.onTime.toNat else r.onTime
        offTime := if has 6 then f.offTime.toNat else r.offTime })

/-- SET_TIMING: the carried times, each in its range of section 2.8, are taken together, or nothing changes. A carried minimum
dwell, maximum wait or maximum run that is already past brings its switch check at once: a switch decided under the new times (R35)
is made (R36). Where none is past, or no switch is decided, nothing else changes (R57). -/
def Obligations.SetTimingTakesItsSettings : Prop :=
  ∀ (s : State) (tag carried : Byte) (a b c d e : Half), Ready s →
    let f : TimingFields := { carried := carried, minOff := a, minOn := b, minDwell := c, maxWait := d, maxRun := e }
    let i := Instr.setTiming tag carried a b c d e
    let has := fun n => carries carried n = true
    let taken := fun (n : Nat) (x : Half) (old : Nat) => if has n then x.toNat else old
    let u := (restartIdle s).onArb fun x => { x with timing :=
      { minOff := taken 0 a x.timing.minOff, minOn := taken 1 b x.timing.minOn, minDwell := taken 2 c x.timing.minDwell
        maxWait := taken 3 d x.timing.maxWait, maxRun := taken 4 e x.timing.maxRun } }
    let past := (has 2 ∧ ∃ g ∈ s.arb.grant, ∃ x ∈ g.dwellStart, c.toNat ≤ elapsed s.uptime x)
      ∨ (has 3 ∧ ∃ x ∈ s.arb.list, d.toNat ≤ elapsed s.uptime x.postedAt)
      ∨ (has 4 ∧ ∃ g ∈ s.arb.grant, ∃ x ∈ g.activation, e.toNat ≤ elapsed s.uptime x)
    (f.ok = true ↔ carried.toNat < 32 ∧ (has 0 → 180 ≤ a.toNat ∧ a.toNat ≤ 900) ∧ (has 1 → 60 ≤ b.toNat ∧ b.toNat ≤ 600)
      ∧ (has 2 → 60 ≤ c.toNat ∧ c.toNat ≤ 1200) ∧ (has 3 → 300 ≤ d.toNat ∧ d.toNat ≤ 3600)
      ∧ (has 4 → 600 ≤ e.toNat ∧ e.toNat ≤ 7200))
    ∧ (f.ok = false → Refused i s 0x0A tag .badValue)
    ∧ (f.ok = true → Answers i s 0x0A tag [0] (fun t => Kept u t ∧ t.arb.timing = u.arb.timing))
    ∧ (f.ok = true → ¬ (past ∧ ∃ g ∈ s.arb.grant, u.arb.Decides g s.uptime) → Answers i s 0x0A tag [0] (OnlyLink u))
    ∧ (∀ g, f.ok = true → past → s.arb.grant = some g → u.arb.Decides g s.uptime →
        Answers i s 0x0A tag [0] (fun t => Kept u t ∧ Switched u g t))

/-- SET_BUDGET: a carried budget of 20 to 40 is in force when the accounted sum less the mullion heater fits it, else pending; a
carried mode is the mullion mode; and a set that carries nothing changes nothing (R145, R146, R199). The record with what is
carried is settled, and but for an upward step that then begins it is the settled one, whose new cap the arbiter has (R134, R135).
What settling makes of any record: the pending budget, the WAITING heater, the mullion heater and the cap (R134, R135, R139, R143,
R146). -/
def Obligations.SetBudgetTakesItsSettings : Prop :=
  (∀ b : Budget, b.SettlesTo b.settle)
  ∧ ∀ (s : State) (tag carried n m : Byte), Ready s → LoadLaw s →
    let f : BudgetFields := { carried := carried, budget := n, mode := m }
    let i := Instr.setBudget tag carried n m
    (f.ok = true ↔ carried.toNat < 4 ∧ (carries carried 0 = true → 20 ≤ n.toNat ∧ n.toNat ≤ 40)
      ∧ (carries carried 1 = true → m.toNat ≤ 2))
    ∧ (f.ok = false → Refused i s 0x0C tag .badValue)
    ∧ (carried = 0 → Answers i s 0x0C tag [0] (OnlyLink (restartIdle s)))
    ∧ (f.ok = true → Answers i s 0x0C tag [0] (fun t => LoadLaw t ∧ Kept ((restartIdle s).onBudget f.apply) t))
    ∧ (f.ok = true → carries carried 0 = true → Answers i s 0x0C tag [0] (fun t => t.budget.asked = n.toNat))
    ∧ (f.ok = true → carries carried 1 = true → Answers i s 0x0C tag [0] (fun t => t.budget.mullionMode =
        if m.toNat = 0 then .auto else if m.toNat = 1 then .on else .off))
    ∧ (f.ok = true → carries carried 0 = true → Answers i s 0x0C tag [0] (fun t => (t.budget.inForce, t.budget.pending) =
        if s.budget.weighs ≤ n.toNat - 5 then (n.toNat, none) else (s.budget.inForce, some n.toNat)))
    ∧ (f.ok = true → carried ≠ 0 → Answers i s 0x0C tag [0] (fun t =>
        let u := (f.apply s.budget).settle
        t.budget = { u with level := t.budget.level, mullion := t.budget.mullion }
        ∧ (t.arb.comp.step = s.arb.comp.step → t.budget = u)
        ∧ (s.arb.budgetCap = s.budget.cap → t.arb.budgetCap = t.budget.cap)))

/-- SET_CHANNEL: the carried settings, each in its range of section 3.1, are taken together, a carried period reloads the
countdown, and nothing else changes; out of range, nothing changes (R62, R68). -/
def Obligations.SetChannelTakesItsSettings : Prop :=
  ∀ (s : State) (tag b carried p q : Byte) (x : Half) (c : Chan), Ready s → chanOf b = some c →
    let f : ChannelFields := { carried := carried, period := p, policy := q, offset := x }
    let has := fun n => carries carried n = true
    (f.ok = true ↔ carried.toNat < 8 ∧ (has 1 → q.toNat ≤ 1) ∧ (has 2 → -50 ≤ x.toInt ∧ x.toInt ≤ 50))
    ∧ (f.ok = false → Refused (.setChannel tag b carried p q x) s 0x10 tag .badValue)
    ∧ (f.ok = true → Answers (.setChannel tag b carried p q x) s 0x10 tag [0] (OnlyLink ((restartIdle s).onChannel c fun r =>
        { r with period := if has 0 then p.toNat else r.period, countdown := if has 0 then p.toNat else r.countdown
                 policy := if has 1 then (if q = 0 then .single else .joint) else r.policy
                 offset := if has 2 then x.toInt else r.offset })))

/-- SET_DEFROST: the next interval, of 4 to 96 h, and the terminate temperature, of +4.0 to +15.0, are taken together, the
boundaries are handed in HEAT and DRIP, and nothing else but a DEFROST notice follows; out of range, nothing changes (R127). -/
def Obligations.SetDefrostTakesItsSettings : Prop :=
  ∀ (s : State) (tag carried n : Byte) (x : Half), Ready s →
    let f : DefrostFields := { carried := carried, interval := n, terminate := x }
    let has := fun n => carries carried n = true
    let u := (restartIdle s).onDefrost fun d =>
      { d with next := if has 0 then n.toNat else d.next, terminate := if has 1 then x.toInt else d.terminate }
    (f.ok = true ↔ carried.toNat < 4 ∧ (has 0 → 4 ≤ n.toNat ∧ n.toNat ≤ 96) ∧ (has 1 → 40 ≤ x.toInt ∧ x.toInt ≤ 150))
    ∧ (f.ok = false → Refused (.setDefrost tag carried n x) s 0x18 tag .badValue)
    ∧ (f.ok = true → Answers (.setDefrost tag carried n x) s 0x18 tag [0] (OnlyNotices
        (if has 1 ∧ (s.defrost.phase = .heat ∨ s.defrost.phase = .drip) then setBounds u .freezerEvap (x.toInt, 200) else u)))

/-- SET_NOTICE: the carried settings, each in its range of section 10.8, are taken together, or nothing changes; a carried
ajar time makes the doors that have been open as long AJAR (R208, R89). Where a request that carries no ajar time ends the ROUTINE
spacing of an idle transmitter, its reply is sent before any waiting notice, which stays in its queue (the model's choice, log 36);
of one that carries an ajar time the order is not stated, a DOOR notice then posted being sent at once or not by a free value (log
5). -/
def Obligations.SetNoticeTakesItsSettings : Prop :=
  ∀ (s : State) (tag carried a b c d e g q uw rw : Byte) (sp per aj : Half), Ready s →
    let f : NoticeFields := { carried := carried, mapStatus := a, mapZone := b, mapDoor := c, mapDefrost := d, mapMeasure := e
                              mapBudget := g, quiet := q, urgentWeight := uw, routineWeight := rw, spacing := sp, period := per
                              ajar := aj }
    let i := Instr.setNotice tag carried a b c d e g q uw rw sp per aj
    let has := fun n => carries carried n = true
    let queue := fun x : Byte => if x = 0 then Queue.urgent else .routine
    let m := s.notice.settings
    let settings := (if has 0 then { status := queue a, zone := queue b, door := queue c, defrost := queue d, measure := queue e
                                     budget := queue g } else m.1,
      if has 1 then q == 1 else m.2.1, if has 2 then uw.toNat else m.2.2.1, if has 3 then rw.toNat else m.2.2.2.1,
      if has 4 then sp.toNat else m.2.2.2.2.1, if has 5 then per.toNat else m.2.2.2.2.2)
    (f.ok = true ↔ carried.toNat < 128
      ∧ (has 0 → a.toNat ≤ 1 ∧ b.toNat ≤ 1 ∧ c.toNat ≤ 1 ∧ d.toNat ≤ 1 ∧ e.toNat ≤ 1 ∧ g.toNat ≤ 1) ∧ (has 1 → q.toNat ≤ 1)
      ∧ (has 2 → 1 ≤ uw.toNat ∧ uw.toNat ≤ 8) ∧ (has 3 → 1 ≤ rw.toNat ∧ rw.toNat ≤ 8) ∧ (has 4 → sp.toNat ≤ 1000)
      ∧ (has 5 → per.toNat ≤ 3600) ∧ (has 6 → 30 ≤ aj.toNat ∧ aj.toNat ≤ 600))
    ∧ (f.ok = true → (f.apply s.notice).settings = settings)
    ∧ (f.ok = false → Refused i s 0x24 tag .badValue)
    ∧ (f.ok = true → ¬ has 6 → Answers i s 0x24 tag [0] (OnlyLink ((restartIdle s).onNotice f.apply)))
    ∧ (f.ok = true → has 6 → Answers i s 0x24 tag [0] (fun t =>
        t = { restartIdle s with doors := t.doors, link := t.link, notice := t.notice, free := t.free }
        ∧ t.notice.settings = settings ∧ t.doors.ajarTime = aj.toNat
        ∧ ∀ y : DoorId, t.doors.get y = (if (s.doors.get y).state = .opened ∧ aj.toNat ≤ (s.doors.get y).openFor s.uptime
            then { s.doors.get y with state := .ajar } else s.doors.get y)))

/-! ### Requests: measurement, defrost, faults -/

/-- MEASURE (R70): a tag in use, then a full set, are refused; else the entry and its tag join the queue, and a free converter
with no inject pending and an empty queue starts it at once. CLEAR_QUEUE (R73): every LINK entry leaves with its tag, the
conversion of one is cancelled, and the reply counts them. -/
def Obligations.QueueRequestsAct : Prop :=
  ∀ (s : State) (tag : Byte), Ready s →
    let only := fun t : State => OnlyLink { restartIdle s with sched := t.sched } t ∧ t.sched.ch = s.sched.ch
    (∀ (b : Byte) (c : Chan), chanOf b = some c →
      (tag ∈ s.sched.tags → Refused (.measure tag b) s 0x12 tag .tagInUse)
      ∧ (tag ∉ s.sched.tags → 7 ≤ s.sched.tags.length → Refused (.measure tag b) s 0x12 tag .queueFull)
      ∧ (tag ∉ s.sched.tags → s.sched.tags.length < 7 → Answers (.measure tag b) s 0x12 tag [1] (fun t => only t
          ∧ t.sched.queue = s.sched.queue ++ [{ chan := c, tag := some tag }] ∧ t.sched.tags = s.sched.tags ++ [tag]
          ∧ (s.sched.conv ≠ none → t.sched.conv = s.sched.conv)
          ∧ (s.sched.conv = none → s.sched.queue = [] → (∀ k, (s.sched.ch.get k).injectFlag = false) →
              t.sched.conv = some { chan := c, source := .link, tag := some tag, left := 20 }))))
    ∧ Answers (.clearQueue tag) s 0x13 tag [0, encNum (s.sched.queue.filter fun q => q.tag.isSome).length] (fun t => only t
      ∧ t.sched.queue = (s.sched.queue.filter fun q => q.tag.isNone)
      ∧ (∀ x, x ∈ t.sched.tags ↔ x ∈ s.sched.tags ∧ ∀ q ∈ s.sched.queue, q.tag ≠ some x)
      ∧ (∀ v, s.sched.conv = some v → v.source ≠ .link → t.sched.conv = some v)
      ∧ (∀ v, t.sched.conv = some v → v.source ≠ .link))

/-- SUBSTITUTE (R78), with the substitute value's end at every reset and its stand at a line break. -/
def Obligations.SubstituteIsTaken : Prop :=
  ∀ (s : State) (tag b : Byte) (v : Half), Ready s →
    (chanOf b = none ∨ (v ≠ 0x8000 ∧ (v.toInt < -500 ∨ 1500 < v.toInt)) → Refused (.substitute tag b v) s 0x14 tag .badValue)
    ∧ ((v = 0x8000 ∨ (-500 ≤ v.toInt ∧ v.toInt ≤ 1500)) →
        (chanOf b = some .freezerEvap ∨ chanOf b = some .discharge → Refused (.substitute tag b v) s 0x14 tag .denied)
        ∧ ∀ c : Chan, chanOf b = some c → c ≠ .freezerEvap → c ≠ .discharge →
          Answers (.substitute tag b v) s 0x14 tag [0] (OnlyLink ((restartIdle s).onChannel c fun r =>
            { r with substitute := if v = 0x8000 then none else some v.toInt })))
    ∧ (∀ (x : State) (c : Chan), ((powerOn x).sched.ch.get c).substitute = none
        ∧ ((commanded x).sched.ch.get c).substitute = none ∧ (dropPartial x).sched = x.sched)

/-- DEFROST_START in IDLE: the credit is at its target and the phase DUE, or PRECHILL when the start conditions hold (R125,
R109, R110). DEFROST_ABORT (R126, R121): from DUE or PRECHILL back to IDLE with credit 0, from PRECHILL with DEFROST off the
arbiter and its counts cleared; from HEAT to DRIP with cause ABORT and the heater off; the intervals stand. -/
def Obligations.DefrostRequestsAct : Prop :=
  ∀ (s : State) (tag : Byte), Ready s →
    (s.defrost.phase = .idle → Answers (.defrostStart tag) s 0x1A tag [0] (fun t =>
      Kept (restartIdle s) t ∧ t.defrost.credit = s.defrost.current * 3600 ∧ t.defrost.deferral = 0
      ∧ t.defrost.phase = (if s.defrost.mode = .run ∧ s.defrost.freezerClass = .normal ∧ s.defrost.freezerDoor = .closed
          ∧ s.defrost.lockout = false then .prechill else .due)))
    ∧ (1 ≤ s.defrost.current → s.defrost.phase = .due ∨ s.defrost.phase = .prechill →
      Answers (.defrostAbort tag) s 0x1A tag [0] (fun t =>
        Kept (restartIdle s) t ∧ t.defrost.phase = .idle ∧ t.defrost.credit = 0 ∧ t.defrost.next = s.defrost.next
        ∧ t.defrost.current = s.defrost.current
        ∧ (s.defrost.phase = .prechill → HeaterLaw s → Unlisted t .defrost ∧ t.defrost.prechill = 0
            ∧ t.defrost.waitLimit = none)))
    ∧ (s.defrost.phase = .heat → Answers (.defrostAbort tag) s 0x1A tag [0] (fun t =>
      Kept (restartIdle s) t ∧ t.defrost.phase = .drip ∧ t.defrost.lastCause = some .abort ∧ t.defrost.next = s.defrost.next
      ∧ t.defrost.current = s.defrost.current ∧ t.defrost.lastDuration = some (s.defrost.heatClock.getD 0)
      ∧ t.defrost.heatClock = none ∧ t.defrost.dripTimer = some (s.uptime + 300) ∧ t.defrost.heater = .off
      ∧ t.defrost.use = none))

/-- CLEAR_FAULT: the reply counts the LATCHED entries removed and those remaining; it clears the record, and a STUCK valve and a
FAILED damper start a recovery attempt, in LOCKOUT as elsewhere; a LOCKOUT ends in OFF_LOCKED, with no failure counted and
COMP_LOCKOUT latched (R159 to R162, R47, R53, R104). Without a hold nothing else changes outside LOCKOUT. -/
def Obligations.ClearFaultClearsTheRecord : Prop :=
  ∀ (s : State) (tag b : Byte) (o : Option FaultObject), Ready s → clearObject b = some o →
    let gone := s.fault.table.filter fun e => !e.active && (o = none || o = some e.object)
    let left := s.fault.table.filter fun e => !(!e.active && (o = none || o = some e.object))
    let answers := Answers (.clearFault tag b) s 0x21 tag [0, encNum gone.length, encNum left.length]
    let valve := if s.arb.valve.isStuck then .moving .freeze .recovery 8 else s.arb.valve
    (s.arb.comp.state ≠ .lockout → s.arb.hold = false → answers (fun t => OnlyNotices
        { restartIdle s with
          fault := { s.fault with table := left, capture := none }
          arb := { s.arb with valve := valve }
          air := { s.air with damper := if s.air.damper = .failed then .travelling .closed .recovery 6 else s.air.damper } } t))
    ∧ (s.arb.comp.state ≠ .lockout → ArbLaw s.arb → answers (fun t =>
        t.fault = { s.fault with table := left, capture := none } ∧ t.arb.valve = valve
        ∧ (s.air.damper = .failed → t.air.damper = .travelling .closed .recovery 6)))
    ∧ (s.arb.comp.state = .lockout → LoadLaw s → answers (fun t => OffFull t ∧ t.arb.comp.failures = 0
        ∧ t.fault = { s.fault with
            table := left.map fun e => if e.code = .compLockout ∧ e.object = .compressor then { e with active := false } else e
            capture := none }
        ∧ (s.arb.valve.isStuck = true → t.arb.valve = valve)
        ∧ (s.air.damper = .failed → t.air.damper = .travelling .closed .recovery 6)))

/-! ### Requests: forces -/

/-- Admitted fan and damper forces: the Air Path Unit runs its outputs from them at once, and nothing else changes (R107,
R179). -/
def Obligations.FanAndDamperForcesAreTaken : Prop :=
  ∀ (s : State) (tag v : Byte), Ready s → s.ctl.mode = .service → v.toNat ≤ 1 →
    let u := fun (f : AirPath → AirPath) => OnlyLink ((restartIdle s).onAir fun a => (f a).settle)
    ((v = 0 ∨ (s.doors.left.state = .closed ∧ s.doors.right.state = .closed)) →
      Answers (.forceFreshFan tag v) s 0x2A tag [0] (u fun a => { a with freshForce := some (v == 1) }))
    ∧ ((v = 0 ∨ (s.doors.freezer.state = .closed ∧ s.defrost.heater = .off)) →
      Answers (.forceFreezerFan tag v) s 0x2A tag [0] (u fun a => { a with freezerForce := some (v == 1) }))
    ∧ Answers (.forceCondenserFan tag v) s 0x2A tag [0] (u fun a => { a with condenserForce := some (v == 1) })
    ∧ ((v = 0 ∨ s.doors.drawer.state = .closed) → Answers (.forceDamperTarget tag v) s 0x2A tag [0]
        (u fun a => { a with damperForce := some (if v = 1 then .opened else .closed) }))

/-- Admitted valve and compressor forces stand as the arbiter's forced target and level (R180, R181). A valve that rests away from
its target begins its move at once; a level force begins the start from OFF_READY, with no forced move waiting and the discharge
position not ABOVE; a force of 0 stops a compressor that turns; and of one that is RUNNING with no step in flight a step begins
toward the lowest of the level, the budget cap and the discharge cap (R34, R41, R180), upward only with its claim granted (R136).
-/
def Obligations.ValveAndLevelForcesAreTaken : Prop :=
  ∀ (s : State) (tag v : Byte), Ready s → s.ctl.mode = .service →
    (∀ e : Evap, evapOf v = some e → lockValve s e = none → Answers (.forceValveTarget tag v) s 0x2A tag [0] (fun t =>
      Kept (restartIdle s) t ∧ t.arb.forcedValve = some e ∧ t.arb.forcedLevel = s.arb.forcedLevel
      ∧ (HeaterLaw s → t.arb.valve =
          if s.arb.valve.isMoving = true ∨ s.arb.valve = .resting e then s.arb.valve else .moving e .first 8)))
    ∧ (v.toNat ≤ 5 → lockLevel s v.toNat = none → Answers (.forceCompressorLevel tag v) s 0x2A tag [0] (fun t =>
      Kept (restartIdle s) t ∧ t.arb.forcedLevel = some v.toNat ∧ t.arb.forcedValve = s.arb.forcedValve
      ∧ (v = 0 → LoadLaw s → s.arb.comp.state.turning = true → OffFull t)
      ∧ (1 ≤ v.toNat → HeaterLaw s → s.arb.comp.state = .offReady → s.arb.dischargePos ≠ some .above →
          (∀ e ∈ s.arb.forcedValve, s.arb.valve = .resting e) →
          t.arb.comp.state = .starting ∧ t.arb.comp.level = 1 ∧ t.arb.comp.startLeft = 10 ∧ t.speedLine = 1
          ∧ t.budget.level = 1)
      ∧ (1 ≤ v.toNat → HeaterLaw s → s.arb.comp.state = .running → s.arb.comp.step = none → Stepped s.arb.comp.level s.budget
          (max 1 (min v.toNat (min s.arb.budgetCap (s.arb.dischargeCap.getD 5)))) t)))

/-- Admitted heater forces (R182, R183): a defrost heater force ON claims an OFF heater for SERVICE and switches it ON at once, one
that finds it in use changes nothing, OFF ends a SERVICE heater and changes nothing else; a mullion force stands with the Load
Budget Unit, and of a settled load, with no upward step due, ON ends with the mullion heater ON. -/
def Obligations.HeaterForcesAreTaken : Prop :=
  ∀ (s : State) (tag : Byte), Ready s → s.ctl.mode = .service →
    (lockHeater s true = none → s.defrost.heater = .off → Answers (.forceDefrostHeater tag 1) s 0x2A tag [0] (fun t =>
      Kept (restartIdle s) t ∧ t.defrost.use = some .service ∧ t.defrost.heater ≠ .off
      ∧ (HeaterLaw s → t.defrost.heater = .on ∧ t.heaterOutput = true)))
    ∧ (lockHeater s true = none → s.defrost.heater ≠ .off →
      Answers (.forceDefrostHeater tag 1) s 0x2A tag [0] (OnlyLink (restartIdle s)))
    ∧ (s.defrost.use = some .service → Answers (.forceDefrostHeater tag 0) s 0x2A tag [0] (fun t =>
      Kept (restartIdle s) t ∧ (s.arb.hold = false → t.defrost.heater = .off ∧ t.defrost.use = none)))
    ∧ (s.defrost.use ≠ some .service → Answers (.forceDefrostHeater tag 0) s 0x2A tag [0] (OnlyLink (restartIdle s)))
    ∧ (∀ on : Bool, lockMullion s on = none → Answers (.forceMullionHeater tag (if on then 1 else 0)) s 0x2A tag [0] (fun t =>
      Kept (restartIdle s) t ∧ t.budget.force = some on
      ∧ (on = true → LoadLaw s → HeaterLaw s → s.budget.mode = .service → s.budget.settle = s.budget →
          s.budget.heater ≠ .waiting → s.arb.comp.level = s.arb.aim .service ∨ s.arb.comp.state.running_ = false →
          t.budget.mullion = .on ∧ t.mullionOutput = true)))

/-- A force that meets an interlock is answered DENIED with the code of the first that holds, and changes nothing (R178,
R209), also where it equals the force standing (the model's choice, log 35); and the conditions of the interlocks, in their order
(R179 to R183). -/
def Obligations.InterlocksDenyForces : Prop :=
  (∀ (s : State) (tag v : Byte), Ready s → s.ctl.mode = .service →
    let denied := fun (c : Instr) (code : Byte) => Answers c s 0x2A tag [8, code] (OnlyLink (restartIdle s))
    ((s.doors.left.state ≠ .closed ∨ s.doors.right.state ≠ .closed) → denied (.forceFreshFan tag 1) 4)
    ∧ (s.doors.freezer.state ≠ .closed → denied (.forceFreezerFan tag 1) 4)
    ∧ (s.doors.freezer.state = .closed → s.defrost.heater ≠ .off → denied (.forceFreezerFan tag 1) 6)
    ∧ (s.doors.drawer.state ≠ .closed → denied (.forceDamperTarget tag 1) 4)
    ∧ (∀ e i, evapOf v = some e → lockValve s e = some i → denied (.forceValveTarget tag v) (interlockCode i))
    ∧ (∀ i, v.toNat ≤ 5 → lockLevel s v.toNat = some i → denied (.forceCompressorLevel tag v) (interlockCode i))
    ∧ (∀ i, lockHeater s true = some i → denied (.forceDefrostHeater tag 1) (interlockCode i))
    ∧ (∀ i, lockMullion s true = some i → denied (.forceMullionHeater tag 1) (interlockCode i)))
  ∧ [Interlock.minOff, .lockout, .stuck, .budget, .door, .valveSpeed, .heatComp, .heatTemp].map interlockCode
      = [0, 1, 2, 3, 4, 5, 6, 7]
  ∧ ∀ s : State,
    let c := s.arb.comp
    (∀ e, lockValve s e =
      if s.arb.valve.isStuck = true then some .stuck
      else if c.state.turning = true ∧ ¬ (c.state ≠ .starting ∧ c.level = 1 ∧ c.step = none) then some .valveSpeed
      else if e = .freeze ∧ s.defrost.heater ≠ .off then some .heatComp else none)
    ∧ (∀ l, lockLevel s l =
      if l = 0 then none
      else if c.state = .lockout then some .lockout
      else if s.arb.valve.isStuck = true then some .stuck
      else if c.state = .offLocked then some .minOff
      else if s.arb.valve.isMoving = true ∧ (2 ≤ l ∨ c.state = .offReady) then some .valveSpeed
      else if s.defrost.heater ≠ .off ∧ s.arb.valve.toward .freeze = true then some .heatComp
      else if s.arb.budgetCap < l then some .budget else none)
    ∧ (∀ on, lockHeater s on =
      if on = false then none
      else if (c.state.turning = true ∧ s.arb.valve.toward .freeze = true) ∨ s.air.freezerFan = true then some .heatComp
      else if (s.sched.ch.get .freezerEvap).faulted = true
        ∨ ((s.sched.ch.get .freezerEvap).lastValue.all fun x => 200 ≤ x) = true then some .heatTemp
      else if s.defrost.heater = .off ∧ s.budget.available < s.budget.sumBare + 10 then some .budget else none)
    ∧ (∀ on, lockMullion s on =
      if on = true ∧ s.budget.mullion ≠ .on ∧ s.budget.available < s.budget.sum + 2 then some .budget else none)

/-! ### The line -/

/-- A line break returns the receiver to HUNT and touches nothing else (R177, R189); so do a framing error (R185), and a gap
within a frame once 10 whole milliseconds have passed since its last character's end (R188, which the model reads so, log 21); a
gap that is not due changes nothing (the model's choice, log 6). -/
def Obligations.LineEventsResetTheReceiver : Prop :=
  ∀ s : State, LinkLaw s →
    let t := { s with link := { s.link with rx := { phase := .hunt, bytes := [], toCome := 0, gap := 0 } } }
    exec .lineBreak s = .next t ∧ exec .framingError s = .next t
    ∧ (s.link.rx.phase ≠ .hunt → 10 ≤ s.link.rx.gap → exec .gapTimeout s = .next t)
    ∧ (s.link.rx.phase = .hunt ∨ s.link.rx.gap < 10 → exec .gapTimeout s = .next s)

/-- What the receiver does with a character in each of its states (R187); a bad whole frame is discarded, and a good one is
handed on: it is the request command of its row, which is the arrival of its frame (the model's choice, log 4). -/
def Obligations.ReceiverTakesCharacters : Prop :=
  ∀ (s : State) (c : Byte), LinkLaw s →
    let r := s.link.rx
    let hunt : Receiver := { phase := .hunt, bytes := [], toCome := 0, gap := 0 }
    let into := fun x : Receiver => ({ s with link := { s.link with rx := x } } : State)
    let goes := fun x : Receiver => exec (.receiveCharacter c) s = .next (into x)
    (r.phase = .hunt → c ≠ 0xA5 → goes hunt)
    ∧ (r.phase = .hunt → c = 0xA5 → goes { hunt with phase := .header })
    ∧ (r.phase = .header → r.bytes = [] → 56 < c.toNat → goes hunt)
    ∧ (r.phase = .header → r.bytes = [] → c.toNat ≤ 56 → goes { r with bytes := [c], gap := 0 })
    ∧ (∀ n, r.phase = .header → r.bytes = [n] → goes { r with bytes := [n, c], gap := 0 })
    ∧ (∀ n k, r.phase = .header → r.bytes = [n, k] → goes
        { phase := if n.toNat = 0 then .check else .body, bytes := [n, k, c], toCome := n.toNat, gap := 0 })
    ∧ (r.phase = .body → 2 ≤ r.toCome → goes { r with bytes := r.bytes ++ [c], toCome := r.toCome - 1, gap := 0 })
    ∧ (r.phase = .body → r.toCome = 1 → goes { phase := .check, bytes := r.bytes ++ [c], toCome := 0, gap := 0 })
    ∧ (∀ n bs, r.phase = .check → r.bytes = n :: bs → bs.length = n.toNat + 2 → goes { r with bytes := r.bytes ++ [c], gap := 0 })
    ∧ (∀ n bs, r.phase = .check → r.bytes = n :: bs → bs.length = n.toNat + 3 →
        (judgeFrame (r.bytes ++ [c]) = none → goes hunt)
        ∧ ∀ k f, judgeFrame (r.bytes ++ [c]) = some f → frameOf k = some f →
          exec (.receiveCharacter c) s = exec k (into hunt))

/-- The check of a frame (R186): its register, the bytes of a frame on the line, and when a received frame is good. -/
def Obligations.FrameCheck : Prop :=
  let shift := fun r : Half => if r.msb then (r <<< 1) ^^^ 0x1021 else r <<< 1
  crc [] = 0xFFFF
  ∧ (∀ (bs : List Byte) (b : Byte), crc (bs ++ [b]) = shift^[8] (crc bs ^^^ (b.setWidth 16 <<< 8)))
  ∧ crc [0x31, 0x32, 0x33, 0x34, 0x35, 0x36, 0x37, 0x38, 0x39] = 0x29B1
  ∧ (∀ f : Frame, f.wire = 0xA5 :: BitVec.ofNat 8 f.payload.length :: f.kind :: f.tag :: f.payload
      ++ [(crc f.covered >>> 8).setWidth 8, (crc f.covered).setWidth 8])
  ∧ (∀ (f : Frame) (check : Half), f.payload.length ≤ 56 → judgeFrame (f.covered ++ be16 check) =
      if check = crc f.covered then some f else none)

/-- Decode of encode: the receiver in HUNT, taking the characters of a frame as it stands on the line one after another,
hands on nothing before the last, and with the last exactly that frame. -/
def Obligations.ReceiverReadsBackEveryFrame : Prop :=
  ∀ f : Frame, f.payload.length ≤ 56 →
    let hunt : Receiver := { phase := .hunt, bytes := [], toCome := 0, gap := 0 }
    let after := fun n => (f.wire.take n).foldl (fun (r : Receiver) c => (r.take c).1) hunt
    (∀ n, n + 1 < f.wire.length → ∀ c ∈ f.wire[n]?, ((after n).take c).2 = none)
    ∧ ∃ c ∈ f.wire.getLast?, ((after (f.wire.length - 1)).take c).1 = hunt
        ∧ ((after (f.wire.length - 1)).take c).2.bind judgeFrame = some f

/-- A request that comes to an empty execution place is executed, and its reply carries what its owner answers (R191). The end of
a sent frame (R191, R192, R194): the reply that answered frees the execution place, and the oldest waiting request is executed so,
its reply joining the end of the reply list (after the oldest reply has left a full one); a BUSY reply frees nothing; a ROUTINE
notice begins the spacing, a MEASURE notice releases its tag; and after each of them the oldest reply is the next to be sent, and
leaves the list. The end of the RESET reply is the commanded reset (R176, section 8.3). -/
def Obligations.SentFrameIsFollowed : Prop :=
  (∀ (c : Instr) (f : Frame) (s : State), Ready s → frameOf c = some f →
    let u := { s with link := { s.link with place := some { frame := f, answered := false } } }
    Leads c s (fun t => Carries t (replyFrame f (judge u f).2) ∧ Executed s u f t))
  ∧ ∀ (s : State) (x : Sending), LinkLaw s → s.link.tx = some x →
    let sending := fun r : Reply => ({ frame := r.frame, what := .reply r.kind, left := r.frame.lineTime } : Sending)
    let chosen := fun t : State => ∀ r rest, s.link.replies = r :: rest → t.notice = s.notice ∧ t.link.replies = rest
      ∧ t.link.tx = some (sending r)
    let choice := fun l : Link => { l with replies := s.link.replies.tail, tx := s.link.replies.head?.map sending }
    (x.what = .reply .answer → s.link.waiting = [] → Leads .frameTransmitted s (fun t =>
        OnlyNotices s t ∧ t.link.place = none ∧ chosen t))
    ∧ (∀ f rest, x.what = .reply .answer → s.link.waiting = f :: rest → Leads .frameTransmitted s (fun t =>
        let p := { s.link with place := some { frame := f, answered := false }, waiting := rest }
        let u := { s with link := if s.link.replies.length < 4 then p else choice p }
        let l := s.link.replies
          ++ [{ frame := replyFrame f (judge u f).2, kind := if t.link.resetTaken then .reset else .answer }]
        t.link.place = some { frame := f, answered := true } ∧ (t.link.resetTaken = false → t.link.waiting = rest)
        ∧ t.link.replies = l.tail ∧ t.link.tx = l.head?.map sending ∧ Executed s u f t))
    ∧ (x.what = .reply .busy → (∀ p ∈ s.link.place, p.answered = true) → Leads .frameTransmitted s (fun t =>
        OnlyNotices s t ∧ t.link.place = s.link.place ∧ t.link.waiting = s.link.waiting ∧ chosen t))
    ∧ (∀ k q, x.what = .notice k q → (∀ p ∈ s.link.place, p.answered = true) → Leads .frameTransmitted s (fun t =>
        t = { s with sched := t.sched, link := t.link, notice := t.notice }
        ∧ t.sched = { s.sched with tags := match k with | .measure tag => s.sched.tags.filter (· != tag) | _ => s.sched.tags }
        ∧ t.link.spacing = (if q = .routine ∧ s.notice.spacing ≠ 0 then some 0 else s.link.spacing) ∧ chosen t))
    ∧ (x.what = .reply .reset → exec .frameTransmitted s = exec .commandedReset s)

/-- The end of the ROUTINE spacing (R194). An idle transmitter then chooses among the notices by weighted rotation (R193):
the queue whose turn it is sends while it has a notice and frames left, else the turn passes to the other with a full count, also
where that one is empty too and nothing is sent (the model's reading, log 14). -/
def Obligations.NoticesLeaveByRotation : Prop :=
  ∀ s : State, LinkLaw s → spacingOver s = true →
    let q := s.link.turn
    let u := { s with link := { s.link with spacing := none } }
    let sends := fun (p : Queue) (n : Notice) (rest : List Notice) (left : Nat) => Leads .routineSpacingEnd s (fun t =>
      t = { u with notice := t.notice, link := t.link } ∧ t.notice = s.notice.put p rest ∧ t.link.spacing = none
      ∧ t.link.turn = p ∧ t.link.turnLeft = left
      ∧ t.link.tx = some { frame := { kind := n.key.kind, tag := 0, payload := n.payload }, what := .notice n.key p
                           left := ({ kind := n.key.kind, tag := 0, payload := n.payload } : Frame).lineTime })
    (s.link.tx ≠ none → exec .routineSpacingEnd s = .next u)
    ∧ (s.link.tx = none →
      (∀ n rest, s.notice.get q = n :: rest → 0 < s.link.turnLeft → sends q n rest (s.link.turnLeft - 1))
      ∧ (∀ n rest, s.notice.get q = [] ∨ s.link.turnLeft = 0 → s.notice.get q.other = n :: rest →
          sends q.other n rest (s.notice.weight q.other - 1))
      ∧ (s.notice.get q = [] ∨ s.link.turnLeft = 0 → s.notice.get q.other = [] → exec .routineSpacingEnd s =
          .next { u with link := { u.link with turn := q.other, turnLeft := s.notice.weight q.other } }))

/-! ### Resets and timers of the part -/

/-- After a power-on reset every block has its power-on values, with the pins and the door switches as they stand (R175). -/
def Obligations.PowerOnResetClearsThePart : Prop :=
  ∀ s : State, Leads .powerOnReset s (fun t =>
    OnlyNotices { State.base s.doors.left.input s.doors.right.input s.doors.drawer.input s.doors.freezer.input s.pins with
      free := s.free, pending := s.pending } t
    ∧ t.uptime = 0 ∧ t.ctl = { mode := .hold, selfStart := some 120, serviceIdle := none, resetCause := .powerOn }
    ∧ t.arb.comp.state = .offLocked ∧ t.arb.comp.minOffLeft = 360 ∧ t.arb.list = [] ∧ t.arb.grant = none
    ∧ t.fault.table = [] ∧ t.fault.capture = none ∧ t.fault.resetCount = 0 ∧ t.defrost.credit = 0
    ∧ t.speedLine = 0 ∧ t.heaterOutput = false ∧ t.mullionOutput = false
    ∧ t.air.freshFan = false ∧ t.air.freezerFan = false ∧ t.air.condenserFan = false
    ∧ t.link.rx.phase = .hunt ∧ t.link.place = none ∧ t.link.waiting = [] ∧ t.sched.queue = [] ∧ t.sched.tags = []
    ∧ (∀ c, (t.sched.ch.get c).lastValue = none ∧ (t.sched.ch.get c).faulted = false)
    ∧ (∀ z, (t.zones.get z).state = .paused) ∧ ∀ d, (t.doors.get d).state = .closed)

/-- A commanded reset takes place at the end of the RESET reply (R176): the Defrost Unit keeps its credit, intervals and last
heat, a defrost cut short becomes due again (R132), and the Fault Unit its entries with all their fields and its capture record,
with the reset count raised (R168). LATCHED become COMP_LOCKOUT and DEFROST_OVERTEMP, VALVE_TRAVEL with an end switch showing
(R58), and DAMPER_TRAVEL with the damper's switch showing CLOSED (R105); every other entry keeps its mark. -/
def Obligations.CommandedResetKeepsHistory : Prop :=
  ∀ (s : State) (x : Sending), s.link.tx = some x → x.what = .reply .reset →
    exec .frameTransmitted s = exec .commandedReset s
    ∧ Leads .commandedReset s (fun t =>
      let cut := s.defrost.phase = .prechill ∨ s.defrost.phase = .heat ∨ s.defrost.phase = .drip ∨ s.defrost.phase = .recover
      let target := s.defrost.current * 3600
      let ended := fun e : FaultEntry => (e.code = .compLockout ∧ e.object = .compressor)
        ∨ (s.pins.endSwitch ≠ none ∧ e.code = .valveTravel ∧ e.object = .valve)
        ∨ (s.pins.damperSwitch = some .closed ∧ e.code = .damperTravel ∧ e.object = .damper)
        ∨ (e.code = .defrostOvertemp ∧ e.object = .heater)
      t.uptime = 0 ∧ t.ctl = { mode := .hold, selfStart := some 120, serviceIdle := none, resetCause := .commanded }
      ∧ t.pins = s.pins ∧ t.pending = s.pending
      ∧ t.defrost = { Defrost.reset with
          phase := if cut ∨ target ≤ s.defrost.credit then .due else .idle
          credit := if cut then target else s.defrost.credit
          current := s.defrost.current, next := s.defrost.next, lastDuration := s.defrost.lastDuration
          lastCause := s.defrost.lastCause, interrupted := cut }
      ∧ t.fault.table = (s.fault.table.map fun e => if ended e then { e with active := false } else e)
      ∧ t.fault.capture = s.fault.capture ∧ t.fault.resetCount = min (s.fault.resetCount + 1) 255
      ∧ t.arb = Arbiter.reset s.pins.endSwitch ∧ t.air = AirPath.reset s.pins.damperSwitch ∧ t.budget = Budget.reset
      ∧ (∀ z, t.zones.get z = Zone.reset z) ∧ t.sched = Scheduler.reset
      ∧ t.link.place = none ∧ t.link.waiting = [] ∧ t.link.resetTaken = false)

/-- The timers of the part. The self-start timer's expiry enters RUN (R171), where the PAUSED zones take up work (R25); the
service idle timer's leaves SERVICE, with every force removed and a compressor that turns stopped (R174, R184); the status
timer's posts a STATUS notice, unless QUIET discards it, and starts again with the period (R213). An expiry that is not due
changes nothing (the model's choice, log 6). -/
def Obligations.TimersOfThePartExpire : Prop :=
  ∀ s : State, LinkLaw s →
    (s.ctl.mode = .hold → s.ctl.selfStart = some 0 → Leads .selfStartExpiry s (fun t => Entered s .run t ∧ EnteredRun s t))
    ∧ (s.ctl.mode = .service → s.ctl.serviceIdle = some 0 → Leads .serviceIdleExpiry s (fun t =>
        Entered s .hold t ∧ t.arb.forcedLevel = none ∧ t.arb.forcedValve = none ∧ t.air.freshForce = none
        ∧ t.air.freezerForce = none ∧ t.air.condenserForce = none ∧ t.air.damperForce = none ∧ t.budget.force = none
        ∧ (LoadLaw s → s.arb.comp.state.turning = true → OffFull t)))
    ∧ (s.ctl.selfStart ≠ some 0 → exec .selfStartExpiry s = .next s)
    ∧ (s.ctl.serviceIdle ≠ some 0 → exec .serviceIdleExpiry s = .next s)
    ∧ (s.notice.statusLeft ≠ some 0 → exec .statusTimerExpiry s = .next s)
    ∧ (s.notice.statusLeft = some 0 → Leads .statusTimerExpiry s (fun t => OnlyNotices s t
        ∧ t.notice.statusLeft = (if s.notice.period = 0 then none else some s.notice.period)
        ∧ (s.notice.quiet = false → { key := .status, payload := statusPayload s .period } ∈ t.notice.urgent ++ t.notice.routine
            ∨ ∃ x ∈ t.link.tx, x.frame = { kind := 0x40, tag := 0, payload := statusPayload s .period })))
    ∧ (s.notice.statusLeft = some 0 → s.notice.quiet = true → exec .statusTimerExpiry s =
        .next { s with notice := { s.notice with statusLeft := if s.notice.period = 0 then none else some s.notice.period } })

/-- The phases of TIMED mode (R19): an expired OFF phase calls, the class left as it is, and sets up an ON phase; an expired ON
phase enters IDLE and starts an OFF phase. -/
def Obligations.TimedPhasesEnd : Prop :=
  ∀ (s : State) (z : ZoneId), LinkLaw s → (s.zones.get z).mode = .timed →
    ((s.zones.get z).state = .idle → (s.zones.get z).timer = some { kind := .off, left := 0 } →
      Leads (.offPhaseExpiry z) s (fun t => Kept s t
        ∧ ((t.zones.get z).state = .calling ∨ (t.zones.get z).state = .cooling) ∧ (t.zones.get z).cls = (s.zones.get z).cls
        ∧ (t.zones.get z).postDefrost = false
        ∧ (t.zones.get z).timer = some { kind := .on, left := (s.zones.get z).onTime }))
    ∧ ((s.zones.get z).state = .cooling → (s.zones.get z).timer = some { kind := .on, left := 0 } →
      Leads (.onPhaseExpiry z) s (fun t => Kept s t
        ∧ (t.zones.get z).state = .idle ∧ (t.zones.get z).enteredAt = s.uptime ∧ (t.zones.get z).cls = (s.zones.get z).cls
        ∧ (t.zones.get z).timer = some { kind := .off, left := (s.zones.get z).offTime }))

/-! ### The compressor and the valve -/

/-- The switch check at an expired minimum dwell, maximum wait or maximum run (R35, R36): a decided switch ends the grant,
re-lists its holders at the tail, and forms a grant of the eligible entries for the other evaporator; else nothing changes. -/
def Obligations.SwitchIsDecided : Prop :=
  ∀ (s : State) (g : Grant) (c : Instr), LinkLaw s → s.arb.grant = some g →
    (c = .minDwellExpiry ∧ g.phase = .active ∧ (∃ d, g.dwellStart = some d ∧ elapsed s.uptime d = s.arb.timing.minDwell))
      ∨ (∃ e ∈ s.arb.list, c = .maxWaitExpiry e.requester ∧ elapsed s.uptime e.postedAt = s.arb.timing.maxWait)
      ∨ (c = .maxRunExpiry ∧ ∃ d, g.activation = some d ∧ elapsed s.uptime d = s.arb.timing.maxRun) →
    (¬ s.arb.Decides g s.uptime → exec c s = .next s)
    ∧ (s.arb.Decides g s.uptime → s.arb.hold = false → Leads c s (fun t => Kept s t ∧ Switched s g t))

/-- The minimum off timer's end makes OFF_READY, and with a PREPARING grant whose evaporator the valve is at the start begins
(R38, R39); run feedback within the window ends the start and activates the grant (R32, R39), and asks for a DISCHARGE
reading; in any other state it is disregarded (R45). -/
def Obligations.CompressorStarts : Prop :=
  ∀ s : State, LinkLaw s → s.arb.hold = false →
    (s.arb.comp.state = .offLocked → s.arb.comp.minOffLeft = 0 → s.arb.grant = none → s.ctl.mode ≠ .service →
      exec .minOffExpiry s = .next { s with
        arb := { s.arb with comp := { s.arb.comp with state := .offReady } }
        air := ({ s.air with comp := .offReady } : AirPath).settle })
    ∧ (∀ g, s.arb.comp.state = .offLocked → s.arb.comp.minOffLeft = 0 → s.arb.grant = some g → g.phase = .preparing →
        s.arb.valve = .resting g.evap → s.arb.dischargePos ≠ some .above → Leads .minOffExpiry s (fun t =>
          Kept s t ∧ t.arb.comp.state = .starting ∧ t.arb.comp.level = 1 ∧ t.arb.comp.startLeft = 10 ∧ t.speedLine = 1
          ∧ t.arb.grant = some g ∧ t.budget.level = 1 ∧ t.air.condenserFan = true))
    ∧ (∀ g, s.arb.comp.state = .starting → s.arb.grant = some g → g.phase = .preparing → s.arb.valve = .resting g.evap →
        Leads .runFeedback s (fun t => Kept { s with pins := { s.pins with feedback := true } } t
          ∧ t.arb.comp.state = .running ∧ t.arb.comp.runStart = s.uptime ∧ t.arb.comp.level = s.arb.comp.level
          ∧ t.arb.grant = some { g with phase := .active, selected := [], holders := g.holders ++ g.selected
                                        activation := some (g.activation.getD s.uptime), dwellStart := some s.uptime }
          ∧ (t.sched.ch.get .discharge).injectFlag = true))
    ∧ (s.arb.comp.state ≠ .starting → exec .runFeedback s = .next { s with pins := { s.pins with feedback := true } })

/-- A start window that ends, and a trip, stop the compressor, raise the count of failures by one and declare their fault (R40,
R45); the third failure is a LOCKOUT of 1800 s (R46). Before the third, a trip returns an ACTIVE grant to PREPARING, its holders
back at the end of its selected set, the dwell start absent and the activation time kept, and a PREPARING grant stays as it is, at
both (R40, R45). Both end a forced level (R180, section 8.4), which lives in SERVICE alone but
is ended in every mode (the model's reading, log 19). A trip of a compressor that does not run changes the pin alone. -/
def Obligations.CompressorFails : Prop :=
  ∀ s : State, LinkLaw s → LoadLaw s →
    let p := { s with pins := { s.pins with feedback := false } }
    let failed := fun (u : State) (c : FaultCode) (returned : Grant → Grant) (t : State) =>
      Kept u t ∧ Recorded t c .compressor ∧ t.speedLine = 0 ∧ t.arb.forcedLevel = none
      ∧ t.arb.comp.failures = s.arb.comp.failures + 1
      ∧ (s.arb.comp.failures < 2 → OffFull t ∧ ∀ g, s.arb.grant = some g → t.arb.grant = some (returned g))
      ∧ (2 ≤ s.arb.comp.failures → t.arb.comp.state = .lockout ∧ t.arb.comp.lockoutLeft = 1800
          ∧ Recorded t .compLockout .compressor)
    (s.arb.comp.state = .starting → s.arb.comp.startLeft = 0 → Leads .startWindowEnd s (failed s .compStart id))
    ∧ (s.arb.comp.state = .running ∨ s.arb.comp.state = .runout → Leads .trip s (failed p .compTrip fun g =>
        if g.phase = .active then
          { g with phase := .preparing, selected := g.selected ++ g.holders, holders := [], dwellStart := none } else g))
    ∧ (s.arb.comp.state ≠ .running → s.arb.comp.state ≠ .runout → exec .trip s = .next p)
    ∧ (s.arb.comp.state = .running ∨ s.arb.comp.state = .runout → s.arb.comp.failures ≠ 0 →
        600 ≤ elapsed s.uptime s.arb.comp.runStart →
        exec .failureCountReset s = .next { s with arb := { s.arb with comp := { s.arb.comp with failures := 0 } } })

/-- A step's end makes the level (R41); the level reached by a downward step is reported, and the load settles (R137). With the
grant ACTIVE the next step then begins toward the lowest of its target level, the highest wish of its holders (R31), the budget
cap and the discharge cap (R34, R42), upward only with its claim granted (R136). The end of RUNOUT stops the compressor (R44);
LOCKOUT ends in OFF_LOCKED (R47). -/
def Obligations.CompressorStepsAndStops : Prop :=
  ∀ s : State, LinkLaw s → LoadLaw s →
    (∀ n, s.arb.comp.step = some { goal := n, left := 0 } → s.arb.hold = false → Leads .stepEnd s (fun t =>
      Kept s t ∧ LoadLaw t ∧ t.arb.comp.level = n ∧ t.arb.comp.state.turning = true))
    ∧ (∀ n g top, s.arb.comp.step = some { goal := n, left := 0 } → s.arb.hold = false → s.arb.comp.state = .running →
        s.ctl.mode ≠ .service → s.arb.grant = some g → g.phase = .active → (∀ m ∈ g.holders, m.wish ≤ top) →
        top = 0 ∨ (∃ m ∈ g.holders, m.wish = top) → Leads .stepEnd s (fun t =>
          let b := if n < s.arb.comp.level ∧ s.budget.level ≠ n then ({ s.budget with level := n } : Budget).settle else s.budget
          let cap := if b.cap = s.budget.cap then s.arb.budgetCap else b.cap
          Stepped n b (max 1 (min top (min cap (s.arb.dischargeCap.getD 5)))) t))
    ∧ (s.arb.comp.state = .runout → s.arb.timing.minOn ≤ elapsed s.uptime s.arb.comp.runStart →
        Leads .runoutEnd s (fun t => Kept s t ∧ OffFull t))
    ∧ (s.arb.comp.state = .lockout → s.arb.comp.lockoutLeft = 0 →
        Leads .lockoutExpiry s (fun t => Kept s t ∧ OffFull t ∧ t.defrost.lockout = false))

/-- The valve (R50 to R53), while no hold stands: the end switch confirms a move's target and nothing else, and with the arrival
comes what it allows: the after-grant decision in RUN without a grant (R33), which serves the first entry of the highest class
among the eligible ones with all of its evaporator (R30), the move to the grant's evaporator (R39), the move to a forced target
(R181, section 8.4), which begins before a forced start that waits as well (the model's choice, log 40), but that one toward
FREEZE, with the compressor turning, waits while the defrost heater is not OFF (the model's reading, log 23). A first check that
ends starts a second attempt; a second one makes the valve STUCK and declares VALVE_TRAVEL, and ends the forced level and target
in every mode (R180, R181; the model's reading, log 19); one in recovery makes it STUCK again, a forced target standing (the
model's reading, log 11). STUCK tries again after 1800 s. -/
def Obligations.ValveTravels : Prop :=
  ∀ s : State, LinkLaw s → s.arb.hold = false →
    let shows := fun x : Option Evap => { s with pins := { s.pins with endSwitch := x } }
    let valve := fun v : Valve => { s with arb := { s.arb with valve := v } }
    let c := s.arb.comp
    (∀ x, (∀ e t n, s.arb.valve = .moving e t n → x ≠ some e) → exec (.endSwitchConfirm x) s = .next (shows x))
    ∧ (∀ e t n, s.arb.valve = .moving e t n → Leads (.endSwitchConfirm (some e)) s (fun u =>
        Kept (shows (some e)) u
        ∧ (∀ g, s.arb.grant = some g → g.evap = e → u.arb.valve = .resting e ∧ u.valveDrive = none)
        ∧ (∀ g, s.arb.grant = some g → g.evap ≠ e → g.phase = .preparing → ArbLaw s.arb →
            u.arb.valve = .moving g.evap .first 8 ∧ u.valveDrive = some g.evap)
        ∧ (s.arb.grant = none → s.ctl.mode = .run → c.state ≠ .starting → (∃ x ∈ s.arb.list, s.arb.eligible x = true) →
            ∃ x, FirstOfHighest (s.arb.list.filter s.arb.eligible) x ∧ GrantFormed s s.arb.list x.evap u)
        ∧ (s.arb.grant = none → s.ctl.mode = .run → (∀ x ∈ s.arb.list, s.arb.eligible x = false) →
            u.arb.valve = .resting e ∧ u.arb.grant = none
            ∧ (c.state = .running ∨ c.state = .runout →
                if s.arb.timing.minOn ≤ elapsed s.uptime c.runStart then LoadLaw s → OffFull u else u.arb.comp.state = .runout))
        ∧ (s.arb.grant = none → s.ctl.mode ≠ .run → ArbLaw s.arb → u.arb.valve =
            (if s.ctl.mode = .service ∧ s.arb.forcedValve = some (otherEvap e)
                ∧ (s.defrost.heater = .off ∨ e = .freeze ∨ c.state.turning = false)
              then .moving (otherEvap e) .first 8 else .resting e))))
    ∧ (∀ e, s.arb.valve = .moving e .first 0 → exec .valveCheckEnd s = .next (valve (.moving e .second 8)))
    ∧ (∀ e, s.arb.valve = .moving e .second 0 → Leads .valveCheckEnd s (fun u =>
        Kept s u ∧ u.arb.valve = .stuck 1800 ∧ u.valveDrive = none ∧ Recorded u .valveTravel .valve ∧ u.arb.grant = none
        ∧ u.arb.forcedLevel = none ∧ u.arb.forcedValve = none
        ∧ (LoadLaw s → s.arb.comp.state.turning = true → OffFull u)))
    ∧ (∀ e, s.arb.valve = .moving e .recovery 0 → exec .valveCheckEnd s = .next (valve (.stuck 1800)))
    ∧ (s.arb.valve = .stuck 0 → exec .stuckRecoveryExpiry s = .next (valve (.moving .freeze .recovery 8)))

/-! ### Credit and the phases of a defrost -/

/-- Run seconds and door deliveries (R37, R108, R109, R123): in IDLE they add 1, 4 or 8 a second to the credit, and a credit at
its target makes the phase DUE, or PRECHILL when the start conditions hold; in RECOVER the first run second sets the recovery
limit; in other phases they add nothing. -/
def Obligations.CreditGrows : Prop :=
  ∀ s : State, LinkLaw s →
    let target := s.defrost.current * 3600
    let full := fun (u : State) (n : Nat) (t : State) => Kept u t ∧ t.defrost.credit = n ∧ t.defrost.deferral = 0
      ∧ t.defrost.phase = (if s.defrost.mode = .run ∧ s.defrost.freezerClass = .normal ∧ s.defrost.freezerDoor = .closed
          ∧ s.defrost.lockout = false then .prechill else .due)
    (s.arb.comp.state = .running ∨ s.arb.comp.state = .runout → s.arb.valve = .resting .freeze →
      (s.defrost.phase = .idle → s.defrost.credit + 1 < target →
        exec .runSecond s = .next { s with defrost := { s.defrost with credit := s.defrost.credit + 1 } })
      ∧ (s.defrost.phase = .idle → target ≤ s.defrost.credit + 1 → Leads .runSecond s (full s (s.defrost.credit + 1)))
      ∧ (s.defrost.phase = .recover → s.defrost.recoveryLimit = none →
        exec .runSecond s = .next { s with defrost := { s.defrost with recoveryLimit := some (s.uptime + 240) } })
      ∧ (s.defrost.phase ≠ .idle → (s.defrost.phase = .recover → s.defrost.recoveryLimit ≠ none) →
        exec .runSecond s = .next s))
    ∧ (∀ d w, (d = .drawer ∧ w = 4) ∨ (d = .freezer ∧ w = 8) → (s.doors.get d).state ≠ .closed →
        (s.doors.get d).delivered + 60 ≤ (s.doors.get d).openFor s.uptime →
        let u := { s with doors := s.doors.set d { s.doors.get d with delivered := (s.doors.get d).delivered + 60 } }
        (s.defrost.phase = .idle → s.defrost.credit + w * 60 < target → exec (.openSecondsDelivery d) s =
          .next { u with defrost := { s.defrost with credit := s.defrost.credit + w * 60 } })
        ∧ (s.defrost.phase = .idle → target ≤ s.defrost.credit + w * 60 →
          Leads (.openSecondsDelivery d) s (full u (s.defrost.credit + w * 60)))
        ∧ (s.defrost.phase ≠ .idle → exec (.openSecondsDelivery d) s = .next u))

/-- The entry to HEAT (R111, R113, R114, R115): at the deferral limit in RUN, when the prechill is counted, and at the prechill
wait limit, taken as reached when it lies less than 2 to the 31 seconds back (the model's reading, log 9); the hold is taken, the
fan permit withdrawn, and the heat clock stands at 0. With FREEZE not fed the heater is claimed for DEFROST at once, and is ON when
the claim fits without the mullion heater (R55, R116, R138): so from DUE, and from PRECHILL, whose withdrawal comes first, with the
compressor in OFF_LOCKED or LOCKOUT or a grant for FRESH. With FREEZE fed and no one at FRESH or waiting for it the compressor
stops, and the heater is ON. -/
def Obligations.HeatBegins : Prop :=
  ∀ s : State, LinkLaw s →
    let a := s.arb
    let fed := a.comp.state.turning = true ∧ a.valve.toward .freeze = true
    let off := a.comp.state = .offLocked ∨ a.comp.state = .lockout
    let heats := fun (calm : Prop) (t : State) => Kept s t ∧ t.defrost.phase = .heat ∧ t.defrost.credit = 0 ∧ t.defrost.hold = true
      ∧ t.defrost.heatClock = some 0 ∧ t.defrost.sampleTimer = none ∧ t.defrost.probeLost = s.defrost.probeFaulted
      ∧ t.arb.hold = true ∧ t.air.permit = false
      ∧ (HeaterLaw s → ArbLaw a → calm → ¬ fed → t.defrost.use = some .defrost ∧ t.defrost.heater ≠ .off
          ∧ (s.budget.weighs + 10 ≤ s.budget.units → t.defrost.heater = .on ∧ t.heaterOutput = true))
      ∧ (HeaterLaw s → ArbLaw a → LoadLaw s → fed → (∀ g ∈ a.grant, g.evap ≠ .fresh) → (∀ e ∈ a.list, e.evap ≠ .fresh) →
          t.defrost.use = some .defrost ∧ t.defrost.heater = .on ∧ t.heaterOutput = true ∧ t.arb.comp.state = .offLocked)
    let calm := off ∨ ∃ g ∈ a.grant, g.evap = .fresh
    (s.defrost.phase = .due → s.defrost.mode = .run → 7200 ≤ s.defrost.deferral → Leads .deferralLimit s (heats True))
    ∧ (s.defrost.phase = .prechill → 600 ≤ s.defrost.prechill → Leads .prechillDone s (heats calm))
    ∧ (∀ x, s.defrost.phase = .prechill → s.defrost.waitLimit = some x → (s.uptime - x).toNat < 2 ^ 31 →
        Leads .prechillWaitLimit s (heats calm))

/-- HEAT and what follows it (R118, R120 to R124): the sample timer posts a DEFROST entry and is then absent (the model's
reading, log 20); the heat clock's limit ends HEAT with cause TIME, the heater off; the drip timer's end leads to RECOVER and the
recovery limit's to IDLE, where a credit at its target starts the next defrost (R109). A time is taken as reached when it lies
less than 2 to the 31 seconds back (the model's reading, log 9).
At the end of HEAT the next interval is computed from the current one, the cause and the duration by the table (R121). -/
def Obligations.HeatEndsInDripAndRecovery : Prop :=
  (∀ s : State, LinkLaw s →
    let passed := fun x : Time => (s.uptime - x).toNat < 2 ^ 31
    (∀ x, s.defrost.phase = .heat → s.defrost.sampleTimer = some x → passed x → Leads .sampleTimerExpiry s (fun t =>
      t = { s with sched := t.sched, defrost := { s.defrost with sampleTimer := none } } ∧ t.sched.ch = s.sched.ch
      ∧ t.sched.queue = s.sched.queue
        ++ (if s.sched.queue.any (fun q => q.tag.isNone) then [] else [{ chan := .freezerEvap, tag := none }])))
    ∧ (∀ n, s.defrost.phase = .heat → s.defrost.heatClock = some n → 2400 ≤ n → Leads .heatClockLimit s (fun t =>
      Kept s t ∧ Recorded t .defrostTimeout .heater ∧ t.defrost.phase = .drip ∧ t.defrost.heater = .off
      ∧ t.heaterOutput = false ∧ t.defrost.lastCause = some .time ∧ t.defrost.lastDuration = some n
      ∧ t.defrost.heatClock = none ∧ t.defrost.next = max (s.defrost.current - 4) 4 ∧ t.defrost.interrupted = false
      ∧ t.defrost.dripTimer = some (s.uptime + 300)))
    ∧ (∀ x, s.defrost.phase = .drip → s.defrost.dripTimer = some x → passed x → Leads .dripTimerExpiry s (fun t =>
      Kept s t ∧ t.defrost.phase = .recover ∧ t.defrost.hold = false ∧ t.arb.hold = false ∧ t.defrost.dripTimer = none))
    ∧ (∀ x, s.defrost.phase = .recover → s.defrost.recoveryLimit = some x → passed x →
      Leads .recoveryLimitExpiry s (fun t =>
      Kept s t ∧ t.defrost.phase = ({ s.defrost with current := s.defrost.next } : Defrost).restPhase
      ∧ t.defrost.current = s.defrost.next ∧ t.defrost.recoveryLimit = none
      ∧ t.defrost.credit = s.defrost.credit ∧ t.air.permit = true)))
  ∧ ∀ (d : Defrost) (c : HeatCause) (now : Time) (n : Nat), d.heatClock = some n →
    (d.endHeat c now).lastDuration = some n ∧ (d.endHeat c now).current = d.current
    ∧ (c = .abort → (d.endHeat c now).next = d.next)
    ∧ (c = .probe → n < 720 → (d.endHeat c now).next = min (d.current + 4) 96)
    ∧ (c = .time → (d.endHeat c now).next = max (d.current - 4) 4)
    ∧ (c = .probe ∨ c = .overtemp → 1500 < n → (d.endHeat c now).next = max (d.current - 4) 4)
    ∧ (c = .probe ∨ c = .overtemp → 720 ≤ n → n ≤ 1500 → (d.endHeat c now).next = d.current)
    ∧ (c = .overtemp → n < 720 → (d.endHeat c now).next = d.current)

/-! ### Measurement -/

/-- A code is classified by its value alone; a SHORT or OPEN reading carries neither value nor band position (R75). The band
position of an OK reading is BELOW, ABOVE or INSIDE its boundaries in force, a value at either being INSIDE (R80). -/
def Obligations.ReadingsAreJudged : Prop :=
  ∀ (r : Channel) (code : BitVec 12),
    (code.toNat ≤ 40 → classify code = .short) ∧ (4055 ≤ code.toNat → classify code = .opened)
    ∧ (41 ≤ code.toNat → code.toNat ≤ 4054 → classify code = .ok)
    ∧ (r.substitute = none → (classify code = .short ∨ classify code = .opened) →
        r.reading code = { sensor := classify code, value := none })
    ∧ (r.substitute = none → classify code = .ok → (r.reading code).sensor = .ok
        ∧ (r.reading code).value.map (·.1) = some (measuredTemp code r.offset))
    ∧ (∀ v b, (r.reading code).value = some (v, b) → (r.reading code).sensor = .ok
        ∧ (b = .below ↔ v < r.low) ∧ (b = .above ↔ ¬ v < r.low ∧ r.high < v) ∧ (b = .inside ↔ r.low ≤ v ∧ v ≤ r.high))
    ∧ ((r.reading code).sensor ≠ .ok → (r.reading code).value = none)

/-- The thermistor curve with the offset added and the sum clamped (R76): between two neighbouring breakpoints a linear
interpolation rounded to the nearest tenth, half-way toward the warmer. -/
def Obligations.ThermistorCurve : Prop :=
  ∀ (code : BitVec 12) (x : Temp),
    let t := curveTemp code.toNat Config.curve
    let n : Int := code.toNat
    (4000 ≤ code.toNat → t = -500) ∧ (code.toNat ≤ 100 → t = 1500)
    ∧ (∀ k, k < 15 → ∀ c1 t1 c2 t2, Config.curve[k]? = some (c1, t1) → Config.curve[k + 1]? = some (c2, t2) →
        c2 ≤ code.toNat → code.toNat ≤ c1 →
        2 * (c1 - c2) * t ≤ 2 * (c1 - c2) * t1 + 2 * (t2 - t1) * (c1 - n) + (c1 - c2)
        ∧ 2 * (c1 - c2) * t1 + 2 * (t2 - t1) * (c1 - n) + (c1 - c2) < 2 * (c1 - c2) * (t + 1))
    ∧ measuredTemp code x = max (-500) (min (t + x) 1500)

/-- What a completion records (R77, R79, R82, R83): the code, the sensor state of the code alone (R75), the source and the time;
an OK result, also one of a substitute value, its value, band position and substituted mark, which a SHORT or OPEN result leaves
standing (the model's reading, log 16); and the counts, a third result in a row setting or clearing the fault. -/
def Obligations.ResultsAreRecorded : Prop :=
  ∀ (r : Channel) (src : Source) (code : BitVec 12) (now : Time),
    let q := r.record src code now
    q.lastRaw = some code ∧ q.lastSource = some src ∧ q.lastTime = some now ∧ q.sensor = some (classify code)
    ∧ (∀ x, r.substitute = some x → q.lastValue = some x ∧ q.substituted = true ∧ q.band = some (bandOf x r.low r.high))
    ∧ (∀ v b, (r.reading code).value = some (v, b) → q.lastValue = some v ∧ q.band = some b
        ∧ q.substituted = r.substitute.isSome ∧ q.bad = 0 ∧ q.good = min (r.good + 1) 3
        ∧ q.faulted = (r.faulted && decide (r.good + 1 < 3)))
    ∧ ((r.reading code).value = none → q.lastValue = r.lastValue ∧ q.band = r.band ∧ q.substituted = r.substituted
        ∧ q.good = 0 ∧ q.bad = min (r.bad + 1) 3 ∧ q.faulted = (r.faulted || decide (3 ≤ r.bad + 1)))

/-- A conversion in flight whose time is over completes with a code from outside the part (the model's choice, log 25): its
request is consumed, with a JOINT channel both flags (R66); its channel's record takes it, and no other record changes (R79); a
LINK entry's result leaves as a MEASURE notice (R72), which for a SHORT or OPEN result too carries the raw code (the model's
reading of section 11.1, log 17) and the substituted mark that stands (the model's reading, log 16); and the next conversion is
that of the lowest INJECT flag, else of the oldest queue entry, else of the lowest SCAN flag (R64). One that is not due changes
nothing (the model's choice, log 6). A SCAN countdown's end reloads it and sets the flag (R67). -/
def Obligations.ConversionsComplete : Prop :=
  ∀ (s : State) (code : BitVec 12), LinkLaw s →
    (∀ v, s.sched.conv = some v → v.left = 0 → Leads (.conversionComplete code) s (fun t =>
      let old := s.sched.ch.get v.chan
      let new := t.sched.ch.get v.chan
      Kept s t ∧ new.result = (old.record v.source code s.uptime).result
      ∧ (∀ c, c ≠ v.chan → (t.sched.ch.get c).result = (s.sched.ch.get c).result
          ∧ (t.sched.ch.get c).scanFlag = (s.sched.ch.get c).scanFlag
          ∧ (t.sched.ch.get c).injectFlag = (s.sched.ch.get c).injectFlag)
      ∧ new.scanFlag = (old.scanFlag && old.policy == .single && v.source != .scan)
      ∧ new.injectFlag = (old.injectFlag && old.policy == .single && v.source != .inject)
      ∧ t.sched.queue = (if v.source = .link ∨ v.source = .defrost then s.sched.queue.erase { chan := v.chan, tag := v.tag }
          else s.sched.queue)
      ∧ t.sched.tags = s.sched.tags
      ∧ t.sched.conv = (match Chan.all.find? (fun c => (t.sched.ch.get c).injectFlag), t.sched.queue with
          | some c, _ => some { chan := c, source := .inject, tag := none, left := 20 }
          | none, q :: _ => some { chan := q.chan, source := if q.tag.isSome then .link else .defrost, tag := q.tag, left := 20 }
          | none, [] => (Chan.all.find? fun c => (t.sched.ch.get c).scanFlag).map fun c =>
              { chan := c, source := .scan, tag := none, left := 20 })
      ∧ (∀ tag, v.tag = some tag →
          let p := measurePayload v.chan tag (old.reading code) code new.substituted s.uptime
          { key := .measure tag, payload := p } ∈ t.notice.urgent ++ t.notice.routine
            ∨ ∃ x ∈ t.link.tx, x.frame = { kind := 0x44, tag := 0, payload := p })))
    ∧ ((∀ v ∈ s.sched.conv, v.left ≠ 0) → exec (.conversionComplete code) s = .next s)
    ∧ (∀ c, (s.sched.ch.get c).period ≠ 0 → (s.sched.ch.get c).countdown = 0 → Leads (.scanExpiry c) s (fun t =>
        t = { s with sched := t.sched } ∧ t.sched.queue = s.sched.queue ∧ t.sched.tags = s.sched.tags
        ∧ t.sched.ch = s.sched.ch.set c { s.sched.ch.get c with
            countdown := (s.sched.ch.get c).period, scanFlag := true
            overrun := (s.sched.ch.get c).overrun || (s.sched.ch.get c).scanFlag }
        ∧ (∀ v, s.sched.conv = some v → t.sched.conv = some v) ∧ t.sched.conv.isSome))

/-- What a zone does with a result of its air channel. An OK result is recorded (R10), with the pull-down check still to be made
(R8). In THERMOSTAT mode an IDLE zone posts and enters CALLING on ABOVE, with class RECOVERY on any of its three grounds, and
spends its close mark on INSIDE and BELOW (R10); a CALLING or COOLING one is satisfied on BELOW and leaves the arbiter (R11, R12);
a third result in a row that is not OK makes it TIMED, with a full phase (R18). In TIMED mode results bring no change of state
(R19): an OK one is recorded, and the first in IDLE makes the pull-down check there too, which may raise the class to RECOVERY (the
model's reading, log 8); the third OK one in a row of a faulted channel returns the zone to THERMOSTAT (R20). -/
def Obligations.ZonesActOnTheirSensor : Prop :=
  ∀ (s : State) (z : ZoneId) (v : Conversion) (code : BitVec 12), LinkLaw s → s.sched.conv = some v → v.left = 0 →
    v.chan = zoneChan z →
    let r := s.zones.get z
    let old := s.sched.ch.get v.chan
    let served := r.state = .calling ∨ r.state = .cooling
    let ends := fun Q : State → Zone → Prop => Leads (.conversionComplete code) s (fun t => Kept s t ∧ Q t (t.zones.get z))
    (∀ x b, (old.reading code).value = some (x, b) →
      let check := r.state = .idle ∧ r.checkDue = true
      let took := { r with lastAir := some x, lastBand := some b, checkDue := r.checkDue && r.state != .idle
                           cls := if check ∧ r.setpoint + r.halfBand + 50 < x then .recovery else r.cls }
      let posted : Cls := if took.cls = .recovery ∨ r.closeMark = some .recovery ∨ (z = .freezer ∧ r.postDefrost = true) then
        .recovery else .normal
      (r.mode = .thermostat → old.faulted = false →
        (r.state = .idle → b = .above → ends fun t q => (q.state = .calling ∨ q.state = .cooling)
          ∧ q = { took with state := q.state, enteredAt := q.enteredAt, cls := posted, closeMark := none, postDefrost := false }
          ∧ (s.ctl.mode = .run → zoneRequester z ∈ t.arb.requesters))
        ∧ (r.state = .idle → b = .inside → ends fun _ q => q = { took with closeMark := none })
        ∧ (r.state = .idle → b = .below → ends fun _ q => q = { took with closeMark := none, cls := .normal })
        ∧ (served → b = .below → ends fun t q => q = { took with state := .idle, enteredAt := s.uptime, cls := .normal }
          ∧ Unlisted t (zoneRequester z))
        ∧ (r.state ≠ .idle → (served → b ≠ .below) → ends fun _ q => q = took))
      ∧ (r.mode = .timed → ends fun _ q => q =
          if old.faulted = true ∧ 2 ≤ old.good then { took with mode := .thermostat, timer := none } else took))
    ∧ ((old.reading code).value = none →
      (old.faulted = true ∨ old.bad < 2 → ends fun _ q => q = r)
      ∧ (old.faulted = false → 2 ≤ old.bad → ends fun t q => Recorded t .sensor (.channel v.chan) ∧ q = { r with
          mode := .timed, closeMark := none
          timer := if r.state = .idle then some { kind := .off, left := r.offTime }
            else if served then some { kind := .on, left := r.onTime } else none }))

/-- What the other watchers do with a result. FRESH_EVAP (R97): ABOVE ends run-on. FREEZER_EVAP: in HEAT it sets the sample timer,
INSIDE ends HEAT with cause PROBE and ABOVE with OVERTEMP, with the heater ON and the probe not lost (R118, R119); in RECOVER
BELOW ends it, and a credit at its target starts the next defrost (R123, R109); above +20.0 it cuts a SERVICE heater (R130).
AMBIENT sets the position and the wish (R142). DISCHARGE sets the position and the cap, ABOVE stops a compressor that turns, ends
the forced level in every mode (the model's reading, log 19) and returns its grant to PREPARING, and DISCHARGE_HIGH is declared
when it does not stand (R48); a fault of DISCHARGE caps at 3, or at 2 when INSIDE was last (R49). -/
def Obligations.UnitsActOnTheirSensors : Prop :=
  ∀ (s : State) (v : Conversion) (code : BitVec 12), LinkLaw s → s.sched.conv = some v → v.left = 0 →
    let old := s.sched.ch.get v.chan
    let value := (old.reading code).value
    let lost := value = none ∧ old.faulted = false ∧ 2 ≤ old.bad
    let back := value ≠ none ∧ old.faulted = true ∧ 2 ≤ old.good
    let d := s.defrost
    let ends := fun Q : State → Prop => Leads (.conversionComplete code) s (fun t => Kept s t ∧ Q t)
    let dripped := fun (c : HeatCause) (t : State) => t.defrost.phase = .drip ∧ t.defrost.lastCause = some c
      ∧ t.defrost.lastDuration = some (d.heatClock.getD 0) ∧ t.defrost.heater = .off ∧ t.heaterOutput = false
      ∧ t.defrost.dripTimer = some (s.uptime + 300) ∧ t.defrost.sampleTimer = none
    (v.chan = .freshEvap → ends fun t => t.air =
      if value.map (·.2) = some .above ∧ s.air.runOn ≠ none then ({ s.air with runOn := none } : AirPath).settle else s.air)
    ∧ (v.chan = .freezerEvap → d.phase = .heat →
      (value.map (·.2) = none ∨ value.map (·.2) = some .below ∨ d.heater ≠ .on ∨ d.probeLost = true → ends fun t => t.defrost =
          { d with sampleTimer := some (s.uptime + 10), probeLost := d.probeLost || decide lost
                   probeFaulted := if lost then true else if back then false else d.probeFaulted })
      ∧ (value.map (·.2) = some .inside → d.heater = .on → d.probeLost = false → ends (dripped .probe))
      ∧ (value.map (·.2) = some .above → d.heater = .on → d.probeLost = false → ends fun t =>
          dripped .overtemp t ∧ Recorded t .defrostOvertemp .heater))
    ∧ (v.chan = .freezerEvap → d.phase = .recover → value.map (·.2) = some .below → d.probeFaulted = false →
        ends fun t => t.defrost.phase = ({ d with current := d.next } : Defrost).restPhase ∧ t.defrost.current = d.next
          ∧ t.defrost.recoveryLimit = none ∧ t.air.permit = true)
    ∧ (v.chan = .freezerEvap → d.phase = .idle ∨ d.phase = .due → d.heater = .on → d.use = some .service →
        (∃ x ∈ value, 200 < x.1) → s.arb.hold = false → ends fun t => t.defrost.heater = .off ∧ t.heaterOutput = false)
    ∧ (v.chan = .ambient →
      (∀ x b, value = some (x, b) → ends fun t => t.budget.ambientPos = some b
        ∧ t.budget.ambientFaulted = (s.budget.ambientFaulted && !decide back)
        ∧ t.budget.ambientWish = if back then b != .below else if s.budget.ambientFaulted = true then s.budget.ambientWish
            else if b = .above then true else if b = .below then false else s.budget.ambientWish)
      ∧ (lost → ends fun t => t.budget.ambientFaulted = true ∧ t.budget.ambientWish = true))
    ∧ (v.chan = .discharge →
      (∀ x b, value = some (x, b) → ends fun t => t.arb.dischargePos = some b
        ∧ t.arb.dischargeFaulted = (s.arb.dischargeFaulted && !decide back)
        ∧ t.arb.dischargeCap = (if back then (if b = .inside then some 2 else none) else if b = .inside then some 2
            else if b = .above then s.arb.dischargeCap else if s.arb.dischargeFaulted = true then some 3 else none)
        ∧ t.arb.dischargeHigh = (if b = .above then true else if b = .below then false else s.arb.dischargeHigh)
        ∧ (b = .above → s.arb.dischargeHigh = false → Recorded t .dischargeHigh .compressor)
        ∧ (b = .above → s.arb.comp.state.turning = true → LoadLaw s → OffFull t ∧ t.arb.forcedLevel = none
            ∧ ∀ g, s.arb.grant = some g → g.phase = .active → t.arb.grant = some
              { g with phase := .preparing, selected := g.selected ++ g.holders, holders := [], dwellStart := none }))
      ∧ (lost → ends fun t => t.arb.dischargeFaulted = true ∧ t.arb.dischargePos = none
        ∧ t.arb.dischargeCap = if s.arb.dischargePos = some .inside then some 2 else some 3))

/-! ### Doors and air paths -/

/-- A change of a door's input cancels its debounce window, and starts one of 50 ms when the new level is not the debounced one
(R86). A window's end with the old level changes nothing else, one that is not due nothing at all (the model's choice, log 6); one
with a new level opens or closes the door (R88, R90): an open stops the zone, and the last close of a compartment injects its air
channel (R16, R74) and returns a zone in DOOR to IDLE, with the close mark of the time it was open (R17). A close of the DRAWER or
FREEZER door hands the Defrost Unit the open seconds not yet delivered (R91), which in IDLE add 4 or 8 each to the credit, and a
credit then at its target ends IDLE (R108, R109). -/
def Obligations.DoorsOpenAndClose : Prop :=
  ∀ (s : State) (d : DoorId), LinkLaw s →
    let r := s.doors.get d
    let z := doorZone d
    let put := fun x : Door => { s with doors := s.doors.set d x }
    (∀ b, exec (.doorInputChange d b) s = .next (put (if r.input = b then r else
        { r with input := b, window := if b = r.state.isOpen then none else some 50 })))
    ∧ (r.window ≠ some 0 → exec (.debounceEnd d) s = .next s)
    ∧ (r.window = some 0 → r.input = r.state.isOpen → exec (.debounceEnd d) s = .next (put { r with window := none }))
    ∧ (r.window = some 0 → r.input = true → r.state = .closed → Leads (.debounceEnd d) s (fun t =>
        Kept (put { r with window := none, state := .opened, openedAt := some s.uptime, delivered := 0 }) t
        ∧ (t.zones.get z).doorOpenSince = some ((s.zones.get z).doorOpenSince.getD s.uptime)
        ∧ ((s.zones.get z).state = .idle ∨ (s.zones.get z).state = .calling ∨ (s.zones.get z).state = .cooling →
            (t.zones.get z).state = .door)))
    ∧ (r.window = some 0 → r.input = false → r.state ≠ .closed → Leads (.debounceEnd d) s (fun t =>
        let n := (r.openedAt.map (elapsed s.uptime)).getD 0
        let added := (if d = .drawer then 4 else if d = .freezer then 8 else 0) * (n - r.delivered)
        Kept (put { r with window := none, state := .closed, openedAt := none, delivered := 0, lastOpen := some n }) t
        ∧ t.defrost.credit = s.defrost.credit + (if s.defrost.phase = .idle then added else 0)
        ∧ (s.defrost.phase = .idle → t.defrost.phase = if added = 0 then .idle else
            ({ s.defrost with credit := s.defrost.credit + added
                              freezerDoor := if d = .freezer then .closed else s.defrost.freezerDoor } : Defrost).restPhase)
        ∧ ((d = .drawer ∨ d = .freezer ∨ ∀ e, e ≠ d → doorZone e = z → (s.doors.get e).state = .closed) →
            (t.sched.ch.get (zoneChan z)).injectFlag = true
            ∧ (t.zones.get z).doorOpenSince = none
            ∧ ((s.zones.get z).state = .door → t.zones.get z = { s.zones.get z with
                state := .idle, enteredAt := s.uptime, doorOpenSince := none
                closeMark := if (s.zones.get z).mode = .thermostat then
                    some (if 30 ≤ ((s.zones.get z).doorOpenSince.map (elapsed s.uptime)).getD 0 then .recovery else .normal)
                  else (s.zones.get z).closeMark
                timer := if (s.zones.get z).mode = .timed then some { kind := .off, left := (s.zones.get z).offTime }
                  else (s.zones.get z).timer }))))
    ∧ (∀ o, r.state = .opened → r.openedAt = some o → s.doors.ajarTime ≤ elapsed s.uptime o →
        Leads (.ajarExpiry d) s (OnlyNotices (put { r with state := .ajar })))

/-- The air paths' timers and the damper (R96, R101, R102, R104): run-on ends after 480 s, and an event before that changes
nothing (the model's choice, log 6); the position switch confirms the end travelled to and nothing else, and a confirmed recovery
hands the zone its recovered event (R22); a check that ends without it starts a second attempt, then makes the damper FAILED with
DAMPER_TRAVEL declared and the DRAWER zone faulted (R21). -/
def Obligations.AirPathEvents : Prop :=
  ∀ s : State, LinkLaw s →
    let air := fun a : AirPath => { s with air := a }
    let shows := fun x : Option DamperEnd => { s with pins := { s.pins with damperSwitch := x } }
    (∀ x, s.air.runOn = some x → 480 ≤ elapsed s.uptime x →
      exec .runOnLimit s = .next (air ({ s.air with runOn := none } : AirPath).settle))
    ∧ (∀ x, s.air.runOn = some x → elapsed s.uptime x < 480 → exec .runOnLimit s = .next s)
    ∧ (∀ x, (∀ e t n, s.air.damper = .travelling e t n → x ≠ some e) →
        exec (.damperPositionSwitch x) s = .next (shows x))
    ∧ (∀ e t n, s.air.damper = .travelling e t n → t ≠ .recovery → Leads (.damperPositionSwitch (some e)) s (fun u =>
        Kept (shows (some e)) u ∧ u.air = ({ s.air with damper := .resting e } : AirPath).settle))
    ∧ (∀ e n, s.air.damper = .travelling e .recovery n → Leads (.damperPositionSwitch (some e)) s (fun u =>
        Kept (shows (some e)) u ∧ u.zones.drawer.damperFaulted = false))
    ∧ (∀ e, s.air.damper = .travelling e .first 0 →
        exec .damperCheckEnd s = .next (air { s.air with damper := .travelling s.air.target .second 6 }))
    ∧ (∀ e, s.air.damper = .travelling e .second 0 → Leads .damperCheckEnd s (fun u =>
        Kept s u ∧ u.air.damper = .failed ∧ u.damperDrive = none ∧ Recorded u .damperTravel .damper
        ∧ u.zones.drawer.damperFaulted = true
        ∧ (s.zones.drawer.state ≠ .disabled → s.zones.drawer.state ≠ .paused → u.zones.drawer.state = .fault)))
    ∧ (∀ e, s.air.damper = .travelling e .recovery 0 →
        exec .damperCheckEnd s = .next (air { s.air with damper := .failed }))

/-! ### Faults -/

/-- A declaration's entry and its capture (R153, R157), and an end's (R155), with nothing else of the part changed but the
notices. -/
def Obligations.FaultsAreRecorded : Prop :=
  ∀ (s : State) (c : FaultCode) (o : FaultObject) (d : Option Sensor),
    let now : FaultTime := { count := s.fault.resetCount, at_ := s.uptime }
    let of := fun e : FaultEntry => e.code = c ∧ e.object = o
    let t := declareFault s c o d
    let u := endFault s c o
    let new : Capture := { code := c, object := o, detail := d, time := now, more := false }
    OnlyNotices { s with fault := t.fault } t ∧ OnlyNotices { s with fault := u.fault } u
    ∧ t.fault.resetCount = s.fault.resetCount ∧ u.fault.resetCount = s.fault.resetCount
    ∧ ((∀ e ∈ s.fault.table, ¬ of e) → t.fault.table = s.fault.table ++
        [{ code := c, object := o, detail := d, first := now, last := now, occurrences := 1, active := true }])
    ∧ (∀ l e r, s.fault.table = l ++ e :: r → of e → (∀ x ∈ l ++ r, ¬ of x) → t.fault.table = l ++
        { e with detail := d, last := now, occurrences := min (e.occurrences + 1) 255, active := true } :: r)
    ∧ (∀ l e r, s.fault.table = l ++ e :: r → of e → (∀ x ∈ l ++ r, ¬ of x) →
        u.fault.table = l ++ { e with active := false } :: r)
    ∧ ((∀ e ∈ s.fault.table, of e → e.active = false) → u = s) ∧ u.fault.capture = s.fault.capture
    ∧ (s.fault.capture = none → t.fault.capture = some new)
    ∧ (∀ k, s.fault.capture = some k → priority c < priority k.code → t.fault.capture = some new)
    ∧ (∀ k, s.fault.capture = some k → priority k.code ≤ priority c → t.fault.capture = some { k with more := true })
end

