-- ==== Sys2Proof/Laws/State.lean ====
section
/-! SUPPORT. The fields of a state after each of its update functions, and reading back what a record of records was given.
Every lemma is true by computation, so no later proof unfolds an update. -/

namespace Sys2Proof.Machine

variable (s : State)

@[simp] theorem State.onCtl_uptime (f : Control → Control) : (s.onCtl f).uptime = s.uptime := rfl
@[simp] theorem State.onCtl_ms (f : Control → Control) : (s.onCtl f).ms = s.ms := rfl
@[simp] theorem State.onCtl_ctl (f : Control → Control) : (s.onCtl f).ctl = f s.ctl := rfl
@[simp] theorem State.onCtl_zones (f : Control → Control) : (s.onCtl f).zones = s.zones := rfl
@[simp] theorem State.onCtl_arb (f : Control → Control) : (s.onCtl f).arb = s.arb := rfl
@[simp] theorem State.onCtl_sched (f : Control → Control) : (s.onCtl f).sched = s.sched := rfl
@[simp] theorem State.onCtl_doors (f : Control → Control) : (s.onCtl f).doors = s.doors := rfl
@[simp] theorem State.onCtl_air (f : Control → Control) : (s.onCtl f).air = s.air := rfl
@[simp] theorem State.onCtl_defrost (f : Control → Control) : (s.onCtl f).defrost = s.defrost := rfl
@[simp] theorem State.onCtl_budget (f : Control → Control) : (s.onCtl f).budget = s.budget := rfl
@[simp] theorem State.onCtl_fault (f : Control → Control) : (s.onCtl f).fault = s.fault := rfl
@[simp] theorem State.onCtl_notice (f : Control → Control) : (s.onCtl f).notice = s.notice := rfl
@[simp] theorem State.onCtl_link (f : Control → Control) : (s.onCtl f).link = s.link := rfl
@[simp] theorem State.onCtl_pins (f : Control → Control) : (s.onCtl f).pins = s.pins := rfl
@[simp] theorem State.onCtl_free (f : Control → Control) : (s.onCtl f).free = s.free := rfl
@[simp] theorem State.onCtl_pending (f : Control → Control) : (s.onCtl f).pending = s.pending := rfl

@[simp] theorem State.onZone_uptime (z : ZoneId) (f : Zone → Zone) : (s.onZone z f).uptime = s.uptime := rfl
@[simp] theorem State.onZone_ms (z : ZoneId) (f : Zone → Zone) : (s.onZone z f).ms = s.ms := rfl
@[simp] theorem State.onZone_ctl (z : ZoneId) (f : Zone → Zone) : (s.onZone z f).ctl = s.ctl := rfl
@[simp] theorem State.onZone_zones (z : ZoneId) (f : Zone → Zone) : (s.onZone z f).zones = s.zones.set z (f (s.zones.get z)) := rfl
@[simp] theorem State.onZone_arb (z : ZoneId) (f : Zone → Zone) : (s.onZone z f).arb = s.arb := rfl
@[simp] theorem State.onZone_sched (z : ZoneId) (f : Zone → Zone) : (s.onZone z f).sched = s.sched := rfl
@[simp] theorem State.onZone_doors (z : ZoneId) (f : Zone → Zone) : (s.onZone z f).doors = s.doors := rfl
@[simp] theorem State.onZone_air (z : ZoneId) (f : Zone → Zone) : (s.onZone z f).air = s.air := rfl
@[simp] theorem State.onZone_defrost (z : ZoneId) (f : Zone → Zone) : (s.onZone z f).defrost = s.defrost := rfl
@[simp] theorem State.onZone_budget (z : ZoneId) (f : Zone → Zone) : (s.onZone z f).budget = s.budget := rfl
@[simp] theorem State.onZone_fault (z : ZoneId) (f : Zone → Zone) : (s.onZone z f).fault = s.fault := rfl
@[simp] theorem State.onZone_notice (z : ZoneId) (f : Zone → Zone) : (s.onZone z f).notice = s.notice := rfl
@[simp] theorem State.onZone_link (z : ZoneId) (f : Zone → Zone) : (s.onZone z f).link = s.link := rfl
@[simp] theorem State.onZone_pins (z : ZoneId) (f : Zone → Zone) : (s.onZone z f).pins = s.pins := rfl
@[simp] theorem State.onZone_free (z : ZoneId) (f : Zone → Zone) : (s.onZone z f).free = s.free := rfl
@[simp] theorem State.onZone_pending (z : ZoneId) (f : Zone → Zone) : (s.onZone z f).pending = s.pending := rfl

@[simp] theorem State.onArb_uptime (f : Arbiter → Arbiter) : (s.onArb f).uptime = s.uptime := rfl
@[simp] theorem State.onArb_ms (f : Arbiter → Arbiter) : (s.onArb f).ms = s.ms := rfl
@[simp] theorem State.onArb_ctl (f : Arbiter → Arbiter) : (s.onArb f).ctl = s.ctl := rfl
@[simp] theorem State.onArb_zones (f : Arbiter → Arbiter) : (s.onArb f).zones = s.zones := rfl
@[simp] theorem State.onArb_arb (f : Arbiter → Arbiter) : (s.onArb f).arb = f s.arb := rfl
@[simp] theorem State.onArb_sched (f : Arbiter → Arbiter) : (s.onArb f).sched = s.sched := rfl
@[simp] theorem State.onArb_doors (f : Arbiter → Arbiter) : (s.onArb f).doors = s.doors := rfl
@[simp] theorem State.onArb_air (f : Arbiter → Arbiter) : (s.onArb f).air = s.air := rfl
@[simp] theorem State.onArb_defrost (f : Arbiter → Arbiter) : (s.onArb f).defrost = s.defrost := rfl
@[simp] theorem State.onArb_budget (f : Arbiter → Arbiter) : (s.onArb f).budget = s.budget := rfl
@[simp] theorem State.onArb_fault (f : Arbiter → Arbiter) : (s.onArb f).fault = s.fault := rfl
@[simp] theorem State.onArb_notice (f : Arbiter → Arbiter) : (s.onArb f).notice = s.notice := rfl
@[simp] theorem State.onArb_link (f : Arbiter → Arbiter) : (s.onArb f).link = s.link := rfl
@[simp] theorem State.onArb_pins (f : Arbiter → Arbiter) : (s.onArb f).pins = s.pins := rfl
@[simp] theorem State.onArb_free (f : Arbiter → Arbiter) : (s.onArb f).free = s.free := rfl
@[simp] theorem State.onArb_pending (f : Arbiter → Arbiter) : (s.onArb f).pending = s.pending := rfl

@[simp] theorem State.onComp_uptime (f : Compressor → Compressor) : (s.onComp f).uptime = s.uptime := rfl
@[simp] theorem State.onComp_ms (f : Compressor → Compressor) : (s.onComp f).ms = s.ms := rfl
@[simp] theorem State.onComp_ctl (f : Compressor → Compressor) : (s.onComp f).ctl = s.ctl := rfl
@[simp] theorem State.onComp_zones (f : Compressor → Compressor) : (s.onComp f).zones = s.zones := rfl
@[simp] theorem State.onComp_arb (f : Compressor → Compressor) : (s.onComp f).arb = { s.arb with comp := f s.arb.comp } := rfl
@[simp] theorem State.onComp_sched (f : Compressor → Compressor) : (s.onComp f).sched = s.sched := rfl
@[simp] theorem State.onComp_doors (f : Compressor → Compressor) : (s.onComp f).doors = s.doors := rfl
@[simp] theorem State.onComp_air (f : Compressor → Compressor) : (s.onComp f).air = s.air := rfl
@[simp] theorem State.onComp_defrost (f : Compressor → Compressor) : (s.onComp f).defrost = s.defrost := rfl
@[simp] theorem State.onComp_budget (f : Compressor → Compressor) : (s.onComp f).budget = s.budget := rfl
@[simp] theorem State.onComp_fault (f : Compressor → Compressor) : (s.onComp f).fault = s.fault := rfl
@[simp] theorem State.onComp_notice (f : Compressor → Compressor) : (s.onComp f).notice = s.notice := rfl
@[simp] theorem State.onComp_link (f : Compressor → Compressor) : (s.onComp f).link = s.link := rfl
@[simp] theorem State.onComp_pins (f : Compressor → Compressor) : (s.onComp f).pins = s.pins := rfl
@[simp] theorem State.onComp_free (f : Compressor → Compressor) : (s.onComp f).free = s.free := rfl
@[simp] theorem State.onComp_pending (f : Compressor → Compressor) : (s.onComp f).pending = s.pending := rfl

@[simp] theorem State.onSched_uptime (f : Scheduler → Scheduler) : (s.onSched f).uptime = s.uptime := rfl
@[simp] theorem State.onSched_ms (f : Scheduler → Scheduler) : (s.onSched f).ms = s.ms := rfl
@[simp] theorem State.onSched_ctl (f : Scheduler → Scheduler) : (s.onSched f).ctl = s.ctl := rfl
@[simp] theorem State.onSched_zones (f : Scheduler → Scheduler) : (s.onSched f).zones = s.zones := rfl
@[simp] theorem State.onSched_arb (f : Scheduler → Scheduler) : (s.onSched f).arb = s.arb := rfl
@[simp] theorem State.onSched_sched (f : Scheduler → Scheduler) : (s.onSched f).sched = f s.sched := rfl
@[simp] theorem State.onSched_doors (f : Scheduler → Scheduler) : (s.onSched f).doors = s.doors := rfl
@[simp] theorem State.onSched_air (f : Scheduler → Scheduler) : (s.onSched f).air = s.air := rfl
@[simp] theorem State.onSched_defrost (f : Scheduler → Scheduler) : (s.onSched f).defrost = s.defrost := rfl
@[simp] theorem State.onSched_budget (f : Scheduler → Scheduler) : (s.onSched f).budget = s.budget := rfl
@[simp] theorem State.onSched_fault (f : Scheduler → Scheduler) : (s.onSched f).fault = s.fault := rfl
@[simp] theorem State.onSched_notice (f : Scheduler → Scheduler) : (s.onSched f).notice = s.notice := rfl
@[simp] theorem State.onSched_link (f : Scheduler → Scheduler) : (s.onSched f).link = s.link := rfl
@[simp] theorem State.onSched_pins (f : Scheduler → Scheduler) : (s.onSched f).pins = s.pins := rfl
@[simp] theorem State.onSched_free (f : Scheduler → Scheduler) : (s.onSched f).free = s.free := rfl
@[simp] theorem State.onSched_pending (f : Scheduler → Scheduler) : (s.onSched f).pending = s.pending := rfl

@[simp] theorem State.onChannel_uptime (c : Chan) (f : Channel → Channel) : (s.onChannel c f).uptime = s.uptime := rfl
@[simp] theorem State.onChannel_ms (c : Chan) (f : Channel → Channel) : (s.onChannel c f).ms = s.ms := rfl
@[simp] theorem State.onChannel_ctl (c : Chan) (f : Channel → Channel) : (s.onChannel c f).ctl = s.ctl := rfl
@[simp] theorem State.onChannel_zones (c : Chan) (f : Channel → Channel) : (s.onChannel c f).zones = s.zones := rfl
@[simp] theorem State.onChannel_arb (c : Chan) (f : Channel → Channel) : (s.onChannel c f).arb = s.arb := rfl
@[simp] theorem State.onChannel_sched (c : Chan) (f : Channel → Channel) : (s.onChannel c f).sched = { s.sched with ch := s.sched.ch.set c (f (s.sched.ch.get c)) } := rfl
@[simp] theorem State.onChannel_doors (c : Chan) (f : Channel → Channel) : (s.onChannel c f).doors = s.doors := rfl
@[simp] theorem State.onChannel_air (c : Chan) (f : Channel → Channel) : (s.onChannel c f).air = s.air := rfl
@[simp] theorem State.onChannel_defrost (c : Chan) (f : Channel → Channel) : (s.onChannel c f).defrost = s.defrost := rfl
@[simp] theorem State.onChannel_budget (c : Chan) (f : Channel → Channel) : (s.onChannel c f).budget = s.budget := rfl
@[simp] theorem State.onChannel_fault (c : Chan) (f : Channel → Channel) : (s.onChannel c f).fault = s.fault := rfl
@[simp] theorem State.onChannel_notice (c : Chan) (f : Channel → Channel) : (s.onChannel c f).notice = s.notice := rfl
@[simp] theorem State.onChannel_link (c : Chan) (f : Channel → Channel) : (s.onChannel c f).link = s.link := rfl
@[simp] theorem State.onChannel_pins (c : Chan) (f : Channel → Channel) : (s.onChannel c f).pins = s.pins := rfl
@[simp] theorem State.onChannel_free (c : Chan) (f : Channel → Channel) : (s.onChannel c f).free = s.free := rfl
@[simp] theorem State.onChannel_pending (c : Chan) (f : Channel → Channel) : (s.onChannel c f).pending = s.pending := rfl

@[simp] theorem State.onDoor_uptime (d : DoorId) (f : Door → Door) : (s.onDoor d f).uptime = s.uptime := rfl
@[simp] theorem State.onDoor_ms (d : DoorId) (f : Door → Door) : (s.onDoor d f).ms = s.ms := rfl
@[simp] theorem State.onDoor_ctl (d : DoorId) (f : Door → Door) : (s.onDoor d f).ctl = s.ctl := rfl
@[simp] theorem State.onDoor_zones (d : DoorId) (f : Door → Door) : (s.onDoor d f).zones = s.zones := rfl
@[simp] theorem State.onDoor_arb (d : DoorId) (f : Door → Door) : (s.onDoor d f).arb = s.arb := rfl
@[simp] theorem State.onDoor_sched (d : DoorId) (f : Door → Door) : (s.onDoor d f).sched = s.sched := rfl
@[simp] theorem State.onDoor_doors (d : DoorId) (f : Door → Door) : (s.onDoor d f).doors = s.doors.set d (f (s.doors.get d)) := rfl
@[simp] theorem State.onDoor_air (d : DoorId) (f : Door → Door) : (s.onDoor d f).air = s.air := rfl
@[simp] theorem State.onDoor_defrost (d : DoorId) (f : Door → Door) : (s.onDoor d f).defrost = s.defrost := rfl
@[simp] theorem State.onDoor_budget (d : DoorId) (f : Door → Door) : (s.onDoor d f).budget = s.budget := rfl
@[simp] theorem State.onDoor_fault (d : DoorId) (f : Door → Door) : (s.onDoor d f).fault = s.fault := rfl
@[simp] theorem State.onDoor_notice (d : DoorId) (f : Door → Door) : (s.onDoor d f).notice = s.notice := rfl
@[simp] theorem State.onDoor_link (d : DoorId) (f : Door → Door) : (s.onDoor d f).link = s.link := rfl
@[simp] theorem State.onDoor_pins (d : DoorId) (f : Door → Door) : (s.onDoor d f).pins = s.pins := rfl
@[simp] theorem State.onDoor_free (d : DoorId) (f : Door → Door) : (s.onDoor d f).free = s.free := rfl
@[simp] theorem State.onDoor_pending (d : DoorId) (f : Door → Door) : (s.onDoor d f).pending = s.pending := rfl

@[simp] theorem State.onAir_uptime (f : AirPath → AirPath) : (s.onAir f).uptime = s.uptime := rfl
@[simp] theorem State.onAir_ms (f : AirPath → AirPath) : (s.onAir f).ms = s.ms := rfl
@[simp] theorem State.onAir_ctl (f : AirPath → AirPath) : (s.onAir f).ctl = s.ctl := rfl
@[simp] theorem State.onAir_zones (f : AirPath → AirPath) : (s.onAir f).zones = s.zones := rfl
@[simp] theorem State.onAir_arb (f : AirPath → AirPath) : (s.onAir f).arb = s.arb := rfl
@[simp] theorem State.onAir_sched (f : AirPath → AirPath) : (s.onAir f).sched = s.sched := rfl
@[simp] theorem State.onAir_doors (f : AirPath → AirPath) : (s.onAir f).doors = s.doors := rfl
@[simp] theorem State.onAir_air (f : AirPath → AirPath) : (s.onAir f).air = f s.air := rfl
@[simp] theorem State.onAir_defrost (f : AirPath → AirPath) : (s.onAir f).defrost = s.defrost := rfl
@[simp] theorem State.onAir_budget (f : AirPath → AirPath) : (s.onAir f).budget = s.budget := rfl
@[simp] theorem State.onAir_fault (f : AirPath → AirPath) : (s.onAir f).fault = s.fault := rfl
@[simp] theorem State.onAir_notice (f : AirPath → AirPath) : (s.onAir f).notice = s.notice := rfl
@[simp] theorem State.onAir_link (f : AirPath → AirPath) : (s.onAir f).link = s.link := rfl
@[simp] theorem State.onAir_pins (f : AirPath → AirPath) : (s.onAir f).pins = s.pins := rfl
@[simp] theorem State.onAir_free (f : AirPath → AirPath) : (s.onAir f).free = s.free := rfl
@[simp] theorem State.onAir_pending (f : AirPath → AirPath) : (s.onAir f).pending = s.pending := rfl

@[simp] theorem State.onDefrost_uptime (f : Defrost → Defrost) : (s.onDefrost f).uptime = s.uptime := rfl
@[simp] theorem State.onDefrost_ms (f : Defrost → Defrost) : (s.onDefrost f).ms = s.ms := rfl
@[simp] theorem State.onDefrost_ctl (f : Defrost → Defrost) : (s.onDefrost f).ctl = s.ctl := rfl
@[simp] theorem State.onDefrost_zones (f : Defrost → Defrost) : (s.onDefrost f).zones = s.zones := rfl
@[simp] theorem State.onDefrost_arb (f : Defrost → Defrost) : (s.onDefrost f).arb = s.arb := rfl
@[simp] theorem State.onDefrost_sched (f : Defrost → Defrost) : (s.onDefrost f).sched = s.sched := rfl
@[simp] theorem State.onDefrost_doors (f : Defrost → Defrost) : (s.onDefrost f).doors = s.doors := rfl
@[simp] theorem State.onDefrost_air (f : Defrost → Defrost) : (s.onDefrost f).air = s.air := rfl
@[simp] theorem State.onDefrost_defrost (f : Defrost → Defrost) : (s.onDefrost f).defrost = f s.defrost := rfl
@[simp] theorem State.onDefrost_budget (f : Defrost → Defrost) : (s.onDefrost f).budget = s.budget := rfl
@[simp] theorem State.onDefrost_fault (f : Defrost → Defrost) : (s.onDefrost f).fault = s.fault := rfl
@[simp] theorem State.onDefrost_notice (f : Defrost → Defrost) : (s.onDefrost f).notice = s.notice := rfl
@[simp] theorem State.onDefrost_link (f : Defrost → Defrost) : (s.onDefrost f).link = s.link := rfl
@[simp] theorem State.onDefrost_pins (f : Defrost → Defrost) : (s.onDefrost f).pins = s.pins := rfl
@[simp] theorem State.onDefrost_free (f : Defrost → Defrost) : (s.onDefrost f).free = s.free := rfl
@[simp] theorem State.onDefrost_pending (f : Defrost → Defrost) : (s.onDefrost f).pending = s.pending := rfl

@[simp] theorem State.onBudget_uptime (f : Budget → Budget) : (s.onBudget f).uptime = s.uptime := rfl
@[simp] theorem State.onBudget_ms (f : Budget → Budget) : (s.onBudget f).ms = s.ms := rfl
@[simp] theorem State.onBudget_ctl (f : Budget → Budget) : (s.onBudget f).ctl = s.ctl := rfl
@[simp] theorem State.onBudget_zones (f : Budget → Budget) : (s.onBudget f).zones = s.zones := rfl
@[simp] theorem State.onBudget_arb (f : Budget → Budget) : (s.onBudget f).arb = s.arb := rfl
@[simp] theorem State.onBudget_sched (f : Budget → Budget) : (s.onBudget f).sched = s.sched := rfl
@[simp] theorem State.onBudget_doors (f : Budget → Budget) : (s.onBudget f).doors = s.doors := rfl
@[simp] theorem State.onBudget_air (f : Budget → Budget) : (s.onBudget f).air = s.air := rfl
@[simp] theorem State.onBudget_defrost (f : Budget → Budget) : (s.onBudget f).defrost = s.defrost := rfl
@[simp] theorem State.onBudget_budget (f : Budget → Budget) : (s.onBudget f).budget = f s.budget := rfl
@[simp] theorem State.onBudget_fault (f : Budget → Budget) : (s.onBudget f).fault = s.fault := rfl
@[simp] theorem State.onBudget_notice (f : Budget → Budget) : (s.onBudget f).notice = s.notice := rfl
@[simp] theorem State.onBudget_link (f : Budget → Budget) : (s.onBudget f).link = s.link := rfl
@[simp] theorem State.onBudget_pins (f : Budget → Budget) : (s.onBudget f).pins = s.pins := rfl
@[simp] theorem State.onBudget_free (f : Budget → Budget) : (s.onBudget f).free = s.free := rfl
@[simp] theorem State.onBudget_pending (f : Budget → Budget) : (s.onBudget f).pending = s.pending := rfl

@[simp] theorem State.onFault_uptime (f : FaultUnit → FaultUnit) : (s.onFault f).uptime = s.uptime := rfl
@[simp] theorem State.onFault_ms (f : FaultUnit → FaultUnit) : (s.onFault f).ms = s.ms := rfl
@[simp] theorem State.onFault_ctl (f : FaultUnit → FaultUnit) : (s.onFault f).ctl = s.ctl := rfl
@[simp] theorem State.onFault_zones (f : FaultUnit → FaultUnit) : (s.onFault f).zones = s.zones := rfl
@[simp] theorem State.onFault_arb (f : FaultUnit → FaultUnit) : (s.onFault f).arb = s.arb := rfl
@[simp] theorem State.onFault_sched (f : FaultUnit → FaultUnit) : (s.onFault f).sched = s.sched := rfl
@[simp] theorem State.onFault_doors (f : FaultUnit → FaultUnit) : (s.onFault f).doors = s.doors := rfl
@[simp] theorem State.onFault_air (f : FaultUnit → FaultUnit) : (s.onFault f).air = s.air := rfl
@[simp] theorem State.onFault_defrost (f : FaultUnit → FaultUnit) : (s.onFault f).defrost = s.defrost := rfl
@[simp] theorem State.onFault_budget (f : FaultUnit → FaultUnit) : (s.onFault f).budget = s.budget := rfl
@[simp] theorem State.onFault_fault (f : FaultUnit → FaultUnit) : (s.onFault f).fault = f s.fault := rfl
@[simp] theorem State.onFault_notice (f : FaultUnit → FaultUnit) : (s.onFault f).notice = s.notice := rfl
@[simp] theorem State.onFault_link (f : FaultUnit → FaultUnit) : (s.onFault f).link = s.link := rfl
@[simp] theorem State.onFault_pins (f : FaultUnit → FaultUnit) : (s.onFault f).pins = s.pins := rfl
@[simp] theorem State.onFault_free (f : FaultUnit → FaultUnit) : (s.onFault f).free = s.free := rfl
@[simp] theorem State.onFault_pending (f : FaultUnit → FaultUnit) : (s.onFault f).pending = s.pending := rfl

@[simp] theorem State.onNotice_uptime (f : NoticeUnit → NoticeUnit) : (s.onNotice f).uptime = s.uptime := rfl
@[simp] theorem State.onNotice_ms (f : NoticeUnit → NoticeUnit) : (s.onNotice f).ms = s.ms := rfl
@[simp] theorem State.onNotice_ctl (f : NoticeUnit → NoticeUnit) : (s.onNotice f).ctl = s.ctl := rfl
@[simp] theorem State.onNotice_zones (f : NoticeUnit → NoticeUnit) : (s.onNotice f).zones = s.zones := rfl
@[simp] theorem State.onNotice_arb (f : NoticeUnit → NoticeUnit) : (s.onNotice f).arb = s.arb := rfl
@[simp] theorem State.onNotice_sched (f : NoticeUnit → NoticeUnit) : (s.onNotice f).sched = s.sched := rfl
@[simp] theorem State.onNotice_doors (f : NoticeUnit → NoticeUnit) : (s.onNotice f).doors = s.doors := rfl
@[simp] theorem State.onNotice_air (f : NoticeUnit → NoticeUnit) : (s.onNotice f).air = s.air := rfl
@[simp] theorem State.onNotice_defrost (f : NoticeUnit → NoticeUnit) : (s.onNotice f).defrost = s.defrost := rfl
@[simp] theorem State.onNotice_budget (f : NoticeUnit → NoticeUnit) : (s.onNotice f).budget = s.budget := rfl
@[simp] theorem State.onNotice_fault (f : NoticeUnit → NoticeUnit) : (s.onNotice f).fault = s.fault := rfl
@[simp] theorem State.onNotice_notice (f : NoticeUnit → NoticeUnit) : (s.onNotice f).notice = f s.notice := rfl
@[simp] theorem State.onNotice_link (f : NoticeUnit → NoticeUnit) : (s.onNotice f).link = s.link := rfl
@[simp] theorem State.onNotice_pins (f : NoticeUnit → NoticeUnit) : (s.onNotice f).pins = s.pins := rfl
@[simp] theorem State.onNotice_free (f : NoticeUnit → NoticeUnit) : (s.onNotice f).free = s.free := rfl
@[simp] theorem State.onNotice_pending (f : NoticeUnit → NoticeUnit) : (s.onNotice f).pending = s.pending := rfl

@[simp] theorem State.onLink_uptime (f : Link → Link) : (s.onLink f).uptime = s.uptime := rfl
@[simp] theorem State.onLink_ms (f : Link → Link) : (s.onLink f).ms = s.ms := rfl
@[simp] theorem State.onLink_ctl (f : Link → Link) : (s.onLink f).ctl = s.ctl := rfl
@[simp] theorem State.onLink_zones (f : Link → Link) : (s.onLink f).zones = s.zones := rfl
@[simp] theorem State.onLink_arb (f : Link → Link) : (s.onLink f).arb = s.arb := rfl
@[simp] theorem State.onLink_sched (f : Link → Link) : (s.onLink f).sched = s.sched := rfl
@[simp] theorem State.onLink_doors (f : Link → Link) : (s.onLink f).doors = s.doors := rfl
@[simp] theorem State.onLink_air (f : Link → Link) : (s.onLink f).air = s.air := rfl
@[simp] theorem State.onLink_defrost (f : Link → Link) : (s.onLink f).defrost = s.defrost := rfl
@[simp] theorem State.onLink_budget (f : Link → Link) : (s.onLink f).budget = s.budget := rfl
@[simp] theorem State.onLink_fault (f : Link → Link) : (s.onLink f).fault = s.fault := rfl
@[simp] theorem State.onLink_notice (f : Link → Link) : (s.onLink f).notice = s.notice := rfl
@[simp] theorem State.onLink_link (f : Link → Link) : (s.onLink f).link = f s.link := rfl
@[simp] theorem State.onLink_pins (f : Link → Link) : (s.onLink f).pins = s.pins := rfl
@[simp] theorem State.onLink_free (f : Link → Link) : (s.onLink f).free = s.free := rfl
@[simp] theorem State.onLink_pending (f : Link → Link) : (s.onLink f).pending = s.pending := rfl

@[simp] theorem State.onPins_uptime (f : Pins → Pins) : (s.onPins f).uptime = s.uptime := rfl
@[simp] theorem State.onPins_ms (f : Pins → Pins) : (s.onPins f).ms = s.ms := rfl
@[simp] theorem State.onPins_ctl (f : Pins → Pins) : (s.onPins f).ctl = s.ctl := rfl
@[simp] theorem State.onPins_zones (f : Pins → Pins) : (s.onPins f).zones = s.zones := rfl
@[simp] theorem State.onPins_arb (f : Pins → Pins) : (s.onPins f).arb = s.arb := rfl
@[simp] theorem State.onPins_sched (f : Pins → Pins) : (s.onPins f).sched = s.sched := rfl
@[simp] theorem State.onPins_doors (f : Pins → Pins) : (s.onPins f).doors = s.doors := rfl
@[simp] theorem State.onPins_air (f : Pins → Pins) : (s.onPins f).air = s.air := rfl
@[simp] theorem State.onPins_defrost (f : Pins → Pins) : (s.onPins f).defrost = s.defrost := rfl
@[simp] theorem State.onPins_budget (f : Pins → Pins) : (s.onPins f).budget = s.budget := rfl
@[simp] theorem State.onPins_fault (f : Pins → Pins) : (s.onPins f).fault = s.fault := rfl
@[simp] theorem State.onPins_notice (f : Pins → Pins) : (s.onPins f).notice = s.notice := rfl
@[simp] theorem State.onPins_link (f : Pins → Pins) : (s.onPins f).link = s.link := rfl
@[simp] theorem State.onPins_pins (f : Pins → Pins) : (s.onPins f).pins = f s.pins := rfl
@[simp] theorem State.onPins_free (f : Pins → Pins) : (s.onPins f).free = s.free := rfl
@[simp] theorem State.onPins_pending (f : Pins → Pins) : (s.onPins f).pending = s.pending := rfl

/-! ### Records of records -/

@[simp] theorem Zones.get_set (z : Zones) (i : ZoneId) (v : Zone) : (z.set i v).get i = v := by cases i <;> rfl

theorem Zones.get_set_ne (z : Zones) {i j : ZoneId} (v : Zone) (h : j ≠ i) : (z.set i v).get j = z.get j := by
  cases i <;> cases j <;> first | rfl | exact absurd rfl h

@[simp] theorem Channels.get_set (k : Channels) (i : Chan) (v : Channel) : (k.set i v).get i = v := by cases i <;> rfl

theorem Channels.get_set_ne (k : Channels) {i j : Chan} (v : Channel) (h : j ≠ i) : (k.set i v).get j = k.get j := by
  cases i <;> cases j <;> first | rfl | exact absurd rfl h

@[simp] theorem Doors.get_set (d : Doors) (i : DoorId) (v : Door) : (d.set i v).get i = v := by cases i <;> rfl

theorem Doors.get_set_ne (d : Doors) {i j : DoorId} (v : Door) (h : j ≠ i) : (d.set i v).get j = d.get j := by
  cases i <;> cases j <;> first | rfl | exact absurd rfl h

@[simp] theorem Doors.set_ajarTime (d : Doors) (i : DoorId) (v : Door) : (d.set i v).ajarTime = d.ajarTime := by
  cases i <;> rfl

end Sys2Proof.Machine
end

