-- ==== Sys2Proof/Laws/Seats.lean ====
section
/-! SUPPORT. What the laws of the arbiter, of the heater and of the conversion queue depend on, and the changes that keep
them. -/

namespace Sys2Proof.Machine

/-! ### What the laws of the arbiter and the heater look at -/

/-- What the law of the arbiter looks at. -/
abbrev Arbiter.seat (a : Arbiter) : List Entry × Option Grant × Compressor × Valve := (a.list, a.grant, a.comp, a.valve)

/-- What the law of the heater looks at in the Defrost Unit. -/
abbrev Defrost.seat (d : Defrost) : Heater × Option HeaterUse × Phase × Bool × Mode := (d.heater, d.use, d.phase, d.hold, d.mode)

theorem comp_of_seat {a b : Arbiter} (h : b.seat = a.seat) : b.comp = a.comp := congrArg (fun q => q.2.2.1) h

theorem heater_of_seat {d e : Defrost} (h : e.seat = d.seat) : e.heater = d.heater := congrArg (fun q => q.1) h

theorem arbLaw_congr {a b : Arbiter} (h : b.seat = a.seat) : ArbLaw b ↔ ArbLaw a := by
  simp only [Arbiter.seat, Prod.mk.injEq] at h
  obtain ⟨h1, h2, h3, h4⟩ := h
  simp only [ArbLaw, Arbiter.requesters, h1, h2, h3, h4]

/-- A change of the arbiter that the law of the heater keeps: the lists, the hold and the grant's evaporator as they were, and
FREEZE not fed anew. -/
theorem heaterLaw_arb {s t : State} (h : HeaterLaw s) (hc : t.ctl.mode = s.ctl.mode) (hd : t.defrost.seat = s.defrost.seat)
    (hb : t.budget.heater = s.budget.heater) (hh : t.arb.hold = s.arb.hold)
    (hl : s.arb.list = [] → s.arb.grant = none → t.arb.list = [] ∧ t.arb.grant = none)
    (hg : s.arb.hold = true → (∀ g ∈ s.arb.grant, g.evap = .fresh) → ∀ g ∈ t.arb.grant, g.evap = .fresh)
    (hf : s.defrost.heater ≠ .off → s.arb.feedsFreeze = false → t.arb.feedsFreeze = false) : HeaterLaw t := by
  simp only [Defrost.seat, Prod.mk.injEq] at hd
  obtain ⟨d1, d2, d3, d4, d5⟩ := hd
  obtain ⟨h1, h2, h3, h4, h5⟩ := h
  refine ⟨fun k => ?_, fun k => ?_, fun k => ?_, by rw [d5, hc]; exact h4, by rw [hb, d1]; exact h5⟩
  · rw [d1] at k
    rw [d2, d3, hh, hc]
    exact ⟨hf k (h1 k).1, (h1 k).2⟩
  · rw [hh] at k
    rw [d3, d4]
    exact ⟨(h2 k).1, (h2 k).2.1, hg k (h2 k).2.2⟩
  · rw [hc] at k
    obtain ⟨e1, e2, e3⟩ := h3 k
    exact ⟨by rw [d3]; exact e1, hl e2 e3⟩

/-- A change of what the law of the heater does not look at. -/
theorem heaterLaw_congr {s t : State} (h : HeaterLaw s) (hc : t.ctl.mode = s.ctl.mode) (hd : t.defrost.seat = s.defrost.seat)
    (hb : t.budget.heater = s.budget.heater) (hh : t.arb.hold = s.arb.hold) (hs : t.arb.seat = s.arb.seat) : HeaterLaw t := by
  simp only [Arbiter.seat, Prod.mk.injEq] at hs
  obtain ⟨s1, s2, s3, s4⟩ := hs
  refine heaterLaw_arb h hc hd hb hh (fun a b => ⟨by rw [s1]; exact a, by rw [s2]; exact b⟩) (fun _ k => by rw [s2]; exact k)
    (fun _ k => ?_)
  unfold Arbiter.feedsFreeze at k ⊢
  rw [s3, s4]; exact k

/-- Outside HEAT with the hold, in no mode but SERVICE, the heater is OFF. -/
theorem HeaterLaw.off {s : State} (h : HeaterLaw s)
    (hn : ¬ (s.defrost.use = some .defrost ∧ s.defrost.phase = .heat ∧ s.arb.hold = true))
    (hm : ¬ (s.defrost.use = some .service ∧ s.ctl.mode = .service)) : s.defrost.heater = .off := by
  by_contra k
  exact (h.1 k).2.elim hn hm

/-- A phase that works stands in RUN. -/
theorem HeaterLaw.run {s : State} (h : HeaterLaw s) (hw : s.defrost.phase.working = true) : s.ctl.mode = .run := by
  by_contra k
  exact absurd (h.2.2.1 k).1 (by simp [hw])

/-- In a working phase other than HEAT, and in an idle or due one in RUN, the heater is OFF. -/
theorem HeaterLaw.off_of_phase {s : State} (h : HeaterLaw s) (hp : s.defrost.phase ≠ .heat)
    (hw : s.defrost.phase.working = true ∨ s.ctl.mode = .run) : s.defrost.heater = .off := by
  refine h.off (fun k => hp k.2.1) (fun k => ?_)
  have : s.ctl.mode = .run := hw.elim h.run id
  rw [k.2] at this; exact absurd this (by decide)

/-- An OFF heater has no claim. -/
theorem HeaterLaw.noClaim {s : State} (h : HeaterLaw s) (ho : s.defrost.heater = .off) : s.budget.heater = .none_ := by
  rw [h.2.2.2.2, ho]; rfl

/-- A WAITING claim belongs to a CLAIMED heater. -/
theorem HeaterLaw.waiting {s : State} (h : HeaterLaw s) (hw : s.budget.heater = .waiting) : s.defrost.heater = .claimed := by
  have := h.2.2.2.2
  rw [hw] at this
  revert this
  cases s.defrost.heater <;> decide

/-! ### The conversion queue -/

/-- The law of the conversion queue within an event, with the tags that are in neither the queue nor a notice. -/
def QueueMid (e : List Byte) (s : State) : Prop :=
  (s.sched.queue.filter (fun q => q.tag.isNone)).length ≤ 1 ∧ s.sched.Serves
    ∧ s.sched.tags.Perm (s.sched.linkTags ++ noticeTags s ++ e) ∧ s.sched.tags.Nodup ∧ s.sched.tags.length ≤ 7

theorem queueMid_nil {s : State} : QueueMid [] s ↔ QueueLaw s := by unfold QueueMid QueueLaw; rw [List.append_nil]

/-- What the law of the conversion queue looks at in the scheduler. -/
abbrev Scheduler.seat (k : Scheduler) : List QEntry × List Byte × Option Conversion := (k.queue, k.tags, k.conv)

/-- A change of what the law of the conversion queue does not look at. -/
theorem queueMid_congr {e : List Byte} {s t : State} (h : QueueMid e s) (hs : t.sched.seat = s.sched.seat)
    (hn : noticeTags t = noticeTags s) : QueueMid e t := by
  simp only [Scheduler.seat, Prod.mk.injEq] at hs
  obtain ⟨h1, h2, h3⟩ := hs
  simpa only [QueueMid, Scheduler.Serves, Scheduler.linkTags, h1, h2, h3, hn] using h

/-- A change of the queue's records alone. -/
theorem queueMid_sched {e : List Byte} {s t : State} (h : QueueMid e s) (hn : noticeTags t = noticeTags s)
    (hq : t.sched.linkTags = s.sched.linkTags) (ht : t.sched.tags = s.sched.tags)
    (hd : (s.sched.queue.filter (fun q => q.tag.isNone)).length ≤ 1 → (t.sched.queue.filter (fun q => q.tag.isNone)).length ≤ 1)
    (hv : s.sched.Serves → t.sched.Serves) : QueueMid e t :=
  ⟨hd h.1, hv h.2.1, by rw [ht, hq, hn]; exact h.2.2.1, by rw [ht]; exact h.2.2.2.1, by rw [ht]; exact h.2.2.2.2⟩

end Sys2Proof.Machine
end

