-- ==== Sys2Proof/Laws/Acts.lean ====
section
/-! SUPPORT. What the acts of the blocks can do, said once: an act of a block is a chain of a few elementary acts, and every
function of the blocks is shown to be one. Whatever each elementary act keeps, every command keeps. -/

namespace Sys2Proof.Machine

/-! ### What the acts of each level keep -/

/-- A zone's state, CALLING and COOLING not told apart: a grant and a return move a zone between those two (R6, R13). -/
def ZoneState.served : ZoneState → ZoneState
  | .cooling => .calling
  | st => st

/-- When a zone entered its state, but for CALLING and COOLING. -/
def Zone.since (r : Zone) : Option Time := if r.state.served = .calling then none else some r.enteredAt

/-- A zone's record but for what a grant and a return change. -/
abbrev Zone.core (r : Zone) : Zone × ZoneState × Option Time := ({ r with state := .idle, enteredAt := 0 }, r.state.served, r.since)

/-- What the arbiter's acts for a grant leave as it is. -/
abbrev Arbiter.core (a : Arbiter) : Option Nat × Option Band × Bool × Bool × Bool × Timing × Option Nat × Option Evap :=
  (a.dischargeCap, a.dischargePos, a.dischargeFaulted, a.dischargeHigh, a.hold, a.timing, a.forcedLevel, a.forcedValve)

/-- What settling and claims leave as it is in the load record. -/
abbrev Budget.core (b : Budget) : MullionMode × Bool × Option Band × Bool × Option Bool × Mode × Nat :=
  (b.mullionMode, b.ambientWish, b.ambientPos, b.ambientFaulted, b.force, b.mode, b.asked)

/-- What a zone, the compressor and the heater do not reach in the Air Path Unit: the mode, the permit and the forces. -/
abbrev AirPath.core (a : AirPath) : Mode × Bool × Option Bool × Option Bool × Option Bool × Option DamperEnd :=
  (a.mode, a.permit, a.freshForce, a.freezerForce, a.condenserForce, a.damperForce)

/-- The Defrost Unit's record but for its heater, its place in a grant, and the class it is handed. -/
abbrev Defrost.core (d : Defrost) : Defrost :=
  { d with heater := .off, use := none, served := false, waitLimit := none, freezerClass := .normal }

/-- A compressor in OFF_LOCKED stays there with what is left of its minimum off time (R38); below level 3 one in LOCKOUT
stays there with what is left of its own (R47), and the count of failures stands (R46). -/
def StaysDown (w : Nat) (c d : Compressor) : Prop :=
  (c.state = .offLocked → d.state = .offLocked ∧ d.minOffLeft = c.minOffLeft)
    ∧ (3 ≤ w ∨ ((c.state = .lockout → d.state = .lockout ∧ d.lockoutLeft = c.lockoutLeft) ∧ d.failures = c.failures))

theorem staysDown_rfl {w : Nat} (c : Compressor) : StaysDown w c c := ⟨fun k => ⟨k, rfl⟩, Or.inr ⟨fun k => ⟨k, rfl⟩, rfl⟩⟩

theorem staysDown_same {w : Nat} {c d : Compressor} (h : d.state = c.state) (hm : d.minOffLeft = c.minOffLeft)
    (hl : d.lockoutLeft = c.lockoutLeft) (hf : 3 ≤ w ∨ d.failures = c.failures) : StaysDown w c d :=
  ⟨fun k => ⟨h.trans k, hm⟩, hf.imp id fun f => ⟨fun k => ⟨h.trans k, hl⟩, f⟩⟩

theorem staysDown_of {w : Nat} {c d : Compressor} (h : c.state ≠ .offLocked) (k : c.state ≠ .lockout)
    (hf : d.failures = c.failures) : StaysDown w c d :=
  ⟨fun e => absurd e h, Or.inr ⟨fun e => absurd e k, hf⟩⟩

theorem StaysDown.trans {w : Nat} {c d e : Compressor} (h : StaysDown w c d) (k : StaysDown w d e) : StaysDown w c e :=
  ⟨fun q => ⟨(k.1 (h.1 q).1).1, (k.1 (h.1 q).1).2.trans (h.1 q).2⟩,
   h.2.elim Or.inl fun h2 => k.2.elim Or.inl fun k2 =>
    Or.inr ⟨fun q => ⟨(k2.1 (h2.1 q).1).1, (k2.1 (h2.1 q).1).2.trans (h2.1 q).2⟩, k2.2.trans h2.2⟩⟩

theorem faultsStay_rfl (f : FaultUnit) : FaultsStay f f := ⟨fun e h => ⟨e, h, rfl, rfl⟩, rfl⟩

theorem FaultsStay.trans {f g k : FaultUnit} (h : FaultsStay f g) (q : FaultsStay g k) : FaultsStay f k :=
  ⟨fun e he => by
    obtain ⟨e', he', h1, h2⟩ := h.1 e he
    obtain ⟨e'', he'', h3, h4⟩ := q.1 e' he'
    exact ⟨e'', he'', h3.trans h1, h4.trans h2⟩, q.2.trans h.2⟩

/-- A change of the arbiter, the load record, the Air Path Unit and the Defrost Unit that an act of level `w` may make: what
the cores name stands below the levels 1 and 2, the settings and a FAILED damper below level 3; the laws are kept. -/
structure UnitStep (w : Nat) (t : State) (a : Arbiter) (b : Budget) (r : AirPath) (d : Defrost) : Prop where
  load : LoadLaw t → LoadLaw { t with arb := a, budget := b }
  down : StaysDown w t.arb.comp a.comp
  fans : FansFollow t → FansFollow { t with air := r, defrost := d }
  doors : r.leftDoor = t.air.leftDoor ∧ r.rightDoor = t.air.rightDoor ∧ r.drawerDoor = t.air.drawerDoor
    ∧ r.freezerDoor = t.air.freezerDoor
  mode : r.mode = t.air.mode ∨ r.mode = t.ctl.mode
  low : 1 ≤ w ∨ (a.core = t.arb.core ∧ b.core = t.budget.core ∧ r.core = t.air.core)
  mid : 2 ≤ w ∨ d.core = t.defrost.core
  sets : 3 ≤ w ∨ (a.timing = t.arb.timing ∧ b.mullionMode = t.budget.mullionMode ∧ b.asked = t.budget.asked
    ∧ d.terminate = t.defrost.terminate ∧ (t.air.damper = .failed → r.damper = .failed))
  arb : ArbLaw t.arb → ArbLaw a
  heat : ArbLaw t.arb → HeaterLaw t → HeaterLaw { t with arb := a, budget := b, air := r, defrost := d }

/-- `Acts w s t`: `t` comes from `s` by acts of the blocks of level at most `w`. `post` hands a notice over; `unit` changes
the arbiter, the load record, the air paths and the Defrost Unit, the doors as the Air Path Unit knows them aside; `rest` the
zones, the scheduler, the Fault Unit and the free index; `stat` the status timer. At level 0 the cores above stand; from level
1 only the Defrost Unit's; from level 2 none, but the settings, the records of completions, a set INJECT flag and a FAILED
damper; at level 3 these may change too, with `wide`: Mode Control but for the mode, the notice settings, a door from OPEN to
AJAR, the pins; and `space`: the spacing's end; at level 4 also what the law of the conversion queue names; at level 5 also the
mode. The Air Path Unit's mode stays or becomes that of the part at every level. -/
inductive Acts (w : Nat) (s : State) : State → Prop
  | refl : Acts w s s
  | post {t} (k : NoticeKey) (p : List Byte) : Acts w s t → (4 ≤ w ∨ k.tag? = none) → Acts w s (postNotice t k p)
  | unit {t} (a : Arbiter) (b : Budget) (r : AirPath) (d : Defrost) : Acts w s t → UnitStep w t a b r d →
      Acts w s { t with arb := a, budget := b, air := r, defrost := d }
  | rest {t} (z : Zones) (k : Scheduler) (f : FaultUnit) (n : Nat) : Acts w s t →
      (1 ≤ w ∨ ∀ i, (z.get i).core = (t.zones.get i).core) →
      (3 ≤ w ∨ ((∀ i, (z.get i).settings = (t.zones.get i).settings)
        ∧ (∀ c, (k.ch.get c).settings = (t.sched.ch.get c).settings ∧ (k.ch.get c).result = (t.sched.ch.get c).result
            ∧ ((t.sched.ch.get c).injectFlag = true → (k.ch.get c).injectFlag = true))
        ∧ FaultsStay t.fault f)) →
      (4 ≤ w ∨ ∀ e, QueueMid e t → QueueMid e { t with sched := k }) →
      Acts w s { t with zones := z, sched := k, fault := f, free := n }
  | stat {t} (x : Option Nat) : Acts w s t → Acts w s { t with notice := { t.notice with statusLeft := x } }
  | wide {t} (c : Control) (n : NoticeUnit) (d : Doors) (p : Pins) : 3 ≤ w → Acts w s t →
      (n.urgent = t.notice.urgent ∧ n.routine = t.notice.routine) →
      (∀ i, (d.get i).state.isOpen = (t.doors.get i).state.isOpen) → (5 ≤ w ∨ c.mode = t.ctl.mode) →
      Acts w s { t with ctl := c, notice := n, doors := d, pins := p }
  | space {t} : 3 ≤ w → Acts w s t → Acts w s (endSpacing t)

namespace Acts

variable {w : Nat} {s x : State}

theorem trans {t u : State} (h : Acts w s t) (k : Acts w t u) : Acts w s u := by
  induction k with
  | refl => exact h
  | post k p _ h1 ih => exact .post k p ih h1
  | unit a b r d _ h1 ih => exact .unit a b r d ih h1
  | rest z k f n _ h1 h2 h3 ih => exact .rest z k f n ih h1 h2 h3
  | stat y _ ih => exact .stat y ih
  | wide c n d p hw _ h1 h2 h3 ih => exact .wide c n d p hw ih h1 h2 h3
  | space hw _ ih => exact .space hw ih

theorem widen {v : Nat} (hv : v ≤ w) {t : State} (h : Acts v s t) : Acts w s t := by
  have up : ∀ {n : Nat} {p : Prop}, n ≤ v ∨ p → n ≤ w ∨ p := fun k => k.imp (fun q => le_trans q hv) id
  induction h with
  | refl => exact .refl
  | post k p _ h1 ih => exact .post k p ih (up h1)
  | unit a b r d _ h1 ih =>
    exact .unit a b r d ih ⟨h1.load, ⟨h1.down.1, up h1.down.2⟩, h1.fans, h1.doors, h1.mode, up h1.low, up h1.mid, up h1.sets, h1.arb, h1.heat⟩
  | rest z k f n _ h1 h2 h3 ih => exact .rest z k f n ih (up h1) (up h2) (up h3)
  | stat y _ ih => exact .stat y ih
  | wide c n d p hw _ h1 h2 h3 ih => exact .wide c n d p (le_trans hw hv) ih h1 h2 (up h3)
  | space hw _ ih => exact .space (le_trans hw hv) ih

/-- A change of the arbiter and the load record. -/
theorem load {t : State} (a : Arbiter) (b : Budget) (h : Acts w s t)
    (h1 : LoadLaw t → LoadLaw { t with arb := a, budget := b }) (h2 : StaysDown w t.arb.comp a.comp)
    (h3 : 1 ≤ w ∨ (a.core = t.arb.core ∧ b.core = t.budget.core))
    (h4 : 3 ≤ w ∨ (a.timing = t.arb.timing ∧ b.mullionMode = t.budget.mullionMode ∧ b.asked = t.budget.asked))
    (h5 : ArbLaw t.arb → ArbLaw a) (h6 : ArbLaw t.arb → HeaterLaw t → HeaterLaw { t with arb := a, budget := b }) :
    Acts w s { t with arb := a, budget := b } :=
  .unit a b t.air t.defrost h ⟨h1, h2, id, ⟨rfl, rfl, rfl, rfl⟩, Or.inl rfl, h3.imp id fun k => ⟨k.1, k.2, rfl⟩, Or.inr rfl,
    h4.imp id fun k => ⟨k.1, k.2.1, k.2.2, rfl, id⟩, h5, h6⟩

/-- A change of the Air Path Unit and the Defrost Unit. -/
theorem air {t : State} (r : AirPath) (d : Defrost) (h : Acts w s t)
    (h1 : FansFollow t → FansFollow { t with air := r, defrost := d })
    (h2 : r.leftDoor = t.air.leftDoor ∧ r.rightDoor = t.air.rightDoor ∧ r.drawerDoor = t.air.drawerDoor
      ∧ r.freezerDoor = t.air.freezerDoor)
    (hm : r.mode = t.air.mode ∨ r.mode = t.ctl.mode)
    (h3 : 1 ≤ w ∨ r.core = t.air.core) (h4 : 2 ≤ w ∨ d.core = t.defrost.core)
    (h5 : 3 ≤ w ∨ (d.terminate = t.defrost.terminate ∧ (t.air.damper = .failed → r.damper = .failed)))
    (h6 : HeaterLaw t → HeaterLaw { t with air := r, defrost := d }) : Acts w s { t with air := r, defrost := d } :=
  .unit t.arb t.budget r d h ⟨id, staysDown_rfl _, h1, h2, hm, h3.imp id fun k => ⟨rfl, rfl, k⟩, h4,
    h5.imp id fun k => ⟨rfl, rfl, rfl, k⟩, id, fun _ => h6⟩

end Acts

section
variable {w : Nat} {s x : State}

/-! ### Choices -/

@[simp] theorem acts_ite (c : Prop) [Decidable c] {x y : State} (h : Acts w s x) (k : Acts w s y) :
    Acts w s (if c then x else y) := by split <;> assumption

theorem acts_fold {α : Type} (l : List α) (f : State → α → State) (hf : ∀ t a, Acts w s t → Acts w s (f t a))
    (h : Acts w s x) : Acts w s (l.foldl f x) := by
  induction l generalizing x with
  | nil => exact h
  | cons a l ih => exact ih (hf x a h)

/-! ### The update functions -/

/-- A property of one zone's record, of the record set and of the others. -/
theorem zones_set {α : Type} (g : Zone → α) (z : Zones) (i : ZoneId) (v : Zone) (h : g v = g (z.get i)) (j : ZoneId) :
    g ((z.set i v).get j) = g (z.get j) := by
  by_cases hj : j = i
  · subst hj; simpa using h
  · rw [Zones.get_set_ne _ _ hj]

theorem channels_set {α : Type} (g : Channel → α) (k : Channels) (i : Chan) (v : Channel) (h : g v = g (k.get i)) (j : Chan) :
    g ((k.set i v).get j) = g (k.get j) := by
  by_cases hj : j = i
  · subst hj; simpa using h
  · rw [Channels.get_set_ne _ _ hj]

/-- A flag of one channel's record, of the record set and of the others. -/
theorem channels_flag (k : Channels) (i : Chan) (v : Channel) (h : (k.get i).injectFlag = true → v.injectFlag = true)
    (j : Chan) : (k.get j).injectFlag = true → ((k.set i v).get j).injectFlag = true := by
  by_cases hj : j = i
  · subst hj; simpa using h
  · rw [Channels.get_set_ne _ _ hj]; exact id

/-- A zone's act that leaves its settings as they are. -/
@[simp] theorem acts_onZone (z : ZoneId) (f : Zone → Zone) (hs : ∀ r, (f r).settings = r.settings) (hw : 1 ≤ w)
    (h : Acts w s x) : Acts w s (x.onZone z f) :=
  .rest _ _ _ _ h (Or.inl hw) (Or.inr ⟨zones_set _ _ _ _ (hs _), fun _ => ⟨rfl, rfl, id⟩, faultsStay_rfl _⟩)
    (Or.inr fun _ => id)

/-- A zone's act on its state alone. -/
@[simp] theorem acts_onZone_state (z : ZoneId) (f : Zone → Zone) (hs : ∀ r, (f r).settings = r.settings)
    (hc : ∀ r, (f r).core = r.core) (h : Acts w s x) : Acts w s (x.onZone z f) :=
  .rest _ _ _ _ h (Or.inr (zones_set _ _ _ _ (hc _)))
    (Or.inr ⟨zones_set _ _ _ _ (hs _), fun _ => ⟨rfl, rfl, id⟩, faultsStay_rfl _⟩) (Or.inr fun _ => id)

/-- A zone's settings taken (R2). -/
theorem acts_onZone_set (z : ZoneId) (f : Zone → Zone) (hw : 3 ≤ w) (h : Acts w s x) : Acts w s (x.onZone z f) :=
  .rest _ _ _ _ h (Or.inl (by omega)) (Or.inl hw) (Or.inr fun _ => id)

/-- An act on the queue and the conversion that keeps the law of the conversion queue. -/
theorem acts_onSched (f : Scheduler → Scheduler) (hf : ∀ k, (f k).ch = k.ch)
    (hq : ∀ e, QueueMid e x → QueueMid e (x.onSched f)) (h : Acts w s x) : Acts w s (x.onSched f) :=
  .rest _ _ _ _ h (Or.inr fun _ => rfl)
    (Or.inr ⟨fun _ => rfl, fun c => by rw [hf]; exact ⟨rfl, rfl, id⟩, faultsStay_rfl _⟩) (Or.inr hq)

@[simp] theorem acts_onChannel (c : Chan) (f : Channel → Channel) (hf : ∀ r, (f r).settings = r.settings)
    (hr : ∀ r, (f r).result = r.result) (hi : ∀ r, r.injectFlag = true → (f r).injectFlag = true) (h : Acts w s x) :
    Acts w s (x.onChannel c f) :=
  .rest _ _ _ _ h (Or.inr fun _ => rfl) (Or.inr ⟨fun _ => rfl,
    fun i => ⟨channels_set Channel.settings _ _ _ (hf _) i, channels_set Channel.result _ _ _ (hr _) i,
      channels_flag _ _ _ (hi _) i⟩, faultsStay_rfl _⟩) (Or.inr fun _ k => queueMid_congr k rfl rfl)

theorem acts_onChannel_set (c : Chan) (f : Channel → Channel) (hw : 3 ≤ w) (h : Acts w s x) :
    Acts w s (x.onChannel c f) :=
  .rest _ _ _ _ h (Or.inr fun _ => rfl) (Or.inl hw) (Or.inr fun _ k => queueMid_congr k rfl rfl)

theorem acts_onFault (f : FaultUnit → FaultUnit) (hf : FaultsStay x.fault (f x.fault)) (h : Acts w s x) :
    Acts w s (x.onFault f) :=
  .rest _ _ _ _ h (Or.inr fun _ => rfl) (Or.inr ⟨fun _ => rfl, fun _ => ⟨rfl, rfl, id⟩, hf⟩) (Or.inr fun _ => id)

theorem acts_onFault_clear (f : FaultUnit → FaultUnit) (hw : 3 ≤ w) (h : Acts w s x) : Acts w s (x.onFault f) :=
  .rest _ _ _ _ h (Or.inr fun _ => rfl) (Or.inl hw) (Or.inr fun _ => id)

@[simp] theorem acts_takeFree (h : Acts w s x) : Acts w s (takeFree x) :=
  .rest _ _ _ _ h (Or.inr fun _ => rfl) (Or.inr ⟨fun _ => rfl, fun _ => ⟨rfl, rfl, id⟩, faultsStay_rfl _⟩) (Or.inr fun _ => id)

theorem loadLaw_arb {a : Arbiter} (hf : a.comp = x.arb.comp) (k : LoadLaw x) : LoadLaw { x with arb := a, budget := x.budget } :=
  ⟨k.1, by show a.comp.Sound; rw [hf]; exact k.2.1, by show a.comp.top ≤ _; rw [hf]; exact k.2.2⟩

/-- An act of the arbiter that leaves the lists, the compressor, the valve, the hold and the timing settings as they are. -/
@[simp] theorem acts_onArb (f : Arbiter → Arbiter) (hs : ∀ a, (f a).seat = a.seat) (hh : ∀ a, (f a).hold = a.hold)
    (ht : ∀ a, (f a).timing = a.timing) (hw : 1 ≤ w) (h : Acts w s x) : Acts w s (x.onArb f) :=
  .load (f x.arb) x.budget h (loadLaw_arb (comp_of_seat (hs x.arb)))
    (by rw [comp_of_seat (hs x.arb)]; exact staysDown_rfl _) (Or.inl hw)
    (Or.inr ⟨ht _, rfl, rfl⟩) (arbLaw_congr (hs _)).2 (fun _ k => heaterLaw_congr k rfl rfl rfl (hh _) (hs _))

/-- An act of the arbiter on what no law and no core names. -/
@[simp] theorem acts_onArb_free (f : Arbiter → Arbiter) (hs : ∀ a, (f a).seat = a.seat) (ht : ∀ a, (f a).timing = a.timing)
    (hc : ∀ a, (f a).core = a.core) (h : Acts w s x) : Acts w s (x.onArb f) :=
  .load (f x.arb) x.budget h (loadLaw_arb (comp_of_seat (hs x.arb)))
    (by rw [comp_of_seat (hs x.arb)]; exact staysDown_rfl _)
    (Or.inr ⟨hc _, rfl⟩) (Or.inr ⟨ht _, rfl, rfl⟩) (arbLaw_congr (hs _)).2
    (fun _ k => heaterLaw_congr k rfl rfl rfl (congrArg (fun q => q.2.2.2.2.1) (hc x.arb) :) (hs _))

/-- An act of the arbiter on its lists and the valve that leaves its core as it is and keeps the laws. -/
theorem acts_onArb_grant (f : Arbiter → Arbiter) (hf : (f x.arb).comp = x.arb.comp) (ht : (f x.arb).timing = x.arb.timing)
    (hc : (f x.arb).core = x.arb.core) (ha : ArbLaw x.arb → ArbLaw (f x.arb))
    (hh : ArbLaw x.arb → HeaterLaw x → HeaterLaw (x.onArb f)) (h : Acts w s x) : Acts w s (x.onArb f) :=
  .load (f x.arb) x.budget h (loadLaw_arb hf) (by rw [hf]; exact staysDown_rfl _) (Or.inr ⟨hc, rfl⟩)
    (Or.inr ⟨ht, rfl, rfl⟩) ha hh

/-- The timing settings taken (R57). -/
theorem acts_onArb_set (f : Arbiter → Arbiter) (hs : ∀ a, (f a).seat = a.seat) (hh : ∀ a, (f a).hold = a.hold) (hw : 3 ≤ w)
    (h : Acts w s x) : Acts w s (x.onArb f) :=
  .load (f x.arb) x.budget h (loadLaw_arb (comp_of_seat (hs x.arb)))
    (by rw [comp_of_seat (hs x.arb)]; exact staysDown_rfl _)
    (Or.inl (by omega)) (Or.inl hw) (arbLaw_congr (hs _)).2 (fun _ k => heaterLaw_congr k rfl rfl rfl (hh _) (hs _))

/-- A compressor that does not begin to turn, and stays as slow as the valve's move needs it, keeps the law of the arbiter. -/
theorem arbLaw_comp {a : Arbiter} {c : Compressor} (h : ArbLaw a)
    (hs : a.valve.isMoving = true → a.comp.slow → c.slow) (ht : a.comp.state.turning = false → c.state.turning = false) :
    ArbLaw { a with comp := c } := by
  obtain ⟨h1, h2, h3, h4, h5⟩ := h
  refine ⟨h1, h2, h3, fun e t n k => ?_, fun n k => ht (h5 n k)⟩
  obtain ⟨k1, k2⟩ := h4 e t n k
  have hv : a.valve = .moving e t n := k
  exact ⟨hs (by rw [hv]; rfl) k1, fun q => ht (k2 q)⟩

/-- A compressor that does not begin to turn keeps the law of the heater. -/
theorem heaterLaw_comp {c : Compressor} (h : HeaterLaw x) (ht : x.arb.comp.state.turning = false → c.state.turning = false) :
    HeaterLaw { x with arb := { x.arb with comp := c } } := by
  refine heaterLaw_arb h rfl rfl rfl rfl (fun a b => ⟨a, b⟩) (fun _ k => k) (fun _ k => ?_)
  unfold Arbiter.feedsFreeze at k ⊢
  simp only [Bool.and_eq_false_iff] at k ⊢
  exact k.imp ht id

/-- An act of the compressor that neither raises its level, nor leaves an off compressor with one, nor ends OFF_LOCKED. -/
theorem acts_onComp (f : Compressor → Compressor) (hf : x.arb.comp.Sound → (f x.arb.comp).Sound)
    (ht : x.arb.comp.Sound → (f x.arb.comp).top ≤ x.arb.comp.top) (hc : StaysDown w x.arb.comp (f x.arb.comp))
    (hs : x.arb.valve.isMoving = true → x.arb.comp.slow → (f x.arb.comp).slow)
    (ho : x.arb.comp.state.turning = false → (f x.arb.comp).state.turning = false)
    (h : Acts w s x) : Acts w s (x.onComp f) :=
  .load { x.arb with comp := f x.arb.comp } x.budget h
    (fun hl => ⟨hl.1, hf hl.2.1, le_trans (ht hl.2.1) hl.2.2⟩) hc (Or.inr ⟨rfl, rfl⟩) (Or.inr ⟨rfl, rfl, rfl⟩)
    (fun k => arbLaw_comp k hs ho) (fun _ k => heaterLaw_comp k ho)

/-- A change of the Air Path Unit that leaves the doors it knows as they are. -/
theorem acts_onAir (f : AirPath → AirPath) (hf : FansFollow x → FansFollow (x.onAir f))
    (hd : (f x.air).leftDoor = x.air.leftDoor ∧ (f x.air).rightDoor = x.air.rightDoor
      ∧ (f x.air).drawerDoor = x.air.drawerDoor ∧ (f x.air).freezerDoor = x.air.freezerDoor)
    (hm : (f x.air).mode = x.air.mode ∨ (f x.air).mode = x.ctl.mode) (hc : 1 ≤ w ∨ (f x.air).core = x.air.core)
    (hr : 3 ≤ w ∨ (x.air.damper = .failed → (f x.air).damper = .failed)) (h : Acts w s x) : Acts w s (x.onAir f) :=
  .air (f x.air) x.defrost h hf hd hm hc (Or.inr rfl) (hr.imp id fun k => ⟨rfl, k⟩) (fun k => heaterLaw_congr k rfl rfl rfl rfl rfl)

/-- An act of the Defrost Unit on its place in a grant or the class it is handed. -/
@[simp] theorem acts_onDefrost_core (f : Defrost → Defrost) (hs : ∀ d, (f d).seat = d.seat)
    (hc : ∀ d, (f d).core = d.core) (h : Acts w s x) : Acts w s (x.onDefrost f) :=
  .air x.air (f x.defrost) h
    (fun k => ⟨k.1, by
      show _ = ((f x.defrost).heater == .on)
      rw [heater_of_seat (hs x.defrost)]; exact k.2⟩)
    ⟨rfl, rfl, rfl, rfl⟩ (Or.inl rfl) (Or.inr rfl) (Or.inr (hc _)) (Or.inr ⟨(congrArg Defrost.terminate (hc x.defrost) :), id⟩)
    (fun k => heaterLaw_congr k rfl (hs _) rfl rfl rfl)

/-- An act of the Defrost Unit that leaves the heater and the settings as they are, and keeps the law of the heater. -/
theorem acts_onDefrost_phase (f : Defrost → Defrost) (hf : ∀ d, (f d).heater = d.heater)
    (ht : ∀ d, (f d).terminate = d.terminate) (hl : HeaterLaw x → HeaterLaw (x.onDefrost f)) (hw : 2 ≤ w) (h : Acts w s x) :
    Acts w s (x.onDefrost f) :=
  .air x.air (f x.defrost) h (fun k => ⟨k.1, by show _ = ((f x.defrost).heater == .on); rw [hf]; exact k.2⟩)
    ⟨rfl, rfl, rfl, rfl⟩ (Or.inl rfl) (Or.inr rfl) (Or.inl hw) (Or.inr ⟨ht _, id⟩) hl

/-- An act of the Defrost Unit that leaves the heater, the phase, the hold, the mode and the settings as they are. -/
@[simp] theorem acts_onDefrost (f : Defrost → Defrost) (hs : ∀ d, (f d).seat = d.seat)
    (ht : ∀ d, (f d).terminate = d.terminate) (hw : 2 ≤ w) (h : Acts w s x) : Acts w s (x.onDefrost f) :=
  acts_onDefrost_phase f (fun d => heater_of_seat (hs d)) ht (fun k => heaterLaw_congr k rfl (hs _) rfl rfl rfl) hw h

/-- The Defrost Unit's settings taken (R127). -/
theorem acts_onDefrost_set (f : Defrost → Defrost) (hs : ∀ d, (f d).seat = d.seat) (hw : 3 ≤ w) (h : Acts w s x) :
    Acts w s (x.onDefrost f) :=
  .air x.air (f x.defrost) h
    (fun k => ⟨k.1, by
      show _ = ((f x.defrost).heater == .on)
      rw [heater_of_seat (hs x.defrost)]; exact k.2⟩)
    ⟨rfl, rfl, rfl, rfl⟩ (Or.inl rfl) (Or.inr rfl) (Or.inl (by omega)) (Or.inl hw) (fun k => heaterLaw_congr k rfl (hs _) rfl rfl rfl)

@[simp] theorem acts_postNotice (k : NoticeKey) (p : List Byte) (hk : k.tag? = none) (h : Acts w s x) :
    Acts w s (postNotice x k p) := .post k p h (Or.inr hk)

@[simp] theorem tag?_status : NoticeKey.status.tag? = none := by simp only [NoticeKey.tag?]
@[simp] theorem tag?_zone (z : ZoneId) : (NoticeKey.zone z).tag? = none := by simp only [NoticeKey.tag?]
@[simp] theorem tag?_door (d : DoorId) : (NoticeKey.door d).tag? = none := by simp only [NoticeKey.tag?]
@[simp] theorem tag?_defrost : NoticeKey.defrost.tag? = none := by simp only [NoticeKey.tag?]
@[simp] theorem tag?_fault : NoticeKey.fault.tag? = none := by simp only [NoticeKey.tag?]
@[simp] theorem tag?_budget : NoticeKey.budget.tag? = none := by simp only [NoticeKey.tag?]

end

end Sys2Proof.Machine
end

