-- ==== Sys2Proof/Laws/ActsBase.lean ====
section
/-! SUPPORT. The shared operations, the air paths and the zones' acts as chains of elementary acts. -/

namespace Sys2Proof.Machine

section
variable {w : Nat} {s x : State}

/-! ### The Notice Unit and the Fault Unit -/

@[simp] theorem acts_postStatus (c : StatusCause) (h : Acts w s x) : Acts w s (postStatus x c) :=
  .post _ _ (.stat (loadStatus x.notice.period) h) (Or.inr rfl)

@[simp] theorem acts_postFault (c : FaultCause) (e : Option FaultEntry) (h : Acts w s x) : Acts w s (postFault x c e) := by
  unfold postFault; simp (maxDischargeDepth := 40) [h]

theorem matches_iff (e : FaultEntry) (c : FaultCode) (o : FaultObject) : e.matches c o = true ↔ e.code = c ∧ e.object = o := by
  simp [FaultEntry.matches]

theorem find_matches {t : List FaultEntry} {p : FaultEntry → Bool} {e : FaultEntry} (h : t.find? p = some e) : p e = true :=
  List.find?_some h

theorem declaredEntry_is (t : List FaultEntry) (c : FaultCode) (o : FaultObject) (d : Option Sensor) (n : FaultTime) :
    (declaredEntry t c o d n).code = c ∧ (declaredEntry t c o d n).object = o := by
  unfold declaredEntry
  split
  · rename_i e he
    exact (matches_iff e c o).1 (find_matches he)
  · exact ⟨rfl, rfl⟩

/-- Replacing the entries of a code and object by one of the same loses no place. -/
theorem replace_stays (t : List FaultEntry) (c : FaultCode) (o : FaultObject) {n : FaultEntry} (hn : n.code = c ∧ n.object = o)
    (e : FaultEntry) (he : e ∈ t) :
    ∃ e' ∈ t.map (fun x => if x.matches c o then n else x), e'.code = e.code ∧ e'.object = e.object := by
  refine ⟨_, List.mem_map.2 ⟨e, he, rfl⟩, ?_⟩
  split
  · rename_i hm
    obtain ⟨h1, h2⟩ := (matches_iff e c o).1 hm
    exact ⟨hn.1.trans h1.symm, hn.2.trans h2.symm⟩
  · exact ⟨rfl, rfl⟩

/-- A declaration keeps every entry's place (R153). -/
theorem declareIn_stays (t : List FaultEntry) (c : FaultCode) (o : FaultObject) (d : Option Sensor) (n : FaultTime)
    (e : FaultEntry) (he : e ∈ t) : ∃ e' ∈ declareIn t c o d n, e'.code = e.code ∧ e'.object = e.object := by
  unfold declareIn
  dsimp only
  split
  · exact replace_stays t c o (declaredEntry_is t c o d n) e he
  · exact ⟨e, List.mem_append_left _ he, rfl, rfl⟩

/-- After a declaration its entry stands in the table. -/
theorem declareIn_has (t : List FaultEntry) (c : FaultCode) (o : FaultObject) (d : Option Sensor) (n : FaultTime) :
    declaredEntry t c o d n ∈ declareIn t c o d n := by
  unfold declareIn
  dsimp only
  split
  · rename_i h
    obtain ⟨e, he, hm⟩ := List.any_eq_true.1 h
    exact List.mem_map.2 ⟨e, he, by simp [hm]⟩
  · exact List.mem_append_right _ (List.mem_singleton.2 rfl)

@[simp] theorem acts_declareFault (c : FaultCode) (o : FaultObject) (d : Option Sensor) (h : Acts w s x) :
    Acts w s (declareFault x c o d) :=
  acts_postFault _ _ (acts_onFault _ ⟨declareIn_stays _ c o d _, rfl⟩ h)

@[simp] theorem acts_endFault (c : FaultCode) (o : FaultObject) (h : Acts w s x) : Acts w s (endFault x c o) := by
  unfold endFault
  split
  · exact h
  · refine acts_postFault _ _ (acts_onFault _ ⟨fun y hy => ⟨_, List.mem_map.2 ⟨y, hy, rfl⟩, ?_⟩, rfl⟩ h)
    split <;> exact ⟨rfl, rfl⟩

@[simp] theorem acts_postZone (z : ZoneId) (c : Option ZoneCause) (h : Acts w s x) : Acts w s (postZone x z c) := by
  unfold postZone; simp (maxDischargeDepth := 40) [h]

@[simp] theorem acts_postDoor (d : DoorId) (n : Option Nat) (h : Acts w s x) : Acts w s (postDoor x d n) := by
  unfold postDoor; split <;> simp (maxDischargeDepth := 40) [h]

@[simp] theorem acts_postDefrost (h : Acts w s x) : Acts w s (postDefrost x) := by unfold postDefrost; simp (maxDischargeDepth := 40) [h]

@[simp] theorem acts_reportBudget (b : Budget) (h : Acts w s x) : Acts w s (reportBudget b x) := by
  unfold reportBudget; simp (maxDischargeDepth := 40) [h]

/-! ### The air paths -/

/-- Settling sets the fans and the target to their conditions. -/
theorem AirPath.settle_follows (a : AirPath) : a.settle.Follows := by
  unfold AirPath.settle
  dsimp only
  split
  · split <;> exact ⟨rfl, rfl, rfl, rfl⟩
  · exact ⟨rfl, rfl, rfl, rfl⟩

@[simp] theorem AirPath.settle_heaterOn (a : AirPath) : a.settle.heaterOn = a.heaterOn := by
  unfold AirPath.settle; dsimp only; split <;> (try split) <;> rfl

@[simp] theorem AirPath.settle_leftDoor (a : AirPath) : a.settle.leftDoor = a.leftDoor := by
  unfold AirPath.settle; dsimp only; split <;> (try split) <;> rfl

@[simp] theorem AirPath.settle_rightDoor (a : AirPath) : a.settle.rightDoor = a.rightDoor := by
  unfold AirPath.settle; dsimp only; split <;> (try split) <;> rfl

@[simp] theorem AirPath.settle_drawerDoor (a : AirPath) : a.settle.drawerDoor = a.drawerDoor := by
  unfold AirPath.settle; dsimp only; split <;> (try split) <;> rfl

@[simp] theorem AirPath.settle_freezerDoor (a : AirPath) : a.settle.freezerDoor = a.freezerDoor := by
  unfold AirPath.settle; dsimp only; split <;> (try split) <;> rfl

/-- A FAILED damper begins no travel (R102). -/
theorem AirPath.settle_failed (a : AirPath) (h : a.damper = .failed) : a.settle.damper = .failed := by
  unfold AirPath.settle; simp [h]

@[simp] theorem AirPath.settle_core (a : AirPath) : a.settle.core = a.core := by
  unfold AirPath.settle; dsimp only; split <;> (try split) <;> rfl

@[simp] theorem AirPath.settle_mode (a : AirPath) : a.settle.mode = a.mode := congrArg (·.1) a.settle_core

theorem acts_airInput' (f : AirPath → AirPath)
    (hf : ∀ a, (f a).heaterOn = a.heaterOn ∧ (f a).leftDoor = a.leftDoor ∧ (f a).rightDoor = a.rightDoor
      ∧ (f a).drawerDoor = a.drawerDoor ∧ (f a).freezerDoor = a.freezerDoor ∧ (f a).damper = a.damper)
    (hm : (f x.air).mode = x.air.mode ∨ (f x.air).mode = x.ctl.mode)
    (hc : 1 ≤ w ∨ ∀ a, (f a).core = a.core) (h : Acts w s x) : Acts w s (airInput x f) :=
  acts_onAir (fun a => (f a).settle)
    (fun k => ⟨(f x.air).settle_follows, by simpa [(hf x.air).1] using k.2⟩)
    (by simp [hf x.air]) (by simpa using hm) (hc.imp id (fun k => by simpa using k x.air))
    (Or.inr fun k => AirPath.settle_failed _ ((hf x.air).2.2.2.2.2.trans k)) h

/-- A change of the Air Path Unit's inputs other than the doors and the heater. -/
@[simp] theorem acts_airInput (f : AirPath → AirPath)
    (hf : ∀ a, (f a).heaterOn = a.heaterOn ∧ (f a).leftDoor = a.leftDoor ∧ (f a).rightDoor = a.rightDoor
      ∧ (f a).drawerDoor = a.drawerDoor ∧ (f a).freezerDoor = a.freezerDoor ∧ (f a).damper = a.damper ∧ (f a).mode = a.mode)
    (hw : 1 ≤ w) (h : Acts w s x) : Acts w s (airInput x f) := acts_airInput' f (fun a => ⟨(hf a).1, (hf a).2.1, (hf a).2.2.1, (hf a).2.2.2.1, (hf a).2.2.2.2.1, (hf a).2.2.2.2.2.1⟩) (Or.inl (hf x.air).2.2.2.2.2.2) (Or.inl hw) h

/-- A change of its inputs from the zones and the compressor, or of the run-on. -/
@[simp] theorem acts_airInput_core (f : AirPath → AirPath)
    (hf : ∀ a, (f a).heaterOn = a.heaterOn ∧ (f a).leftDoor = a.leftDoor ∧ (f a).rightDoor = a.rightDoor
      ∧ (f a).drawerDoor = a.drawerDoor ∧ (f a).freezerDoor = a.freezerDoor ∧ (f a).damper = a.damper ∧ (f a).mode = a.mode)
    (hc : ∀ a, (f a).core = a.core) (h : Acts w s x) : Acts w s (airInput x f) := acts_airInput' f (fun a => ⟨(hf a).1, (hf a).2.1, (hf a).2.2.1, (hf a).2.2.2.1, (hf a).2.2.2.2.1, (hf a).2.2.2.2.2.1⟩) (Or.inl (hf x.air).2.2.2.2.2.2) (Or.inr hc) h

@[simp] theorem acts_airZone (z : ZoneId) (st : ZoneState) (c : ZoneCause) (h : Acts w s x) : Acts w s (airZone x z st c) := by
  unfold airZone; cases z <;> simp (maxDischargeDepth := 40) [h]

@[simp] theorem acts_airComp (c : CompState) (h : Acts w s x) : Acts w s (airComp x c) := by unfold airComp; simp (maxDischargeDepth := 40) [h]

@[simp] theorem acts_airPermit (b : Bool) (hw : 1 ≤ w) (h : Acts w s x) : Acts w s (airPermit x b) := by unfold airPermit; simp (maxDischargeDepth := 40) [hw, h]

/-- The mode of the part handed to the Air Path Unit (R170). -/
theorem acts_airMode {m : Mode} (hm : m = x.ctl.mode) (hw : 1 ≤ w) (h : Acts w s x) : Acts w s (airMode x m) :=
  acts_airInput' _ (fun _ => ⟨rfl, rfl, rfl, rfl, rfl, rfl⟩) (Or.inr hm) (Or.inl hw) h

@[simp] theorem acts_endRunOn (h : Acts w s x) : Acts w s (endRunOn x) := by unfold endRunOn; simp (maxDischargeDepth := 40) [h]

@[simp] theorem acts_freshEvapResult (a : Sensor) (b : Option Band) (h : Acts w s x) :
    Acts w s (freshEvapResult x a b) := by
  unfold freshEvapResult; simp (maxDischargeDepth := 40) [h]

/-- The damper's own state is an input of no fan. -/
theorem acts_damper (d : Damper) (hr : 3 ≤ w ∨ (x.air.damper = .failed → d = .failed)) (h : Acts w s x) : Acts w s (x.onAir fun a => { a with damper := d }) :=
  acts_onAir _ (fun k => ⟨k.1, k.2⟩) ⟨rfl, rfl, rfl, rfl⟩ (Or.inl rfl) (Or.inr rfl) hr h

@[simp] theorem acts_damperRecover (hw : 3 ≤ w) (h : Acts w s x) : Acts w s (damperRecover x) := by
  unfold damperRecover; split
  · exact acts_damper _ (Or.inl hw) h
  · exact h

theorem acts_damperConfirm (e : DamperEnd) (hr : x.air.damper ≠ .failed) (h : Acts w s x) : Acts w s (damperConfirm x e) := by
  exact acts_endFault _ _ (acts_damper _ (Or.inr fun k => absurd k hr) h)

/-! ### The scheduler -/

@[simp] theorem acts_setBounds (c : Chan) (b : Temp × Temp) (h : Acts w s x) : Acts w s (setBounds x c b) := by
  unfold setBounds; simp (maxDischargeDepth := 40) [h]

@[simp] theorem startNext_ch (k : Scheduler) : k.startNext.ch = k.ch := by unfold Scheduler.startNext; split <;> rfl

/-- The winner among the pending requests serves its entry (R64). -/
theorem winner_serves (k : Scheduler) : ({ k with conv := k.winner } : Scheduler).Serves := by
  intro v hv
  simp only [Option.mem_def] at hv
  unfold Scheduler.winner at hv
  split at hv
  · cases hv; simp
  · split at hv
    · rename_i q l hq
      cases hv
      refine ⟨?_, ?_, fun _ => ?_⟩
      · unfold QEntry.source; split <;> simp_all
      · unfold QEntry.source; split <;> simp_all
      · simp [hq]
    · cases hs : k.firstScan <;> simp only [hs, Option.map_none, Option.map_some, reduceCtorEq] at hv
      cases hv; simp

theorem startNext_serves {k : Scheduler} (h : k.Serves) : k.startNext.Serves := by
  unfold Scheduler.startNext
  split
  · exact h
  · exact winner_serves k

@[simp] theorem startNext_queue (k : Scheduler) : k.startNext.queue = k.queue := by unfold Scheduler.startNext; split <;> rfl
@[simp] theorem startNext_tags (k : Scheduler) : k.startNext.tags = k.tags := by unfold Scheduler.startNext; split <;> rfl

theorem queueMid_startNext {e : List Byte} (h : QueueMid e x) : QueueMid e (startNext x) :=
  queueMid_sched h rfl (congrArg (List.filterMap QEntry.tag) (startNext_queue _)) (startNext_tags _)
    (fun k => by unfold startNext; simpa using k) startNext_serves

@[simp] theorem acts_startNext (h : Acts w s x) : Acts w s (startNext x) :=
  acts_onSched _ startNext_ch (fun _ => queueMid_startNext) h

/-- A conversion in flight that is displaced (R65). -/
theorem acts_displace (h : Acts w s x) : Acts w s (x.onSched fun k => { k with conv := k.displaced }) := by
  refine acts_onSched _ (fun _ => rfl) (fun e k => queueMid_sched k rfl rfl rfl id fun hs v hv => ?_) h
  simp only [State.onSched_sched, Option.mem_def] at hv
  unfold Scheduler.displaced at hv
  split at hv
  · rename_i u hu
    split at hv
    · cases hv; exact hs _ hu
    · cases hv
  · cases hv

@[simp] theorem acts_inject (c : Chan) (h : Acts w s x) : Acts w s (inject x c) :=
  acts_startNext (acts_displace (acts_onChannel _ _ (fun _ => rfl) (fun _ => rfl) (fun _ _ => rfl) h))

theorem serves_append {k : Scheduler} (q : QEntry) (t : List Byte) (h : k.Serves) :
    ({ k with queue := k.queue ++ [q], tags := t } : Scheduler).Serves :=
  fun v hv => ⟨(h v hv).1, (h v hv).2.1, fun hs => List.mem_append_left _ ((h v hv).2.2 hs)⟩

@[simp] theorem acts_queueDefrost (h : Acts w s x) : Acts w s (queueDefrost x) := by
  unfold queueDefrost
  split
  · exact h
  · rename_i hn
    refine acts_startNext (acts_onSched _ (fun _ => rfl) (fun e k => queueMid_sched k rfl ?_ rfl (fun _ => ?_)
      (serves_append _ _)) h)
    · simp [Scheduler.linkTags]
    · have : x.sched.queue.filter (fun q => q.tag.isNone) = [] := by
        refine List.filter_eq_nil_iff.2 fun q hq hc => hn (List.any_eq_true.2 ⟨q, hq, hc⟩)
      simp [List.filter_append, this]

/-- A MEASURE's entry, with a tag that is not outstanding while at most six are (R70). -/
theorem acts_queueLink (c : Chan) (t : Byte) (ht : t ∉ x.sched.tags) (hl : x.sched.tags.length < 7) (h : Acts w s x) :
    Acts w s (queueLink x c t) := by
  unfold queueLink
  refine acts_startNext (acts_onSched _ (fun _ => rfl) (fun e k => ⟨?_, serves_append _ _ k.2.1, ?_, ?_, ?_⟩) h)
  · simpa [List.filter_append] using k.1
  · have hn : noticeTags (x.onSched fun k =>
        { k with queue := k.queue ++ [{ chan := c, tag := some t }], tags := k.tags ++ [t] }) = noticeTags x := rfl
    rw [hn]
    simp only [State.onSched_sched, Scheduler.linkTags, List.filterMap_append, List.filterMap_cons, List.filterMap_nil]
    have := k.2.2.1
    unfold Scheduler.linkTags at this
    refine (this.append_right [t]).trans ?_
    simp only [List.append_assoc]
    exact (List.perm_append_comm (l₁ := noticeTags x ++ e) (l₂ := [t])).append_left _ |>.trans (by simp) |> fun q => by
      simpa [List.append_assoc] using q
  · simpa [List.nodup_append] using ⟨k.2.2.2.1, fun a ha e => ht (e ▸ ha)⟩
  · simp; omega

theorem filterMap_links (l : List QEntry) : (l.filter fun q => q.tag.isNone).filterMap (·.tag) = [] := by
  induction l with
  | nil => rfl
  | cons q l ih => cases h : q.tag <;> simp [h, ih]

/-- CLEAR-QUEUE (R73). -/
@[simp] theorem acts_clearLinks (h : Acts w s x) : Acts w s (clearLinks x) := by
  unfold clearLinks
  refine acts_startNext (acts_onSched _ (fun _ => rfl) (fun e k => ?_) h)
  have hn : ∀ q, noticeTags (x.onSched q) = noticeTags x := fun _ => rfl
  have hm : ∀ t, (x.sched.links.any fun q => q.tag == some t) = decide (t ∈ x.sched.linkTags) := by
    intro t
    rw [Bool.eq_iff_iff]
    simp only [Scheduler.links, Scheduler.linkTags, List.any_eq_true, List.mem_filter, beq_iff_eq, decide_eq_true_eq,
      List.mem_filterMap]
    exact ⟨fun ⟨q, hq, ht⟩ => ⟨q, hq.1, ht⟩, fun ⟨q, hq, ht⟩ => ⟨q, ⟨hq, by simp [ht]⟩, ht⟩⟩
  have hp := k.2.2.1
  rw [List.append_assoc] at hp
  have hd := hp.nodup k.2.2.2.1
  have ht : (x.sched.tags.filter fun t => !(x.sched.links.any fun q => q.tag == some t)).Perm (noticeTags x ++ e) := by
    refine (hp.filter _).trans ?_
    rw [List.filter_append]
    have e1 : (x.sched.linkTags.filter fun t => !(x.sched.links.any fun q => q.tag == some t)) = [] :=
      List.filter_eq_nil_iff.2 fun t ht hc => by simp [hm, ht] at hc
    have e2 : ((noticeTags x ++ e).filter fun t => !(x.sched.links.any fun q => q.tag == some t)) = noticeTags x ++ e :=
      List.filter_eq_self.2 fun t ht => by
        simp only [hm, Bool.not_eq_true', decide_eq_false_iff_not]
        exact fun hc => (List.nodup_append.1 hd).2.2 t hc t ht rfl
    rw [e1, e2, List.nil_append]
  refine ⟨?_, fun v hv => ?_, ?_, List.Nodup.filter _ k.2.2.2.1, le_trans (List.length_filter_le _ _) k.2.2.2.2⟩
  · simpa [List.filter_filter] using k.1
  · simp only [State.onSched_sched, Option.mem_def] at hv
    split at hv
    · rename_i u hu
      split at hv
      · cases hv
      · rename_i hs
        cases hv
        obtain ⟨_, h2, h3⟩ := k.2.1 _ hu
        refine ⟨fun q => absurd q hs, h2, fun q => ?_⟩
        simp only [State.onSched_sched, List.mem_filter]
        exact ⟨h3 q, by simp [h2 hs]⟩
    · cases hv
  · rw [hn, State.onSched_sched]
    simp only [Scheduler.linkTags]
    rw [filterMap_links, List.nil_append]
    exact ht

@[simp] theorem acts_scanExpiry (c : Chan) (h : Acts w s x) : Acts w s (scanExpiry x c) := by
  unfold scanExpiry; simp (maxDischargeDepth := 40) [h]

/-! ### The zones' own acts -/

@[simp] theorem acts_enterState (z : ZoneId) (st : ZoneState) (c : ZoneCause) (hw : 1 ≤ w) (h : Acts w s x) :
    Acts w s (enterState x z st c) :=
  acts_postZone _ _ (acts_airZone _ _ _ (acts_onZone _ _ (fun _ => rfl) hw h))

/-- A change between CALLING and COOLING. -/
theorem acts_enterState_served (z : ZoneId) (st : ZoneState) (c : ZoneCause)
    (hc : st.served = .calling ∧ (x.zones.get z).state.served = .calling) (h : Acts w s x) :
    Acts w s (enterState x z st c) := by
  refine acts_postZone _ _ (acts_airZone _ _ _ (.rest _ _ _ _ h (Or.inr (zones_set Zone.core _ _ _ ?_))
    (Or.inr ⟨zones_set Zone.settings _ _ _ rfl, fun _ => ⟨rfl, rfl, id⟩, faultsStay_rfl _⟩) (Or.inr fun _ => id)))
  simp [Zone.since, hc.1, hc.2]

@[simp] theorem acts_noteClass (h : Acts w s x) : Acts w s (noteClass x) :=
  acts_onDefrost_core _ (fun _ => rfl) (fun _ => rfl) h

@[simp] theorem workRecord_settings (r : Zone) (z : ZoneId) : (r.workRecord z).settings = r.settings := by
  unfold Zone.workRecord; split
  · split <;> rfl
  · rfl

@[simp] theorem acts_takeUpWork (z : ZoneId) (c : ZoneCause) (hw : 1 ≤ w) (h : Acts w s x) : Acts w s (takeUpWork x z c) :=
  acts_noteClass (acts_enterState _ _ _ hw (acts_onZone _ _ (fun r => workRecord_settings r z) hw h))

@[simp] theorem acts_zoneGrant (z : ZoneId) (h : Acts w s x) : Acts w s (zoneGrant x z) := by
  unfold zoneGrant
  split
  · rename_i hc
    exact acts_enterState_served _ _ _ ⟨rfl, by rw [hc]; rfl⟩ h
  · exact h

@[simp] theorem acts_zoneReturn (z : ZoneId) (h : Acts w s x) : Acts w s (zoneReturn x z) := by
  unfold zoneReturn
  split
  · rename_i hc
    exact acts_enterState_served _ _ _ ⟨rfl, by rw [hc]; rfl⟩ h
  · exact h

@[simp] theorem acts_zoneHeld (z : ZoneId) (hw : 1 ≤ w) (h : Acts w s x) : Acts w s (zoneHeld x z) := by
  unfold zoneHeld; simp (maxDischargeDepth := 40) [hw, h]

@[simp] theorem acts_zoneReleased (z : ZoneId) (hw : 1 ≤ w) (h : Acts w s x) : Acts w s (zoneReleased x z) := by
  unfold zoneReleased; simp (maxDischargeDepth := 40) [hw, h]

end

end Sys2Proof.Machine
end

