-- ==== Sys2Proof/Laws/Load.lean ====
section
/-! SUPPORT. The Load Budget Unit's own changes keep the accounting sound (R133 to R146). -/

namespace Sys2Proof.Machine

theorem levelWeight_mono {a b : Nat} (h : a ≤ b) : Config.levelWeight a ≤ Config.levelWeight b := by
  cases a <;> cases b <;> simp [Config.levelWeight] at *
  omega

namespace Budget

variable {b : Budget}

/-- Shedding never raises the sum, and leaves the sum without the mullion heater. -/
theorem shed_sum (b : Budget) : b.shed.sum = b.sumBare := by
  unfold shed sum sumBare
  split <;> simp_all

theorem sumBare_le (b : Budget) : b.sumBare ≤ b.sum := by unfold sum sumBare; omega

@[simp] theorem shed_level (b : Budget) : b.shed.level = b.level := by unfold shed; split <;> rfl
@[simp] theorem shed_inForce (b : Budget) : b.shed.inForce = b.inForce := by unfold shed; split <;> rfl
@[simp] theorem shed_pending (b : Budget) : b.shed.pending = b.pending := by unfold shed; split <;> rfl
@[simp] theorem shed_heater (b : Budget) : b.shed.heater = b.heater := by unfold shed; split <;> rfl
@[simp] theorem shed_cap (b : Budget) : b.shed.cap = b.cap := by unfold shed; split <;> rfl
@[simp] theorem shed_available (b : Budget) : b.shed.available = b.available := by unfold available; simp

/-- The available units lie within the budget in force less the reserve, and are at least 15. -/
theorem Sound.available_le (h : b.Sound) : b.available + Config.reserve ≤ b.inForce ∧ 15 ≤ b.available := by
  obtain ⟨_, h2, _, h4⟩ := h
  unfold available
  cases hp : b.pending with
  | none => simp [Config.reserve]; omega
  | some p =>
    have := h4 p (by simp [hp])
    simp [Config.reserve]; omega

/-- A record with the same budgets whose sum fits the available units is sound. -/
theorem Sound.of_fits (h : b.Sound) {c : Budget} (hi : c.inForce = b.inForce) (hp : c.pending = b.pending)
    (hs : c.sum ≤ b.available) : c.Sound := by
  have := h.available_le
  exact ⟨by rw [hi]; omega, by rw [hi]; exact h.2.1, by rw [hi]; exact h.2.2.1, by rw [hi, hp]; exact h.2.2.2⟩

/-- A record with the same budgets whose sum is no greater is sound. -/
theorem Sound.of_le (h : b.Sound) {c : Budget} (hi : c.inForce = b.inForce) (hp : c.pending = b.pending)
    (hs : c.sum ≤ b.sum) : c.Sound := by
  have := h.1
  exact ⟨by rw [hi]; omega, by rw [hi]; exact h.2.1, by rw [hi]; exact h.2.2.1, by rw [hi, hp]; exact h.2.2.2⟩

theorem Sound.shed (h : b.Sound) : b.shed.Sound :=
  h.of_le (by simp) (by simp) (by rw [shed_sum]; exact b.sumBare_le)

theorem Sound.unwish (h : b.Sound) : b.unwish.Sound := by
  unfold Budget.unwish
  split
  · exact h
  · exact h.of_le rfl rfl (by unfold sum; simp)

/-- A lower accounted level keeps the accounting sound (R137). -/
theorem Sound.lower (h : b.Sound) {l : Nat} (hl : l ≤ b.level) : ({ b with level := l } : Budget).Sound :=
  h.of_le rfl rfl (by have := levelWeight_mono hl; unfold sum; simp; omega)

/-- A heater given up keeps the accounting sound (R139, R140). -/
theorem Sound.noHeater (h : b.Sound) : ({ b with heater := .none_ } : Budget).Sound :=
  h.of_le rfl rfl (by unfold sum; simp)

@[simp] theorem settle1_level (b : Budget) : b.settle1.level = b.level := by unfold settle1; split <;> simp
@[simp] theorem settle2_level (b : Budget) : b.settle2.level = b.level := by
  unfold settle2; split
  · split <;> rfl
  · rfl
@[simp] theorem settle3_level (b : Budget) : b.settle3.level = b.level := by
  unfold settle3; split
  · dsimp only; split <;> simp
  · rfl
@[simp] theorem settle4_level (b : Budget) : b.settle4.level = b.level := by unfold settle4; split <;> rfl
/-- Settling leaves the accounted level as it is. -/
@[simp] theorem settle_level (b : Budget) : b.settle.level = b.level := by unfold settle; simp [settle5]

theorem Sound.settle1 (h : b.Sound) : b.settle1.Sound := by
  unfold Budget.settle1; split
  · exact h.shed
  · exact h

theorem Sound.settle2 (h : b.Sound) : b.settle2.Sound := by
  unfold Budget.settle2; split
  · rename_i p hp
    split
    · have := h.2.2.2 p (by simp [hp])
      refine ⟨?_, by dsimp only; omega, by have := h.2.2.1; dsimp only; omega, by simp⟩
      simp only [Budget.sum, Config.reserve] at *; omega
    · exact h
  · exact h

theorem Sound.settle3 (h : b.Sound) : b.settle3.Sound := by
  unfold Budget.settle3; split
  · rename_i hd
    simp only [heaterDue, Bool.and_eq_true, beq_iff_eq] at hd
    split
    · rename_i hf
      refine h.of_fits rfl rfl ?_
      simp only [heaterFitsNow, sum, hd.1] at hf ⊢
      simp at hf ⊢; omega
    · refine h.of_fits (by simp) (by simp) ?_
      have hf := hd.2
      have hm : b.shed.mullion ≠ .on := by unfold Budget.shed; split <;> simp_all
      simp only [heaterFits, sumBare, hd.1] at hf
      simp [sum, hm] at hf ⊢; omega
  · exact h

theorem Sound.settle4 (h : b.Sound) : b.settle4.Sound := by
  unfold Budget.settle4; split
  · rename_i hm
    by_cases hf : b.mullionFits = true
    · refine h.of_fits rfl rfl ?_
      simp only [hf, if_true]
      simp only [mullionFits] at hf
      simp [sum, hm.1] at hf ⊢; omega
    · refine h.of_le rfl rfl ?_
      simp only [hf, sum, hm.1]
      simp
  · exact h

/-- Settling keeps the accounting sound (R135). -/
theorem Sound.settle (h : b.Sound) : b.settle.Sound := by
  have k := h.settle1.settle2.settle3.settle4
  unfold Budget.settle Budget.settle5
  exact ⟨k.1, k.2.1, k.2.2.1, k.2.2.2⟩

/-- A granted compressor claim keeps the accounting sound (R136). -/
theorem Sound.claimLevel (h : b.Sound) {l : Nat} (hg : b.grantsLevel l = true) : (b.claimLevel l).Sound := by
  have ha := h.available_le
  unfold Budget.claimLevel; split
  · rename_i hf
    refine h.of_fits rfl rfl ?_
    simpa [levelFitsNow, sum] using hf
  · refine h.of_fits (by simp) (by simp) ?_
    have hm : b.shed.mullion ≠ .on := by unfold Budget.shed; split <;> simp_all
    simp only [grantsLevel, levelFits, Bool.or_eq_true, Bool.and_eq_true, decide_eq_true_eq] at hg
    simp only [sum, hm, shed_heater, if_false]
    rcases hg with hl | hl
    · have : Config.levelWeight l ≤ 4 := levelWeight_mono (b := 1) hl
      simp only [Config.heaterWeight]
      split <;> omega
    · omega

@[simp] theorem claimLevel_level (b : Budget) (l : Nat) : (b.claimLevel l).level = l := by
  unfold claimLevel; split <;> rfl

/-- A heater claim judged while the heater is NONE keeps the accounting sound (R138). -/
theorem Sound.claimHeater (h : b.Sound) (hn : b.heater = .none_) : b.claimHeater.Sound := by
  have hm : b.shed.mullion ≠ .on := by unfold Budget.shed; split <;> simp_all
  unfold Budget.claimHeater; split
  · rename_i hf
    refine h.of_fits rfl rfl ?_
    simp only [heaterFitsNow, sum, hn] at hf ⊢
    simp at hf ⊢; omega
  · split
    · rename_i hf
      refine h.of_fits (by simp) (by simp) ?_
      simp only [heaterFits, sumBare, hn, shed_heater, shed_level, shed_available] at hf
      simp [sum, hm] at hf ⊢; omega
    · refine h.of_le (by simp) (by simp) ?_
      unfold sum; simp [hm]; omega

@[simp] theorem claimHeater_level (b : Budget) : b.claimHeater.level = b.level := by
  unfold claimHeater; split
  · rfl
  · split <;> simp

@[simp] theorem unwish_level (b : Budget) : b.unwish.level = b.level := by unfold unwish; split <;> rfl

theorem Sound.setMode (h : b.Sound) (m : Mode) : (b.setMode m).Sound :=
  Sound.unwish (h.of_le rfl rfl (le_refl _))

@[simp] theorem setMode_level (b : Budget) (m : Mode) : (b.setMode m).level = b.level := by unfold setMode; simp

/-- A SET-BUDGET's budget keeps the accounting sound (R145, R146). -/
theorem Sound.takeBudget (h : b.Sound) {n : Nat} (hn : 20 ≤ n ∧ n ≤ 40) : (b.takeBudget n).Sound := by
  have h1 := h.1
  unfold Budget.takeBudget; split
  · rename_i hf
    refine ⟨?_, hn.1, hn.2, by simp⟩
    simp only [sum, Config.reserve] at hf ⊢; omega
  · rename_i hf
    refine ⟨h1, h.2.1, h.2.2.1, ?_⟩
    intro p hp
    simp at hp
    simp only [Config.reserve] at *
    omega

@[simp] theorem takeBudget_level (b : Budget) (n : Nat) : (b.takeBudget n).level = b.level := by
  unfold takeBudget; split <;> rfl

theorem Sound.ambientResult (h : b.Sound) (p : Band) : (b.ambientResult p).Sound := h.of_le rfl rfl (le_refl _)
theorem Sound.ambientFault (h : b.Sound) : b.ambientFault.Sound := h.of_le rfl rfl (le_refl _)
theorem Sound.ambientRecover (h : b.Sound) : b.ambientRecover.Sound := h.of_le rfl rfl (le_refl _)

/-! ### What settling and claims leave as it is -/

@[simp] theorem shed_core (b : Budget) : b.shed.core = b.core := by unfold shed; split <;> rfl

theorem settle1_core (b : Budget) : b.settle1.core = b.core := by unfold settle1; split <;> simp

theorem settle2_core (b : Budget) : b.settle2.core = b.core := by
  unfold settle2; split
  · rename_i p hp
    split
    · simp [Budget.asked, hp]
    · rfl
  · rfl

theorem settle3_core (b : Budget) : b.settle3.core = b.core := by
  unfold settle3; split
  · dsimp only; split
    · rfl
    · exact shed_core b
  · rfl

theorem settle4_core (b : Budget) : b.settle4.core = b.core := by unfold settle4; split <;> rfl

@[simp] theorem settle_core (b : Budget) : b.settle.core = b.core := by
  have h : b.settle.core = b.settle1.settle2.settle3.settle4.core := rfl
  rw [h, settle4_core, settle3_core, settle2_core, settle1_core]

@[simp] theorem claimLevel_core (b : Budget) (l : Nat) : (b.claimLevel l).core = b.core := by
  unfold claimLevel; split
  · rfl
  · exact shed_core b

@[simp] theorem claimHeater_core (b : Budget) : b.claimHeater.core = b.core := by
  unfold claimHeater; split
  · rfl
  · split <;> exact shed_core b

@[simp] theorem unwish_core (b : Budget) : b.unwish.core = b.core := by unfold unwish; split <;> rfl

/-- The core holds the two settings. -/
theorem settings_of_core {b c : Budget} (h : c.core = b.core) : c.mullionMode = b.mullionMode ∧ c.asked = b.asked := by
  simp only [Budget.core, Prod.mk.injEq] at h
  exact ⟨h.1, h.2.2.2.2.2.2⟩

/-- A SET-BUDGET's budget is the one asked for (R145, R146). -/
theorem takeBudget_asked (b : Budget) (n : Nat) : (b.takeBudget n).asked = n := by unfold takeBudget; split <;> rfl

theorem setMode_settings (b : Budget) (m : Mode) : (b.setMode m).mullionMode = b.mullionMode ∧ (b.setMode m).asked = b.asked :=
  settings_of_core (b := { b with mode := m, force := if m = .service then b.force else none }) (unwish_core _)

end Budget

end Sys2Proof.Machine
end

