-- ==== Sys2Proof/Laws/Posting.lean ====
section
/-! SUPPORT. What posting a notice and the transmit choice leave as they are: every block but the Notice Unit and the link. -/

namespace Sys2Proof.Machine

variable (s : State)

/-- The transmit choice among the notices changes the Notice Unit and the link alone. -/
theorem rotate_eq : rotate s = { s with notice := (rotate s).notice, link := (rotate s).link } := by
  unfold rotate; dsimp only; split <;> rfl

theorem transmitChoice_eq :
    transmitChoice s = { s with notice := (transmitChoice s).notice, link := (transmitChoice s).link } := by
  unfold transmitChoice; dsimp only
  split
  · rfl
  · rw [rotate_eq]; rfl

/-- Posting a notice changes the Notice Unit, the link and the free index alone. -/
theorem postNotice_eq (k : NoticeKey) (p : List Byte) :
    postNotice s k p = { s with
      notice := (postNotice s k p).notice, link := (postNotice s k p).link, free := (postNotice s k p).free } := by
  unfold postNotice; dsimp only
  split
  · rfl
  · split
    · rfl
    · split
      · rw [transmitChoice_eq]; rfl
      · rfl

theorem settleLink_eq :
    settleLink s = { s with notice := (settleLink s).notice, link := (settleLink s).link } := by
  unfold settleLink; split
  · exact transmitChoice_eq s
  · rfl

@[simp] theorem rotate_uptime : (rotate s).uptime = s.uptime := by rw [rotate_eq]
@[simp] theorem transmitChoice_uptime : (transmitChoice s).uptime = s.uptime := by rw [transmitChoice_eq]
@[simp] theorem settleLink_uptime : (settleLink s).uptime = s.uptime := by rw [settleLink_eq]
@[simp] theorem rotate_ms : (rotate s).ms = s.ms := by rw [rotate_eq]
@[simp] theorem transmitChoice_ms : (transmitChoice s).ms = s.ms := by rw [transmitChoice_eq]
@[simp] theorem settleLink_ms : (settleLink s).ms = s.ms := by rw [settleLink_eq]
@[simp] theorem rotate_ctl : (rotate s).ctl = s.ctl := by rw [rotate_eq]
@[simp] theorem transmitChoice_ctl : (transmitChoice s).ctl = s.ctl := by rw [transmitChoice_eq]
@[simp] theorem settleLink_ctl : (settleLink s).ctl = s.ctl := by rw [settleLink_eq]
@[simp] theorem rotate_zones : (rotate s).zones = s.zones := by rw [rotate_eq]
@[simp] theorem transmitChoice_zones : (transmitChoice s).zones = s.zones := by rw [transmitChoice_eq]
@[simp] theorem settleLink_zones : (settleLink s).zones = s.zones := by rw [settleLink_eq]
@[simp] theorem rotate_arb : (rotate s).arb = s.arb := by rw [rotate_eq]
@[simp] theorem transmitChoice_arb : (transmitChoice s).arb = s.arb := by rw [transmitChoice_eq]
@[simp] theorem settleLink_arb : (settleLink s).arb = s.arb := by rw [settleLink_eq]
@[simp] theorem rotate_sched : (rotate s).sched = s.sched := by rw [rotate_eq]
@[simp] theorem transmitChoice_sched : (transmitChoice s).sched = s.sched := by rw [transmitChoice_eq]
@[simp] theorem settleLink_sched : (settleLink s).sched = s.sched := by rw [settleLink_eq]
@[simp] theorem rotate_doors : (rotate s).doors = s.doors := by rw [rotate_eq]
@[simp] theorem transmitChoice_doors : (transmitChoice s).doors = s.doors := by rw [transmitChoice_eq]
@[simp] theorem settleLink_doors : (settleLink s).doors = s.doors := by rw [settleLink_eq]
@[simp] theorem rotate_air : (rotate s).air = s.air := by rw [rotate_eq]
@[simp] theorem transmitChoice_air : (transmitChoice s).air = s.air := by rw [transmitChoice_eq]
@[simp] theorem settleLink_air : (settleLink s).air = s.air := by rw [settleLink_eq]
@[simp] theorem rotate_defrost : (rotate s).defrost = s.defrost := by rw [rotate_eq]
@[simp] theorem transmitChoice_defrost : (transmitChoice s).defrost = s.defrost := by rw [transmitChoice_eq]
@[simp] theorem settleLink_defrost : (settleLink s).defrost = s.defrost := by rw [settleLink_eq]
@[simp] theorem rotate_budget : (rotate s).budget = s.budget := by rw [rotate_eq]
@[simp] theorem transmitChoice_budget : (transmitChoice s).budget = s.budget := by rw [transmitChoice_eq]
@[simp] theorem settleLink_budget : (settleLink s).budget = s.budget := by rw [settleLink_eq]
@[simp] theorem rotate_fault : (rotate s).fault = s.fault := by rw [rotate_eq]
@[simp] theorem transmitChoice_fault : (transmitChoice s).fault = s.fault := by rw [transmitChoice_eq]
@[simp] theorem settleLink_fault : (settleLink s).fault = s.fault := by rw [settleLink_eq]
@[simp] theorem rotate_pins : (rotate s).pins = s.pins := by rw [rotate_eq]
@[simp] theorem transmitChoice_pins : (transmitChoice s).pins = s.pins := by rw [transmitChoice_eq]
@[simp] theorem settleLink_pins : (settleLink s).pins = s.pins := by rw [settleLink_eq]
@[simp] theorem rotate_pending : (rotate s).pending = s.pending := by rw [rotate_eq]
@[simp] theorem transmitChoice_pending : (transmitChoice s).pending = s.pending := by rw [transmitChoice_eq]
@[simp] theorem settleLink_pending : (settleLink s).pending = s.pending := by rw [settleLink_eq]
@[simp] theorem rotate_free : (rotate s).free = s.free := by rw [rotate_eq]
@[simp] theorem transmitChoice_free : (transmitChoice s).free = s.free := by rw [transmitChoice_eq]
@[simp] theorem settleLink_free : (settleLink s).free = s.free := by rw [settleLink_eq]
@[simp] theorem postNotice_uptime (k : NoticeKey) (p : List Byte) : (postNotice s k p).uptime = s.uptime := by rw [postNotice_eq]
@[simp] theorem postNotice_ms (k : NoticeKey) (p : List Byte) : (postNotice s k p).ms = s.ms := by rw [postNotice_eq]
@[simp] theorem postNotice_ctl (k : NoticeKey) (p : List Byte) : (postNotice s k p).ctl = s.ctl := by rw [postNotice_eq]
@[simp] theorem postNotice_zones (k : NoticeKey) (p : List Byte) : (postNotice s k p).zones = s.zones := by rw [postNotice_eq]
@[simp] theorem postNotice_arb (k : NoticeKey) (p : List Byte) : (postNotice s k p).arb = s.arb := by rw [postNotice_eq]
@[simp] theorem postNotice_sched (k : NoticeKey) (p : List Byte) : (postNotice s k p).sched = s.sched := by rw [postNotice_eq]
@[simp] theorem postNotice_doors (k : NoticeKey) (p : List Byte) : (postNotice s k p).doors = s.doors := by rw [postNotice_eq]
@[simp] theorem postNotice_air (k : NoticeKey) (p : List Byte) : (postNotice s k p).air = s.air := by rw [postNotice_eq]
@[simp] theorem postNotice_defrost (k : NoticeKey) (p : List Byte) : (postNotice s k p).defrost = s.defrost := by rw [postNotice_eq]
@[simp] theorem postNotice_budget (k : NoticeKey) (p : List Byte) : (postNotice s k p).budget = s.budget := by rw [postNotice_eq]
@[simp] theorem postNotice_fault (k : NoticeKey) (p : List Byte) : (postNotice s k p).fault = s.fault := by rw [postNotice_eq]
@[simp] theorem postNotice_pins (k : NoticeKey) (p : List Byte) : (postNotice s k p).pins = s.pins := by rw [postNotice_eq]
@[simp] theorem postNotice_pending (k : NoticeKey) (p : List Byte) : (postNotice s k p).pending = s.pending := by rw [postNotice_eq]
@[simp] theorem takeFree_uptime : (takeFree s).uptime = s.uptime := rfl
@[simp] theorem takeFree_ms : (takeFree s).ms = s.ms := rfl
@[simp] theorem takeFree_ctl : (takeFree s).ctl = s.ctl := rfl
@[simp] theorem takeFree_zones : (takeFree s).zones = s.zones := rfl
@[simp] theorem takeFree_arb : (takeFree s).arb = s.arb := rfl
@[simp] theorem takeFree_sched : (takeFree s).sched = s.sched := rfl
@[simp] theorem takeFree_doors : (takeFree s).doors = s.doors := rfl
@[simp] theorem takeFree_air : (takeFree s).air = s.air := rfl
@[simp] theorem takeFree_defrost : (takeFree s).defrost = s.defrost := rfl
@[simp] theorem takeFree_budget : (takeFree s).budget = s.budget := rfl
@[simp] theorem takeFree_fault : (takeFree s).fault = s.fault := rfl
@[simp] theorem takeFree_pins : (takeFree s).pins = s.pins := rfl
@[simp] theorem takeFree_pending : (takeFree s).pending = s.pending := rfl
@[simp] theorem takeFree_notice : (takeFree s).notice = s.notice := rfl
@[simp] theorem takeFree_link : (takeFree s).link = s.link := rfl
@[simp] theorem appendReply_uptime (f : Frame) (k : ReplyKind) : (appendReply s f k).uptime = s.uptime := rfl
@[simp] theorem appendReply_ms (f : Frame) (k : ReplyKind) : (appendReply s f k).ms = s.ms := rfl
@[simp] theorem appendReply_ctl (f : Frame) (k : ReplyKind) : (appendReply s f k).ctl = s.ctl := rfl
@[simp] theorem appendReply_zones (f : Frame) (k : ReplyKind) : (appendReply s f k).zones = s.zones := rfl
@[simp] theorem appendReply_arb (f : Frame) (k : ReplyKind) : (appendReply s f k).arb = s.arb := rfl
@[simp] theorem appendReply_sched (f : Frame) (k : ReplyKind) : (appendReply s f k).sched = s.sched := rfl
@[simp] theorem appendReply_doors (f : Frame) (k : ReplyKind) : (appendReply s f k).doors = s.doors := rfl
@[simp] theorem appendReply_air (f : Frame) (k : ReplyKind) : (appendReply s f k).air = s.air := rfl
@[simp] theorem appendReply_defrost (f : Frame) (k : ReplyKind) : (appendReply s f k).defrost = s.defrost := rfl
@[simp] theorem appendReply_budget (f : Frame) (k : ReplyKind) : (appendReply s f k).budget = s.budget := rfl
@[simp] theorem appendReply_fault (f : Frame) (k : ReplyKind) : (appendReply s f k).fault = s.fault := rfl
@[simp] theorem appendReply_pins (f : Frame) (k : ReplyKind) : (appendReply s f k).pins = s.pins := rfl
@[simp] theorem appendReply_pending (f : Frame) (k : ReplyKind) : (appendReply s f k).pending = s.pending := rfl

/-! ### The notices and the Fault Unit -/

@[simp] theorem postFault_uptime (c : FaultCause) (e : Option FaultEntry) : (postFault s c e).uptime = s.uptime := by
  unfold postFault; split <;> simp
@[simp] theorem declareFault_uptime (c : FaultCode) (o : FaultObject) (d : Option Sensor) : (declareFault s c o d).uptime = s.uptime := by
  unfold declareFault; simp
@[simp] theorem endFault_uptime (c : FaultCode) (o : FaultObject) : (endFault s c o).uptime = s.uptime := by
  unfold endFault; split <;> simp
@[simp] theorem postFault_ms (c : FaultCause) (e : Option FaultEntry) : (postFault s c e).ms = s.ms := by
  unfold postFault; split <;> simp
@[simp] theorem declareFault_ms (c : FaultCode) (o : FaultObject) (d : Option Sensor) : (declareFault s c o d).ms = s.ms := by
  unfold declareFault; simp
@[simp] theorem endFault_ms (c : FaultCode) (o : FaultObject) : (endFault s c o).ms = s.ms := by
  unfold endFault; split <;> simp
@[simp] theorem postFault_ctl (c : FaultCause) (e : Option FaultEntry) : (postFault s c e).ctl = s.ctl := by
  unfold postFault; split <;> simp
@[simp] theorem declareFault_ctl (c : FaultCode) (o : FaultObject) (d : Option Sensor) : (declareFault s c o d).ctl = s.ctl := by
  unfold declareFault; simp
@[simp] theorem endFault_ctl (c : FaultCode) (o : FaultObject) : (endFault s c o).ctl = s.ctl := by
  unfold endFault; split <;> simp
@[simp] theorem postFault_zones (c : FaultCause) (e : Option FaultEntry) : (postFault s c e).zones = s.zones := by
  unfold postFault; split <;> simp
@[simp] theorem declareFault_zones (c : FaultCode) (o : FaultObject) (d : Option Sensor) : (declareFault s c o d).zones = s.zones := by
  unfold declareFault; simp
@[simp] theorem endFault_zones (c : FaultCode) (o : FaultObject) : (endFault s c o).zones = s.zones := by
  unfold endFault; split <;> simp
@[simp] theorem postFault_arb (c : FaultCause) (e : Option FaultEntry) : (postFault s c e).arb = s.arb := by
  unfold postFault; split <;> simp
@[simp] theorem declareFault_arb (c : FaultCode) (o : FaultObject) (d : Option Sensor) : (declareFault s c o d).arb = s.arb := by
  unfold declareFault; simp
@[simp] theorem endFault_arb (c : FaultCode) (o : FaultObject) : (endFault s c o).arb = s.arb := by
  unfold endFault; split <;> simp
@[simp] theorem postFault_sched (c : FaultCause) (e : Option FaultEntry) : (postFault s c e).sched = s.sched := by
  unfold postFault; split <;> simp
@[simp] theorem declareFault_sched (c : FaultCode) (o : FaultObject) (d : Option Sensor) : (declareFault s c o d).sched = s.sched := by
  unfold declareFault; simp
@[simp] theorem endFault_sched (c : FaultCode) (o : FaultObject) : (endFault s c o).sched = s.sched := by
  unfold endFault; split <;> simp
@[simp] theorem postFault_doors (c : FaultCause) (e : Option FaultEntry) : (postFault s c e).doors = s.doors := by
  unfold postFault; split <;> simp
@[simp] theorem declareFault_doors (c : FaultCode) (o : FaultObject) (d : Option Sensor) : (declareFault s c o d).doors = s.doors := by
  unfold declareFault; simp
@[simp] theorem endFault_doors (c : FaultCode) (o : FaultObject) : (endFault s c o).doors = s.doors := by
  unfold endFault; split <;> simp
@[simp] theorem postFault_air (c : FaultCause) (e : Option FaultEntry) : (postFault s c e).air = s.air := by
  unfold postFault; split <;> simp
@[simp] theorem declareFault_air (c : FaultCode) (o : FaultObject) (d : Option Sensor) : (declareFault s c o d).air = s.air := by
  unfold declareFault; simp
@[simp] theorem endFault_air (c : FaultCode) (o : FaultObject) : (endFault s c o).air = s.air := by
  unfold endFault; split <;> simp
@[simp] theorem postFault_defrost (c : FaultCause) (e : Option FaultEntry) : (postFault s c e).defrost = s.defrost := by
  unfold postFault; split <;> simp
@[simp] theorem declareFault_defrost (c : FaultCode) (o : FaultObject) (d : Option Sensor) : (declareFault s c o d).defrost = s.defrost := by
  unfold declareFault; simp
@[simp] theorem endFault_defrost (c : FaultCode) (o : FaultObject) : (endFault s c o).defrost = s.defrost := by
  unfold endFault; split <;> simp
@[simp] theorem postFault_budget (c : FaultCause) (e : Option FaultEntry) : (postFault s c e).budget = s.budget := by
  unfold postFault; split <;> simp
@[simp] theorem declareFault_budget (c : FaultCode) (o : FaultObject) (d : Option Sensor) : (declareFault s c o d).budget = s.budget := by
  unfold declareFault; simp
@[simp] theorem endFault_budget (c : FaultCode) (o : FaultObject) : (endFault s c o).budget = s.budget := by
  unfold endFault; split <;> simp
@[simp] theorem postFault_pins (c : FaultCause) (e : Option FaultEntry) : (postFault s c e).pins = s.pins := by
  unfold postFault; split <;> simp
@[simp] theorem declareFault_pins (c : FaultCode) (o : FaultObject) (d : Option Sensor) : (declareFault s c o d).pins = s.pins := by
  unfold declareFault; simp
@[simp] theorem endFault_pins (c : FaultCode) (o : FaultObject) : (endFault s c o).pins = s.pins := by
  unfold endFault; split <;> simp
@[simp] theorem postFault_pending (c : FaultCause) (e : Option FaultEntry) : (postFault s c e).pending = s.pending := by
  unfold postFault; split <;> simp
@[simp] theorem declareFault_pending (c : FaultCode) (o : FaultObject) (d : Option Sensor) : (declareFault s c o d).pending = s.pending := by
  unfold declareFault; simp
@[simp] theorem endFault_pending (c : FaultCode) (o : FaultObject) : (endFault s c o).pending = s.pending := by
  unfold endFault; split <;> simp
@[simp] theorem postStatus_uptime (c : StatusCause) : (postStatus s c).uptime = s.uptime := by unfold postStatus; simp
@[simp] theorem postZone_uptime (z : ZoneId) (c : Option ZoneCause) : (postZone s z c).uptime = s.uptime := by unfold postZone; simp
@[simp] theorem postDefrost_uptime : (postDefrost s).uptime = s.uptime := by unfold postDefrost; simp
@[simp] theorem reportBudget_uptime (b : Budget) : (reportBudget b s).uptime = s.uptime := by unfold reportBudget; split <;> simp
@[simp] theorem postDoor_uptime (d : DoorId) (n : Option Nat) : (postDoor s d n).uptime = s.uptime := by
  unfold postDoor; split
  · simp
  · dsimp only; split <;> simp
@[simp] theorem postStatus_ms (c : StatusCause) : (postStatus s c).ms = s.ms := by unfold postStatus; simp
@[simp] theorem postZone_ms (z : ZoneId) (c : Option ZoneCause) : (postZone s z c).ms = s.ms := by unfold postZone; simp
@[simp] theorem postDefrost_ms : (postDefrost s).ms = s.ms := by unfold postDefrost; simp
@[simp] theorem reportBudget_ms (b : Budget) : (reportBudget b s).ms = s.ms := by unfold reportBudget; split <;> simp
@[simp] theorem postDoor_ms (d : DoorId) (n : Option Nat) : (postDoor s d n).ms = s.ms := by
  unfold postDoor; split
  · simp
  · dsimp only; split <;> simp
@[simp] theorem postStatus_ctl (c : StatusCause) : (postStatus s c).ctl = s.ctl := by unfold postStatus; simp
@[simp] theorem postZone_ctl (z : ZoneId) (c : Option ZoneCause) : (postZone s z c).ctl = s.ctl := by unfold postZone; simp
@[simp] theorem postDefrost_ctl : (postDefrost s).ctl = s.ctl := by unfold postDefrost; simp
@[simp] theorem reportBudget_ctl (b : Budget) : (reportBudget b s).ctl = s.ctl := by unfold reportBudget; split <;> simp
@[simp] theorem postDoor_ctl (d : DoorId) (n : Option Nat) : (postDoor s d n).ctl = s.ctl := by
  unfold postDoor; split
  · simp
  · dsimp only; split <;> simp
@[simp] theorem postStatus_zones (c : StatusCause) : (postStatus s c).zones = s.zones := by unfold postStatus; simp
@[simp] theorem postZone_zones (z : ZoneId) (c : Option ZoneCause) : (postZone s z c).zones = s.zones := by unfold postZone; simp
@[simp] theorem postDefrost_zones : (postDefrost s).zones = s.zones := by unfold postDefrost; simp
@[simp] theorem reportBudget_zones (b : Budget) : (reportBudget b s).zones = s.zones := by unfold reportBudget; split <;> simp
@[simp] theorem postDoor_zones (d : DoorId) (n : Option Nat) : (postDoor s d n).zones = s.zones := by
  unfold postDoor; split
  · simp
  · dsimp only; split <;> simp
@[simp] theorem postStatus_arb (c : StatusCause) : (postStatus s c).arb = s.arb := by unfold postStatus; simp
@[simp] theorem postZone_arb (z : ZoneId) (c : Option ZoneCause) : (postZone s z c).arb = s.arb := by unfold postZone; simp
@[simp] theorem postDefrost_arb : (postDefrost s).arb = s.arb := by unfold postDefrost; simp
@[simp] theorem reportBudget_arb (b : Budget) : (reportBudget b s).arb = s.arb := by unfold reportBudget; split <;> simp
@[simp] theorem postDoor_arb (d : DoorId) (n : Option Nat) : (postDoor s d n).arb = s.arb := by
  unfold postDoor; split
  · simp
  · dsimp only; split <;> simp
@[simp] theorem postStatus_sched (c : StatusCause) : (postStatus s c).sched = s.sched := by unfold postStatus; simp
@[simp] theorem postZone_sched (z : ZoneId) (c : Option ZoneCause) : (postZone s z c).sched = s.sched := by unfold postZone; simp
@[simp] theorem postDefrost_sched : (postDefrost s).sched = s.sched := by unfold postDefrost; simp
@[simp] theorem reportBudget_sched (b : Budget) : (reportBudget b s).sched = s.sched := by unfold reportBudget; split <;> simp
@[simp] theorem postDoor_sched (d : DoorId) (n : Option Nat) : (postDoor s d n).sched = s.sched := by
  unfold postDoor; split
  · simp
  · dsimp only; split <;> simp
@[simp] theorem postStatus_doors (c : StatusCause) : (postStatus s c).doors = s.doors := by unfold postStatus; simp
@[simp] theorem postZone_doors (z : ZoneId) (c : Option ZoneCause) : (postZone s z c).doors = s.doors := by unfold postZone; simp
@[simp] theorem postDefrost_doors : (postDefrost s).doors = s.doors := by unfold postDefrost; simp
@[simp] theorem reportBudget_doors (b : Budget) : (reportBudget b s).doors = s.doors := by unfold reportBudget; split <;> simp
@[simp] theorem postDoor_doors (d : DoorId) (n : Option Nat) : (postDoor s d n).doors = s.doors := by
  unfold postDoor; split
  · simp
  · dsimp only; split <;> simp
@[simp] theorem postStatus_air (c : StatusCause) : (postStatus s c).air = s.air := by unfold postStatus; simp
@[simp] theorem postZone_air (z : ZoneId) (c : Option ZoneCause) : (postZone s z c).air = s.air := by unfold postZone; simp
@[simp] theorem postDefrost_air : (postDefrost s).air = s.air := by unfold postDefrost; simp
@[simp] theorem reportBudget_air (b : Budget) : (reportBudget b s).air = s.air := by unfold reportBudget; split <;> simp
@[simp] theorem postDoor_air (d : DoorId) (n : Option Nat) : (postDoor s d n).air = s.air := by
  unfold postDoor; split
  · simp
  · dsimp only; split <;> simp
@[simp] theorem postStatus_defrost (c : StatusCause) : (postStatus s c).defrost = s.defrost := by unfold postStatus; simp
@[simp] theorem postZone_defrost (z : ZoneId) (c : Option ZoneCause) : (postZone s z c).defrost = s.defrost := by unfold postZone; simp
@[simp] theorem postDefrost_defrost : (postDefrost s).defrost = s.defrost := by unfold postDefrost; simp
@[simp] theorem reportBudget_defrost (b : Budget) : (reportBudget b s).defrost = s.defrost := by unfold reportBudget; split <;> simp
@[simp] theorem postDoor_defrost (d : DoorId) (n : Option Nat) : (postDoor s d n).defrost = s.defrost := by
  unfold postDoor; split
  · simp
  · dsimp only; split <;> simp
@[simp] theorem postStatus_budget (c : StatusCause) : (postStatus s c).budget = s.budget := by unfold postStatus; simp
@[simp] theorem postZone_budget (z : ZoneId) (c : Option ZoneCause) : (postZone s z c).budget = s.budget := by unfold postZone; simp
@[simp] theorem postDefrost_budget : (postDefrost s).budget = s.budget := by unfold postDefrost; simp
@[simp] theorem reportBudget_budget (b : Budget) : (reportBudget b s).budget = s.budget := by unfold reportBudget; split <;> simp
@[simp] theorem postDoor_budget (d : DoorId) (n : Option Nat) : (postDoor s d n).budget = s.budget := by
  unfold postDoor; split
  · simp
  · dsimp only; split <;> simp
@[simp] theorem postStatus_pins (c : StatusCause) : (postStatus s c).pins = s.pins := by unfold postStatus; simp
@[simp] theorem postZone_pins (z : ZoneId) (c : Option ZoneCause) : (postZone s z c).pins = s.pins := by unfold postZone; simp
@[simp] theorem postDefrost_pins : (postDefrost s).pins = s.pins := by unfold postDefrost; simp
@[simp] theorem reportBudget_pins (b : Budget) : (reportBudget b s).pins = s.pins := by unfold reportBudget; split <;> simp
@[simp] theorem postDoor_pins (d : DoorId) (n : Option Nat) : (postDoor s d n).pins = s.pins := by
  unfold postDoor; split
  · simp
  · dsimp only; split <;> simp
@[simp] theorem postStatus_pending (c : StatusCause) : (postStatus s c).pending = s.pending := by unfold postStatus; simp
@[simp] theorem postZone_pending (z : ZoneId) (c : Option ZoneCause) : (postZone s z c).pending = s.pending := by unfold postZone; simp
@[simp] theorem postDefrost_pending : (postDefrost s).pending = s.pending := by unfold postDefrost; simp
@[simp] theorem reportBudget_pending (b : Budget) : (reportBudget b s).pending = s.pending := by unfold reportBudget; split <;> simp
@[simp] theorem postDoor_pending (d : DoorId) (n : Option Nat) : (postDoor s d n).pending = s.pending := by
  unfold postDoor; split
  · simp
  · dsimp only; split <;> simp
@[simp] theorem postStatus_fault (c : StatusCause) : (postStatus s c).fault = s.fault := by unfold postStatus; simp
@[simp] theorem postZone_fault (z : ZoneId) (c : Option ZoneCause) : (postZone s z c).fault = s.fault := by unfold postZone; simp
@[simp] theorem postDefrost_fault : (postDefrost s).fault = s.fault := by unfold postDefrost; simp
@[simp] theorem reportBudget_fault (b : Budget) : (reportBudget b s).fault = s.fault := by unfold reportBudget; split <;> simp
@[simp] theorem postDoor_fault (d : DoorId) (n : Option Nat) : (postDoor s d n).fault = s.fault := by
  unfold postDoor; split
  · simp
  · dsimp only; split <;> simp

end Sys2Proof.Machine
end

