-- ==== Sys2Proof/Laws/ActsLoad.lean ====
section
/-! SUPPORT. The compressor's level, the load and the heater as chains of elementary acts. -/

namespace Sys2Proof.Machine

section
variable {w : Nat} {s x : State}

/-! ### The load record -/

/-- A change of the load record with a level that the compressor does not exceed. -/
theorem acts_onBudget' (f : Budget → Budget) (hf : LoadLaw x → (f x.budget).Sound)
    (hl : LoadLaw x → x.arb.comp.top ≤ (f x.budget).level) (hc : 1 ≤ w ∨ (f x.budget).core = x.budget.core)
    (hs : 3 ≤ w ∨ ((f x.budget).mullionMode = x.budget.mullionMode ∧ (f x.budget).asked = x.budget.asked))
    (hh : (f x.budget).heater = x.budget.heater) (h : Acts w s x) : Acts w s (x.onBudget f) :=
  .load x.arb (f x.budget) h (fun k => ⟨hf k, k.2.1, hl k⟩) (staysDown_rfl _) (hc.imp id fun k => ⟨rfl, k⟩)
    (hs.imp id fun k => ⟨rfl, k⟩) id (fun _ k => heaterLaw_congr k rfl rfl hh rfl rfl)

/-- A change of the load record that keeps it sound, its level, its core and the heater's claim as they are. -/
theorem acts_onBudget (f : Budget → Budget) (hf : x.budget.Sound → (f x.budget).Sound)
    (hl : (f x.budget).level = x.budget.level) (hc : (f x.budget).core = x.budget.core)
    (hh : (f x.budget).heater = x.budget.heater) (h : Acts w s x) : Acts w s (x.onBudget f) :=
  acts_onBudget' f (fun k => hf k.1) (fun k => le_trans k.2.2 (le_of_eq hl.symm)) (Or.inr hc)
    (Or.inr (Budget.settings_of_core hc)) hh h

/-- A change of the load record that keeps it sound, its level and its settings. -/
theorem acts_onBudget_wish (f : Budget → Budget) (hf : x.budget.Sound → (f x.budget).Sound)
    (hl : (f x.budget).level = x.budget.level)
    (hs : (f x.budget).mullionMode = x.budget.mullionMode ∧ (f x.budget).asked = x.budget.asked)
    (hh : (f x.budget).heater = x.budget.heater) (hw : 1 ≤ w) (h : Acts w s x) : Acts w s (x.onBudget f) :=
  acts_onBudget' f (fun k => hf k.1) (fun k => le_trans k.2.2 (le_of_eq hl.symm)) (Or.inl hw) (Or.inr hs) hh h

/-! ### The aim and its steps -/

theorem running_turning {c : CompState} (h : c.running_ = true) : c.turning = true := by cases c <;> simp_all [CompState.running_, CompState.turning]

/-- The aim is never below 1 (R34). -/
theorem one_le_aim (a : Arbiter) (m : Mode) : 1 ≤ a.aim m := by
  unfold Arbiter.aim Arbiter.capped
  repeat' split
  all_goals first | exact le_max_left _ _ | exact le_refl 1

@[simp] theorem acts_stepDown (h : Acts w s x) : Acts w s (stepDown x) := by
  unfold stepDown
  split
  · rename_i hc
    simp only [Arbiter.stepFree, Bool.and_eq_true] at hc
    refine acts_onComp _ (fun _ => Or.inl (running_turning hc.1.1)) (fun _ => ?_) (staysDown_same rfl rfl rfl (Or.inr rfl))
      (fun _ q => ?_) id h
    swap
    · have := one_le_aim x.arb x.ctl.mode
      rcases q with q | q
      · exact Or.inl q
      · omega
    simp only [Compressor.top, Option.map_some, Option.getD_some]; omega
  · exact h

@[simp] theorem claimLevel_comp (l : Nat) : (claimLevel x l).arb.comp = x.arb.comp := by
  unfold claimLevel reportBudget; dsimp only; split <;> simp

@[simp] theorem claimLevel_valve (l : Nat) : (claimLevel x l).arb.valve = x.arb.valve := by
  unfold claimLevel reportBudget; dsimp only; split <;> simp

@[simp] theorem claimLevel_seat (l : Nat) : (claimLevel x l).arb.seat = x.arb.seat := by
  unfold claimLevel reportBudget; dsimp only; split <;> simp

@[simp] theorem claimLevel_hold (l : Nat) : (claimLevel x l).arb.hold = x.arb.hold := by
  unfold claimLevel reportBudget; dsimp only; split <;> simp

@[simp] theorem claimLevel_defrost (l : Nat) : (claimLevel x l).defrost = x.defrost := by
  unfold claimLevel reportBudget; dsimp only; split <;> simp

@[simp] theorem claimLevel_ctl (l : Nat) : (claimLevel x l).ctl = x.ctl := by
  unfold claimLevel reportBudget; dsimp only; split <;> simp

@[simp] theorem claimLevel_claim (b : Budget) (l : Nat) : (b.claimLevel l).heater = b.heater := by
  unfold Budget.claimLevel; split <;> simp

@[simp] theorem claimLevel_budget (l : Nat) : (claimLevel x l).budget = x.budget.claimLevel l := by
  unfold claimLevel reportBudget; dsimp only; split <;> simp

/-- A granted claim of a level that the compressor does not exceed (R136). -/
theorem acts_claimLevel (l : Nat) (hg : x.budget.grantsLevel l = true) (ht : LoadLaw x → x.arb.comp.top ≤ l)
    (h : Acts w s x) : Acts w s (claimLevel x l) := by
  unfold claimLevel
  refine acts_reportBudget _ (acts_onArb_free _ (fun _ => rfl) (fun _ => rfl) (fun _ => rfl) (acts_onBudget' _
    (fun k => k.1.claimLevel hg) (fun k => ?_) (Or.inr (by simp)) (Or.inr (Budget.settings_of_core (by simp)))
    (by simp) h))
  simpa using ht k

@[simp] theorem acts_evalAim (h : Acts w s x) : Acts w s (evalAim x) := by
  unfold evalAim
  split
  · rename_i hc
    simp only [Arbiter.stepFree, Bool.and_eq_true, Option.isNone_iff_eq_none] at hc
    split
    · exact h
    · rename_i hv
      split
      · rename_i hg
        have k := acts_claimLevel (x.arb.comp.level + 1) hg
          (fun _ => by simp [Compressor.top, hc.1.2]) h
        refine .load (t := claimLevel x (x.arb.comp.level + 1)) _ _ k (fun l => ⟨l.1, ?_, ?_⟩) (staysDown_same rfl rfl rfl (Or.inr rfl))
          (Or.inr ⟨rfl, rfl⟩) (Or.inr ⟨rfl, rfl, rfl⟩) (fun q => arbLaw_comp q (fun m => ?_) id) (fun _ q => heaterLaw_comp q id)
        · exact Or.inl (by simpa using running_turning hc.1.1)
        · simp [Compressor.top]
        · rw [claimLevel_valve] at m; exact absurd m hv
      · simp (maxDischargeDepth := 40) [h]
  · simp (maxDischargeDepth := 40) [h]

/-! ### The heater -/

/-- A change of the heater with the claim that the Load Budget Unit holds for it, and, when it goes on or off, its report to
the Air Path Unit (R98). -/
theorem acts_heater (d : Defrost) (b : Budget) (r : AirPath)
    (hr : (r = x.air ∧ (d.heater == .on) = (x.defrost.heater == .on))
      ∨ r = ({ x.air with heaterOn := d.heater == .on } : AirPath).settle) (hc : d.core = x.defrost.core)
    (hf : x.budget.Sound → b.Sound) (hl : b.level = x.budget.level) (hb : b.core = x.budget.core)
    (hh : HeaterLaw x → HeaterLaw { x with budget := b, air := r, defrost := d }) (h : Acts w s x) :
    Acts w s { x with budget := b, air := r, defrost := d } := by
  refine .unit x.arb b r d h ⟨fun k => ⟨hf k.1, k.2.1, le_trans k.2.2 (le_of_eq hl.symm)⟩, staysDown_rfl _, fun k => ?_, ?_,
    Or.inl (by rcases hr with ⟨rfl, _⟩ | rfl <;> simp), Or.inr ⟨rfl, hb, ?_⟩, Or.inr hc, Or.inr ⟨rfl, (Budget.settings_of_core hb).1, (Budget.settings_of_core hb).2,
    (congrArg Defrost.terminate hc :), ?_⟩, id, fun _ => hh⟩
  · rcases hr with ⟨rfl, hn⟩ | rfl
    · exact ⟨k.1, k.2.trans hn.symm⟩
    · exact ⟨AirPath.settle_follows _, by simp⟩
  · rcases hr with ⟨rfl, _⟩ | rfl <;> simp
  · rcases hr with ⟨rfl, _⟩ | rfl <;> simp
  · rcases hr with ⟨rfl, _⟩ | rfl
    · exact id
    · exact fun k => AirPath.settle_failed _ k

/-- The heater taken into use, or switched on, keeps its law. -/
theorem heaterLaw_use {d : Defrost} {b : Budget} {r : AirPath} (h : HeaterLaw x)
    (hp : d.phase = x.defrost.phase ∧ d.hold = x.defrost.hold ∧ d.mode = x.defrost.mode)
    (hb : b.heater = d.heater.claim) (hf : x.arb.feedsFreeze = false)
    (hu : (d.use = some .defrost ∧ x.defrost.phase = .heat ∧ x.arb.hold = true)
      ∨ (d.use = some .service ∧ x.ctl.mode = .service)) : HeaterLaw { x with budget := b, air := r, defrost := d } := by
  obtain ⟨h1, h2, h3, h4, h5⟩ := h
  obtain ⟨p1, p2, p3⟩ := hp
  refine ⟨fun _ => ⟨hf, ?_⟩, ?_, ?_, p3.trans h4, hb⟩
  · show (d.use = some .defrost ∧ d.phase = .heat ∧ _) ∨ _; rw [p1]; exact hu
  · show _ → d.hold = true ∧ (d.phase = .heat ∨ d.phase = .drip) ∧ _; rw [p1, p2]; exact h2
  · show _ → d.phase.working = false ∧ _; rw [p1]; exact h3

/-- An OFF heater with no claim keeps its law. -/
theorem heaterLaw_off {d : Defrost} {b : Budget} {r : AirPath} (h : HeaterLaw x)
    (hp : d.phase = x.defrost.phase ∧ d.hold = x.defrost.hold ∧ d.mode = x.defrost.mode)
    (hd : d.heater = .off) (hb : b.heater = .none_) : HeaterLaw { x with budget := b, air := r, defrost := d } := by
  obtain ⟨h1, h2, h3, h4, h5⟩ := h
  obtain ⟨p1, p2, p3⟩ := hp
  refine ⟨fun k => absurd hd k, ?_, ?_, p3.trans h4, ?_⟩
  · show _ → d.hold = true ∧ (d.phase = .heat ∨ d.phase = .drip) ∧ _; rw [p1, p2]; exact h2
  · show _ → d.phase.working = false ∧ _; rw [p1]; exact h3
  · show b.heater = d.heater.claim; rw [hd, hb]; rfl

/-! ### Settling -/

/-- Settling grants a WAITING heater or leaves the claim as it is (R135). -/
theorem settle_heater (b : Budget) :
    b.settle.heater = if b.settle1.settle2.heaterDue then .granted else b.heater := by
  have e1 : b.settle1.heater = b.heater := by unfold Budget.settle1; split <;> simp
  have e2 : b.settle1.settle2.heater = b.heater := by
    unfold Budget.settle2; split
    · split <;> exact e1
    · exact e1
  have e4 : ∀ c : Budget, c.settle4.settle5.heater = c.heater := by
    intro c; unfold Budget.settle5 Budget.settle4; split <;> rfl
  unfold Budget.settle
  rw [e4]
  unfold Budget.settle3
  split
  · rfl
  · exact e2

theorem heaterDue_waiting {b : Budget} (h : b.settle1.settle2.heaterDue = true) : b.heater = .waiting := by
  have e1 : b.settle1.heater = b.heater := by unfold Budget.settle1; split <;> simp
  have e2 : b.settle1.settle2.heater = b.heater := by
    unfold Budget.settle2; split
    · split <;> exact e1
    · exact e1
  simp only [Budget.heaterDue, Bool.and_eq_true, beq_iff_eq] at h
  exact e2.symm.trans h.1

@[simp] theorem acts_handCap (n : Nat) (h : Acts w s x) : Acts w s (handCap x n) := by
  unfold handCap
  split
  · exact h
  · exact acts_onArb_free _ (fun _ => rfl) (fun _ => rfl) (fun _ => rfl) h

@[simp] theorem acts_settleFrom (b : Budget) (h : Acts w s x) : Acts w s (settleFrom x b) := by
  unfold settleFrom
  refine acts_evalAim (acts_reportBudget _ (acts_handCap _ ?_))
  split
  · rename_i hd
    have e : airHeater ((x.onBudget Budget.settle).onDefrost fun d => { d with heater := .on }) true
        = { x with budget := x.budget.settle, air := ({ x.air with heaterOn := true } : AirPath).settle
                   defrost := { x.defrost with heater := .on } } := by
      simp only [airHeater, airInput, State.onBudget, State.onDefrost, State.onAir]
    unfold heaterOn
    rw [e]
    refine acts_postDefrost (acts_heater (x := x) _ _ _ (Or.inr rfl) rfl (fun k => k.settle) (by simp) (by simp) (fun k => ?_) h)
    have hc := k.waiting (heaterDue_waiting hd)
    have hn : x.defrost.heater ≠ .off := by rw [hc]; decide
    exact heaterLaw_use k ⟨rfl, rfl, rfl⟩ (by rw [settle_heater, if_pos hd]; rfl) (k.1 hn).1 (k.1 hn).2
  · rename_i hd
    exact acts_onBudget _ (fun k => k.settle) (by simp) (by simp) (by rw [settle_heater, if_neg hd]) h

@[simp] theorem acts_settle (h : Acts w s x) : Acts w s (settle x) := acts_settleFrom _ h

@[simp] theorem acts_budgetChange (f : Budget → Budget) (hf : ∀ b, b.Sound → (f b).Sound) (hl : ∀ b, (f b).level = b.level)
    (hc : ∀ b, (f b).core = b.core) (hh : ∀ b, (f b).heater = b.heater) (h : Acts w s x) : Acts w s (budgetChange x f) :=
  acts_settleFrom _ (acts_onBudget _ (hf _) (hl _) (hc _) (hh _) h)

/-- A change of what the mullion heater's wish is decided from (R141, R142, R144). -/
theorem acts_budgetChange_wish (f : Budget → Budget) (hf : ∀ b, b.Sound → (f b).Sound) (hl : ∀ b, (f b).level = b.level)
    (hs : ∀ b, (f b).mullionMode = b.mullionMode ∧ (f b).asked = b.asked) (hh : ∀ b, (f b).heater = b.heater) (hw : 1 ≤ w)
    (h : Acts w s x) : Acts w s (budgetChange x f) :=
  acts_settleFrom _ (acts_onBudget_wish _ (hf _) (hl _) (hs _) (hh _) hw h)

@[simp] theorem unwish_heater (b : Budget) : b.unwish.heater = b.heater := by unfold Budget.unwish; split <;> rfl

theorem acts_wishChange (f : Budget → Budget) (hf : ∀ b, b.Sound → (f b).Sound) (hl : ∀ b, (f b).level = b.level)
    (hs : ∀ b, (f b).mullionMode = b.mullionMode ∧ (f b).asked = b.asked) (hh : ∀ b, (f b).heater = b.heater) (hw : 1 ≤ w)
    (h : Acts w s x) : Acts w s (wishChange x f) := by
  unfold wishChange
  split
  · exact acts_onBudget_wish _ (hf _) (hl _) (hs _) (hh _) hw h
  · refine acts_budgetChange_wish _ (fun b k => (hf b k).unwish) (fun b => by simp [hl]) (fun b => ?_)
      (fun b => by simp [hh]) hw h
    have := Budget.settings_of_core (Budget.unwish_core (f b))
    exact ⟨this.1.trans (hs b).1, this.2.trans (hs b).2⟩

/-- A report of a level that the compressor has come down to (R137). -/
theorem acts_reportLevel (l : Nat) (ht : LoadLaw x → x.arb.comp.top ≤ l ∧ l ≤ x.budget.level) (h : Acts w s x) :
    Acts w s (reportLevel x l) := by
  unfold reportLevel budgetChange
  split
  · exact h
  · exact acts_settleFrom _ (acts_onBudget' _ (fun k => k.1.lower (ht k).2) (fun k => (ht k).1) (Or.inr rfl)
      (Or.inr ⟨rfl, rfl⟩) rfl h)

theorem claimHeater_heater (b : Budget) : b.claimHeater.heater = .granted ∨ b.claimHeater.heater = .waiting := by
  unfold Budget.claimHeater
  split
  · exact Or.inl rfl
  · split
    · exact Or.inl rfl
    · exact Or.inr rfl

/-- A claim made while the heater is OFF, FREEZE is not fed, and its use allows it (R116, R182). -/
theorem acts_claimFor (u : HeaterUse) (ho : x.defrost.heater = .off)
    (hu : HeaterLaw x → x.arb.feedsFreeze = false ∧ ((u = .defrost ∧ x.defrost.phase = .heat ∧ x.arb.hold = true)
      ∨ (u = .service ∧ x.ctl.mode = .service))) (h : Acts w s x) : Acts w s (claimFor x u) := by
  have hu' : HeaterLaw x → x.arb.feedsFreeze = false
      ∧ ((some u = some HeaterUse.defrost ∧ x.defrost.phase = .heat ∧ x.arb.hold = true)
        ∨ (some u = some HeaterUse.service ∧ x.ctl.mode = .service)) := fun k => by
    obtain ⟨a, b⟩ := hu k
    exact ⟨a, b.imp (fun q => ⟨congrArg some q.1, q.2⟩) (fun q => ⟨congrArg some q.1, q.2⟩)⟩
  unfold claimFor heaterClaim
  split
  · rename_i hn
    refine acts_settleFrom _ ?_
    split
    · rename_i hg
      have e : airHeater (((x.onDefrost fun d => { d with heater := .claimed, use := some u }).onBudget
            Budget.claimHeater).onDefrost fun d => { d with heater := .on }) true
          = { x with budget := x.budget.claimHeater, air := ({ x.air with heaterOn := true } : AirPath).settle
                     defrost := { x.defrost with heater := .on, use := some u } } := rfl
      unfold heaterOn
      rw [e]
      exact acts_postDefrost (acts_heater (x := x) _ _ _ (Or.inr rfl) rfl (fun k => k.claimHeater hn) (by simp) (by simp)
        (fun k => heaterLaw_use k ⟨rfl, rfl, rfl⟩ hg (hu' k).1 (hu' k).2) h)
    · rename_i hg
      exact acts_heater (x := x) { x.defrost with heater := .claimed, use := some u } x.budget.claimHeater x.air
        (Or.inl ⟨rfl, by rw [ho]; rfl⟩) rfl (fun k => k.claimHeater hn) (by simp) (by simp)
        (fun k => heaterLaw_use k ⟨rfl, rfl, rfl⟩ ((claimHeater_heater _).resolve_left hg) (hu' k).1 (hu' k).2) h
  · rename_i hn
    exact acts_heater (x := x) { x.defrost with heater := .claimed, use := some u } x.budget x.air
      (Or.inl ⟨rfl, by rw [ho]; rfl⟩) rfl id rfl rfl (fun k => absurd (k.noClaim ho) hn) h

@[simp] theorem acts_heaterOff (h : Acts w s x) : Acts w s (heaterOff x) := by
  have none : x.budget.Sound → ({ x.budget with heater := .none_ } : Budget).Sound := fun k => k.noHeater
  unfold heaterOff
  dsimp only
  split
  · rename_i hd
    unfold heaterRelease
    split
    · exact acts_settleFrom _ (acts_heater (x := x) { x.defrost with heater := .off, use := Option.none }
        { x.budget with heater := .none_ } ({ x.air with heaterOn := false } : AirPath).settle (Or.inr rfl) rfl none rfl rfl
        (fun k => heaterLaw_off k ⟨rfl, rfl, rfl⟩ rfl rfl) h)
    · rename_i hn
      exact acts_heater (x := x) { x.defrost with heater := .off, use := Option.none } x.budget
        ({ x.air with heaterOn := false } : AirPath).settle (Or.inr rfl) rfl id rfl rfl
        (fun k => absurd (k.2.2.2.2.trans (by rw [hd]; rfl)) hn) h
  · rename_i hd
    unfold heaterCancel
    split
    · exact acts_settleFrom _ (acts_heater (x := x) { x.defrost with heater := .off, use := Option.none }
        { x.budget with heater := .none_ } x.air (Or.inl ⟨rfl, by rw [hd]; rfl⟩) rfl none rfl rfl
        (fun k => heaterLaw_off k ⟨rfl, rfl, rfl⟩ rfl rfl) h)
    · rename_i hn
      exact acts_heater (x := x) { x.defrost with heater := .off, use := Option.none } x.budget x.air
        (Or.inl ⟨rfl, by rw [hd]; rfl⟩) rfl id rfl rfl (fun k => absurd (k.2.2.2.2.trans (by rw [hd]; rfl)) hn) h
  · rename_i hd
    exact acts_heater (x := x) { x.defrost with heater := .off, use := Option.none } x.budget x.air
      (Or.inl ⟨rfl, by rw [hd]⟩) rfl id rfl rfl
      (fun k => heaterLaw_off k ⟨rfl, rfl, rfl⟩ rfl (k.noClaim hd)) h

/-! ### Compressor states -/

theorem staysDown_turning {c d : Compressor} (h : c.state.turning = true) (hf : d.failures = c.failures) : StaysDown w c d :=
  staysDown_of (fun k => by simp [k, CompState.turning] at h) (fun k => by simp [k, CompState.turning] at h) hf

/-- A change of the state of a compressor that runs or starts: to one that runs, or, with no level, to any that is off. -/
theorem acts_setComp (c : CompState) (hn : x.arb.comp.state.turning = true)
    (hc : c.running_ = true ∨ (c.turning = false ∧ x.arb.comp.level = 0 ∧ x.arb.comp.step = none)) (h : Acts w s x) :
    Acts w s (setComp x c) := by
  unfold setComp
  refine acts_airComp _ (acts_onComp _ (fun _ => ?_) (fun _ => le_refl _) (staysDown_turning hn rfl) (fun _ q => ?_)
    (fun q => absurd q (by simp [hn])) h)
  · exact hc.imp running_turning fun k => ⟨k.2.1, k.2.2⟩
  · rcases hc with hc | hc
    · exact q.elim (fun q => absurd q (by simp [hn])) fun q => Or.inr ⟨hc, q.2⟩
    · exact Or.inl hc.1

@[simp] theorem setComp_comp (c : CompState) : (setComp x c).arb.comp = { x.arb.comp with state := c } := rfl
@[simp] theorem setComp_budget (c : CompState) : (setComp x c).budget = x.budget := rfl

/-- The compressor going off (R40, R43, R45). -/
theorem acts_compOff (l : Bool) (hn : x.arb.comp.state.turning = true) (h : Acts w s x) : Acts w s (compOff x l) := by
  unfold compOff setComp
  have h1 : Acts w s (x.onComp fun c =>
      { (if l then { c.off with minOffLeft := 0, lockoutLeft := Config.lockoutTime }
        else { c.off with minOffLeft := x.arb.timing.minOff, lockoutLeft := 0 } : Compressor) with
        state := if l then .lockout else .offLocked }) := by
    refine acts_onComp _ (fun _ => Or.inr ?_) (fun _ => ?_) (staysDown_turning hn ?_) (fun _ _ => Or.inl ?_) (fun _ => ?_) h <;>
      cases l <;> simp [Compressor.off, Compressor.top, CompState.turning]
  refine acts_reportLevel 0 (fun _ => ⟨?_, Nat.zero_le _⟩) (acts_airComp _ h1)
  cases l <;> simp [Compressor.off, Compressor.top, airComp, airInput]

@[simp] theorem acts_compStop (h : Acts w s x) : Acts w s (compStop x) := by
  unfold compStop
  split
  · rename_i hc; exact acts_compOff _ hc h
  · exact h

/-- A start at OFF_READY with the valve at rest, at FRESH while the heater is in use (R39, R178). -/
theorem acts_compStart (hr : x.arb.comp.state = .offReady) {e : Evap} (hv : x.arb.valve = .resting e)
    (he : HeaterLaw x → x.defrost.heater ≠ .off → e = .fresh) (h : Acts w s x) : Acts w s (compStart x) := by
  have ho : x.arb.comp.state.turning = false := by simp [hr, CompState.turning]
  have h1 := acts_claimLevel 1 (by simp [Budget.grantsLevel]) (fun k => by
    rcases k.2.1 with hs | hs
    · simp [ho] at hs
    · simp [Compressor.top, hs.1, hs.2]) h
  have hv1 : (claimLevel x 1).arb.valve = .resting e := (claimLevel_valve 1).trans hv
  have h2 : Acts w s ((claimLevel x 1).onComp fun c =>
      { c with level := 1, startLeft := Config.startWindow, state := .starting }) := by
    refine .load (t := claimLevel x 1) _ _ h1 (fun k => ⟨k.1, Or.inl rfl, ?_⟩)
      (staysDown_of (by simp [hr]) (by simp [hr]) rfl) (Or.inr ⟨rfl, rfl⟩) (Or.inr ⟨rfl, rfl, rfl⟩) (fun k => ?_) (fun _ k => ?_)
    · have := k.2.2
      simp only [Compressor.top, claimLevel_comp, claimLevel_budget, Budget.claimLevel_level] at this ⊢
      omega
    · obtain ⟨k1, k2, k3, _, _⟩ := k
      refine ⟨k1, k2, k3, fun a b n q => ?_, fun n q => ?_⟩ <;> rw [hv1] at q <;> cases q
    · refine heaterLaw_arb k rfl rfl rfl rfl (fun a b => ⟨a, b⟩) (fun _ k => k) (fun hh _ => ?_)
      have q : HeaterLaw x := heaterLaw_congr k (by simp) (by simp) (by simp) (by simp) (by simp)
      simp only [claimLevel_defrost] at hh
      show (CompState.starting.turning && (claimLevel x 1).arb.valve.toward .freeze) = false
      rw [hv1, he q hh]; rfl
  exact acts_airComp .starting h2

end

end Sys2Proof.Machine
end

