-- ==== Sys2Proof/Laws/Settling.lean ====
section
/-! SUPPORT. What stands while the load settles, the heater is given up, and a zone changes its state. -/

namespace Sys2Proof.Machine

/-- What settling and the aim's evaluation leave as it is: the compressor's state, the valve, the grant, the hold and the
heater's use. -/
def Still (s t : State) : Prop := t.arb.comp.state = s.arb.comp.state ∧ t.arb.valve = s.arb.valve ∧ t.arb.grant = s.arb.grant ∧ t.arb.hold = s.arb.hold
  ∧ t.defrost.use = s.defrost.use

/-- The aim evaluated anew starts a step at most (R41). -/
theorem still_evalAim (s : State) : Still s (evalAim s) ∧ (evalAim s).defrost = s.defrost := by
  unfold evalAim stepDown beginStep claimLevel reportBudget
  split
  · split
    · exact ⟨⟨rfl, rfl, rfl, rfl, rfl⟩, rfl⟩
    · split
      · dsimp only; split <;> simp [Still]
      · split <;> simp [Still]
  · split <;> simp [Still]

/-- Settling switches a claimed heater on at most (R135). -/
theorem still_settleFrom (s : State) (b : Budget) : Still s (settleFrom s b)
    ∧ ((settleFrom s b).defrost.heater = s.defrost.heater ∨ (settleFrom s b).defrost.heater = .on) := by
  have hc : ∀ (x : State) (n : Nat), Still x (handCap x n) ∧ (handCap x n).defrost = x.defrost := by
    intro x n; unfold handCap; split
    · exact ⟨⟨rfl, rfl, rfl, rfl, rfl⟩, rfl⟩
    · exact ⟨⟨rfl, rfl, rfl, rfl, rfl⟩, rfl⟩
  have hr : ∀ (x : State), Still x (reportBudget b x) ∧ (reportBudget b x).defrost = x.defrost := by
    intro x; unfold reportBudget; split
    · exact ⟨⟨rfl, rfl, rfl, rfl, rfl⟩, rfl⟩
    · simp [Still]
  have tr : ∀ {a b c : State}, Still a b → Still b c → Still a c := fun h k =>
    ⟨k.1.trans h.1, k.2.1.trans h.2.1, k.2.2.1.trans h.2.2.1, k.2.2.2.1.trans h.2.2.2.1, k.2.2.2.2.trans h.2.2.2.2⟩
  unfold settleFrom
  dsimp only
  generalize hu : (if s.budget.settle1.settle2.heaterDue then heaterOn (s.onBudget Budget.settle) else s.onBudget Budget.settle) = u
  have hus : Still s u ∧ (u.defrost.heater = s.defrost.heater ∨ u.defrost.heater = .on) := by
    rw [← hu]
    split
    · simp [Still, heaterOn, postDefrost, airHeater, airInput]
    · exact ⟨⟨rfl, rfl, rfl, rfl, rfl⟩, Or.inl rfl⟩
  refine ⟨tr hus.1 (tr (hc _ _).1 (tr (hr _).1 (still_evalAim _).1)), ?_⟩
  rw [(still_evalAim _).2, (hr _).2, (hc _ _).2]
  exact hus.2

/-- A heater given up is OFF and serves no use (R117, R120). -/
theorem heaterOff_off (s : State) : (heaterOff s).defrost.heater = .off ∧ (heaterOff s).defrost.use = none := by
  have hb : ∀ (x : State) (f : Budget → Budget), (f x.budget).settle1.settle2.heaterDue = false → x.defrost.heater = .off → x.defrost.use = none →
      (budgetChange x f).defrost.heater = .off ∧ (budgetChange x f).defrost.use = none := by
    intro x f hf h1 h2
    unfold budgetChange
    have h5 := (still_settleFrom (x.onBudget f) x.budget).1.2.2.2.2
    refine ⟨?_, h5.trans h2⟩
    unfold settleFrom
    dsimp only
    rw [(still_evalAim _).2]
    have : (x.onBudget f).budget.settle1.settle2.heaterDue = false := hf
    rw [this]
    unfold reportBudget handCap
    simp only [Bool.false_eq_true, if_false]
    split <;> split <;> simp [h1]
  have nodue : ∀ b : Budget, ({ b with heater := .none_ } : Budget).settle1.settle2.heaterDue = false := by
    intro b
    have e : ∀ c : Budget, c.heater = .none_ → c.settle1.settle2.heater = .none_ := by
      intro c hc
      have : c.settle1.heater = .none_ := by unfold Budget.settle1 Budget.shed; split <;> (try split) <;> exact hc
      unfold Budget.settle2; split
      · split <;> exact this
      · exact this
    unfold Budget.heaterDue; rw [e _ rfl]; rfl
  unfold heaterOff
  dsimp only
  split
  · unfold heaterRelease
    split
    · exact hb _ _ (nodue _) (by simp [airHeater, airInput]) (by simp [airHeater, airInput])
    · simp [airHeater, airInput]
  · unfold heaterCancel
    split
    · exact hb _ _ (nodue _) (by simp) (by simp)
    · simp
  · simp

/-! ### Zones -/

@[simp] theorem enterState_arb (s : State) (z : ZoneId) (st : ZoneState) (c : ZoneCause) :
    (enterState s z st c).arb = s.arb := by
  simp [enterState, postZone, airZone, airInput]

@[simp] theorem enterState_budget (s : State) (z : ZoneId) (st : ZoneState) (c : ZoneCause) :
    (enterState s z st c).budget = s.budget := by
  simp [enterState, postZone, airZone, airInput]

@[simp] theorem enterState_ctl (s : State) (z : ZoneId) (st : ZoneState) (c : ZoneCause) :
    (enterState s z st c).ctl = s.ctl := by
  simp [enterState, postZone, airZone, airInput]

@[simp] theorem enterState_defrost (s : State) (z : ZoneId) (st : ZoneState) (c : ZoneCause) :
    (enterState s z st c).defrost = s.defrost := by
  simp [enterState, postZone, airZone, airInput]

@[simp] theorem noteClass_arb (s : State) : (noteClass s).arb = s.arb := rfl

@[simp] theorem noteClass_budget (s : State) : (noteClass s).budget = s.budget := rfl

@[simp] theorem noteClass_ctl (s : State) : (noteClass s).ctl = s.ctl := rfl

@[simp] theorem takeUpWork_arb (s : State) (z : ZoneId) (c : ZoneCause) : (takeUpWork s z c).arb = s.arb := by
  unfold takeUpWork; simp

@[simp] theorem zoneReleased_arb (s : State) (z : ZoneId) : (zoneReleased s z).arb = s.arb := by
  unfold zoneReleased; dsimp only; split <;> simp

theorem handGrant_arb (s : State) (r : Requester) : (handGrant s r).arb = s.arb := by
  cases r <;> simp only [handGrant, zoneGrant] <;> (try split) <;> simp

theorem handReturn_arb (s : State) (r : Requester) : (handReturn s r).arb = s.arb := by
  cases r <;> simp only [handReturn, zoneReturn] <;> (try split) <;> simp

theorem grants_arb (l : List Requester) (s : State) : (l.foldl handGrant s).arb = s.arb := by
  induction l generalizing s with
  | nil => rfl
  | cons r l ih => exact (ih _).trans (handGrant_arb s r)

theorem returns_arb (l : List Requester) (s : State) : (l.foldl handReturn s).arb = s.arb := by
  induction l generalizing s with
  | nil => rfl
  | cons r l ih => exact (ih _).trans (handReturn_arb s r)

end Sys2Proof.Machine
end

