-- ==== Sys2Proof/Laws/ArbiterLaw.lean ====
section
/-! SUPPORT. The changes of the request list, the grant and the valve that keep the law of the arbiter and of the heater. -/

namespace Sys2Proof.Machine

/-! ### The law of the arbiter -/

section
variable {a : Arbiter}

/-- The requesters of a set of members. -/
abbrev Grant.members (g : Grant) : List Requester := (g.selected ++ g.holders).map (·.requester)

theorem requesters_some {g : Grant} (h : a.grant = some g) : a.requesters = a.list.map (·.requester) ++ g.members := by
  unfold Arbiter.requesters; rw [h]; rfl

theorem requesters_none (h : a.grant = none) : a.requesters = a.list.map (·.requester) := by
  unfold Arbiter.requesters; rw [h]; exact List.append_nil _

/-- New lists with the laws of their own. -/
theorem arbLaw_lists {b : Arbiter} (h : ArbLaw a) (hc : b.comp = a.comp) (hv : b.valve = a.valve) (h1 : b.requesters.Nodup)
    (h2 : ∀ e ∈ b.list, e.evap = requesterEvap e.requester)
    (h3 : ∀ g ∈ b.grant, ∀ m ∈ g.selected ++ g.holders, requesterEvap m.requester = g.evap) : ArbLaw b :=
  ⟨h1, h2, h3, by rw [hc, hv]; exact h.2.2.2.1, by rw [hc, hv]; exact h.2.2.2.2⟩

/-- A grant of entries of the list for one evaporator (R30, R36). -/
theorem arbLaw_form (p : Entry → Bool) (e : Evap) (h : ArbLaw a) (hp : ∀ x, p x = true → x.evap = e) :
    ArbLaw { a with list := a.list.filter fun x => !p x
                    grant := some { evap := e, phase := .preparing, selected := (a.list.filter p).map Entry.member
                                    holders := [], activation := none, dwellStart := none } } := by
  refine arbLaw_lists h rfl rfl ?_ (fun x hx => h.2.1 x (List.mem_of_mem_filter hx)) ?_
  · rw [requesters_some rfl]
    have hn : (a.list.map (·.requester)).Nodup := (List.nodup_append.1 h.1).1
    have hm : ((a.list.filter p).map Entry.member).map (·.requester) = (a.list.filter p).map (·.requester) := by
      rw [List.map_map]; rfl
    simp only [Grant.members, List.append_nil]
    rw [hm, ← List.map_append]
    exact (((List.perm_append_comm).trans (List.filter_append_perm p a.list)).map (·.requester)).nodup_iff.2 hn
  · intro g hg m hm
    cases hg
    simp only [List.append_nil, List.mem_map, List.mem_filter] at hm
    obtain ⟨x, ⟨hx, hq⟩, rfl⟩ := hm
    exact (h.2.1 x hx).symm.trans (hp x hq)

/-- Members of the grant put back on the list (R36, R46). -/
theorem arbLaw_relist (ms : List Member) (now : Time) {g : Grant} (hg : a.grant = some g)
    (hs : ms.Sublist (g.selected ++ g.holders)) (h : ArbLaw a) :
    ArbLaw { a with list := a.list ++ ms.map fun m => m.entry now, grant := none } := by
  refine arbLaw_lists h rfl rfl ?_ (fun x hx => ?_) (fun g q => absurd q (by simp))
  · rw [requesters_none rfl]
    have hn := h.1
    rw [requesters_some hg] at hn
    have hm : (ms.map fun m => m.entry now).map (·.requester) = ms.map (·.requester) := by rw [List.map_map]; rfl
    rw [List.map_append, hm]
    exact hn.sublist ((List.Sublist.refl _).append (hs.map _))
  · rcases List.mem_append.1 hx with hx | hx
    · exact h.2.1 x hx
    · obtain ⟨m, _, rfl⟩ := List.mem_map.1 hx; rfl

/-- A grant with the same members in another order (R32, R45). -/
theorem arbLaw_perm {g k : Grant} (hg : a.grant = some g) (he : k.evap = g.evap)
    (hp : (k.selected ++ k.holders).Perm (g.selected ++ g.holders)) (h : ArbLaw a) : ArbLaw { a with grant := some k } := by
  refine arbLaw_lists h rfl rfl ?_ h.2.1 (fun q hq m hm => ?_)
  · have hn := h.1
    rw [requesters_some hg] at hn
    rw [requesters_some rfl]
    exact ((hp.map _).append_left _).nodup_iff.2 hn
  · cases hq
    exact (h.2.2.1 g hg m (hp.mem_iff.1 hm)).trans he.symm

/-- A list and a grant whose requesters are among the present ones, in their order (R28, R54). -/
theorem arbLaw_sub {b : Arbiter} (h : ArbLaw a) (hc : b.comp = a.comp) (hv : b.valve = a.valve)
    (hl : b.list.Sublist a.list) (hg : b.grant = none ∨ ∃ g k, a.grant = some g ∧ b.grant = some k ∧ k.evap = g.evap
      ∧ (k.selected ++ k.holders).Sublist (g.selected ++ g.holders)) : ArbLaw b := by
  refine arbLaw_lists h hc hv ?_ (fun x hx => h.2.1 x (hl.subset hx)) (fun q hq m hm => ?_)
  · rcases hg with hg | ⟨g, k, h1, h2, _, h4⟩
    · rw [requesters_none hg]
      exact (List.nodup_append.1 h.1).1.sublist (hl.map _)
    · have hn := h.1
      rw [requesters_some h1] at hn
      rw [requesters_some h2]
      exact hn.sublist ((hl.map _).append (h4.map _))
  · rcases hg with hg | ⟨g, k, h1, h2, h3, h4⟩
    · rw [hg] at hq; cases hq
    · rw [h2] at hq; cases hq
      exact (h.2.2.1 g h1 m (h4.subset hm)).trans h3.symm

/-- The same requesters, on the list and in the grant, with other classes and wishes (R26, R27). -/
theorem arbLaw_same {b : Arbiter} (h : ArbLaw a) (hc : b.comp = a.comp) (hv : b.valve = a.valve)
    (hl : b.list.map (fun e => (e.requester, e.evap)) = a.list.map fun e => (e.requester, e.evap))
    (hg : b.grant.map (fun g => (g.evap, g.members)) = a.grant.map fun g => (g.evap, g.members)) : ArbLaw b := by
  have hr : b.list.map (·.requester) = a.list.map (·.requester) := by
    have := congrArg (List.map Prod.fst) hl
    simpa [List.map_map, Function.comp_def] using this
  refine arbLaw_lists h hc hv ?_ (fun x hx => ?_) (fun q hq m hm => ?_)
  · have hn := h.1
    unfold Arbiter.requesters at hn ⊢
    have e : ∀ o : Option Grant, o.map (fun g => (g.selected ++ g.holders).map (·.requester))
        = (o.map fun g => (g.evap, g.members)).map Prod.snd := by intro o; cases o <;> rfl
    rw [hr, e, hg, ← e]; exact hn
  · have hm : (x.requester, x.evap) ∈ b.list.map fun e => (e.requester, e.evap) := List.mem_map.2 ⟨x, hx, rfl⟩
    rw [hl] at hm
    obtain ⟨y, hy, e⟩ := List.mem_map.1 hm
    simp only [Prod.mk.injEq] at e
    rw [← e.1, ← e.2]; exact h.2.1 y hy
  · simp only [Option.mem_def] at hq
    rw [hq] at hg
    cases hk : a.grant with
    | none => rw [hk] at hg; cases hg
    | some k =>
      rw [hk] at hg
      simp only [Option.map_some, Option.some.injEq, Prod.mk.injEq] at hg
      have hm2 : m.requester ∈ k.members := by rw [← hg.2]; exact List.mem_map.2 ⟨m, hm, rfl⟩
      obtain ⟨n, hn, e⟩ := List.mem_map.1 hm2
      rw [← e, hg.1]
      exact h.2.2.1 k hk n hn

/-- A new entry of a requester that has none and no place in the grant (R26). -/
theorem arbLaw_append (e : Entry) (he : e.evap = requesterEvap e.requester) (hn : e.requester ∉ a.requesters) (h : ArbLaw a) :
    ArbLaw { a with list := a.list ++ [e] } := by
  refine arbLaw_lists h rfl rfl ?_ (fun x hx => ?_) h.2.2.1
  · have hp : ({ a with list := a.list ++ [e] } : Arbiter).requesters.Perm (e.requester :: a.requesters) := by
      unfold Arbiter.requesters
      simp only [List.map_append, List.map_cons, List.map_nil, List.append_assoc]
      exact List.perm_middle
    exact hp.nodup_iff.2 (List.nodup_cons.2 ⟨hn, h.1⟩)
  · rcases List.mem_append.1 hx with hx | hx
    · exact h.2.1 x hx
    · rw [List.mem_singleton.1 hx]; exact he

/-- A new member of a grant for its evaporator (R27). -/
theorem arbLaw_join {g : Grant} (m : Member) (hg : a.grant = some g) (he : g.evap = requesterEvap m.requester)
    (hn : m.requester ∉ a.requesters) (h : ArbLaw a) : ArbLaw { a with grant := some (g.join m) } := by
  have hp : ((g.join m).selected ++ (g.join m).holders).Perm (m :: (g.selected ++ g.holders)) := by
    unfold Grant.join
    split
    · simp only [List.append_assoc, List.singleton_append]; exact List.perm_middle
    · rw [← List.append_assoc]; exact (List.perm_append_singleton m _)
  have hv : (g.join m).evap = g.evap := by unfold Grant.join; split <;> rfl
  rw [requesters_some hg] at hn
  have hd := h.1
  rw [requesters_some hg] at hd
  refine arbLaw_lists h rfl rfl ?_ h.2.1 (fun q hq k hk => ?_)
  · rw [requesters_some rfl]
    refine (((hp.map _).append_left _).trans ?_).nodup_iff.2 (List.nodup_cons.2 ⟨hn, hd⟩)
    simp only [List.map_cons]
    exact List.perm_middle
  · cases hq
    rw [hv]
    rcases List.mem_cons.1 (hp.mem_iff.1 hk) with rfl | hk
    · exact he.symm
    · exact h.2.2.1 g hg k hk

/-- A compressor that lets a valve move begin is off or at level 1 with no step (R50). -/
theorem slow_of_letsMove {c : Compressor} (h : c.letsMove = true) : c.slow := by
  unfold Compressor.letsMove at h
  unfold Compressor.slow
  cases hs : c.state <;> simp_all [CompState.turning, CompState.running_]

end

/-! ### The law of the heater -/

section
variable {x : State}

/-- A change of the list and the grant. -/
theorem heaterLaw_lists {b : Arbiter} (h : HeaterLaw x) (hc : b.comp = x.arb.comp) (hv : b.valve = x.arb.valve)
    (hh : b.hold = x.arb.hold) (hl : x.arb.list = [] → x.arb.grant = none → b.list = [] ∧ b.grant = none)
    (hg : x.arb.hold = true → (∀ g ∈ x.arb.grant, g.evap = .fresh) → ∀ g ∈ b.grant, g.evap = .fresh) :
    HeaterLaw { x with arb := b } :=
  heaterLaw_arb h rfl rfl rfl hh hl hg (fun _ k => by unfold Arbiter.feedsFreeze at k ⊢; rw [hc, hv]; exact k)

/-- While the heater is in use, a grant is for FRESH. -/
theorem HeaterLaw.granted {g : Grant} (h : HeaterLaw x) (hg : x.arb.grant = some g) (ho : x.defrost.heater ≠ .off) :
    g.evap = .fresh := by
  rcases (h.1 ho).2 with k | k
  · exact (h.2.1 k.2.2).2.2 g hg
  · have := (h.2.2.1 (by rw [k.2]; decide)).2.2
    rw [hg] at this; cases this

/-- A change of the Defrost Unit that leaves its heater, the use and the mode as they are. -/
theorem heaterLaw_defrost {d : Defrost} (h : HeaterLaw x)
    (hd : d.heater = x.defrost.heater ∧ d.use = x.defrost.use ∧ d.mode = x.defrost.mode)
    (h1 : x.defrost.heater ≠ .off → (x.defrost.use = some .defrost ∧ d.phase = .heat ∧ x.arb.hold = true)
      ∨ (x.defrost.use = some .service ∧ x.ctl.mode = .service))
    (h2 : x.arb.hold = true → d.hold = true ∧ (d.phase = .heat ∨ d.phase = .drip))
    (h3 : d.phase.working = true → x.ctl.mode = .run) : HeaterLaw { x with defrost := d } := by
  obtain ⟨d1, d2, d3⟩ := hd
  refine ⟨fun k => ?_, fun k => ⟨(h2 k).1, (h2 k).2, (h.2.1 k).2.2⟩, fun k => ⟨?_, (h.2.2.1 k).2⟩, d3.trans h.2.2.2.1, ?_⟩
  · have k' : x.defrost.heater ≠ .off := by rw [← d1]; exact k
    refine ⟨(h.1 k').1, ?_⟩
    show (d.use = some .defrost ∧ _) ∨ (d.use = some .service ∧ _)
    rw [d2]; exact h1 k'
  · cases hw : d.phase.working with
    | false => rfl
    | true => exact absurd (h3 hw) k
  · show x.budget.heater = d.heater.claim
    rw [d1]; exact h.2.2.2.2

end

end Sys2Proof.Machine
end

