-- ==== Sys2Proof/Laws/ActsArbiter.lean ====
section
/-! SUPPORT. The Cooling Arbiter's and the Defrost Unit's acts as chains of elementary acts. -/

namespace Sys2Proof.Machine

section
variable {w : Nat} {s x : State}

/-- An act of the compressor that leaves its state, level, step and off timers as they are, and below level 3 its count of
failures. -/
theorem acts_onComp_kept (f : Compressor → Compressor)
    (hf : ∀ c, (f c).state = c.state ∧ (f c).level = c.level ∧ (f c).step = c.step ∧ (f c).minOffLeft = c.minOffLeft
      ∧ (f c).lockoutLeft = c.lockoutLeft)
    (hn : 3 ≤ w ∨ ∀ c, (f c).failures = c.failures) (h : Acts w s x) : Acts w s (x.onComp f) :=
  acts_onComp f (by simp [Compressor.Sound, hf]) (by simp [Compressor.top, hf])
    (staysDown_same (hf _).1 (hf _).2.2.2.1 (hf _).2.2.2.2 (hn.imp id fun k => k _)) (by simp [Compressor.slow, hf]) (by simp [hf]) h

/-- Below level 2 the Defrost Unit's phase, credit, intervals and timers stand. -/
theorem Acts.below2 {t : State} (h : Acts w s t) (hw : w < 2) : t.defrost.core = s.defrost.core := by
  induction h with
  | refl => rfl
  | post k p _ _ ih => simpa using ih
  | unit a b r d _ u ih => exact (u.mid.resolve_left (by omega)).trans ih
  | rest z k f n _ _ _ _ ih => exact ih
  | stat y _ ih => exact ih
  | wide c n d p h1 => omega
  | space h1 => omega

/-- Below level 2 the phase and the Defrost Unit's hold stand. -/
theorem Acts.phase {t : State} (h : Acts w s t) (hw : w < 2) :
    t.defrost.phase = s.defrost.phase ∧ t.defrost.hold = s.defrost.hold ∧ t.defrost.mode = s.defrost.mode :=
  ⟨(congrArg Defrost.phase (h.below2 hw) :), (congrArg Defrost.hold (h.below2 hw) :), (congrArg Defrost.mode (h.below2 hw) :)⟩

/-- Below level 3 Mode Control stands. -/
theorem Acts.ctl {t : State} (h : Acts w s t) (hw : w < 3) : t.ctl = s.ctl := by
  induction h with
  | refl => rfl
  | post k p _ _ ih => simpa using ih
  | unit a b r d _ _ ih => exact ih
  | rest z k f n _ _ _ _ ih => exact ih
  | stat y _ ih => exact ih
  | wide c n d p h1 => omega
  | space h1 => omega

@[simp] theorem acts_handGrant (r : Requester) (h : Acts w s x) : Acts w s (handGrant x r) := by
  cases r <;> simp (maxDischargeDepth := 60) [handGrant, h]

@[simp] theorem acts_handReturn (r : Requester) (h : Acts w s x) : Acts w s (handReturn x r) := by
  cases r <;> simp (maxDischargeDepth := 60) [handReturn, h]

@[simp] theorem acts_grants (l : List Requester) (h : Acts w s x) : Acts w s (l.foldl handGrant x) :=
  acts_fold l handGrant (fun _ r k => acts_handGrant r k) h

@[simp] theorem acts_returns (l : List Requester) (h : Acts w s x) : Acts w s (l.foldl handReturn x) :=
  acts_fold l handReturn (fun _ r k => acts_handReturn r k) h

/-- A start asked for stands with the valve at rest, at FRESH while the heater is in use (R39, R178). -/
theorem startWanted_at (hs : startWanted x = true) :
    ∃ e, x.arb.valve = .resting e ∧ (HeaterLaw x → x.defrost.heater ≠ .off → e = .fresh) := by
  unfold startWanted at hs
  have at_ : ∀ e, x.arb.valve.at = some e → x.arb.valve = .resting e := by
    intro e he
    cases hv : x.arb.valve <;> rw [hv] at he <;> cases he; rfl
  cases hg : x.arb.grant with
  | some g =>
    simp only [hg, Bool.and_eq_true, beq_iff_eq] at hs
    exact ⟨g.evap, at_ _ hs.2, fun k ho => k.granted hg ho⟩
  | none =>
    simp only [hg, Bool.and_eq_true, Option.any_eq_true] at hs
    obtain ⟨_, e, he, hc⟩ := hs
    refine ⟨e, at_ _ he, fun _ ho => ?_⟩
    simpa [heatClear, ho] using hc

@[simp] theorem acts_tryStart (h : Acts w s x) : Acts w s (tryStart x) := by
  unfold tryStart
  split
  · rename_i hc
    obtain ⟨e, hv, he⟩ := startWanted_at hc.1
    exact acts_compStart hc.2.1 hv he h
  · exact h

/-- A move begun with the compressor off or at level 1, not toward FREEZE with a compressor that turns while the heater is in
use (R50, R116). -/
theorem acts_beginMove (e : Evap) (t : Attempt)
    (hs : ArbLaw x.arb → x.arb.comp.slow ∧ (t = .recovery → x.arb.comp.state.turning = false))
    (hh : ArbLaw x.arb → HeaterLaw x → x.defrost.heater ≠ .off → x.arb.feedsFreeze = false →
      e = .fresh ∨ x.arb.comp.state.turning = false) (h : Acts w s x) : Acts w s (beginMove x e t) := by
  refine acts_onArb_grant _ rfl rfl rfl (fun k => ?_) (fun a k => ?_) h
  · obtain ⟨h1, h2, h3, _, _⟩ := id k
    refine ⟨h1, h2, h3, fun e' t' n q => ?_, fun n q => absurd q (by simp)⟩
    cases q; exact hs k
  · refine heaterLaw_arb k rfl rfl rfl rfl (fun a b => ⟨a, b⟩) (fun _ q => q) (fun ho hf => ?_)
    unfold Arbiter.feedsFreeze
    rcases hh a k ho hf with rfl | q
    · simp [Valve.toward]
    · simp [q]

@[simp] theorem acts_tryMove (h : Acts w s x) : Acts w s (tryMove x) := by
  unfold tryMove
  split
  · rename_i e y hw hv
    split
    · rename_i hc
      refine acts_beginMove e .first (fun _ => ⟨slow_of_letsMove hc.2, by simp⟩) (fun _ k ho _ => ?_) h
      unfold valveWanted at hw
      cases hg : x.arb.grant with
      | some g =>
        simp only [hg] at hw
        split at hw
        · cases hw; exact Or.inl (k.granted hg ho)
        · cases hw
      | none =>
        simp only [hg] at hw
        split at hw
        · obtain ⟨_, hm⟩ := Option.filter_eq_some_iff.1 hw
          simpa [moveClear, heatClear, ho] using hm
        · cases hw
    · exact h
  · exact h

@[simp] theorem acts_activate (g : Grant) (hg : x.arb.grant = some g) (h : Acts w s x) : Acts w s (activate x g) := by
  unfold activate
  refine acts_grants _ (acts_onArb_grant _ rfl rfl rfl (fun k => arbLaw_perm hg rfl ?_ k) (fun _ k => ?_) h)
  · simpa [Grant.activate] using List.perm_append_comm
  · refine heaterLaw_lists k rfl rfl rfl (fun _ q => by rw [hg] at q; cases q) (fun _ q g' hg' => ?_)
    cases hg'; exact q g hg

@[simp] theorem acts_tryActivate (h : Acts w s x) : Acts w s (tryActivate x) := by
  unfold tryActivate
  split
  · rename_i g hg
    exact acts_ite _ (acts_activate g hg h) h
  · exact h

@[simp] theorem acts_leaveRunout (h : Acts w s x) : Acts w s (leaveRunout x) := by
  unfold leaveRunout
  split
  · rename_i hc
    exact acts_setComp _ (by simp [hc.2, CompState.turning]) (Or.inl rfl) h
  · exact h

@[simp] theorem acts_advance (h : Acts w s x) : Acts w s (advance x) := by
  unfold advance; simp (maxDischargeDepth := 60) [h]

/-- The end of a step that does not go above the level accounted (R41). -/
theorem acts_stepDone (l : Nat) (hl : x.arb.comp.Sound → x.arb.comp.state.turning = true) (ht : l ≤ x.arb.comp.top)
    (hs : x.arb.comp.step ≠ none) (h : Acts w s x) : Acts w s (stepDone x l) := by
  have k : Acts w s (x.onComp fun c => { c with level := l, step := none }) :=
    acts_onComp _ (fun q => Or.inl (hl q)) (fun _ => ?_) (staysDown_same rfl rfl rfl (Or.inr rfl))
      (fun _ q => q.imp id fun q => absurd q.2.2 hs) id h
  swap
  · simpa [Compressor.top] using ht
  unfold stepDone
  refine acts_advance (acts_ite _ (acts_reportLevel l (fun q => ⟨?_, ?_⟩) k) k)
  · simp [Compressor.top]
  · simpa [Compressor.top] using q.2.2

/-- A grant formed for an eligible entry of the list (R30). -/
theorem acts_formGrant {b : Entry} (hb : b ∈ x.arb.list) (he : x.arb.eligible b = true) (h : Acts w s x) :
    Acts w s (formGrant x b.evap) := by
  unfold formGrant
  refine acts_onArb_grant _ rfl rfl rfl (fun k => ?_) (fun _ k => ?_) h
  · exact arbLaw_form (fun y => x.arb.eligible y && y.evap == b.evap) b.evap k (by simp)
  · refine heaterLaw_lists k rfl rfl rfl (fun q => by rw [q] at hb; cases hb) (fun hh _ g hg => ?_)
    cases hg
    simp only [Arbiter.eligible, hh, Bool.true_and, Bool.and_eq_true, Bool.not_eq_true', beq_eq_false_iff_ne] at he
    show b.evap = .fresh
    cases hv : b.evap
    · rfl
    · exact absurd hv he.1.1

theorem bestEntry_mem {l : List Entry} {e : Entry} (h : bestEntry l = some e) : e ∈ l := by
  induction l generalizing e with
  | nil => cases h
  | cons a l ih =>
    unfold bestEntry at h
    split at h
    · rename_i b hb
      split at h
      · cases h; exact List.mem_cons_of_mem _ (ih hb)
      · cases h; exact List.mem_cons_self
    · cases h; exact List.mem_cons_self

/-- The entry that a selection would serve stands on the list and is eligible (R30). -/
theorem selectable_mem {e : Entry} (h : selectable x = some e) : e ∈ x.arb.list ∧ x.arb.eligible e = true := by
  unfold selectable at h
  split at h
  · exact List.mem_filter.1 (bestEntry_mem h)
  · cases h

@[simp] theorem acts_select (h : Acts w s x) : Acts w s (select x) := by
  unfold select
  split
  · rename_i e he
    obtain ⟨h1, h2⟩ := selectable_mem he
    exact acts_advance (acts_formGrant h1 h2 h)
  · exact h

@[simp] theorem acts_afterGrant (h : Acts w s x) : Acts w s (afterGrant x) := by
  have k : Acts w s (if x.arb.comp.state = .running then setComp x .runout else x) := by
    split
    · rename_i hc
      exact acts_setComp _ (by simp [hc, CompState.turning]) (Or.inl rfl) h
    · exact h
  unfold afterGrant
  exact acts_ite _ h (acts_ite _ (acts_select h) (acts_ite _ (acts_ite _ (acts_compStop h) (acts_evalAim k)) h))

/-- Members of the grant put back on the list (R36, R46). -/
theorem acts_relist (ms : List Member) {g : Grant} (hg : x.arb.grant = some g) (hs : ms.Sublist (g.selected ++ g.holders))
    (h : Acts w s x) : Acts w s (relist x ms) := by
  refine acts_onArb_grant _ rfl rfl rfl (fun k => arbLaw_relist ms _ hg hs k) (fun _ k => ?_) h
  exact heaterLaw_lists k rfl rfl rfl (fun _ q => by rw [hg] at q; cases q) (fun _ _ g' hg' => absurd hg' (by simp))

/-- A decided switch, for an eligible entry of the other evaporator (R36). -/
theorem acts_doSwitch {g : Grant} (hg : x.arb.grant = some g) {b : Entry} (hb : b ∈ x.arb.list) (he : x.arb.eligible b = true)
    (hv : b.evap = otherEvap g.evap) (h : Acts w s x) : Acts w s (doSwitch x g) := by
  have k := acts_returns (g.holders.map (·.requester)) (acts_relist g.holders hg (List.sublist_append_right _ _) h)
  have ha := returns_arb (g.holders.map (·.requester)) (relist x g.holders)
  unfold doSwitch
  rw [← hv]
  refine acts_advance (acts_formGrant ?_ ?_ k)
  · rw [ha]; exact List.mem_append_left _ hb
  · rw [ha]; exact he

@[simp] theorem acts_switchCheck (h : Acts w s x) : Acts w s (switchCheck x) := by
  unfold switchCheck
  split
  · rename_i g hg
    split
    · rename_i hs
      unfold Arbiter.switches at hs
      rw [hg] at hs
      simp only [Bool.and_eq_true, List.any_eq_true] at hs
      obtain ⟨_, b, hb, hc⟩ := hs
      simp only [Arbiter.ground, Bool.and_eq_true, beq_iff_eq] at hc
      exact acts_doSwitch hg hb hc.1.1 hc.1.2 h
    · exact h
  · exact h

@[simp] theorem acts_afterEntry (r : Requester) (c : Cls) (h : Acts w s x) : Acts w s (afterEntry x r c) := by
  unfold afterEntry; split <;> simp (maxDischargeDepth := 60) [h]

@[simp] theorem acts_postListed (e : Entry) (c : Cls) (l : Nat) (h : Acts w s x) : Acts w s (postListed x e c l) := by
  have k : Acts w s (x.onArb fun a =>
      { a with list := a.list.map fun x => if x.requester = e.requester then x.update c l else x }) := by
    refine acts_onArb_grant _ rfl rfl rfl (fun k => arbLaw_same k rfl rfl ?_ rfl) (fun _ k => ?_) h
    · rw [List.map_map]
      refine List.map_congr_left fun y _ => ?_
      simp only [Function.comp]
      split <;> rfl
    · exact heaterLaw_lists k rfl rfl rfl (fun a b => ⟨by simp [a], b⟩) (fun _ q => q)
  unfold postListed
  exact acts_ite _ (acts_afterEntry _ _ k) k

/-- A post of a requester with no entry and no place, in RUN (R26, R27). -/
theorem acts_postNew (r : Requester) (c : Cls) (l : Nat) (hr : r ∉ x.arb.requesters) (hm : x.ctl.mode = .run)
    (h : Acts w s x) : Acts w s (postNew x r c l) := by
  have run : HeaterLaw x → ∀ b : Arbiter, b.comp = x.arb.comp → b.valve = x.arb.valve → b.hold = x.arb.hold →
      (x.arb.hold = true → (∀ g ∈ x.arb.grant, g.evap = .fresh) → ∀ g ∈ b.grant, g.evap = .fresh) →
      HeaterLaw { x with arb := b } := by
    intro k b hc hv hh hg
    obtain ⟨h1, h2, _, h4, h5⟩ := k
    have hf : b.feedsFreeze = x.arb.feedsFreeze := by unfold Arbiter.feedsFreeze; rw [hc, hv]
    refine ⟨fun o => ?_, fun o => ?_, fun o => absurd hm o, h4, h5⟩
    · show b.feedsFreeze = false ∧ ((_ ∧ _ ∧ b.hold = true) ∨ _)
      rw [hf, hh]; exact h1 o
    · replace o : x.arb.hold = true := hh ▸ o
      exact ⟨(h2 o).1, (h2 o).2.1, hg o (h2 o).2.2⟩
  have ka : Acts w s (x.onArb fun a =>
      { a with list := a.list ++ [{ requester := r, evap := requesterEvap r, cls := c, wish := l, postedAt := x.uptime }] }) :=
    acts_onArb_grant _ rfl rfl rfl (fun k => arbLaw_append _ rfl hr k) (fun _ k => run k _ rfl rfl rfl (fun _ q => q)) h
  unfold postNew
  split
  · rename_i g hg
    split
    · rename_i he
      have kj : Acts w s (x.onArb fun a => { a with grant := some (g.join { requester := r, cls := c, wish := l }) }) := by
        refine acts_onArb_grant _ rfl rfl rfl (fun k => arbLaw_join _ hg he hr k) (fun _ k => run k _ rfl rfl rfl (fun _ q g' hg' => ?_)) h
        cases hg'
        rw [← q g hg]; unfold Grant.join; split <;> rfl
      exact acts_evalAim (acts_ite _ (acts_handGrant _ kj) kj)
    · exact acts_afterEntry _ _ ka
  · exact acts_afterEntry _ _ ka

@[simp] theorem acts_post (r : Requester) (c : Cls) (l : Nat) (h : Acts w s x) : Acts w s (post x r c l) := by
  unfold post
  split
  · exact h
  · rename_i hm
    replace hm : x.ctl.mode = .run := by simpa using hm
    split
    · exact acts_postListed _ _ _ h
    · rename_i hf
      have hl : r ∉ x.arb.list.map (·.requester) := by
        intro hr
        obtain ⟨e, he, rfl⟩ := List.mem_map.1 hr
        exact absurd (List.find?_eq_none.1 hf e he) (by simp)
      split
      · rename_i g hg
        have hk : g.has r = true ↔ r ∈ g.members := by
          simp [Grant.has, Grant.members, List.mem_map]
        split
        · refine acts_evalAim (acts_onArb_grant _ rfl rfl rfl (fun k => arbLaw_same k rfl rfl rfl ?_) (fun _ k => ?_) h)
          · have hu : ∀ ms : List Member, (updateMembers ms r c l).map (·.requester) = ms.map (·.requester) := by
              intro ms
              unfold updateMembers
              rw [List.map_map]
              refine List.map_congr_left fun y _ => ?_
              simp only [Function.comp]
              split <;> rfl
            simp [hg, Grant.members, hu]
          · refine heaterLaw_lists k rfl rfl rfl (fun _ q => by rw [hg] at q; cases q) (fun _ q g' hg' => ?_)
            cases hg'; exact q g hg
        · rename_i hn
          refine acts_postNew r c l (fun hr => ?_) hm h
          rw [requesters_some hg] at hr
          exact (List.mem_append.1 hr).elim hl fun q => hn (hk.2 q)
      · rename_i hg
        exact acts_postNew r c l (fun hr => by rw [requesters_none hg] at hr; exact hl hr) hm h

/-- Entries or members taken out of the list and the grant. -/
theorem acts_remove (f : Arbiter → Arbiter) (hf : (f x.arb).comp = x.arb.comp) (hv : (f x.arb).valve = x.arb.valve)
    (ht : (f x.arb).timing = x.arb.timing) (hc : (f x.arb).core = x.arb.core) (hl : (f x.arb).list.Sublist x.arb.list)
    (hg : (f x.arb).grant = none ∨ ∃ g k, x.arb.grant = some g ∧ (f x.arb).grant = some k ∧ k.evap = g.evap
      ∧ (k.selected ++ k.holders).Sublist (g.selected ++ g.holders)) (h : Acts w s x) : Acts w s (x.onArb f) := by
  refine acts_onArb_grant f hf ht hc (fun k => arbLaw_sub k hf hv hl hg) (fun _ k => ?_) h
  refine heaterLaw_lists k hf hv (congrArg (fun q => q.2.2.2.2.1) hc :) (fun a b => ⟨?_, ?_⟩) (fun _ q g' hg' => ?_)
  · exact List.sublist_nil.1 (a ▸ hl)
  · rcases hg with hg | ⟨g, k, h1, _⟩
    · exact hg
    · rw [b] at h1; cases h1
  · rcases hg with hg | ⟨g, k, h1, h2, h3, _⟩
    · rw [hg] at hg'; cases hg'
    · rw [h2] at hg'; cases hg'
      exact h3.trans (q g h1)

@[simp] theorem acts_withdraw (r : Requester) (h : Acts w s x) : Acts w s (withdraw x r) := by
  have hl : (x.arb.list.filter fun e => e.requester != r).Sublist x.arb.list := List.filter_sublist
  have k : Acts w s (x.onArb fun a => { a with list := a.list.filter fun e => e.requester != r }) := by
    refine acts_remove _ rfl rfl rfl rfl hl ?_ h
    cases hg : x.arb.grant with
    | none => exact Or.inl rfl
    | some g => exact Or.inr ⟨g, g, rfl, rfl, rfl, List.Sublist.refl _⟩
  unfold withdraw
  split
  · rename_i g hg
    split
    · split
      · exact acts_afterGrant (acts_remove _ rfl rfl rfl rfl (List.Sublist.refl _) (Or.inl rfl) k)
      · exact acts_evalAim (acts_remove _ rfl rfl rfl rfl (List.Sublist.refl _)
          (Or.inr ⟨g, g.without r, hg, rfl, rfl, List.filter_sublist.append List.filter_sublist⟩) k)
    · exact k
  · exact k

@[simp] theorem acts_dissolve (h : Acts w s x) : Acts w s (dissolve x) := by
  unfold dissolve
  split
  · rename_i g hg
    exact acts_returns _ (acts_relist _ hg (List.Sublist.refl _) h)
  · exact h

@[simp] theorem acts_unserve (h : Acts w s x) : Acts w s (unserve x) := by
  unfold unserve
  split
  · rename_i g hg
    split
    · refine acts_returns _ (acts_onArb_grant _ rfl rfl rfl (fun k => arbLaw_perm hg rfl ?_ k) (fun _ k => ?_) h)
      · simp [Grant.prepare]
      · refine heaterLaw_lists k rfl rfl rfl (fun _ q => by rw [hg] at q; cases q) (fun _ q g' hg' => ?_)
        cases hg'; exact q g hg
    · exact h
  · exact h

@[simp] theorem acts_enterLockout (h : Acts w s x) : Acts w s (enterLockout x) := by
  unfold enterLockout; simp (maxDischargeDepth := 60) [h]

/-- A failure (R40, R45), but for its count: acts that turn the compressor off and declare the fault, the count raised by
one, and acts that follow. -/
theorem compFail_count (s : State) (c : FaultCode) (hn : s.arb.comp.state.turning = true) : ∃ y, Acts 1 s y
    ∧ Acts 0 (y.onComp fun k => { k with failures := k.failures + 1 }) (compFail s c) := by
  have k : Acts 1 s (compOff (s.onArb fun a => { a with forcedLevel := none }) (decide (3 ≤ s.arb.comp.failures + 1))) :=
    acts_compOff _ hn (acts_onArb _ (fun _ => rfl) (fun _ => rfl) (fun _ => rfl) (le_refl 1) .refl)
  refine ⟨_, acts_declareFault c .compressor none k, ?_⟩
  unfold compFail
  dsimp only
  split
  · exact acts_enterLockout .refl
  · exact acts_tryMove (acts_select .refl)

/-- A failure (R40, R45). -/
theorem acts_compFail (c : FaultCode) (hn : x.arb.comp.state.turning = true) (hw : 3 ≤ w) (h : Acts w s x) :
    Acts w s (compFail x c) := by
  obtain ⟨y, h1, h2⟩ := compFail_count x c hn
  have h3 : Acts w y (y.onComp fun k => { k with failures := k.failures + 1 }) :=
    acts_onComp_kept _ (fun _ => ⟨rfl, rfl, rfl, rfl, rfl⟩) (Or.inl hw) .refl
  exact (h.trans (h1.widen (by omega))).trans (h3.trans (h2.widen (by omega)))

/-- LOCKOUT's end (R47). -/
theorem acts_leaveLockout (hl : x.arb.comp.state = .lockout) (hw : 3 ≤ w) (h : Acts w s x) : Acts w s (leaveLockout x) := by
  have down : ∀ {c d : Compressor}, c.state = .lockout → StaysDown w c d :=
    fun e => ⟨fun q => by simp [e] at q, Or.inl hw⟩
  have k : Acts w s (x.onComp fun c => { c with failures := 0, lockoutLeft := 0, minOffLeft := x.arb.timing.minOff }) :=
    acts_onComp _ (fun q => q) (fun _ => le_refl _) (down hl) (fun _ q => q) (fun q => q) h
  unfold leaveLockout setComp
  refine acts_airComp _ (acts_onComp _ (fun q => ?_) (fun _ => le_refl _) (down (by simpa using hl)) (fun _ _ => Or.inl rfl)
    (fun _ => rfl) (acts_endFault _ _ k))
  exact Or.inr (by simpa using q.resolve_left (by simp [hl, CompState.turning]))

@[simp] theorem acts_stopHot (hw : 1 ≤ w) (h : Acts w s x) : Acts w s (stopHot x) := by
  unfold stopHot; simp (maxDischargeDepth := 60) [hw, h]

@[simp] theorem acts_dischargeResult (p : Band) (hw : 1 ≤ w) (h : Acts w s x) : Acts w s (dischargeResult x p) := by
  cases p <;> simp (maxDischargeDepth := 60) [dischargeResult, hw, h]

@[simp] theorem acts_dischargeFault (hw : 1 ≤ w) (h : Acts w s x) : Acts w s (dischargeFault x) := by
  unfold dischargeFault; simp (maxDischargeDepth := 60) [hw, h]

@[simp] theorem acts_dischargeRecover (hw : 1 ≤ w) (h : Acts w s x) : Acts w s (dischargeRecover x) := by
  unfold dischargeRecover; simp (maxDischargeDepth := 60) [hw, h]

@[simp] theorem acts_afterArrival (h : Acts w s x) : Acts w s (afterArrival x) := by
  unfold afterArrival; simp (maxDischargeDepth := 60) [h]

/-- A valve at rest where its move led keeps the laws (R50). -/
theorem acts_resting {e : Evap} {t : Attempt} {n : Nat} (hv : x.arb.valve = .moving e t n) (h : Acts w s x) :
    Acts w s (x.onArb fun a => { a with valve := .resting e }) := by
  refine acts_onArb_grant _ rfl rfl rfl (fun k => ?_) (fun _ k => ?_) h
  · obtain ⟨h1, h2, h3, _, _⟩ := k
    exact ⟨h1, h2, h3, fun _ _ _ q => absurd q (by simp), fun _ q => absurd q (by simp)⟩
  · refine heaterLaw_arb k rfl rfl rfl rfl (fun a b => ⟨a, b⟩) (fun _ q => q) (fun _ q => ?_)
    unfold Arbiter.feedsFreeze at q ⊢
    rw [hv] at q; exact q

theorem acts_valveArrive {e : Evap} {t : Attempt} {n : Nat} (hv : x.arb.valve = .moving e t n) (h : Acts w s x) :
    Acts w s (valveArrive x e) := acts_afterArrival (acts_endFault _ _ (acts_resting hv h))

/-- A valve that becomes STUCK with the compressor off (R52, R53). -/
theorem acts_stuck (n : Nat) (ho : ArbLaw x.arb → x.arb.comp.state.turning = false) (h : Acts w s x) :
    Acts w s (x.onArb fun a => { a with valve := .stuck n }) := by
  refine acts_onArb_grant _ rfl rfl rfl (fun k => ?_) (fun _ k => ?_) h
  · obtain ⟨h1, h2, h3, _, _⟩ := id k
    exact ⟨h1, h2, h3, fun _ _ _ q => absurd q (by simp), fun _ _ => ho k⟩
  · refine heaterLaw_arb k rfl rfl rfl rfl (fun a b => ⟨a, b⟩) (fun _ q => q) (fun _ _ => ?_)
    simp [Arbiter.feedsFreeze, Valve.toward]

/-- After a stop the compressor is off (R43). -/
theorem compStop_turning (s : State) : (compStop s).arb.comp.state.turning = false := by
  have key : ∀ (x : State) (l : Nat), x.arb.comp.state.turning = false → (reportLevel x l).arb.comp.state.turning = false := by
    intro x l hx
    unfold reportLevel budgetChange
    split
    · exact hx
    · rw [(still_settleFrom _ _).1.1]; exact hx
  unfold compStop
  split
  · exact key _ _ rfl
  · rename_i h; simpa using h

@[simp] theorem acts_valveStuck (hw : 1 ≤ w) (h : Acts w s x) : Acts w s (valveStuck x) := by
  unfold valveStuck
  exact acts_dissolve (acts_stuck _ (fun _ => compStop_turning _) (acts_compStop (acts_declareFault _ _ _
    (acts_onArb _ (fun _ => rfl) (fun _ => rfl) (fun _ => rfl) hw h))))

theorem acts_valveMiss {e : Evap} {t : Attempt} {n : Nat} (hv : x.arb.valve = .moving e t n) (hw : 1 ≤ w) (h : Acts w s x) :
    Acts w s (valveMiss x e t) := by
  cases t
  · refine acts_beginMove e .second (fun k => ⟨(k.2.2.2.1 _ _ _ hv).1, by simp⟩) (fun _ _ _ q => ?_) h
    unfold Arbiter.feedsFreeze at q
    rw [hv] at q
    cases e
    · exact Or.inl rfl
    · right; simpa [Valve.toward] using q
  · exact acts_valveStuck hw h
  · exact acts_stuck _ (fun k => (k.2.2.2.1 _ _ _ hv).2 rfl) h

@[simp] theorem acts_valveRecover (h : Acts w s x) : Acts w s (valveRecover x) := by
  unfold valveRecover
  split
  · rename_i hs
    have ho : ArbLaw x.arb → x.arb.comp.state.turning = false := fun k => by
      cases hv : x.arb.valve with
      | stuck n => exact k.2.2.2.2 n hv
      | resting e => rw [hv] at hs; cases hs
      | moving e t n => rw [hv] at hs; cases hs
    exact acts_beginMove _ _ (fun k => ⟨Or.inl (ho k), fun _ => ho k⟩) (fun a _ _ _ => Or.inr (ho a)) h
  · exact h

theorem acts_defrostNotFed (hf : x.arb.feedsFreeze = false ∧ x.arb.hold = true) (h : Acts w s x) :
    Acts w s (defrostNotFed x) := by
  unfold defrostNotFed
  split
  · rename_i hc
    exact acts_claimFor _ hc.2 (fun _ => ⟨hf.1, Or.inl ⟨rfl, hc.1, hf.2⟩⟩) h
  · exact h

@[simp] theorem acts_reportNotFed (h : Acts w s x) : Acts w s (reportNotFed x) := by
  unfold reportNotFed
  split
  · rename_i hc
    have hf : x.arb.feedsFreeze = false := by simpa using hc.2.2
    exact acts_defrostNotFed ⟨hf, hc.1⟩ (acts_onArb_free _ (fun _ => rfl) (fun _ => rfl) (fun _ => rfl) h)
  · exact h

@[simp] theorem acts_feedingCheck (h : Acts w s x) : Acts w s (feedingCheck x) := by
  unfold feedingCheck; simp (maxDischargeDepth := 60) [h]

@[simp] theorem acts_dropFreeze (h : Acts w s x) : Acts w s (dropFreeze x) := by
  unfold dropFreeze
  exact acts_ite _ (acts_remove _ rfl rfl rfl rfl (List.Sublist.refl _) (Or.inl rfl) h) h

/-- After the hold has dropped a FREEZE grant, a grant is for FRESH (R54). -/
theorem dropFreeze_fresh (s : State) : ∀ g ∈ (dropFreeze s).arb.grant, g.evap = .fresh := by
  unfold dropFreeze
  split
  · intro g hg; cases hg
  · rename_i hn
    intro g hg
    simp only [Option.mem_def] at hg
    rw [hg] at hn
    cases he : g.evap
    · rfl
    · simp [he] at hn

/-- A hold requested in HEAT (R54, R115). -/
theorem acts_holdRequest (hp : x.defrost.hold = true ∧ x.defrost.phase = .heat) (hw : 1 ≤ w) (h : Acts w s x) :
    Acts w s (holdRequest x) := by
  have hd : (dropFreeze x).defrost = x.defrost := by unfold dropFreeze; split <;> rfl
  have k : Acts w s ((dropFreeze x).onArb fun a =>
      { a with hold := true, notFed := false
               list := a.list.filter fun e => e.requester != .freezer && e.requester != .drawer }) := by
    refine .load (t := dropFreeze x) _ _ (acts_dropFreeze h) (loadLaw_arb rfl) (staysDown_rfl _) (Or.inl hw)
      (Or.inr ⟨rfl, rfl, rfl⟩) (fun k => arbLaw_sub k rfl rfl List.filter_sublist ?_) (fun _ k => ?_)
    · cases hg : (dropFreeze x).arb.grant with
      | none => exact Or.inl rfl
      | some g => exact Or.inr ⟨g, g, rfl, rfl, rfl, List.Sublist.refl _⟩
    · obtain ⟨h1, h2, h3, h4, h5⟩ := k
      refine ⟨fun o => ⟨(h1 o).1, (h1 o).2.imp (fun q => ⟨q.1, q.2.1, rfl⟩) id⟩,
        fun _ => ⟨by rw [hd]; exact hp.1, Or.inl (by rw [hd]; exact hp.2), dropFreeze_fresh x⟩, fun m => ?_, h4, h5⟩
      obtain ⟨m1, m2, m3⟩ := h3 m
      exact ⟨m1, by simp [m2], m3⟩
  unfold holdRequest
  split
  · exact h
  · have k2 := acts_feedingCheck (acts_zoneHeld .drawer hw (acts_zoneHeld .freezer hw k))
    exact acts_ite _ (acts_afterGrant k2) k2

/-- A hold released with the heater OFF (R56). -/
theorem acts_holdRelease (ho : HeaterLaw x → x.defrost.heater = .off) (hw : 1 ≤ w) (h : Acts w s x) :
    Acts w s (holdRelease x) := by
  have k : Acts w s (x.onArb fun a => { a with hold := false }) :=
    .load _ _ h (loadLaw_arb rfl) (staysDown_rfl _) (Or.inl hw) (Or.inr ⟨rfl, rfl, rfl⟩) (arbLaw_congr rfl).2 fun _ k =>
      ⟨fun q => absurd (ho k) q, fun q => absurd q (by simp), k.2.2.1, k.2.2.2⟩
  unfold holdRelease
  exact acts_ite _ (acts_select (acts_zoneReleased _ hw (acts_zoneReleased _ hw k))) h

/-- The release of the hold leaves the Defrost Unit's core (R56). -/
theorem holdRelease_core (s : State) : (holdRelease s).defrost.core = s.defrost.core := by
  unfold holdRelease
  split
  · exact (acts_select (acts_zoneReleased .drawer (le_refl 1) (acts_zoneReleased .freezer (le_refl 1)
      (Acts.refl (w := 1) (s := s.onArb fun a => { a with hold := false }))))).below2 (by omega)
  · rfl

/-- The Defrost Unit's hold given up with the heater OFF (R122, R129). -/
theorem acts_dropHold (ho : HeaterLaw x → x.defrost.heater = .off) (hw : 2 ≤ w) (h : Acts w s x) :
    Acts w s (holdRelease (x.onDefrost fun d => { d with hold := false })) := by
  have h1 : 1 ≤ w := by omega
  have off : ∀ a : Arbiter, a.seat = x.arb.seat → a.hold = false → HeaterLaw x →
      HeaterLaw { x with arb := a, defrost := { x.defrost with hold := false } } := by
    intro a hs hh k
    simp only [Arbiter.seat, Prod.mk.injEq] at hs
    refine ⟨fun q => absurd (ho k) q, fun q => absurd (hh.symm.trans q) (by simp), fun q => ?_, k.2.2.2⟩
    obtain ⟨q1, q2, q3⟩ := k.2.2.1 q
    exact ⟨q1, hs.1.trans q2, hs.2.1.trans q3⟩
  unfold holdRelease
  split
  · have k : Acts w s ((x.onDefrost fun d => { d with hold := false }).onArb fun a => { a with hold := false }) :=
      .unit (t := x) { x.arb with hold := false } x.budget x.air { x.defrost with hold := false } h ⟨loadLaw_arb rfl, staysDown_rfl _,
        fun k => k, ⟨rfl, rfl, rfl, rfl⟩, Or.inl rfl, Or.inl h1, Or.inl hw, Or.inr ⟨rfl, rfl, rfl, rfl, id⟩, (arbLaw_congr rfl).2,
        fun _ => off _ rfl rfl⟩
    exact acts_select (acts_zoneReleased _ h1 (acts_zoneReleased _ h1 k))
  · rename_i hh
    exact acts_onDefrost_phase _ (fun _ => rfl) (fun _ => rfl) (off x.arb rfl (by simpa using hh)) hw h

@[simp] theorem acts_arbLeaveRun (h : Acts w s x) : Acts w s (arbLeaveRun x) :=
  acts_compStop (acts_remove _ rfl rfl rfl rfl (List.nil_sublist _) (Or.inl rfl) h)

@[simp] theorem acts_arbLeaveService (hw : 1 ≤ w) (h : Acts w s x) : Acts w s (arbLeaveService x) := by
  unfold arbLeaveService; simp (maxDischargeDepth := 60) [hw, h]

/-- Run feedback in STARTING (R39). -/
theorem acts_startSuccess (hs : x.arb.comp.state = .starting) (h : Acts w s x) : Acts w s (startSuccess x) := by
  have k : Acts w s (x.onComp fun c => { c with runStart := x.uptime, startLeft := 0 }) :=
    acts_onComp_kept _ (by simp) (Or.inr fun _ => rfl) h
  unfold startSuccess
  exact acts_afterArrival (acts_inject _ (acts_endFault _ _ (acts_endFault _ _
    (acts_setComp _ (by simp [hs, CompState.turning]) (Or.inl rfl) k))))

end

end Sys2Proof.Machine
end

