-- ==== Sys2Proof/Laws/ActsDefrost.lean ====
section
/-! SUPPORT. The Defrost Unit's acts as chains of elementary acts. -/

namespace Sys2Proof.Machine

section
variable {w : Nat} {s x : State}

/-! ### The Defrost Unit -/

@[simp] theorem acts_defrostBounds (h : Acts w s x) : Acts w s (defrostBounds x) := by
  unfold defrostBounds; simp (maxDischargeDepth := 60) [h]

/-- A phase of a DUE defrost in RUN (R110, R112). -/
theorem heaterLaw_from {d : Defrost} (h : HeaterLaw x) (hp : x.defrost.phase ≠ .heat ∧ x.defrost.phase ≠ .drip)
    (hd : d.heater = x.defrost.heater ∧ d.use = x.defrost.use ∧ d.mode = x.defrost.mode)
    (h3 : d.phase.working = true → x.ctl.mode = .run) : HeaterLaw { x with defrost := d } :=
  heaterLaw_defrost h hd (fun k => (h.1 k).2.imp (fun q => absurd q.2.1 hp.1) id)
    (fun k => ((h.2.1 k).2.1.elim (fun q => absurd q hp.1) fun q => absurd q hp.2)) h3

theorem acts_enterPrechill (hp : x.defrost.phase = .due ∧ x.defrost.mode = .run) (hw : 2 ≤ w) (h : Acts w s x) :
    Acts w s (enterPrechill x) := by
  refine acts_postDefrost (acts_post _ _ _ (acts_onDefrost_phase _ (fun _ => rfl) (fun _ => rfl) (fun k => ?_) hw h))
  exact heaterLaw_from k (by simp [hp.1]) ⟨rfl, rfl, rfl⟩ (fun _ => k.2.2.2.1.symm.trans hp.2)

@[simp] theorem acts_evaluate (hw : 2 ≤ w) (h : Acts w s x) : Acts w s (evaluate x) := by
  unfold evaluate
  split
  · rename_i hc
    have hs := hc.2
    simp only [Defrost.startOk, Bool.and_eq_true, beq_iff_eq] at hs
    exact acts_enterPrechill ⟨hc.1, hs.1.1.1⟩ hw h
  · exact h

@[simp] theorem acts_dueTest (hw : 2 ≤ w) (h : Acts w s x) : Acts w s (dueTest x) := by
  unfold dueTest
  split
  · rename_i hc
    refine acts_evaluate hw (acts_postDefrost (acts_onDefrost_phase _ (fun _ => rfl) (fun _ => rfl) (fun k => ?_) hw h))
    exact heaterLaw_from k (by simp [hc.1]) ⟨rfl, rfl, rfl⟩ (fun q => absurd q (by simp [Phase.working]))
  · exact h

@[simp] theorem acts_addCredit (n : Nat) (hw : 2 ≤ w) (h : Acts w s x) : Acts w s (addCredit x n) := by
  unfold addCredit; simp (maxDischargeDepth := 60) [hw, h]

/-- HEAT entered from DUE in RUN, or from PRECHILL (R111, R113 to R115). -/
theorem acts_heatEntry (hp : (x.defrost.phase = .due ∧ x.defrost.mode = .run) ∨ x.defrost.phase = .prechill) (hw : 2 ≤ w)
    (h : Acts w s x) : Acts w s (heatEntry x) := by
  have h1 : 1 ≤ w := by omega
  have kt : Acts w s (x.onDefrost fun d =>
      { d with phase := .heat, credit := 0, probeLost := d.probeFaulted, heatClock := some 0 }) := by
    refine acts_onDefrost_phase _ (fun _ => rfl) (fun _ => rfl) (fun k => ?_) hw h
    refine heaterLaw_from k (by rcases hp with hp | hp <;> simp [hp]) ⟨rfl, rfl, rfl⟩ (fun _ => ?_)
    rcases hp with hp | hp
    · exact k.2.2.2.1.symm.trans hp.2
    · exact k.run (by simp [hp, Phase.working])
  have ku := acts_onDefrost_phase (fun d => { d with hold := true }) (fun _ => rfl) (fun _ => rfl)
    (fun k => ⟨k.1, fun q => ⟨rfl, (k.2.1 q).2⟩, k.2.2⟩) hw (acts_airPermit false h1 (acts_defrostBounds kt))
  unfold heatEntry
  refine acts_postDefrost (acts_queueDefrost (acts_onDefrost _ (fun _ => rfl) (fun _ => rfl) hw (acts_holdRequest ⟨rfl, ?_⟩ h1 ku)))
  rfl

@[simp] theorem acts_defrostWithdraw (h : Acts w s x) : Acts w s (defrostWithdraw x) := by
  unfold defrostWithdraw; simp (maxDischargeDepth := 60) [h]

/-- HEAT ended (R118, R120). -/
theorem acts_heatEnd (c : HeatCause) (hp : x.defrost.phase = .heat) (hw : 2 ≤ w) (h : Acts w s x) :
    Acts w s (heatEnd x c) := by
  have k2 := acts_heaterOff h
  have kp := ((acts_heaterOff (w := 0) (Acts.refl (s := x))).phase (by omega)).1.trans hp
  refine acts_postDefrost (acts_onDefrost_phase _ (fun _ => rfl) (fun _ => rfl) (fun k => ?_) hw k2)
  exact heaterLaw_defrost k ⟨rfl, rfl, rfl⟩ (fun q => absurd (heaterOff_off x).1 q) (fun q => ⟨(k.2.1 q).1, Or.inr rfl⟩)
    (fun _ => k.run (by rw [kp]; rfl))

/-- IDLE entered with no hold standing (R124). -/
theorem acts_becomeIdle (hh : HeaterLaw x → x.arb.hold = false) (hw : 2 ≤ w) (h : Acts w s x) : Acts w s (becomeIdle x) := by
  unfold becomeIdle
  refine acts_dueTest hw (acts_endFault _ _ (acts_postDefrost (acts_onDefrost_phase _ (fun _ => rfl) (fun _ => rfl)
    (fun k => ?_) hw h)))
  have e := hh k
  exact heaterLaw_defrost k ⟨rfl, rfl, rfl⟩ (fun q => (k.1 q).2.imp (fun r => absurd (e.symm.trans r.2.2) (by simp)) id)
    (fun q => absurd (e.symm.trans q) (by simp)) (fun q => absurd q (by simp [Phase.working]))

/-- A phase without the hold. -/
theorem HeaterLaw.noHold (h : HeaterLaw x) (hp : x.defrost.hold = false ∨ (x.defrost.phase ≠ .heat ∧ x.defrost.phase ≠ .drip)) :
    x.arb.hold = false := by
  cases hh : x.arb.hold with
  | false => rfl
  | true =>
    obtain ⟨h1, h2, _⟩ := h.2.1 hh
    rcases hp with hp | hp
    · rw [hp] at h1; exact absurd h1 (by simp)
    · exact absurd h2 (by simp [hp.1, hp.2])

theorem acts_dripEnd (hp : x.defrost.phase = .drip) (hw : 2 ≤ w) (h : Acts w s x) : Acts w s (dripEnd x) := by
  have k := acts_dropHold (fun k => k.off_of_phase (by simp [hp]) (Or.inl (by simp [hp, Phase.working]))) hw h
  have p1 : (holdRelease (x.onDefrost fun d => { d with hold := false })).defrost.phase = x.defrost.phase :=
    (congrArg Defrost.phase (holdRelease_core _) :)
  have p2 : (holdRelease (x.onDefrost fun d => { d with hold := false })).defrost.hold = false :=
    (congrArg Defrost.hold (holdRelease_core _) :)
  unfold dripEnd
  refine acts_postDefrost (acts_defrostBounds (acts_onDefrost_phase _ (fun _ => rfl) (fun _ => rfl) (fun k => ?_) hw k))
  refine heaterLaw_defrost k ⟨rfl, rfl, rfl⟩ (fun q => (k.1 q).2.imp (fun r => ?_) id)
    (fun q => ?_) (fun _ => k.run (by rw [p1]; simp [hp, Phase.working]))
  · rw [p1] at r; simp [hp] at r
  · rw [k.noHold (Or.inl p2)] at q; cases q

theorem acts_recoverEnd (hp : x.defrost.phase = .recover) (hw : 2 ≤ w) (h : Acts w s x) : Acts w s (recoverEnd x) := by
  have h1 : 1 ≤ w := by omega
  unfold recoverEnd
  refine acts_becomeIdle (fun k => k.noHold (Or.inr ?_)) hw (acts_setBounds _ _ (acts_onDefrost _ (fun _ => rfl) (fun _ => rfl) hw
    (acts_airPermit true h1 h)))
  simp [setBounds, airPermit, airInput, hp]

@[simp] theorem acts_runSecond (hw : 2 ≤ w) (h : Acts w s x) : Acts w s (runSecond x) := by
  unfold runSecond; simp (maxDischargeDepth := 60) [hw, h]

@[simp] theorem acts_serviceCut (h : Acts w s x) : Acts w s (serviceCut x) := by
  unfold serviceCut; simp (maxDischargeDepth := 60) [h]

@[simp] theorem acts_coilOk (v : Temp) (b : Band) (hw : 2 ≤ w) (h : Acts w s x) : Acts w s (coilOk x v b) := by
  unfold coilOk
  split
  · rename_i hp
    split
    · split
      · exact acts_heatEnd _ hp hw h
      · exact acts_heatEnd _ (by simpa using hp) hw (acts_declareFault _ _ _ h)
      · exact h
    · exact h
  · split
    · rename_i hp
      exact acts_ite _ (acts_recoverEnd hp hw h) h
    · exact acts_ite _ (acts_serviceCut h) h

@[simp] theorem acts_coilResult (r : Option (Temp × Band)) (hw : 2 ≤ w) (h : Acts w s x) : Acts w s (coilResult x r) := by
  rcases r with _ | ⟨v, b⟩ <;> simp (maxDischargeDepth := 60) [coilResult, hw, h]

@[simp] theorem acts_coilFault (hw : 2 ≤ w) (h : Acts w s x) : Acts w s (coilFault x) := by
  unfold coilFault; simp (maxDischargeDepth := 60) [hw, h]

@[simp] theorem acts_coilRecover (hw : 2 ≤ w) (h : Acts w s x) : Acts w s (coilRecover x) := by
  unfold coilRecover; simp (maxDischargeDepth := 60) [hw, h]

/-- A working phase interrupted (R129). -/
theorem acts_interrupt (hp : x.defrost.phase.working = true) (hw : 2 ≤ w) (h : Acts w s x) : Acts w s (interrupt x) := by
  have h1 : 1 ≤ w := by omega
  -- the heater given up, and DEFROST withdrawn
  have a1 : Acts w s (if x.defrost.use = some .defrost then heaterOff x else x) := acts_ite _ (acts_heaterOff h) h
  have b1 : Acts 0 x (if x.defrost.use = some .defrost then heaterOff x else x) := acts_ite _ (acts_heaterOff .refl) .refl
  have o1 : HeaterLaw (if x.defrost.use = some .defrost then heaterOff x else x) →
      (if x.defrost.use = some .defrost then heaterOff x else x).defrost.heater = .off := by
    split
    · exact fun _ => (heaterOff_off x).1
    · rename_i hu
      exact fun k => k.off (fun q => hu q.1) (fun q => by have := k.run hp; rw [q.2] at this; cases this)
  unfold interrupt
  dsimp only
  generalize (if x.defrost.use = some .defrost then heaterOff x else x) = y at a1 b1 o1 ⊢
  have a2 : Acts w s (if x.defrost.phase = .prechill then defrostWithdraw y else y) := acts_ite _ (acts_defrostWithdraw a1) a1
  have b2 : Acts 0 x (if x.defrost.phase = .prechill then defrostWithdraw y else y) := acts_ite _ (acts_defrostWithdraw b1) b1
  have o2 : HeaterLaw (if x.defrost.phase = .prechill then defrostWithdraw y else y) →
      (if x.defrost.phase = .prechill then defrostWithdraw y else y).defrost.heater = .off := by
    by_cases hq : x.defrost.phase = .prechill
    · have e := (b2.phase (by omega)).1.trans hq
      exact fun k => k.off_of_phase (by rw [e]; decide) (Or.inl (by rw [e]; rfl))
    · rw [if_neg hq]; exact o1
  generalize (if x.defrost.phase = .prechill then defrostWithdraw y else y) = z at a2 b2 o2 ⊢
  -- the hold released
  have a3 : Acts w s (if z.defrost.hold then holdRelease (z.onDefrost fun d => { d with hold := false }) else z) :=
    acts_ite _ (acts_dropHold o2 hw a2) a2
  have f3 : (if z.defrost.hold then holdRelease (z.onDefrost fun d => { d with hold := false }) else z).defrost.hold = false := by
    split
    · exact (congrArg Defrost.hold (holdRelease_core _) :)
    · rename_i hn; simpa using hn
  generalize (if z.defrost.hold then holdRelease (z.onDefrost fun d => { d with hold := false }) else z) = u at a3 f3 ⊢
  have a4 := acts_ite (u.air.permit = true) a3 (acts_airPermit true h1 a3)
  refine acts_becomeIdle (fun k => k.noHold (Or.inl ?_)) hw (acts_setBounds _ _ (acts_onDefrost _ (fun _ => rfl) (fun _ => rfl) hw a4))
  split <;> simpa [setBounds, airPermit, airInput] using f3

/-- The Defrost Unit's part of a change to the mode that Mode Control has (R170). -/
theorem acts_defrostMode (o m : Mode) (hm : x.ctl.mode = m) (hw : 2 ≤ w) (h : Acts w s x) : Acts w s (defrostMode x o m) := by
  have k : Acts w s (x.onDefrost fun d => { d with mode := m }) :=
    acts_onDefrost_phase _ (fun _ => rfl) (fun _ => rfl) (fun k => ⟨k.1, k.2.1, k.2.2.1, hm.symm, k.2.2.2.2⟩) hw h
  unfold defrostMode
  split
  · split
    · rename_i hp
      exact acts_interrupt hp hw k
    · exact k
  · exact acts_ite _ (acts_postDefrost (acts_heaterOff k)) k
  · exact acts_ite _ (acts_evaluate hw k) k

@[simp] theorem acts_defrostLocked (hw : 2 ≤ w) (h : Acts w s x) : Acts w s (defrostLocked x) := by
  have k : Acts w s (x.onDefrost fun d => { d with lockout := true }) := acts_onDefrost _ (fun _ => rfl) (fun _ => rfl) hw h
  unfold defrostLocked
  split
  · rename_i hp
    refine acts_heatEntry (Or.inr ?_) hw (acts_defrostWithdraw k)
    exact ((acts_defrostWithdraw (w := 0) .refl).phase (by omega)).1.trans hp
  · exact k

@[simp] theorem acts_defrostUnlocked (hw : 2 ≤ w) (h : Acts w s x) : Acts w s (defrostUnlocked x) := by
  unfold defrostUnlocked; simp (maxDischargeDepth := 60) [hw, h]

@[simp] theorem acts_defrostDoor (d : DoorState) (hw : 2 ≤ w) (h : Acts w s x) : Acts w s (defrostDoor x d) := by
  unfold defrostDoor; simp (maxDischargeDepth := 60) [hw, h]

@[simp] theorem acts_handClass (hw : 2 ≤ w) (h : Acts w s x) : Acts w s (handClass x) := by
  unfold handClass; simp (maxDischargeDepth := 60) [hw, h]

/-- A failure, with an entry to LOCKOUT handed to the Defrost Unit (R37). -/
theorem acts_fail (c : FaultCode) (hn : x.arb.comp.state.turning = true) (hw : 3 ≤ w) (h : Acts w s x) :
    Acts w s (fail x c) := by
  have k := acts_compFail c hn (by omega) h
  unfold fail
  exact acts_ite _ (acts_defrostLocked (by omega) k) k

theorem acts_lockoutEnd (hl : x.arb.comp.state = .lockout) (hw : 3 ≤ w) (h : Acts w s x) : Acts w s (lockoutEnd x) := by
  have k := acts_leaveLockout hl hw h
  have h2 : 2 ≤ w := by omega
  unfold lockoutEnd; simp (maxDischargeDepth := 60) [k, h2]

end

end Sys2Proof.Machine
end

