-- ==== Sys2Proof/Laws/ActsRequests.lean ====
section
/-! SUPPORT. The zones' rules, completions, the modes, the forces and the requests as chains of elementary acts. -/

namespace Sys2Proof.Machine

section
variable {w : Nat} {s x : State}

/-! ### Zones -/

@[simp] theorem idleResult_settings (r : Zone) (b : Band) : (r.idleResult b).settings = r.settings := by cases b <;> rfl

@[simp] theorem zoneRecord_settings (r : Zone) (v : Temp) (b : Band) : (r.record v b).settings = r.settings := by
  unfold Zone.record; dsimp only; split <;> rfl

@[simp] theorem closed_settings (r : Zone) (n : Nat) : (r.closed n).settings = r.settings := by
  unfold Zone.closed; dsimp only; split
  · split <;> rfl
  · rfl

@[simp] theorem cleared_settings (r : Zone) : r.cleared.settings = r.settings := rfl

@[simp] theorem acts_standDown (z : ZoneId) (h : Acts w s x) : Acts w s (standDown x z) := by
  unfold standDown; simp (maxDischargeDepth := 60) [h]

@[simp] theorem acts_zonePost (z : ZoneId) (c : Cls) (h : Acts w s x) : Acts w s (zonePost x z c) := by
  unfold zonePost; simp (maxDischargeDepth := 60) [h]

@[simp] theorem acts_zoneCall (z : ZoneId) (hw : 2 ≤ w) (h : Acts w s x) : Acts w s (zoneCall x z) := by
  have h1 : 1 ≤ w := by omega
  unfold zoneCall; simp (maxDischargeDepth := 60) [hw, h1, h]

@[simp] theorem acts_zoneSatisfied (z : ZoneId) (hw : 2 ≤ w) (h : Acts w s x) : Acts w s (zoneSatisfied x z) := by
  have h1 : 1 ≤ w := by omega
  unfold zoneSatisfied; simp (maxDischargeDepth := 60) [hw, h1, h]

@[simp] theorem acts_classChanged (z : ZoneId) (c : Cls) (hw : 2 ≤ w) (h : Acts w s x) : Acts w s (classChanged x z c) := by
  unfold classChanged; simp (maxDischargeDepth := 60) [hw, h]

@[simp] theorem acts_zoneResult (z : ZoneId) (v : Temp) (b : Band) (hw : 2 ≤ w) (h : Acts w s x) :
    Acts w s (zoneResult x z v b) := by
  have h1 : 1 ≤ w := by omega
  have k : Acts w s (x.onZone z fun r => r.record v b) := acts_onZone _ _ (fun r => zoneRecord_settings r v b) h1 h
  have ki : Acts w s ((x.onZone z fun r => r.record v b).onZone z fun r => r.idleResult b) :=
    acts_onZone _ _ (fun r => idleResult_settings r b) h1 k
  exact acts_ite _ (acts_ite _ (acts_ite _ (acts_zoneCall _ hw k) (acts_classChanged _ _ hw ki))
    (acts_ite _ (acts_zoneSatisfied _ hw k) k)) (acts_classChanged _ _ hw k)

@[simp] theorem acts_zoneFaulted (z : ZoneId) (hw : 1 ≤ w) (h : Acts w s x) : Acts w s (zoneFaulted x z) := by
  unfold zoneFaulted; simp (maxDischargeDepth := 60) [hw, h]

@[simp] theorem acts_zoneRecovered (z : ZoneId) (hw : 1 ≤ w) (h : Acts w s x) : Acts w s (zoneRecovered x z) := by
  unfold zoneRecovered; simp (maxDischargeDepth := 60) [hw, h]

@[simp] theorem acts_offPhaseEnd (z : ZoneId) (hw : 1 ≤ w) (h : Acts w s x) : Acts w s (offPhaseEnd x z) := by
  unfold offPhaseEnd; simp (maxDischargeDepth := 60) [hw, h]

@[simp] theorem acts_onPhaseEnd (z : ZoneId) (hw : 1 ≤ w) (h : Acts w s x) : Acts w s (onPhaseEnd x z) := by
  unfold onPhaseEnd; simp (maxDischargeDepth := 60) [hw, h]

@[simp] theorem acts_zoneOpened (z : ZoneId) (hw : 1 ≤ w) (h : Acts w s x) : Acts w s (zoneOpened x z) := by
  unfold zoneOpened; simp (maxDischargeDepth := 60) [hw, h]

@[simp] theorem acts_zoneClosed (z : ZoneId) (hw : 1 ≤ w) (h : Acts w s x) : Acts w s (zoneClosed x z) := by
  have k : ∀ n, Acts w s (x.onZone z fun r => r.closed n) := fun n => acts_onZone _ _ (fun r => closed_settings r n) hw h
  unfold zoneClosed
  exact acts_ite _ h (acts_ite _ (acts_enterState _ _ _ hw (k _)) (k _))

@[simp] theorem acts_drawerFaulted (hw : 1 ≤ w) (h : Acts w s x) : Acts w s (drawerFaulted x) := by
  unfold drawerFaulted; split <;> simp (maxDischargeDepth := 60) [hw, h]

@[simp] theorem acts_drawerRecovered (hw : 1 ≤ w) (h : Acts w s x) : Acts w s (drawerRecovered x) := by
  unfold drawerRecovered; simp (maxDischargeDepth := 60) [hw, h]

@[simp] theorem acts_zoneDisable (z : ZoneId) (hw : 2 ≤ w) (h : Acts w s x) : Acts w s (zoneDisable x z) :=
  acts_ite _ h (acts_handClass hw (acts_enterState _ _ _ (by omega)
    (acts_onZone _ _ (fun _ => rfl) (by omega) (acts_standDown _ h))))

@[simp] theorem acts_zoneEnable (z : ZoneId) (hw : 1 ≤ w) (h : Acts w s x) : Acts w s (zoneEnable x z) := by
  unfold zoneEnable; simp (maxDischargeDepth := 60) [hw, h]

@[simp] theorem acts_zoneRun (z : ZoneId) (hw : 1 ≤ w) (h : Acts w s x) : Acts w s (zoneRun x z) := by
  unfold zoneRun; simp (maxDischargeDepth := 60) [hw, h]

@[simp] theorem acts_zonePause (z : ZoneId) (hw : 1 ≤ w) (h : Acts w s x) : Acts w s (zonePause x z) :=
  acts_ite _ h (acts_noteClass (acts_enterState _ _ _ hw (acts_onZone _ _ (fun _ => rfl) hw h)))

/-! ### Completions -/

@[simp] theorem acts_ambientResult (b : Band) (hw : 1 ≤ w) (h : Acts w s x) :
    Acts w s (wishChange x fun k => k.ambientResult b) :=
  acts_wishChange _ (fun _ k => k.ambientResult b) (fun _ => rfl) (fun _ => ⟨rfl, rfl⟩) (fun _ => rfl) hw h

@[simp] theorem acts_ambientFault (hw : 1 ≤ w) (h : Acts w s x) : Acts w s (wishChange x Budget.ambientFault) :=
  acts_wishChange _ (fun _ k => k.ambientFault) (fun _ => rfl) (fun _ => ⟨rfl, rfl⟩) (fun _ => rfl) hw h

@[simp] theorem acts_ambientRecover (hw : 1 ≤ w) (h : Acts w s x) : Acts w s (wishChange x Budget.ambientRecover) :=
  acts_wishChange _ (fun _ k => k.ambientRecover) (fun _ => rfl) (fun _ => ⟨rfl, rfl⟩) (fun _ => rfl) hw h

@[simp] theorem acts_deliver (c : Chan) (r : Reading) (hw : 2 ≤ w) (h : Acts w s x) : Acts w s (deliver x c r) := by
  have h1 : 1 ≤ w := by omega
  rcases r with ⟨a, _ | ⟨v, b⟩⟩ <;> cases c <;> simp (maxDischargeDepth := 60) [deliver, hw, h1, h]

@[simp] theorem acts_deliverFaulted (c : Chan) (hw : 2 ≤ w) (h : Acts w s x) : Acts w s (deliverFaulted x c) := by
  have h1 : 1 ≤ w := by omega
  cases c <;> simp (maxDischargeDepth := 60) [deliverFaulted, hw, h1, h]

@[simp] theorem acts_deliverRecovered (c : Chan) (hw : 2 ≤ w) (h : Acts w s x) : Acts w s (deliverRecovered x c) := by
  have h1 : 1 ≤ w := by omega
  cases c <;> simp (maxDischargeDepth := 60) [deliverRecovered, hw, h1, h]

@[simp] theorem acts_sensorEvents (c : Chan) (k : Channel) (r : Reading) (hw : 2 ≤ w) (h : Acts w s x) : Acts w s (sensorEvents x c k r) := by
  unfold sensorEvents; split <;> simp (maxDischargeDepth := 60) [hw, h]

theorem acts_measureNotice (v : Conversion) (r : Reading) (c : BitVec 12) (hw : 4 ≤ w) (h : Acts w s x) :
    Acts w s (measureNotice x v r c) := by
  unfold measureNotice; split
  · exact .post _ _ h (Or.inl hw)
  · exact h

@[simp] theorem channelConsume_settings (r : Channel) (c : Source) : (r.consume c).settings = r.settings := by
  unfold Channel.consume; split
  · rfl
  · split <;> rfl

@[simp] theorem channelConsume_result (r : Channel) (c : Source) : (r.consume c).result = r.result := by
  unfold Channel.consume; split
  · rfl
  · split <;> rfl

@[simp] theorem channelRecord_settings (r : Channel) (c : Source) (k : BitVec 12) (t : Time) :
    (r.record c k t).settings = r.settings := by
  unfold Channel.record; dsimp only; split <;> rfl

/-- The request of a completed conversion consumed (R66). -/
theorem acts_consume (v : Conversion) (hw : 4 ≤ w) (h : Acts w s x) : Acts w s (x.onSched fun k => k.consume v) :=
  .rest _ _ _ _ h (Or.inr fun _ => rfl) (Or.inl (by omega)) (Or.inl hw)

/-- The result and the sensor fault of a completion handed over (R81 to R83). -/
theorem acts_handed (c : Chan) (k : Channel) (r : Reading) (hw : 2 ≤ w) (h : Acts w s x) :
    Acts w s (sensorEvents (deliver x c r) c k r) := acts_sensorEvents _ _ _ hw (acts_deliver _ _ hw h)

theorem acts_complete (v : Conversion) (c : BitVec 12) (hw : 4 ≤ w) (h : Acts w s x) : Acts w s (complete x v c) :=
  acts_startNext (acts_measureNotice _ _ _ hw (acts_handed v.chan _ _ (by omega)
    (acts_onChannel_set _ _ (by omega) (acts_consume v hw h))))

/-! ### Doors -/

@[simp] theorem acts_handSeconds (d : DoorId) (n : Nat) (hw : 2 ≤ w) (h : Acts w s x) : Acts w s (handSeconds x d n) := by
  unfold handSeconds; simp (maxDischargeDepth := 60) [hw, h]

@[simp] theorem acts_freezerDoorTo (d : DoorId) (a : DoorState) (hw : 2 ≤ w) (h : Acts w s x) : Acts w s (freezerDoorTo x d a) := by
  unfold freezerDoorTo; simp (maxDischargeDepth := 60) [hw, h]

@[simp] theorem acts_closeInject (z : ZoneId) (h : Acts w s x) : Acts w s (closeInject x z) := by
  unfold closeInject; simp (maxDischargeDepth := 60) [h]

/-- A change of the notice settings, of Mode Control, or of a door that stays open or CLOSED as it is, or of the pins. -/
theorem acts_onCtl (f : Control → Control) (hf : ∀ c, (f c).mode = c.mode) (hw : 3 ≤ w) (h : Acts w s x) :
    Acts w s (x.onCtl f) := .wide _ _ _ _ hw h ⟨rfl, rfl⟩ (fun _ => rfl) (Or.inr (hf _))

theorem acts_onPins (f : Pins → Pins) (hw : 3 ≤ w) (h : Acts w s x) : Acts w s (x.onPins f) :=
  .wide _ _ _ _ hw h ⟨rfl, rfl⟩ (fun _ => rfl) (Or.inr rfl)

theorem acts_onNotice (f : NoticeUnit → NoticeUnit) (hf : ∀ n, (f n).urgent = n.urgent ∧ (f n).routine = n.routine)
    (hw : 3 ≤ w) (h : Acts w s x) : Acts w s (x.onNotice f) :=
  .wide _ _ _ _ hw h (hf _) (fun _ => rfl) (Or.inr rfl)

theorem acts_onDoor (d : DoorId) (f : Door → Door) (hf : (f (x.doors.get d)).state.isOpen = (x.doors.get d).state.isOpen)
    (hw : 3 ≤ w) (h : Acts w s x) : Acts w s (x.onDoor d f) := by
  refine .wide _ _ _ _ hw h ⟨rfl, rfl⟩ (fun i => ?_) (Or.inr rfl)
  by_cases hi : i = d
  · subst hi; simpa using hf
  · rw [Doors.get_set_ne _ _ hi]

theorem acts_tryAjar (d : DoorId) (hw : 3 ≤ w) (h : Acts w s x) : Acts w s (tryAjar x d) := by
  unfold tryAjar
  split
  · rename_i hd
    simp only [ajarDue, Bool.and_eq_true, beq_iff_eq] at hd
    exact acts_postDoor _ _ (acts_onDoor d _ (by simp [hd.1, DoorState.isOpen]) hw h)
  · exact h

theorem acts_setAjar (n : Nat) (hw : 3 ≤ w) (h : Acts w s x) : Acts w s (setAjar x n) := by
  unfold setAjar
  exact acts_fold _ _ (fun _ d k => acts_tryAjar d hw k) (.wide x.ctl x.notice { x.doors with ajarTime := n } x.pins hw h
    ⟨rfl, rfl⟩ (fun i => by cases i <;> rfl) (Or.inr rfl))

theorem acts_deliverSeconds (d : DoorId) (hw : 3 ≤ w) (h : Acts w s x) : Acts w s (deliverSeconds x d) := by
  unfold deliverSeconds
  exact acts_handSeconds _ _ (by omega) (acts_onDoor d _ rfl hw h)

/-! ### Modes and forces -/

theorem acts_eachZone (f : State → ZoneId → State) (hf : ∀ t a, Acts w s t → Acts w s (f t a)) (h : Acts w s x) :
    Acts w s (eachZone f x) := acts_fold _ f hf h

/-- What Mode Control writes at a change of mode (R170, R173). -/
def Control.enter (c : Control) (m : Mode) : Control :=
  { c with mode := m, selfStart := none, serviceIdle := if m = .service then some Config.serviceIdle else none }

/-- What the arbiter, the Defrost Unit and the Load Budget Unit do at a change from mode `o` to `m` (R170). -/
def modeBlocks (s : State) (o m : Mode) : State :=
  budgetChange (defrostMode (if o = .run then arbLeaveRun s else if o = .service then arbLeaveService s else s) o m)
    fun b => b.setMode m

/-- What the zones do at a change from mode `o` to `m` (R170). -/
def modeZones (s : State) (o m : Mode) : State :=
  if m = .run then eachZone zoneRun s else if o = .run then eachZone zonePause s else s

theorem setMode_eq (m : Mode) :
    setMode x m = postStatus (airMode (modeBlocks (modeZones (x.onCtl fun c => c.enter m) x.ctl.mode m) x.ctl.mode m) m) .mode :=
  rfl

theorem acts_modeZones (o m : Mode) (hw : 1 ≤ w) (h : Acts w s x) : Acts w s (modeZones x o m) := by
  have h1 := acts_eachZone zoneRun (fun _ z k => acts_zoneRun z hw k) h
  have h2 := acts_eachZone zonePause (fun _ z k => acts_zonePause z hw k) h
  exact acts_ite (m = .run) h1 (acts_ite (o = .run) h2 h)

@[simp] theorem setMode_claim (b : Budget) (m : Mode) : (b.setMode m).heater = b.heater := by
  simp [Budget.setMode]

theorem acts_modeBlocks (o m : Mode) (hm : x.ctl.mode = m) (hw : 2 ≤ w) (h : Acts w s x) : Acts w s (modeBlocks x o m) := by
  have h1 : 1 ≤ w := by omega
  have a0 : Acts 1 x (if o = .run then arbLeaveRun x else if o = .service then arbLeaveService x else x) :=
    acts_ite _ (acts_arbLeaveRun .refl) (acts_ite _ (acts_arbLeaveService (le_refl 1) .refl) .refl)
  exact acts_budgetChange_wish (fun b => b.setMode m) (fun _ k => k.setMode m) (by simp) (fun b => Budget.setMode_settings b m)
    (fun b => setMode_claim b m) h1 (acts_defrostMode o m ((congrArg Control.mode (a0.ctl (by omega))).trans hm) hw
      (acts_ite _ (acts_arbLeaveRun h) (acts_ite _ (acts_arbLeaveService h1 h) h)))

/-- A change of mode is Mode Control's writing followed by acts of the blocks (R170). -/
theorem setMode_acts (m : Mode) (hw : 2 ≤ w) (h : Acts w s (x.onCtl fun c => c.enter m)) : Acts w s (setMode x m) := by
  rw [setMode_eq]
  have h1 : 1 ≤ w := by omega
  have hc := (acts_modeZones x.ctl.mode m (le_refl 1) (Acts.refl (s := x.onCtl fun c => c.enter m))).ctl (by omega)
  have hb := (acts_modeBlocks (w := 2) x.ctl.mode m (congrArg Control.mode hc) (le_refl 2) .refl).ctl (by omega)
  exact acts_postStatus _ (acts_airMode (congrArg Control.mode (hb.trans hc)).symm h1
    (acts_modeBlocks _ _ (congrArg Control.mode hc) hw (acts_modeZones _ _ h1 h)))

theorem acts_setMode (m : Mode) (hw : 5 ≤ w) (h : Acts w s x) : Acts w s (setMode x m) :=
  setMode_acts m (by omega) (.wide _ _ _ _ (by omega) h ⟨rfl, rfl⟩ (fun _ => rfl) (Or.inl hw))

@[simp] theorem acts_takeValve (e : Evap) (hw : 1 ≤ w) (h : Acts w s x) : Acts w s (takeValve x e) := by
  unfold takeValve; simp (maxDischargeDepth := 60) [hw, h]

@[simp] theorem acts_takeLevel (l : Nat) (hw : 1 ≤ w) (h : Acts w s x) : Acts w s (takeLevel x l) := by
  unfold takeLevel; simp (maxDischargeDepth := 60) [hw, h]

theorem acts_takeHeater (b : Bool) (hb : b = true → x.ctl.mode = .service ∧ x.arb.feedsFreeze = false) (h : Acts w s x) :
    Acts w s (takeHeater x b) := by
  unfold takeHeater
  split
  · rename_i hb'
    split
    · rename_i ho
      exact acts_claimFor _ ho (fun _ => ⟨(hb hb').2, Or.inr ⟨rfl, (hb hb').1⟩⟩) h
    · exact h
  · simp (maxDischargeDepth := 60) [h]

@[simp] theorem acts_takeMullion (b : Bool) (hw : 1 ≤ w) (h : Acts w s x) : Acts w s (takeMullion x b) :=
  acts_wishChange _ (fun _ k => k.of_le rfl rfl (le_refl _)) (fun _ => rfl) (fun _ => ⟨rfl, rfl⟩) (fun _ => rfl) hw h

theorem acts_clearOwners (hw : 3 ≤ w) (h : Acts w s x) : Acts w s (clearOwners x) := by
  unfold clearOwners
  split
  · rename_i hl
    exact acts_damperRecover hw (acts_valveRecover (acts_lockoutEnd hl hw h))
  · exact acts_damperRecover hw (acts_valveRecover h)

/-! ### Requests -/

@[simp] theorem acts_refuse (c : Status) (h : Acts w s x) : Acts w s (refuse x c).1 := h
@[simp] theorem acts_done (h : Acts w s x) : Acts w s (done x).1 := h
@[simp] theorem acts_answer (p : List Byte) (h : Acts w s x) : Acts w s (answer x p).1 := h

@[simp] theorem acts_ite_fst {α : Type} (c : Prop) [Decidable c] {a b : State × α} (h : Acts w s a.1) (k : Acts w s b.1) :
    Acts w s (if c then a else b).1 := by split <;> assumption

@[simp] theorem acts_zoneBounds (z : ZoneId) (c : Byte) (h : Acts w s x) : Acts w s (zoneBounds x z c) := by
  unfold zoneBounds; simp (maxDischargeDepth := 60) [h]

@[simp] theorem acts_zoneEnabled (z : ZoneId) (f : ZoneFields) (hw : 2 ≤ w) (h : Acts w s x) :
    Acts w s (zoneEnabled x z f) := by
  unfold zoneEnabled
  refine acts_ite _ ?_ h
  split
  · exact acts_zoneEnable _ (by omega) h
  · exact acts_zoneDisable _ hw h
  · exact h

@[simp] theorem acts_zoneRepost (z : ZoneId) (k : Zone) (h : Acts w s x) : Acts w s (zoneRepost x z k) := by
  unfold zoneRepost; simp (maxDischargeDepth := 60) [h]

theorem acts_doSetZone (z : Byte) (f : ZoneFields) (hw : 3 ≤ w) (h : Acts w s x) : Acts w s (doSetZone x z f).1 := by
  unfold doSetZone
  split
  · exact h
  · exact acts_ite_fst _ (acts_done (acts_zoneRepost _ _ (acts_zoneEnabled _ _ (by omega)
      (acts_zoneBounds _ _ (acts_onZone_set _ _ hw h))))) h

theorem acts_doGetZone (z : Byte) (h : Acts w s x) : Acts w s (doGetZone x z).1 := by
  unfold doGetZone
  repeat' split
  all_goals simp (maxDischargeDepth := 60) [h]

theorem acts_doSetTiming (f : TimingFields) (hw : 3 ≤ w) (h : Acts w s x) : Acts w s (doSetTiming x f).1 := by
  unfold doSetTiming
  have k : Acts w s (x.onArb fun a => { a with timing := f.apply a.timing }) := acts_onArb_set _ (fun _ => rfl) (fun _ => rfl) hw h
  exact acts_ite_fst _ (acts_done (acts_ite _ (acts_switchCheck k) k)) h

theorem acts_doGetArbiter (p : Byte) (h : Acts w s x) : Acts w s (doGetArbiter x p).1 := by
  unfold doGetArbiter
  repeat' split
  all_goals simp (maxDischargeDepth := 60) [h]

theorem apply_sound {f : BudgetFields} (hf : f.ok = true) {b : Budget} (hb : b.Sound) : (f.apply b).Sound := by
  unfold BudgetFields.apply
  refine Budget.Sound.unwish ?_
  split
  · rename_i hc
    simp only [BudgetFields.ok, checkCarried, hc, Bool.not_true, Bool.false_or, inRange, Bool.and_eq_true,
      decide_eq_true_eq] at hf
    exact (hb.takeBudget hf.1.2).of_le rfl rfl (le_refl _)
  · exact hb.of_le rfl rfl (le_refl _)

theorem apply_level (f : BudgetFields) (b : Budget) : (f.apply b).level = b.level := by
  unfold BudgetFields.apply; dsimp only; split <;> simp

theorem apply_claim (f : BudgetFields) (b : Budget) : (f.apply b).heater = b.heater := by
  unfold BudgetFields.apply Budget.takeBudget; dsimp only; split <;> (try split) <;> simp

theorem acts_doSetBudget (f : BudgetFields) (hw : 3 ≤ w) (h : Acts w s x) : Acts w s (doSetBudget x f).1 := by
  unfold doSetBudget
  split
  · rename_i hf
    split
    · exact h
    · exact acts_settleFrom _ (acts_onBudget' _ (fun k => apply_sound hf k.1)
        (fun k => le_trans k.2.2 (le_of_eq (apply_level f _).symm)) (Or.inl (by omega)) (Or.inl hw) (apply_claim f _) h)
  · exact h

theorem acts_doSetChannel (c : Byte) (f : ChannelFields) (hw : 3 ≤ w) (h : Acts w s x) : Acts w s (doSetChannel x c f).1 := by
  unfold doSetChannel
  split
  · exact h
  · exact acts_ite_fst _ (acts_done (acts_onChannel_set _ _ hw h)) h

theorem acts_doReadChannel (c : Byte) (h : Acts w s x) : Acts w s (doReadChannel x c).1 := by
  unfold doReadChannel
  repeat' split
  all_goals simp (maxDischargeDepth := 60) [h]

theorem acts_doMeasure (t c : Byte) (h : Acts w s x) : Acts w s (doMeasure x t c).1 := by
  unfold doMeasure
  split
  · exact h
  · split
    · exact h
    · rename_i ht
      split
      · exact h
      · rename_i hl
        exact acts_queueLink _ _ (by simpa using ht) (by simpa [Config.maxLinkTags] using hl) h

theorem acts_doClearQueue (h : Acts w s x) : Acts w s (doClearQueue x).1 := by
  unfold doClearQueue
  simp (maxDischargeDepth := 60) [h]

theorem acts_doSubstitute (c : Byte) (v : Half) (hw : 3 ≤ w) (h : Acts w s x) : Acts w s (doSubstitute x c v).1 := by
  unfold doSubstitute
  split
  · exact h
  · exact acts_ite_fst _ (acts_ite_fst _ h (acts_done (acts_onChannel_set _ _ hw h))) h


theorem acts_defrostFields (f : DefrostFields) (hw : 3 ≤ w) (h : Acts w s x) : Acts w s (x.onDefrost f.apply) :=
  acts_onDefrost_set _ (fun _ => rfl) hw h

theorem acts_doSetDefrost (f : DefrostFields) (hw : 3 ≤ w) (h : Acts w s x) : Acts w s (doSetDefrost x f).1 := by
  unfold doSetDefrost
  have k := acts_defrostFields f hw h
  split
  · simp (maxDischargeDepth := 60) [done, k]
  · exact h

theorem acts_doDefrostStart (hw : 2 ≤ w) (h : Acts w s x) : Acts w s (doDefrostStart x).1 := by
  unfold doDefrostStart
  split <;> simp (maxDischargeDepth := 60) [hw, h]

theorem acts_doDefrostAbort (hw : 2 ≤ w) (h : Acts w s x) : Acts w s (doDefrostAbort x).1 := by
  unfold doDefrostAbort
  split
  · rename_i hp
    exact acts_done (acts_becomeIdle (fun k => k.noHold (Or.inr (by simp [hp]))) hw
      (acts_onDefrost _ (fun _ => rfl) (fun _ => rfl) hw h))
  · rename_i hp
    have e := ((acts_defrostWithdraw (w := 0) (Acts.refl (s := x))).phase (by omega)).1.trans hp
    exact acts_done (acts_becomeIdle (fun k => k.noHold (Or.inr (by simp [e]))) hw
      (acts_onDefrost _ (fun _ => rfl) (fun _ => rfl) hw (acts_defrostWithdraw h)))
  · rename_i hp
    exact acts_done (acts_heatEnd _ hp hw h)
  · exact h

theorem acts_doDefrost (a : Byte) (hw : 2 ≤ w) (h : Acts w s x) : Acts w s (doDefrost x a).1 := by
  unfold doDefrost
  split
  · exact acts_doDefrostStart hw h
  · exact acts_doDefrostAbort hw h
  · exact h

theorem acts_doGetFault (i : Option Byte) (h : Acts w s x) : Acts w s (doGetFault x i).1 := by
  unfold doGetFault
  dsimp only
  repeat' split
  all_goals simp (maxDischargeDepth := 60) [h]

theorem acts_clearRecord (o : Option FaultObject) (hw : 3 ≤ w) (h : Acts w s x) : Acts w s (clearRecord x o) := by
  have k : Acts w s (x.onFault fun f => { f with table := f.table.filter fun e => !clears o e, capture := none }) :=
    acts_onFault_clear _ hw h
  unfold clearRecord
  exact acts_ite _ (acts_postFault _ _ k) k

theorem acts_doClearFault (b : Byte) (hw : 3 ≤ w) (h : Acts w s x) : Acts w s (doClearFault x b).1 := by
  unfold doClearFault
  split
  · exact h
  · exact acts_answer _ (acts_clearOwners hw (acts_clearRecord _ hw h))

theorem acts_doSetNotice (f : NoticeFields) (hw : 3 ≤ w) (h : Acts w s x) : Acts w s (doSetNotice x f).1 := by
  have k : Acts w s (x.onNotice f.apply) := acts_onNotice _ (fun _ => ⟨rfl, rfl⟩) hw h
  unfold doSetNotice
  split
  · refine acts_ite _ (acts_setAjar _ hw ?_) ?_ <;> exact acts_ite _ (.space hw k) k
  · exact h

theorem acts_doForce {α : Type} (v : Option α) (lock : α → Option Interlock) (take : α → State)
    (ht : ∀ a, x.ctl.mode = .service → lock a = none → Acts w s (take a)) (h : Acts w s x) :
    Acts w s (doForce x v lock take).1 := by
  unfold doForce
  split
  · exact h
  · split
    · rename_i hm
      split
      · exact h
      · rename_i hl
        exact ht _ hm hl
    · exact h

/-- A heater force ON that no interlock stops finds FREEZE not fed (R182). -/
theorem lockHeater_feeds (hl : lockHeater x true = none) : x.arb.feedsFreeze = false := by
  cases hf : x.arb.feedsFreeze with
  | false => rfl
  | true => simp [lockHeater, firstLock, hf] at hl

theorem acts_doServiceForce (o v : Byte) (hw : 1 ≤ w) (h : Acts w s x) : Acts w s (doServiceForce x o v).1 := by
  unfold doServiceForce
  split
  · exact acts_doForce _ _ _ (fun _ _ _ => acts_airInput _ (by simp) hw h) h
  · exact acts_doForce _ _ _ (fun _ _ _ => acts_airInput _ (by simp) hw h) h
  · exact acts_doForce _ _ _ (fun _ _ _ => acts_airInput _ (by simp) hw h) h
  · exact acts_doForce _ _ _ (fun _ _ _ => acts_airInput _ (by simp) hw h) h
  · exact acts_doForce _ _ _ (fun e _ _ => acts_takeValve e hw h) h
  · exact acts_doForce _ _ _ (fun l _ _ => acts_takeLevel l hw h) h
  · exact acts_doForce _ _ _ (fun b hm hl => acts_takeHeater b (fun hb => ⟨hm, lockHeater_feeds (hb ▸ hl)⟩) h) h
  · exact acts_doForce _ _ _ (fun b _ _ => acts_takeMullion b hw h) h
  · exact h

end

end Sys2Proof.Machine
end

