-- ==== Sys2Proof/Laws/Keeps.lean ====
section
/-! SUPPORT. What the acts of the blocks leave as it is, and the laws that they keep. -/

namespace Sys2Proof.Machine

/-! ### Posting and the transmit choice, seen from the link -/

section
variable (s : State)

@[simp] theorem rotate_place : (rotate s).link.place = s.link.place := by unfold rotate; dsimp only; split <;> rfl
@[simp] theorem rotate_waiting : (rotate s).link.waiting = s.link.waiting := by unfold rotate; dsimp only; split <;> rfl
@[simp] theorem rotate_rx : (rotate s).link.rx = s.link.rx := by unfold rotate; dsimp only; split <;> rfl
@[simp] theorem rotate_taken : (rotate s).link.resetTaken = s.link.resetTaken := by unfold rotate; dsimp only; split <;> rfl
@[simp] theorem rotate_replies : (rotate s).link.replies = s.link.replies := by unfold rotate; dsimp only; split <;> rfl
@[simp] theorem rotate_boundary : (rotate s).link.boundary = s.link.boundary := by unfold rotate; dsimp only; split <;> rfl

/-- The transmit choice: the oldest reply leaves the list, or there is none and the notices are considered (R192). -/
theorem transmitChoice_cases :
    (∃ r l, s.link.replies = r :: l ∧ transmitChoice s =
      s.onLink fun k => { { k with boundary := false, replies := l } with
        tx := some { frame := r.frame, what := .reply r.kind, left := r.frame.lineTime } })
    ∨ (s.link.replies = [] ∧ transmitChoice s = rotate (s.onLink fun k => { k with boundary := false })) := by
  unfold transmitChoice
  dsimp only
  cases h : s.link.replies with
  | nil => right; simp [h]
  | cons r l => left; exact ⟨r, l, rfl, by simp [h]; rfl⟩

@[simp] theorem transmitChoice_place : (transmitChoice s).link.place = s.link.place := by
  rcases transmitChoice_cases s with ⟨r, l, _, h⟩ | ⟨_, h⟩ <;> simp [h]
@[simp] theorem transmitChoice_waiting : (transmitChoice s).link.waiting = s.link.waiting := by
  rcases transmitChoice_cases s with ⟨r, l, _, h⟩ | ⟨_, h⟩ <;> simp [h]
@[simp] theorem transmitChoice_rx : (transmitChoice s).link.rx = s.link.rx := by
  rcases transmitChoice_cases s with ⟨r, l, _, h⟩ | ⟨_, h⟩ <;> simp [h]
@[simp] theorem transmitChoice_taken : (transmitChoice s).link.resetTaken = s.link.resetTaken := by
  rcases transmitChoice_cases s with ⟨r, l, _, h⟩ | ⟨_, h⟩ <;> simp [h]
/-- After a transmit choice no frame boundary is left to settle. -/
@[simp] theorem transmitChoice_boundary : (transmitChoice s).link.boundary = false := by
  rcases transmitChoice_cases s with ⟨r, l, _, h⟩ | ⟨_, h⟩ <;> simp [h]
/-- After a transmit choice an idle transmitter has no reply waiting (R192). -/
theorem transmitChoice_idle (h : (transmitChoice s).link.tx = none) : (transmitChoice s).link.replies = [] := by
  rcases transmitChoice_cases s with ⟨r, l, _, k⟩ | ⟨k1, k⟩
  · simp [k] at h
  · simp [k, k1]
theorem transmitChoice_replies : (transmitChoice s).link.replies.length ≤ s.link.replies.length := by
  rcases transmitChoice_cases s with ⟨r, l, e, h⟩ | ⟨e, h⟩ <;> simp [h, e]

/-- What a notice handed over is: discarded, filed, or filed with a transmit choice made (R211, R212). -/
theorem postNotice_cases (k : NoticeKey) (p : List Byte) :
    (k.quieted = true ∧ postNotice s k p = s)
    ∨ (s.link.tx.isSome = true ∧ postNotice s k p = s.onNotice fun n => n.file k p)
    ∨ (s.link.tx = none ∧ postNotice s k p = transmitChoice (takeFree (s.onNotice fun n => n.file k p)))
    ∨ (s.link.tx = none ∧
        postNotice s k p = (takeFree (s.onNotice fun n => n.file k p)).onLink fun l => { l with boundary := true }) := by
  unfold postNotice
  dsimp only
  split
  · rename_i h
    simp only [Bool.and_eq_true] at h
    exact Or.inl ⟨h.2, rfl⟩
  · split
    · rename_i h; exact Or.inr (Or.inl ⟨h, rfl⟩)
    · rename_i h
      have h' : s.link.tx = none := by simpa using h
      split
      · exact Or.inr (Or.inr (Or.inl ⟨h', rfl⟩))
      · exact Or.inr (Or.inr (Or.inr ⟨h', rfl⟩))

@[simp] theorem postNotice_place (k : NoticeKey) (p : List Byte) : (postNotice s k p).link.place = s.link.place := by
  rcases postNotice_cases s k p with ⟨_, h⟩ | ⟨_, h⟩ | ⟨_, h⟩ | ⟨_, h⟩ <;> simp [h]
@[simp] theorem postNotice_waiting (k : NoticeKey) (p : List Byte) : (postNotice s k p).link.waiting = s.link.waiting := by
  rcases postNotice_cases s k p with ⟨_, h⟩ | ⟨_, h⟩ | ⟨_, h⟩ | ⟨_, h⟩ <;> simp [h]
@[simp] theorem postNotice_rx (k : NoticeKey) (p : List Byte) : (postNotice s k p).link.rx = s.link.rx := by
  rcases postNotice_cases s k p with ⟨_, h⟩ | ⟨_, h⟩ | ⟨_, h⟩ | ⟨_, h⟩ <;> simp [h]
@[simp] theorem postNotice_taken (k : NoticeKey) (p : List Byte) :
    (postNotice s k p).link.resetTaken = s.link.resetTaken := by
  rcases postNotice_cases s k p with ⟨_, h⟩ | ⟨_, h⟩ | ⟨_, h⟩ | ⟨_, h⟩ <;> simp [h]
theorem postNotice_replies (k : NoticeKey) (p : List Byte) :
    (postNotice s k p).link.replies.length ≤ s.link.replies.length := by
  rcases postNotice_cases s k p with ⟨_, h⟩ | ⟨_, h⟩ | ⟨_, h⟩ | ⟨_, h⟩
  · simp [h]
  · simp [h]
  · simpa [h] using transmitChoice_replies (takeFree (s.onNotice fun n => n.file k p))
  · simp [h]

end

/-! ### The notice settings -/

@[simp] theorem put_settings (n : NoticeUnit) (q : Queue) (l : List Notice) : (n.put q l).settings = n.settings := by
  cases q <;> rfl

@[simp] theorem file_settings (n : NoticeUnit) (k : NoticeKey) (p : List Byte) : (n.file k p).settings = n.settings := by
  unfold NoticeUnit.file
  split
  · rfl
  · split
    · rfl
    · exact put_settings _ _ _

theorem rotate_settings (s : State) : (rotate s).notice.settings = s.notice.settings := by
  unfold rotate; dsimp only; split
  · exact put_settings _ _ _
  · rfl

theorem transmitChoice_settings (s : State) : (transmitChoice s).notice.settings = s.notice.settings := by
  rcases transmitChoice_cases s with ⟨r, l, _, h⟩ | ⟨_, h⟩ <;> rw [h]
  · rfl
  · exact rotate_settings _

theorem postNotice_settings (s : State) (k : NoticeKey) (p : List Byte) :
    (postNotice s k p).notice.settings = s.notice.settings := by
  rcases postNotice_cases s k p with ⟨_, h⟩ | ⟨_, h⟩ | ⟨_, h⟩ | ⟨_, h⟩ <;> rw [h]
  · exact file_settings _ _ _
  · exact (transmitChoice_settings _).trans (file_settings _ _ _)
  · exact file_settings _ _ _

/-! ### One notice for a key (R211) -/

theorem replaceKey_keys (k : NoticeKey) (p : List Byte) (q : List Notice) :
    (replaceKey k p q).map (·.key) = q.map (·.key) := by
  unfold replaceKey
  simp only [List.map_map]
  refine List.map_congr_left (fun n _ => ?_)
  simp only [Function.comp]
  split <;> rfl

theorem hasKey_iff (k : NoticeKey) (q : List Notice) : hasKey k q = true ↔ k ∈ q.map (·.key) := by
  simp [hasKey]

/-- Filing a notice leaves the keys as they are, or adds one that is not among them (R211). -/
theorem file_keys (n : NoticeUnit) (k : NoticeKey) (p : List Byte) :
    (((n.file k p).urgent ++ (n.file k p).routine).map (·.key) = (n.urgent ++ n.routine).map (·.key)
      ∧ k ∈ (n.urgent ++ n.routine).map (·.key))
    ∨ (k ∉ (n.urgent ++ n.routine).map (·.key)
      ∧ (((n.file k p).urgent ++ (n.file k p).routine).map (·.key)).Perm (k :: (n.urgent ++ n.routine).map (·.key))) := by
  unfold NoticeUnit.file
  split
  · rename_i hu
    left
    exact ⟨by simp [replaceKey_keys], by simpa using Or.inl ((hasKey_iff _ _).1 hu)⟩
  · rename_i hu
    split
    · rename_i hr
      left
      exact ⟨by simp [replaceKey_keys], by simpa using Or.inr ((hasKey_iff _ _).1 hr)⟩
    · rename_i hr
      right
      rw [hasKey_iff] at hu hr
      refine ⟨by simpa using ⟨by simpa using hu, by simpa using hr⟩, ?_⟩
      cases n.map.get k
      · simp only [NoticeUnit.put, NoticeUnit.get, List.map_append, List.map_cons, List.append_assoc,
          List.singleton_append]
        exact List.perm_middle
      · simp only [NoticeUnit.put, NoticeUnit.get, List.map_append, List.map_cons, List.map_nil]
        rw [← List.append_assoc]
        exact List.perm_append_singleton _ _

/-- Filing a notice adds its key at most once (R211). -/
theorem file_nodup (n : NoticeUnit) (k : NoticeKey) (p : List Byte)
    (h : ((n.urgent ++ n.routine).map (·.key)).Nodup) :
    (((n.file k p).urgent ++ (n.file k p).routine).map (·.key)).Nodup := by
  rcases file_keys n k p with ⟨e, _⟩ | ⟨hk, e⟩
  · rw [e]; exact h
  · exact e.nodup_iff.2 (List.nodup_cons.2 ⟨hk, h⟩)

/-- The choice among the notices takes one from its queue, if any. -/
theorem rotate_keys (s : State) :
    (noticeKeys (rotate s) = noticeKeys s ∧ (rotate s).link.tx = s.link.tx)
    ∨ ∃ k, (noticeKeys s).Perm (k :: noticeKeys (rotate s))
        ∧ ((rotate s).link.tx.bind fun x => x.what.tag?) = k.tag? := by
  unfold rotate
  dsimp only
  split
  · rename_i n rest hq
    right
    refine ⟨n.key, ?_, rfl⟩
    split at hq
    · unfold noticeKeys
      generalize (turnNow s).1 = t at hq ⊢
      cases t
      · simp only [NoticeUnit.get] at hq
        simp [NoticeUnit.put, hq]
      · simp only [NoticeUnit.get] at hq
        simp only [NoticeUnit.put, hq, List.map_append, List.map_cons]
        exact List.perm_middle
    · exact absurd hq (by simp)
  · exact Or.inl ⟨rfl, rfl⟩

theorem rotate_nodup (s : State) (h : (noticeKeys s).Nodup) : (noticeKeys (rotate s)).Nodup := by
  rcases rotate_keys s with ⟨e, _⟩ | ⟨k, e, _⟩
  · rw [e]; exact h
  · exact (List.nodup_cons.1 (e.nodup_iff.1 h)).2

theorem transmitChoice_nodup (s : State) (h : (noticeKeys s).Nodup) : (noticeKeys (transmitChoice s)).Nodup := by
  rcases transmitChoice_cases s with ⟨r, l, _, k⟩ | ⟨_, k⟩
  · rw [k]; exact h
  · rw [k]; exact rotate_nodup _ h

theorem postNotice_nodup (s : State) (k : NoticeKey) (p : List Byte) (h : (noticeKeys s).Nodup) :
    (noticeKeys (postNotice s k p)).Nodup := by
  have hf := file_nodup s.notice k p h
  rcases postNotice_cases s k p with ⟨_, e⟩ | ⟨_, e⟩ | ⟨_, e⟩ | ⟨_, e⟩ <;> rw [e]
  · exact h
  · exact hf
  · exact transmitChoice_nodup _ hf
  · exact hf

/-! ### The tags of MEASURE notices (R69, R72) -/

/-- A transmit choice of an idle transmitter loses no tag. -/
theorem choice_tags {s : State} (ht : s.link.tx = none) : (noticeTags (transmitChoice s)).Perm (noticeTags s) := by
  unfold noticeTags
  rcases transmitChoice_cases s with ⟨r, l, _, k⟩ | ⟨_, k⟩ <;> rw [k]
  · simp [ht, Sent.tag?, noticeKeys]
  · have e : noticeKeys (s.onLink fun k => { k with boundary := false }) = noticeKeys s := rfl
    rcases rotate_keys (s.onLink fun k => { k with boundary := false }) with ⟨k1, k2⟩ | ⟨q, k1, k2⟩
    · rw [k1, k2]; exact List.Perm.refl _
    · rw [k2]
      rw [e] at k1
      have := k1.filterMap NoticeKey.tag?
      simp only [ht, Option.bind_none, Option.toList_none, List.append_nil]
      refine List.Perm.trans ?_ this.symm
      rw [List.filterMap_cons]
      cases q.tag? with
      | none => simp
      | some b => exact List.perm_append_singleton _ _

/-- A posted notice adds its tag, or replaces the payload of one under its key, or is discarded by QUIET (R211, R212). -/
theorem postNotice_tags (s : State) (k : NoticeKey) (p : List Byte) :
    (k ∉ noticeKeys s ∧ (noticeTags (postNotice s k p)).Perm (k.tag?.toList ++ noticeTags s))
    ∨ ((k ∈ noticeKeys s ∨ k.tag? = none) ∧ (noticeTags (postNotice s k p)).Perm (noticeTags s)) := by
  have filed : (k ∉ noticeKeys s ∧ (noticeTags (s.onNotice fun n => n.file k p)).Perm (k.tag?.toList ++ noticeTags s))
      ∨ ((k ∈ noticeKeys s ∨ k.tag? = none) ∧ (noticeTags (s.onNotice fun n => n.file k p)).Perm (noticeTags s)) := by
    unfold noticeTags noticeKeys
    rcases file_keys s.notice k p with ⟨e, hk⟩ | ⟨hk, e⟩
    · right
      simp only [State.onNotice_notice, State.onNotice_link]
      rw [e]; exact ⟨Or.inl hk, List.Perm.refl _⟩
    · left
      refine ⟨hk, ?_⟩
      have := e.filterMap NoticeKey.tag?
      simp only [State.onNotice_notice, State.onNotice_link]
      rw [← List.append_assoc]
      refine List.Perm.append_right _ (this.trans ?_)
      rw [List.filterMap_cons]
      cases k.tag? <;> simp
  rcases postNotice_cases s k p with ⟨hq, h⟩ | ⟨_, h⟩ | ⟨ht, h⟩ | ⟨_, h⟩
  · right
    rw [h]
    exact ⟨Or.inr (by cases k <;> simp_all [NoticeKey.tag?, NoticeKey.quieted]), List.Perm.refl _⟩
  · rw [h]; exact filed
  · rw [h]
    have := choice_tags (s := takeFree (s.onNotice fun n => n.file k p)) ht
    exact filed.imp (fun q => ⟨q.1, this.trans q.2⟩) (fun q => ⟨q.1, this.trans q.2⟩)
  · rw [h]; exact filed

/-! ### What acts of the blocks leave as it is -/

section
variable {w : Nat} {s t : State}

/-- Acts of the blocks take no time, touch no waiting command, no pin-side record of the link's receiver and inbound list,
and no door state that the Air Path Unit knows. -/
theorem Acts.same (h : Acts w s t) :
    t.uptime = s.uptime ∧ t.ms = s.ms ∧ t.pending = s.pending
      ∧ t.link.rx = s.link.rx ∧ t.link.place = s.link.place ∧ t.link.waiting = s.link.waiting
      ∧ t.link.resetTaken = s.link.resetTaken
      ∧ t.air.leftDoor = s.air.leftDoor ∧ t.air.rightDoor = s.air.rightDoor ∧ t.air.drawerDoor = s.air.drawerDoor
      ∧ t.air.freezerDoor = s.air.freezerDoor := by
  induction h with
  | refl => simp
  | post k p _ _ ih => simpa using ih
  | unit a b r d _ u ih =>
    obtain ⟨h1, h2, h3, h4⟩ := u.doors
    simp only [h1, h2, h3, h4]; exact ih
  | rest z k f n _ _ _ _ ih => exact ih
  | stat y _ ih => exact ih
  | wide c n d p _ _ _ _ _ ih => exact ih
  | space _ _ ih => exact ih

/-- Below level 3 they also leave Mode Control, the doors, the pins and every setting as they are, and every entry of the
fault table keeps its place. -/
theorem Acts.below3 (h : Acts w s t) (hw : w < 3) :
    t.ctl = s.ctl ∧ t.doors = s.doors ∧ t.pins = s.pins ∧ SameSettings s t ∧ FaultsStay s.fault t.fault := by
  have no : ∀ {p : Prop}, 3 ≤ w ∨ p → p := fun k => k.resolve_left (by omega)
  induction h with
  | refl => exact ⟨rfl, rfl, rfl, ⟨fun _ => rfl, fun _ => rfl, rfl, rfl, rfl, rfl, rfl, rfl⟩, faultsStay_rfl _⟩
  | post k p _ _ ih =>
    obtain ⟨h1, h2, h3, ⟨g1, g2, g3, g4, g5, g6, g7, g8⟩, h5⟩ := ih
    exact ⟨by simpa using h1, by simpa using h2, by simpa using h3,
      ⟨by simpa using g1, by simpa using g2, by simpa using g3, by simpa using g4, by simpa using g5, by simpa using g6,
        by rw [postNotice_settings]; exact g7, by simpa using g8⟩, by simpa using h5⟩
  | unit a b r d _ u ih =>
    obtain ⟨h1, h2, h3, ⟨g1, g2, g3, g4, g5, g6, g7, g8⟩, h5⟩ := ih
    obtain ⟨k1, k2, k3, k4, _⟩ := no u.sets
    exact ⟨h1, h2, h3, ⟨g1, g2, k1.trans g3, k2.trans g4, k3.trans g5, k4.trans g6, g7, g8⟩, h5⟩
  | rest z k f n _ _ h4 _ ih =>
    obtain ⟨h1, h2, h3, ⟨g1, g2, g3, g4, g5, g6, g7, g8⟩, h5⟩ := ih
    obtain ⟨k1, k2, k3⟩ := no h4
    exact ⟨h1, h2, h3, ⟨fun i => (k1 i).trans (g1 i), fun c => (k2 c).1.trans (g2 c), g3, g4, g5, g6, g7, g8⟩, h5.trans k3⟩
  | stat y _ ih => exact ih
  | wide c n d p h1 => omega
  | space h1 => omega

/-- Below level 3 the records that completions write stand. -/
theorem Acts.results (h : Acts w s t) (hw : w < 3) (c : Chan) : (t.sched.ch.get c).result = (s.sched.ch.get c).result := by
  induction h with
  | refl => rfl
  | post k p _ _ ih => simpa using ih
  | unit a b r d _ _ ih => exact ih
  | rest z k f n _ _ h4 _ ih => exact ((h4.resolve_left (by omega)).2.1 c).2.1.trans ih
  | stat y _ ih => exact ih
  | wide c n d p h1 => omega
  | space h1 => omega

/-- Below level 3 an INJECT flag that is set stays set. -/
theorem Acts.injects (h : Acts w s t) (hw : w < 3) (c : Chan) (k : (s.sched.ch.get c).injectFlag = true) :
    (t.sched.ch.get c).injectFlag = true := by
  induction h with
  | refl => exact k
  | post a p _ _ ih => simpa using ih
  | unit a b r d _ _ ih => exact ih
  | rest z q f n _ _ h4 _ ih => exact ((h4.resolve_left (by omega)).2.1 c).2.2 ih
  | stat y _ ih => exact ih
  | wide c n d p h1 => omega
  | space h1 => omega

/-- Below level 3 a FAILED damper stays FAILED. -/
theorem Acts.failed (h : Acts w s t) (hw : w < 3) (k : s.air.damper = .failed) : t.air.damper = .failed := by
  induction h with
  | refl => exact k
  | post a p _ _ ih => simpa using ih
  | unit a b r d _ u ih => exact (u.sets.resolve_left (by omega)).2.2.2.2 ih
  | rest z q f n _ _ _ _ ih => exact ih
  | stat y _ ih => exact ih
  | wide c n d p h1 => omega
  | space h1 => omega

/-- Below level 3 acts of the blocks leave everything of `Kept` as it is. -/
theorem Acts.kept (h : Acts w s t) (hw : w < 3) : Kept s t := by
  obtain ⟨h1, h2, h3, h4, h5⟩ := h.below3 hw
  obtain ⟨k1, k2, k3, _⟩ := h.same
  exact ⟨k1, k2, k3, h1, h2, h3, h4, h5⟩

/-- At level 0 the zones' records but for their states, the arbiter's caps, holds and forces, the load record's wishes and
the Air Path Unit's mode, permit and forces stand too. -/
theorem Acts.below1 (h : Acts w s t) (hw : w < 1) :
    (∀ z, (t.zones.get z).core = (s.zones.get z).core) ∧ t.arb.core = s.arb.core ∧ t.budget.core = s.budget.core
      ∧ t.air.core = s.air.core := by
  induction h with
  | refl => exact ⟨fun _ => rfl, rfl, rfl, rfl⟩
  | post k p _ _ ih => simpa using ih
  | unit a b r d _ u ih =>
    obtain ⟨k1, k2, k3⟩ := u.low.resolve_left (by omega)
    exact ⟨ih.1, k1.trans ih.2.1, k2.trans ih.2.2.1, k3.trans ih.2.2.2⟩
  | rest z k f n _ h4 _ _ ih => exact ⟨fun i => ((h4.resolve_left (by omega)) i).trans (ih.1 i), ih.2⟩
  | stat y _ ih => exact ih
  | wide c n d p h1 => omega
  | space h1 => omega

/-- Every door stays open or CLOSED as it is. -/
theorem Acts.doors (h : Acts w s t) (i : DoorId) : (t.doors.get i).state.isOpen = (s.doors.get i).state.isOpen := by
  induction h with
  | refl => rfl
  | post k p _ _ ih => simpa using ih
  | unit a b r d _ _ ih => exact ih
  | rest z k f n _ _ _ _ ih => exact ih
  | stat y _ ih => exact ih
  | wide c n d p _ _ _ hd _ ih => exact (hd i).trans ih
  | space _ _ ih => exact ih

/-- Acts of the blocks keep the law of the load. -/
theorem Acts.loadLaw (h : Acts w s t) (k : LoadLaw s) : LoadLaw t := by
  induction h with
  | refl => exact k
  | post k p _ _ ih => simpa [LoadLaw] using ih
  | unit a b r d _ u ih => exact u.load ih
  | rest z k f n _ _ _ _ ih => exact ih
  | stat y _ ih => exact ih
  | wide c n d p _ _ _ _ _ ih => exact ih
  | space _ _ ih => exact ih

/-- Acts of the blocks leave a compressor in OFF_LOCKED there, and below level 3 one in LOCKOUT (R38, R47). -/
theorem Acts.staysDown (h : Acts w s t) : StaysDown w s.arb.comp t.arb.comp := by
  induction h with
  | refl => exact staysDown_rfl _
  | post k p _ _ ih => simpa using ih
  | unit a b r d _ u ih => exact ih.trans u.down
  | rest z k f n _ _ _ _ ih => exact ih
  | stat y _ ih => exact ih
  | wide c n d p _ _ _ _ _ ih => exact ih
  | space _ _ ih => exact ih

/-- Acts of the blocks keep the fans at their conditions. -/
theorem Acts.fansFollow (h : Acts w s t) (k : FansFollow s) : FansFollow t := by
  induction h with
  | refl => exact k
  | post k p _ _ ih => simpa [FansFollow] using ih
  | unit a b r d _ u ih => exact u.fans ih
  | rest z k f n _ _ _ _ ih => exact ih
  | stat y _ ih => exact ih
  | wide c n d p _ _ _ _ _ ih => exact ih
  | space _ _ ih => exact ih

/-- Acts of the blocks keep the law of the arbiter. -/
theorem Acts.arbLaw (h : Acts w s t) (k : ArbLaw s.arb) : ArbLaw t.arb := by
  induction h with
  | refl => exact k
  | post k p _ _ ih => simpa using ih
  | unit a b r d _ u ih => exact u.arb ih
  | rest z k f n _ _ _ _ ih => exact ih
  | stat y _ ih => exact ih
  | wide c n d p _ _ _ _ _ ih => exact ih
  | space _ _ ih => exact ih

/-- Below level 5 they keep the law of the heater. -/
theorem Acts.heaterLaw (h : Acts w s t) (hw : w < 5) (a : ArbLaw s.arb) (k : HeaterLaw s) : HeaterLaw t := by
  induction h with
  | refl => exact k
  | post k p _ _ ih => simpa [HeaterLaw] using ih
  | unit a b r d g u ih => exact u.heat (g.arbLaw ‹_›) ih
  | rest z k f n _ _ _ _ ih => exact ih
  | stat y _ ih => exact ih
  | wide c n d p _ _ _ _ hc ih =>
    have e := hc.resolve_left (by omega)
    exact heaterLaw_congr ih e rfl rfl rfl rfl
  | space _ _ ih => exact ih

/-- A change of the notices that loses and adds no tag. -/
theorem queueMid_perm {e : List Byte} {s t : State} (h : QueueMid e s) (hs : t.sched.seat = s.sched.seat)
    (hn : (noticeTags t).Perm (noticeTags s)) : QueueMid e t := by
  simp only [Scheduler.seat, Prod.mk.injEq] at hs
  obtain ⟨h1, h2, h3⟩ := hs
  obtain ⟨k1, k2, k3, k4, k5⟩ := h
  refine ⟨by rw [h1]; exact k1, by simpa only [Scheduler.Serves, h1, h3] using k2, ?_, by rw [h2]; exact k4, by rw [h2]; exact k5⟩
  rw [h2]
  refine k3.trans ?_
  unfold Scheduler.linkTags
  rw [h1]
  exact (hn.symm.append_left _).append_right _

/-- Below level 4 they keep the law of the conversion queue. -/
theorem Acts.queueMid {e : List Byte} (h : Acts w s t) (hw : w < 4) (k : QueueMid e s) : QueueMid e t := by
  induction h with
  | refl => exact k
  | @post t q p _ hk ih =>
    refine queueMid_perm ih (by simp) ?_
    rcases postNotice_tags t q p with ⟨_, n⟩ | ⟨_, n⟩
    · simpa [hk.resolve_left (by omega)] using n
    · exact n
  | unit a b r d _ u ih => exact ih
  | rest z k f n _ _ _ hq ih => exact (hq.resolve_left (by omega)) _ ih
  | stat y _ ih => exact ih
  | wide c n d p _ _ hn _ _ ih => exact queueMid_congr ih rfl (by unfold noticeTags noticeKeys; simp [hn.1, hn.2])
  | space _ _ ih => exact ih

theorem doorsKnown_of {s t : State} (k : DoorsKnown s)
    (h : t.air.leftDoor = s.air.leftDoor ∧ t.air.rightDoor = s.air.rightDoor ∧ t.air.drawerDoor = s.air.drawerDoor
      ∧ t.air.freezerDoor = s.air.freezerDoor)
    (hd : ∀ i, (t.doors.get i).state.isOpen = (s.doors.get i).state.isOpen) : DoorsKnown t := by
  obtain ⟨h1, h2, h3, h4⟩ := h
  obtain ⟨k1, k2, k3, k4⟩ := k
  exact ⟨by rw [h1, k1]; exact (hd .left).symm, by rw [h2, k2]; exact (hd .right).symm,
    by rw [h3, k3]; exact (hd .drawer).symm, by rw [h4, k4]; exact (hd .freezer).symm⟩

/-- Below level 5 the Air Path Unit keeps the mode of the part. -/
theorem Acts.airMode (h : Acts w s t) (hw : w < 5) (k : s.air.mode = s.ctl.mode) : t.air.mode = t.ctl.mode := by
  induction h with
  | refl => exact k
  | post q p _ _ ih => simpa using ih
  | unit a b r d _ u ih => exact u.mode.elim (fun e => e.trans ih) id
  | rest z q f n _ _ _ _ ih => exact ih
  | stat y _ ih => exact ih
  | wide c n d p _ _ _ _ hc ih => exact ih.trans (hc.resolve_left (by omega)).symm
  | space _ _ ih => exact ih

/-- What acts of the blocks at any level keep of the law of the air paths. -/
theorem Acts.airPaths (h : Acts w s t) (k : FansFollow s ∧ DoorsKnown s) : FansFollow t ∧ DoorsKnown t := by
  obtain ⟨_, _, _, _, _, _, _, h1, h2, h3, h4⟩ := h.same
  exact ⟨h.fansFollow k.1, doorsKnown_of k.2 ⟨h1, h2, h3, h4⟩ h.doors⟩

/-- Acts of the blocks that leave the mode keep the law of the air paths. -/
theorem Acts.airLaw (h : Acts w s t) (hw : w < 5) (k : AirLaw s) : AirLaw t :=
  ⟨(h.airPaths ⟨k.1, k.2.1⟩).1, (h.airPaths ⟨k.1, k.2.1⟩).2, h.airMode hw k.2.2⟩

/-- What the link keeps within an event: one notice a key, at most 4 replies, a frame boundary noted only for an idle
transmitter, and no reply beside an idle transmitter without one. -/
def LinkMid (s : State) : Prop :=
  (noticeKeys s).Nodup ∧ s.link.replies.length ≤ Config.maxReplies ∧ (s.link.boundary = true → s.link.tx = none)
    ∧ (s.link.tx = none → s.link.replies = [] ∨ s.link.boundary = true)

theorem linkMid_choice {s : State} (hn : (noticeKeys s).Nodup) (hr : s.link.replies.length ≤ Config.maxReplies) :
    LinkMid (transmitChoice s) :=
  ⟨transmitChoice_nodup s hn, le_trans (transmitChoice_replies s) hr, by simp, fun h => Or.inl (transmitChoice_idle s h)⟩

theorem linkMid_post {s : State} (k : NoticeKey) (p : List Byte) (h : LinkMid s) : LinkMid (postNotice s k p) := by
  have hn := postNotice_nodup s k p h.1
  rcases postNotice_cases s k p with ⟨_, e⟩ | ⟨_, e⟩ | ⟨_, e⟩ | ⟨ht, e⟩
  · rw [e]; exact h
  · rw [e] at hn ⊢; exact ⟨hn, h.2⟩
  · rw [e]
    exact linkMid_choice (file_nodup s.notice k p h.1) h.2.1
  · rw [e] at hn ⊢; exact ⟨hn, h.2.1, fun _ => ht, fun _ => Or.inr rfl⟩

/-- Acts of the blocks keep what the link keeps within an event. -/
theorem Acts.linkMid (h : Acts w s t) (k : LinkMid s) : LinkMid t := by
  induction h with
  | refl => exact k
  | post k p _ _ ih => exact linkMid_post k p ih
  | unit a b r d _ _ ih => exact ih
  | rest z k f n _ _ _ _ ih => exact ih
  | stat y _ ih => exact ih
  | wide c n d p _ _ hn _ _ ih =>
    refine ⟨?_, ih.2⟩
    have := ih.1
    simpa [noticeKeys, hn.1, hn.2] using this
  | space _ _ ih =>
    refine ⟨ih.1, ih.2.1, ?_, ?_⟩
    · intro hb
      simp only [endSpacing, State.onLink_link, Bool.or_eq_true, Option.isNone_iff_eq_none] at hb ⊢
      exact hb.elim id ih.2.2.1
    · intro ht
      right
      simp only [endSpacing, State.onLink_link] at ht ⊢
      simp [ht]

/-- Acts of the blocks never add a reply. -/
theorem Acts.replies (h : Acts w s t) : t.link.replies.length ≤ s.link.replies.length := by
  induction h with
  | refl => exact le_refl _
  | post k p _ _ ih => exact le_trans (postNotice_replies _ k p) ih
  | unit a b r d _ _ ih => exact ih
  | rest z k f n _ _ _ _ ih => exact ih
  | stat y _ ih => exact ih
  | wide c n d p _ _ hn _ _ ih => exact ih
  | space _ _ ih => exact ih

/-- While a frame is in transmission, acts of the blocks leave the transmitter and the reply list as they are. -/
theorem Acts.busy (h : Acts w s t) (hb : s.link.tx ≠ none) :
    t.link.tx = s.link.tx ∧ t.link.replies = s.link.replies ∧ t.link.boundary = s.link.boundary := by
  induction h with
  | refl => exact ⟨rfl, rfl, rfl⟩
  | @post t k p _ _ ih =>
    have ht : t.link.tx.isSome = true := by rw [ih.1]; exact Option.isSome_iff_ne_none.2 hb
    unfold postNotice
    dsimp only
    split
    · exact ih
    · simp only [State.onNotice_link, ht, if_true]; exact ih
  | unit a b r d _ _ ih => exact ih
  | rest z k f n _ _ _ _ ih => exact ih
  | stat y _ ih => exact ih
  | wide c n d p _ _ _ _ _ ih => exact ih
  | @space t _ _ ih =>
    have ht : t.link.tx.isNone = false := by
      rw [ih.1]; cases h : s.link.tx <;> simp_all
    refine ⟨ih.1, ih.2.1, ?_⟩
    simpa [endSpacing, ht] using ih.2.2

/-- A transmit choice of an idle transmitter loses no reply. -/
theorem carries_choice {s : State} {f : Frame} (ht : s.link.tx = none) (h : Carries s f) : Carries (transmitChoice s) f := by
  rcases h with ⟨r, hr, hf⟩ | ⟨x, hx, _⟩
  · rcases transmitChoice_cases s with ⟨r', l, e, k⟩ | ⟨e, k⟩
    · rw [e] at hr
      rcases List.mem_cons.1 hr with rfl | hr
      · right; rw [k]; exact ⟨_, rfl, hf⟩
      · left; rw [k]; exact ⟨r, hr, hf⟩
    · rw [e] at hr; simp at hr
  · rw [ht] at hx; simp at hx

theorem carries_post {s : State} {f : Frame} (k : NoticeKey) (p : List Byte) (h : Carries s f) :
    Carries (postNotice s k p) f := by
  rcases postNotice_cases s k p with ⟨_, e⟩ | ⟨_, e⟩ | ⟨ht, e⟩ | ⟨_, e⟩ <;> rw [e]
  · exact h
  · exact h
  · exact carries_choice ht h
  · exact h

/-- Acts of the blocks lose no reply. -/
theorem Acts.carries {f : Frame} (h : Acts w s t) (k : Carries s f) : Carries t f := by
  induction h with
  | refl => exact k
  | post k p _ _ ih => exact carries_post k p ih
  | unit a b r d _ _ ih => exact ih
  | rest z k f n _ _ _ _ ih => exact ih
  | stat y _ ih => exact ih
  | wide c n d p _ _ hn _ _ ih => exact ih
  | space _ _ ih => exact ih

end

end Sys2Proof.Machine
end

