-- ==== Sys2Proof/Laws/Link.lean ====
section
/-! SUPPORT. The requests at their execution as acts of the blocks, and the law of the link: each function of the link keeps
the records of R190, and the end of a command establishes the whole law. -/

namespace Sys2Proof.Machine

/-! ### Requests and resets -/

section
variable {s x : State}

theorem acts_restartIdle : Acts 3 x (restartIdle x) := by
  unfold restartIdle
  split
  · exact acts_onCtl _ (fun _ => rfl) (le_refl 3) .refl
  · exact .refl

/-- The changes of mode that the part makes (R171 to R174). -/
inductive ModeStep : Mode → Mode → Prop
  | start : ModeStep .hold .run
  | stop : ModeStep .run .hold
  | enter : ModeStep .hold .service
  | leave : ModeStep .service .hold

/-- What the execution of a request can be: acts of the blocks, a change of mode, or a RESET taken (R176). -/
inductive Runs (x : State) : Answer → Prop
  | acts {a} : Acts 3 x a.1 → Runs x a
  | mode (m : Mode) (p : List Byte) : ModeStep x.ctl.mode m → Runs x (setMode x m, p)
  | reset : Runs x (doReset x)

/-- The mode requests. -/
theorem runs_modes : Runs x (doStart x) ∧ Runs x (doStop x) ∧ Runs x (doServiceEnter x) ∧ Runs x (doServiceExit x) := by
  refine ⟨?_, ?_, ?_, ?_⟩
  · unfold doStart; split
    · rename_i hm; exact .mode .run _ (by rw [hm]; exact .start)
    · exact .acts .refl
  · unfold doStop; split
    · rename_i hm; exact .mode .hold _ (by rw [hm]; exact .stop)
    · exact .acts (acts_done (acts_onCtl _ (fun _ => rfl) (le_refl 3) .refl))
    · exact .acts .refl
  · unfold doServiceEnter; split
    · rename_i hm; exact .mode .service _ (by rw [hm]; exact .enter)
    · exact .acts .refl
  · unfold doServiceExit; split
    · rename_i hm; exact .mode .hold _ (by rw [hm]; exact .leave)
    · exact .acts .refl

/-- The owner of a request acts by acts of its block, changes the mode, or takes a RESET (R176). -/
theorem runs_handle (f : Frame) : Runs x (handle x f) := by
  unfold handle
  split
  · exact .acts (acts_answer _ .refl)
  · exact runs_modes.1
  · exact runs_modes.2.1
  · exact .reset
  · exact .acts (acts_doSetZone _ _ (by omega) .refl)
  · exact .acts (acts_doGetZone _ .refl)
  · exact .acts (acts_doSetTiming _ (by omega) .refl)
  · exact .acts (acts_doGetArbiter _ .refl)
  · exact .acts (acts_doSetBudget _ (by omega) .refl)
  · exact .acts (acts_answer _ .refl)
  · exact .acts (acts_doSetChannel _ _ (by omega) .refl)
  · exact .acts (acts_doReadChannel _ .refl)
  · exact .acts (acts_doMeasure _ _ .refl)
  · exact .acts (acts_doClearQueue .refl)
  · exact .acts (acts_doSubstitute _ _ (by omega) .refl)
  · exact .acts (acts_doSetDefrost _ (by omega) .refl)
  · exact .acts (acts_answer _ .refl)
  · exact .acts (acts_doDefrost _ (by omega) .refl)
  · exact .acts (acts_doGetFault _ .refl)
  · exact .acts (acts_doClearFault _ (by omega) .refl)
  · exact .acts (acts_doSetNotice _ (by omega) .refl)
  · exact runs_modes.2.2.1
  · exact runs_modes.2.2.2
  · exact .acts (acts_doServiceForce _ _ (by omega) .refl)
  · exact .acts .refl

/-- The execution of a request: a refusal, or what its owner does once the service idle timer is restarted (R197). -/
theorem runs_judge (f : Frame) : (judge x f).1 = x ∨ Runs (restartIdle x) (judge x f) := by
  unfold judge
  split
  · exact Or.inl rfl
  · split
    · exact Or.inr (runs_handle f)
    · exact Or.inl rfl

/-- The execution of a request: acts of the blocks, or a RESET taken. -/
theorem judge_acts (f : Frame) : Acts 5 x (judge x f).1 ∨ judge x f = doReset (restartIdle x) := by
  have h := runs_judge (x := x) f
  rcases h with h | h
  · rw [h]; exact Or.inl .refl
  · generalize judge x f = a at h
    have k := (acts_restartIdle (x := x)).widen (w := 5) (by omega)
    cases h with
    | acts h => exact Or.inl (k.trans (h.widen (by omega)))
    | mode m p _ => exact Or.inl (acts_setMode m (le_refl 5) k)
    | reset => exact Or.inr rfl

theorem acts_recheck (a : State) {w : Nat} (h : Acts w s x) : Acts w s (recheck a x) := by
  unfold recheck; split
  · exact acts_feedingCheck h
  · exact h

end

/-! ### Resets -/

section
variable (s : State)

theorem freshState_air : AirLaw (freshState s) := by
  refine ⟨⟨⟨rfl, rfl, rfl, rfl⟩, rfl⟩, ⟨rfl, rfl, rfl, rfl⟩, rfl⟩

theorem freshState_load : LoadLaw (freshState s) := by
  have hb : Budget.reset.sum + Config.reserve ≤ Budget.reset.inForce := by decide
  exact ⟨⟨hb, by simp [freshState, State.base, Budget.reset], by simp [freshState, State.base, Budget.reset],
    by simp [freshState, State.base, Budget.reset]⟩, Or.inr ⟨rfl, rfl⟩, le_refl 0⟩

/-- Everything after the blocks' values of a commanded reset is acts of the blocks (R176, R168, R132). -/
theorem commanded_acts : Acts 2
    { freshState s with ctl := Control.reset .commanded, defrost := s.defrost.kept, fault := s.fault.kept }
    (commanded s) := by
  unfold commanded
  dsimp only
  have h1 := acts_postStatus (w := 2) .reset (Acts.refl (w := 2)
    (s := { freshState s with ctl := Control.reset .commanded, defrost := s.defrost.kept, fault := s.fault.kept }))
  have h2 := fun (c : Prop) [Decidable c] => acts_ite c (acts_postFault .reset none h1) h1
  unfold ownersEnds
  dsimp only
  refine acts_dueTest (le_refl 2) (acts_endFault _ _ (acts_ite _ (acts_endFault _ _ (acts_ite _ (acts_endFault _ _ (acts_endFault _ _
    (h2 _))) (acts_endFault _ _ (h2 _)))) (acts_ite _ (acts_endFault _ _ (acts_endFault _ _ (h2 _)))
    (acts_endFault _ _ (h2 _)))))

theorem powerOn_acts : Acts 2 (freshState s) (powerOn s) := acts_postStatus _ .refl

theorem kept_air : AirLaw
    { freshState s with ctl := Control.reset .commanded, defrost := s.defrost.kept, fault := s.fault.kept } := by
  refine ⟨⟨⟨rfl, rfl, rfl, rfl⟩, rfl⟩, ⟨rfl, rfl, rfl, rfl⟩, rfl⟩

end

/-! ### The link -/

/-- The link's records within an event (R190): what acts of the blocks keep, and the inbound list's order. -/
def LinkIn (s : State) : Prop :=
  LinkMid s ∧ s.link.waiting.length ≤ Config.maxWaiting ∧ (s.link.place = none → s.link.waiting = [])

section
variable {s t : State}

theorem LinkLaw.inner (h : LinkLaw s) : LinkIn s := by
  obtain ⟨h1, h2, h3, h4, h5, h6, _⟩ := h
  exact ⟨⟨h1, h2, by simp [h5], fun k => Or.inl (h6 k)⟩, h3, h4⟩

theorem Acts.linkIn {w : Nat} (h : Acts w s t) (k : LinkIn s) : LinkIn t := by
  obtain ⟨_, _, _, _, h5, h6, _⟩ := h.same
  exact ⟨h.linkMid k.1, by rw [h6]; exact k.2.1, by rw [h5, h6]; exact k.2.2⟩

theorem linkIn_choice (h : LinkIn s) : LinkIn (transmitChoice s) :=
  ⟨linkMid_choice h.1.1 h.1.2.1, by simpa using h.2.1, by simpa using h.2.2⟩

theorem linkIn_settle (h : LinkIn s) : LinkIn (settleLink s) := by
  unfold settleLink; split
  · exact linkIn_choice h
  · exact h

theorem settle_boundary (h : LinkIn s) : (settleLink s).link.boundary = false := by
  unfold settleLink; split
  · simp
  · rename_i hc
    cases hb : s.link.boundary
    · rfl
    · exact absurd (by simp [hb, h.1.2.2.1 hb]) hc

theorem linkIn_append (f : Frame) (k : ReplyKind) (hr : s.link.replies.length < Config.maxReplies) (h : LinkIn s) :
    LinkIn (appendReply s f k) := by
  refine ⟨⟨h.1.1, ?_, ?_, ?_⟩, h.2⟩
  · simpa [appendReply] using hr
  · intro hb
    simp only [appendReply, State.onLink_link, Bool.or_eq_true, Option.isNone_iff_eq_none] at hb ⊢
    exact hb.elim id h.1.2.2.1
  · intro ht
    right
    simp only [appendReply, State.onLink_link] at ht ⊢
    simp [ht]

theorem linkIn_judge (f : Frame) (h : LinkIn s) :
    LinkIn (judge s f).1 ∧ (judge s f).1.link.replies.length ≤ s.link.replies.length := by
  rcases judge_acts (x := s) f with k | k
  · exact ⟨k.linkIn h, k.replies⟩
  · have hr := (acts_restartIdle (x := s))
    have hi := hr.linkIn h
    rw [k]
    refine ⟨⟨hi.1, Nat.zero_le _, fun _ => rfl⟩, ?_⟩
    exact hr.replies

theorem linkIn_execute (f : Frame) (hr : s.link.replies.length < Config.maxReplies) (h : LinkIn s) :
    LinkIn (execute s f) := by
  obtain ⟨k, kr⟩ := linkIn_judge f h
  exact linkIn_append _ _ (lt_of_le_of_lt kr hr) ⟨k.1, k.2.1, fun e => absurd e (by simp)⟩

theorem linkIn_ready (h : LinkIn s) : LinkIn (executeReady s) := by
  unfold executeReady
  split
  · split
    · rename_i hc; exact linkIn_execute _ hc.2 h
    · exact h
  · exact h

/-- A READY request executed is ANSWERED; one not executed finds the reply list full. -/
theorem ready_cases (s : State) :
    (∃ p ∈ (executeReady s).link.place, p.answered = true)
    ∨ (executeReady s = s ∧ ∀ p ∈ s.link.place, p.answered = false → Config.maxReplies ≤ s.link.replies.length) := by
  unfold executeReady
  split
  · rename_i p hp
    split
    · exact Or.inl ⟨_, rfl, rfl⟩
    · rename_i hc
      right
      refine ⟨rfl, fun q hq ha => ?_⟩
      rw [hp] at hq
      obtain rfl : p = q := by simpa using hq
      exact not_lt.1 fun hl => hc ⟨ha, hl⟩
  · rename_i hp
    exact Or.inr ⟨rfl, by simp [hp]⟩

theorem linkIn_recheck (a : State) (h : LinkIn s) : LinkIn (recheck a s) := (acts_recheck a (w := 2) .refl).linkIn h

@[simp] theorem feedingMoved_self (s : State) : feedingMoved s s = false := by simp [feedingMoved]

@[simp] theorem recheck_self (s : State) : recheck s s = s := by simp [recheck]

theorem settleLink_of (h : s.link.boundary = false) : settleLink s = s := by simp [settleLink, h]

/-- The end of a command establishes the law of the link. -/
theorem finish_link (a : State) (h : LinkIn t) : LinkLaw (finish a t) := by
  unfold finish
  dsimp only
  have hu := linkIn_settle (linkIn_recheck a h)
  have hb := settle_boundary (linkIn_recheck a h)
  generalize settleLink (recheck a t) = u at hu hb ⊢
  have hv := linkIn_recheck u (linkIn_ready hu)
  have hw := linkIn_settle hv
  have hwb := settle_boundary hv
  refine ⟨hw.1.1, hw.1.2.1, hw.2.1, hw.2.2, hwb, fun ht => ?_, ?_⟩
  · exact (hw.1.2.2.2 ht).resolve_right (by simp [hwb])
  · rcases ready_cases u with ⟨p, hp, ha⟩ | ⟨e, hr⟩
    · intro q hq hn
      have hs : (settleLink (recheck u (executeReady u))).link.place = (executeReady u).link.place := by
        have k := (acts_recheck u (w := 2) (Acts.refl (s := executeReady u))).same.2.2.2.2.1
        rw [← k]
        unfold settleLink; split <;> simp
      rw [hs] at hq
      have : q = p := by
        simp only [Option.mem_def] at hq hp
        rw [hp] at hq; exact (Option.some.inj hq).symm
      subst this
      rw [ha] at hn; exact absurd hn (by decide)
    · rw [e, recheck_self, settleLink_of hb]
      exact hr

theorem linkIn_handFrame (f : Frame) (h : LinkIn s) : LinkIn (handFrame s f) := by
  unfold handFrame
  split
  · exact h
  · split
    · exact linkIn_ready ⟨h.1, h.2.1, fun e => absurd e (by simp)⟩
    · split
      · rename_i p hp hw
        refine ⟨h.1, by simpa using hw, fun e => ?_⟩
        simp only [State.onLink_link] at e
        rw [hp] at e; exact absurd e (by simp)
      · unfold busyReply; split
        · rename_i hr; exact linkIn_append _ _ hr h
        · exact h

theorem linkIn_rx (r : Receiver) (h : LinkIn s) : LinkIn (s.onLink fun l => { l with rx := r }) := h

theorem linkIn_moveUp (h : LinkIn s) : LinkIn (moveUp s) := by
  unfold moveUp
  split
  · rename_i f rest hw
    refine linkIn_ready ⟨h.1, ?_, fun e => absurd e (by simp)⟩
    have := h.2.1
    simp only [hw, List.length_cons] at this
    simp only [State.onLink_link]; omega
  · rename_i hw
    exact ⟨h.1, h.2.1, fun _ => hw⟩

/-- The transmitter freed and its choice made (R192). -/
theorem linkIn_boundary (h : LinkIn s) : LinkIn (transmitChoice (s.onLink fun l => { l with tx := none })) :=
  ⟨linkMid_choice h.1.1 h.1.2.1, by simpa using h.2.1, by simpa using h.2.2⟩

theorem linkIn_fresh (s : State) : LinkIn (freshState s) := by
  refine ⟨⟨by simp [noticeKeys, freshState, State.base, NoticeUnit.reset], ?_, ?_, ?_⟩, ?_, ?_⟩ <;>
    simp [freshState, State.base, Link.reset]

theorem msTick_eq (s : State) : (msTick s).doors = s.doors.tick ∧ (msTick s).budget = s.budget ∧ (msTick s).link = s.link.tick
    ∧ (msTick s).notice.urgent = s.notice.urgent ∧ (msTick s).notice.routine = s.notice.routine
    ∧ (msTick s).defrost.heater = s.defrost.heater
    ∧ ((msTick s).air = s.air ∨ (msTick s).air = { s.air with damper := s.air.damper.tick })
    ∧ ((msTick s).arb.comp = s.arb.comp ∨ (msTick s).arb.comp = s.arb.comp.tick) := by
  unfold msTick
  dsimp only
  split
  · exact ⟨rfl, rfl, rfl, rfl, rfl, rfl, Or.inr rfl, Or.inr rfl⟩
  · exact ⟨rfl, rfl, rfl, rfl, rfl, rfl, Or.inl rfl, Or.inl rfl⟩

/-- A millisecond keeps the law of the link. -/
theorem tick_link (s : State) (h : LinkLaw s) : LinkLaw (tick s) := by
  obtain ⟨_, _, h3, h4, h5, _, _, _⟩ := msTick_eq s
  have e : (tick s).link = s.link.tick := h3
  obtain ⟨k1, k2, k3, k4, k5, k6, k7⟩ := h
  refine ⟨?_, by rw [e]; exact k2, by rw [e]; exact k3, by rw [e]; exact k4, by rw [e]; exact k5, ?_, by rw [e]; exact k7⟩
  · have : noticeKeys (tick s) = noticeKeys s := by
      change noticeKeys (msTick s) = _
      unfold noticeKeys; rw [h4, h5]
    rw [this]; exact k1
  · rw [e]
    intro ht
    exact k6 (by simpa [Link.tick] using ht)

end

end Sys2Proof.Machine
end

