-- ==== Sys2Proof/Laws/ModeLaw.lean ====
section
/-! SUPPORT. A change of mode keeps the law of the heater (R59, R60, R129, R130, R170, R173). -/

namespace Sys2Proof.Machine

/-! ### What leaves the lists, the hold and an OFF heater as they are -/

/-- What stands while the load settles and the compressor stops: the lists, the hold, the heater's use, an OFF heater
without a claim, and the claim that the heater's state asks for. -/
structure Calm (s t : State) : Prop where
  list : t.arb.list = s.arb.list
  grant : t.arb.grant = s.arb.grant
  hold : t.arb.hold = s.arb.hold
  use : t.defrost.use = s.defrost.use
  off : s.defrost.heater = .off → s.budget.heater = .none_ → t.defrost.heater = .off ∧ t.budget.heater = .none_
  claim : s.budget.heater = s.defrost.heater.claim → t.budget.heater = t.defrost.heater.claim

section
variable {s t u x : State}

theorem Calm.refl : Calm s s := ⟨rfl, rfl, rfl, rfl, fun a b => ⟨a, b⟩, id⟩

theorem Calm.trans (h : Calm s t) (k : Calm t u) : Calm s u :=
  ⟨k.list.trans h.list, k.grant.trans h.grant, k.hold.trans h.hold, k.use.trans h.use,
    fun a b => k.off (h.off a b).1 (h.off a b).2, fun a => k.claim (h.claim a)⟩

theorem calm_evalAim : Calm s (evalAim s) := by
  have h : (evalAim s).arb.list = s.arb.list ∧ (evalAim s).budget.heater = s.budget.heater := by
    unfold evalAim stepDown beginStep
    split
    · split
      · exact ⟨rfl, rfl⟩
      · split
        · have := claimLevel_seat (x := s) (s.arb.comp.level + 1)
          simp only [Arbiter.seat, Prod.mk.injEq] at this
          exact ⟨this.1, by simp⟩
        · split <;> exact ⟨rfl, rfl⟩
    · split <;> exact ⟨rfl, rfl⟩
  obtain ⟨⟨_, _, h3, h4, h5⟩, h6⟩ := still_evalAim s
  exact ⟨h.1, h3, h4, h5, fun a b => ⟨by rw [h6]; exact a, h.2.trans b⟩, fun a => by rw [h6]; exact h.2.trans a⟩

theorem calm_settleFrom (b : Budget) : Calm s (settleFrom s b) := by
  have hc : ∀ (x : State) (n : Nat), Calm x (handCap x n) := by
    intro x n; unfold handCap; split
    · exact .refl
    · exact ⟨rfl, rfl, rfl, rfl, fun a b => ⟨a, b⟩, id⟩
  have hr : ∀ x : State, Calm x (reportBudget b x) := by
    intro x; unfold reportBudget; split
    · exact .refl
    · constructor <;> simp
      exact fun a b => ⟨a, b⟩
  unfold settleFrom
  dsimp only
  refine Calm.trans ?_ ((hc _ _).trans ((hr _).trans calm_evalAim))
  split
  · rename_i hd
    have hw := heaterDue_waiting hd
    constructor <;> simp [heaterOn, postDefrost, airHeater, airInput, hw, settle_heater, hd, Heater.claim]
  · rename_i hd
    exact ⟨rfl, rfl, rfl, rfl, fun a b => ⟨a, (settle_heater _).trans (by rw [if_neg hd]; exact b)⟩,
      fun a => (settle_heater _).trans (by rw [if_neg hd]; exact a)⟩

theorem calm_compStop : Calm s (compStop s) := by
  have hl : ∀ (x : State) (l : Nat), Calm x (reportLevel x l) := by
    intro x l; unfold reportLevel; split
    · exact .refl
    · exact Calm.trans (t := x.onBudget fun b => { b with level := l }) ⟨rfl, rfl, rfl, rfl, fun a b => ⟨a, b⟩, id⟩
        (calm_settleFrom _)
  have hs : ∀ (x : State) (f : Compressor → Compressor) (c : CompState), Calm x (setComp (x.onComp f) c) :=
    fun _ _ _ => ⟨rfl, rfl, rfl, rfl, fun a b => ⟨a, b⟩, id⟩
  unfold compStop
  split
  · unfold compOff
    exact (hs _ _ _).trans (hl _ 0)
  · exact .refl

/-- A heater given up leaves no claim, the lists and the hold as they are (R117, R120, R139). -/
theorem calm_heaterOff (hc : s.budget.heater = s.defrost.heater.claim) :
    (heaterOff s).arb.list = s.arb.list ∧ (heaterOff s).arb.grant = s.arb.grant ∧ (heaterOff s).arb.hold = s.arb.hold
      ∧ (heaterOff s).budget.heater = .none_ := by
  have done : ∀ x : State, x.arb = s.arb → x.defrost.heater = .off →
      (budgetChange x fun b => { b with heater := .none_ }).arb.list = s.arb.list
        ∧ (budgetChange x fun b => { b with heater := .none_ }).arb.grant = s.arb.grant
        ∧ (budgetChange x fun b => { b with heater := .none_ }).arb.hold = s.arb.hold
        ∧ (budgetChange x fun b => { b with heater := .none_ }).budget.heater = .none_ := by
    intro x ha ho
    have k := calm_settleFrom (s := x.onBudget fun b => { b with heater := .none_ }) x.budget
    have k5 := (k.off ho rfl).2
    obtain ⟨k1, k2, k3, _, _⟩ := k
    rw [← ha]
    exact ⟨k1, k2, k3, k5⟩
  unfold heaterOff
  dsimp only
  split
  · rename_i hh
    rw [hh] at hc
    unfold heaterRelease
    split
    · exact done _ rfl rfl
    · rename_i hn; exact absurd hc hn
  · rename_i hh
    rw [hh] at hc
    unfold heaterCancel
    split
    · exact done _ rfl rfl
    · rename_i hn; exact absurd hc hn
  · rename_i hh
    rw [hh] at hc
    exact ⟨rfl, rfl, rfl, hc⟩

/-! ### The zones at a change of mode -/

/-- What the law of the heater looks at stands in both states, Mode Control aside. -/
structure SameHeat (s t : State) : Prop where
  arb : t.arb = s.arb
  budget : t.budget = s.budget
  seat : t.defrost.seat = s.defrost.seat

theorem SameHeat.trans (h : SameHeat s t) (k : SameHeat t u) : SameHeat s u :=
  ⟨k.arb.trans h.arb, k.budget.trans h.budget, k.seat.trans h.seat⟩

theorem sameHeat_each (f : State → ZoneId → State) (hf : ∀ s z, SameHeat s (f s z)) (s : State) : SameHeat s (eachZone f s) := by
  have key : ∀ (l : List ZoneId) (s : State), SameHeat s (l.foldl f s) := by
    intro l
    induction l with
    | nil => exact fun s => ⟨rfl, rfl, rfl⟩
    | cons z l ih => exact fun s => (hf s z).trans (ih _)
  exact key _ s

/-- The zones' part of a change of mode (R25). -/
theorem sameHeat_zones (o m : Mode) : SameHeat s (modeZones s o m) := by
  unfold modeZones
  split
  · refine sameHeat_each _ (fun s z => ?_) s
    unfold zoneRun; split
    · unfold takeUpWork noteClass; constructor <;> simp
    · exact ⟨rfl, rfl, rfl⟩
  · split
    · refine sameHeat_each _ (fun s z => ?_) s
      unfold zonePause; split
      · exact ⟨rfl, rfl, rfl⟩
      · unfold noteClass; constructor <;> simp
    · exact ⟨rfl, rfl, rfl⟩

/-! ### The blocks at a change of mode -/

/-- No heater, no hold, no entry, no grant and no working defrost. -/
theorem heaterLaw_rest (h1 : s.defrost.heater = .off) (h2 : s.budget.heater = .none_) (h3 : s.arb.hold = false)
    (h4 : s.arb.list = [] ∧ s.arb.grant = none) (h5 : s.defrost.phase.working = false) (h6 : s.defrost.mode = s.ctl.mode) :
    HeaterLaw s :=
  ⟨fun k => absurd h1 k, fun k => absurd (h3.symm.trans k) (by simp), fun _ => ⟨h5, h4⟩, h6, by rw [h1, h2]; rfl⟩

/-- Outside RUN no hold stands, and in HOLD the heater is OFF. -/
theorem HeaterLaw.rest (h : HeaterLaw s) (hm : s.ctl.mode ≠ .run) :
    s.arb.hold = false ∧ (s.defrost.heater ≠ .off → s.defrost.use = some .service ∧ s.ctl.mode = .service) := by
  have hp : ¬ (s.defrost.phase = .heat ∨ s.defrost.phase = .drip) := by
    intro q
    have := (h.2.2.1 hm).1
    rcases q with q | q <;> rw [q] at this <;> cases this
  refine ⟨h.noHold (Or.inr ⟨fun q => hp (Or.inl q), fun q => hp (Or.inr q)⟩), fun k => ?_⟩
  exact (h.1 k).2.resolve_left fun q => hp (Or.inl q.2.1)

/-- No heater, no entry and no grant, and a hold that the Defrost Unit knows of. -/
structure Idle (s : State) : Prop where
  off : s.defrost.heater = .off ∧ s.budget.heater = .none_
  list : s.arb.list = [] ∧ s.arb.grant = none
  hold : s.arb.hold = true → s.defrost.hold = true
  mode : s.defrost.mode = s.ctl.mode
  arb : ArbLaw s.arb

theorem idle_heaterOff (hl : s.arb.list = [] ∧ s.arb.grant = none) (hh : s.arb.hold = true → s.defrost.hold = true)
    (hc : s.budget.heater = s.defrost.heater.claim) (hm : s.defrost.mode = s.ctl.mode) (ha : ArbLaw s.arb) :
    Idle (heaterOff s) := by
  have k := acts_heaterOff (w := 0) (Acts.refl (s := s))
  obtain ⟨_, k2, k3⟩ := k.phase (by omega)
  obtain ⟨c1, c2, c3, c4⟩ := calm_heaterOff hc
  exact ⟨⟨(heaterOff_off s).1, c4⟩, ⟨c1.trans hl.1, c2.trans hl.2⟩, by rw [c3, k2]; exact hh,
    by rw [k3, k.ctl (by omega)]; exact hm, k.arbLaw ha⟩

theorem idle_withdraw (h : Idle s) : Idle (defrostWithdraw s) := by
  have e : defrostWithdraw s = (s.onDefrost fun d => { d with served := false }).onArb fun a =>
      { a with list := a.list.filter fun e => e.requester != .defrost } := by
    unfold defrostWithdraw withdraw
    simp [h.list.2]
  have k := acts_defrostWithdraw (w := 0) (Acts.refl (s := s))
  have ha := k.arbLaw h.arb
  rw [e] at ha ⊢
  exact ⟨h.off, ⟨by simp [h.list.1], h.list.2⟩, h.hold, h.mode, ha⟩

theorem idle_dropHold (h : Idle s) : Idle (holdRelease (s.onDefrost fun d => { d with hold := false }))
    ∧ (holdRelease (s.onDefrost fun d => { d with hold := false })).arb.hold = false := by
  unfold holdRelease
  split
  · have hz : ∀ (x : State) (z : ZoneId), (zoneReleased x z).arb = x.arb ∧ (zoneReleased x z).budget = x.budget
        ∧ (zoneReleased x z).defrost.seat = x.defrost.seat ∧ (zoneReleased x z).ctl = x.ctl := by
      intro x z
      refine ⟨zoneReleased_arb x z, ?_⟩
      unfold zoneReleased
      dsimp only
      split
      · unfold takeUpWork noteClass; simp
      · exact ⟨rfl, rfl, rfl⟩
    generalize hy : (s.onDefrost fun d => { d with hold := false }).onArb (fun a => { a with hold := false }) = y
    have e : select (zoneReleased (zoneReleased y .freezer) .drawer) = zoneReleased (zoneReleased y .freezer) .drawer := by
      have : selectable (zoneReleased (zoneReleased y .freezer) .drawer) = none := by
        unfold selectable Arbiter.eligible
        rw [(hz _ _).1, (hz _ _).1, ← hy]
        simp [h.list.1, bestEntry]
      unfold select
      rw [this]
    rw [e]
    obtain ⟨a1, a2, a3, a4⟩ := hz (zoneReleased y .freezer) .drawer
    obtain ⟨b1, b2, b3, b4⟩ := hz y .freezer
    have d3 := a3.trans b3
    simp only [Defrost.seat, Prod.mk.injEq] at d3
    obtain ⟨d31, _, _, d34, d35⟩ := d3
    have hh : (zoneReleased (zoneReleased y .freezer) .drawer).arb.hold = false := by rw [a1, b1, ← hy]; rfl
    refine ⟨⟨⟨by rw [d31, ← hy]; exact h.off.1, by rw [a2, b2, ← hy]; exact h.off.2⟩, ?_, ?_, ?_, ?_⟩, hh⟩
    · rw [a1, b1, ← hy]; exact h.list
    · rw [hh]; exact fun q => absurd q (by simp)
    · rw [d35, a4, b4, ← hy]; exact h.mode
    · rw [a1, b1, ← hy]; exact (arbLaw_congr rfl).2 h.arb
  · rename_i hn
    have hn' : s.arb.hold = false := by simpa using hn
    exact ⟨⟨h.off, h.list, fun q => absurd (hn'.symm.trans q) (by simp), h.mode, h.arb⟩, hn'⟩

/-- A defrost interrupted with nothing on the list ends in IDLE or DUE, with no hold and no heater (R129). -/
theorem heaterLaw_interrupt (hl : s.arb.list = [] ∧ s.arb.grant = none) (hh : s.arb.hold = true → s.defrost.hold = true)
    (hc : s.budget.heater = s.defrost.heater.claim) (hu : s.defrost.heater ≠ .off → s.defrost.use = some .defrost)
    (hm : s.defrost.mode = s.ctl.mode) (ha : ArbLaw s.arb) : HeaterLaw (interrupt s) := by
  unfold interrupt
  dsimp only
  have k1 : Idle (if s.defrost.use = some .defrost then heaterOff s else s) := by
    split
    · exact idle_heaterOff hl hh hc hm ha
    · rename_i hn
      have ho : s.defrost.heater = .off := by by_contra q; exact hn (hu q)
      exact ⟨⟨ho, by rw [hc, ho]; rfl⟩, hl, hh, hm, ha⟩
  generalize (if s.defrost.use = some .defrost then heaterOff s else s) = y at k1 ⊢
  have k2 : Idle (if s.defrost.phase = .prechill then defrostWithdraw y else y) := by
    split
    · exact idle_withdraw k1
    · exact k1
  generalize (if s.defrost.phase = .prechill then defrostWithdraw y else y) = z at k2 ⊢
  have k3 : Idle (if z.defrost.hold then holdRelease (z.onDefrost fun d => { d with hold := false }) else z)
      ∧ (if z.defrost.hold then holdRelease (z.onDefrost fun d => { d with hold := false }) else z).arb.hold = false := by
    split
    · exact idle_dropHold k2
    · rename_i hn
      refine ⟨k2, ?_⟩
      cases q : z.arb.hold with
      | false => rfl
      | true => exact absurd (k2.hold q) hn
  generalize (if z.defrost.hold then holdRelease (z.onDefrost fun d => { d with hold := false }) else z) = u at k3 ⊢
  obtain ⟨k3, k4⟩ := k3
  have fin : ∀ v : State, v.arb = u.arb → v.budget = u.budget → v.defrost.heater = u.defrost.heater →
      v.defrost.mode = u.defrost.mode → v.ctl = u.ctl → HeaterLaw (becomeIdle v) := by
    intro v e1 e2 e3 e4 e5
    refine (acts_dueTest (w := 2) (le_refl 2) (acts_endFault _ _ (acts_postDefrost .refl))).heaterLaw
      (s := v.onDefrost fun d => { d with phase := .idle }) (by omega) (by show ArbLaw v.arb; rw [e1]; exact k3.arb) ?_
    exact heaterLaw_rest (e3.trans k3.off.1) (by show v.budget.heater = _; rw [e2]; exact k3.off.2)
      (by show v.arb.hold = false; rw [e1]; exact k4) (by show v.arb.list = [] ∧ v.arb.grant = none; rw [e1]; exact k3.list) rfl
      (by show v.defrost.mode = v.ctl.mode; rw [e4, e5]; exact k3.mode)
  split <;> exact fin _ rfl rfl rfl rfl rfl

/-- The blocks' part of a change of mode keeps the law of the heater: `x` is the state before the change, `u` that in which
Mode Control has written the new mode and the zones have acted. -/
theorem heaterLaw_modeBlocks {m : Mode} (hs : ModeStep x.ctl.mode m) (a : ArbLaw x.arb) (h : HeaterLaw x)
    (ha : u.arb = x.arb) (hb : u.budget = x.budget) (hd : u.defrost.seat = x.defrost.seat) (hm : u.ctl.mode = m) :
    HeaterLaw (modeBlocks u x.ctl.mode m) := by
  simp only [Defrost.seat, Prod.mk.injEq] at hd
  obtain ⟨d1, d2, d3, d4, d5⟩ := hd
  -- the law after the Defrost Unit's part suffices
  have fin : ∀ v : State, ArbLaw v.arb → HeaterLaw v → HeaterLaw (budgetChange v fun b => b.setMode m) := fun v q k =>
    (acts_budgetChange_wish (w := 2) (fun b => b.setMode m) (fun _ k => k.setMode m) (by simp)
      (fun b => Budget.setMode_settings b m) (fun b => setMode_claim b m) (by omega) .refl).heaterLaw (by omega) q k
  have rest : x.ctl.mode ≠ .run → (x.defrost.heater = .off) → HeaterLaw (u.onDefrost fun d => { d with mode := m }) := by
    intro hr ho
    refine heaterLaw_rest (d1.trans ho) (by rw [State.onDefrost_budget, hb]; exact h.noClaim ho) ?_ ?_ ?_ hm.symm
    · rw [State.onDefrost_arb, ha]; exact (h.rest hr).1
    · rw [State.onDefrost_arb, ha]; exact (h.2.2.1 hr).2
    · show u.defrost.phase.working = false; rw [d3]; exact (h.2.2.1 hr).1
  generalize ho : x.ctl.mode = o at hs
  cases hs with
  | start =>
    have k := rest (by rw [ho]; decide) (by
      by_contra q; have := ((h.rest (by rw [ho]; decide)).2 q).2; rw [ho] at this; cases this)
    exact fin _ ((acts_evaluate (w := 2) (le_refl 2) .refl).arbLaw (by rw [← ha] at a; exact a))
      ((acts_evaluate (w := 2) (le_refl 2) .refl).heaterLaw (by omega) (by rw [← ha] at a; exact a) k)
  | enter =>
    have k := rest (by rw [ho]; decide) (by
      by_contra q; have := ((h.rest (by rw [ho]; decide)).2 q).2; rw [ho] at this; cases this)
    exact fin _ (by rw [← ha] at a; exact a) k
  | leave =>
    have hr : x.ctl.mode ≠ .run := by rw [ho]; decide
    have hf : u.budget.heater = u.defrost.heater.claim := by rw [hb, d1]; exact h.2.2.2.2
    have c := calm_compStop (s := u.onArb fun a => { a with forcedLevel := none, forcedValve := none })
    have k := acts_compStop (w := 0) (Acts.refl (s := u.onArb fun a => { a with forcedLevel := none, forcedValve := none }))
    change HeaterLaw (budgetChange (defrostMode (compStop (u.onArb fun a => { a with forcedLevel := none, forcedValve := none }))
      .service .hold) fun b => b.setMode .hold)
    have kp : _ = u.defrost.phase ∧ _ := k.phase (by omega)
    have kc : _ = u.ctl := k.ctl (by omega)
    have ka := k.arbLaw (by rw [← ha] at a; exact (arbLaw_congr rfl).2 a)
    generalize compStop (u.onArb fun a => { a with forcedLevel := none, forcedValve := none }) = y at c k kp kc ka ⊢
    have hl : y.arb.list = [] ∧ y.arb.grant = none :=
      ⟨c.list.trans (by rw [State.onArb_arb, ha]; exact (h.2.2.1 hr).2.1),
        c.grant.trans (by rw [State.onArb_arb, ha]; exact (h.2.2.1 hr).2.2)⟩
    have hh : y.arb.hold = false := c.hold.trans (by rw [State.onArb_arb, ha]; exact (h.rest hr).1)
    have hp : y.defrost.phase.working = false := by rw [kp.1, d3]; exact (h.2.2.1 hr).1
    have hmode : Mode.hold = y.ctl.mode := by rw [kc]; exact hm.symm
    unfold defrostMode
    dsimp only
    split
    · have z := idle_heaterOff (s := y.onDefrost fun d => { d with mode := .hold }) hl
        (fun q => absurd (hh.symm.trans q) (by simp)) (c.claim hf) hmode ka
      have c3 := (calm_heaterOff (s := y.onDefrost fun d => { d with mode := .hold }) (c.claim hf)).2.2.1.trans hh
      have p := ((acts_heaterOff (w := 0) (Acts.refl (s := y.onDefrost fun d => { d with mode := .hold }))).phase (by omega)).1
      refine fin _ ((acts_postDefrost (w := 0) .refl).arbLaw z.arb) ((acts_postDefrost (w := 0) .refl).heaterLaw (by omega) z.arb ?_)
      exact heaterLaw_rest z.off.1 z.off.2 c3 z.list (by rw [p]; exact hp) z.mode
    · rename_i hn
      have hoff : u.defrost.heater = .off := by
        by_contra q
        exact hn (c.use.trans (by rw [State.onArb_defrost, d2]; exact ((h.rest hr).2 (by rw [← d1]; exact q)).1))
      obtain ⟨o1, o2⟩ := c.off hoff (by rw [State.onArb_budget, hf, hoff]; rfl)
      exact fin _ ka (heaterLaw_rest o1 o2 hh hl hp hmode)
  | stop =>
    have hf : u.budget.heater = u.defrost.heater.claim := by rw [hb, d1]; exact h.2.2.2.2
    have c := calm_compStop (s := u.onArb fun a => { a with list := [], grant := none })
    have k := acts_compStop (w := 0) (Acts.refl (s := u.onArb fun a => { a with list := [], grant := none }))
    change HeaterLaw (budgetChange (defrostMode (compStop (u.onArb fun a => { a with list := [], grant := none }))
      .run .hold) fun b => b.setMode .hold)
    have kp : _ = u.defrost.phase ∧ _ = u.defrost.hold ∧ _ := k.phase (by omega)
    have kc : _ = u.ctl := k.ctl (by omega)
    have ka := k.arbLaw (arbLaw_sub (a := u.arb) (b := { u.arb with list := [], grant := none }) (by rw [← ha] at a; exact a) rfl rfl
      (List.nil_sublist _) (Or.inl rfl))
    generalize compStop (u.onArb fun a => { a with list := [], grant := none }) = y at c k kp kc ka ⊢
    have hl : y.arb.list = [] ∧ y.arb.grant = none := ⟨c.list, c.grant⟩
    have hh : y.arb.hold = x.arb.hold := c.hold.trans (by rw [State.onArb_arb, ha])
    have hmode : Mode.hold = y.ctl.mode := by rw [kc]; exact hm.symm
    have use : u.defrost.heater ≠ .off → u.defrost.use = some .defrost ∧ u.defrost.phase = .heat := by
      intro q
      rw [d1] at q
      rcases (h.1 q).2 with r | r
      · rw [d2, d3]; exact ⟨r.1, r.2.1⟩
      · exact absurd (ho.symm.trans r.2) (by decide)
    have off : u.defrost.heater = .off → y.defrost.heater = .off ∧ y.budget.heater = .none_ :=
      fun q => c.off q (by rw [State.onArb_budget, hf, q]; rfl)
    unfold defrostMode
    dsimp only
    split
    · refine fin _ ((acts_interrupt (w := 2) ?_ (le_refl 2) .refl).arbLaw ka) (heaterLaw_interrupt hl (fun q => ?_) (c.claim hf)
        (fun q => ?_) hmode ka)
      · assumption
      · show y.defrost.hold = true
        rw [kp.2.1, d4]; exact (h.2.1 (hh.symm.trans q)).1
      · refine c.use.trans (use fun q' => q ?_).1
        exact (off q').1
    · rename_i hw
      have hp : ¬ (x.defrost.phase = .heat ∨ x.defrost.phase = .drip) := by
        rw [kp.1, d3] at hw
        rintro (q | q) <;> rw [q] at hw <;> exact hw rfl
      have hoff : u.defrost.heater = .off := by
        by_contra q
        exact hp (Or.inl (d3.symm.trans (use q).2))
      obtain ⟨o1, o2⟩ := off hoff
      exact fin _ ka (heaterLaw_rest o1 o2
        (hh.trans (h.noHold (Or.inr ⟨fun q => hp (Or.inl q), fun q => hp (Or.inr q)⟩))) hl (by simpa using hw) hmode)

/-- A change of mode keeps the law of the heater. -/
theorem setMode_heaterLaw {m : Mode} (hs : ModeStep x.ctl.mode m) (a : ArbLaw x.arb) (h : HeaterLaw x) :
    HeaterLaw (setMode x m) := by
  have z := sameHeat_zones (s := x.onCtl fun c => c.enter m) x.ctl.mode m
  have zc := (acts_modeZones x.ctl.mode m (le_refl 1) (Acts.refl (s := x.onCtl fun c => c.enter m))).ctl (by omega)
  have hm : (modeZones (x.onCtl fun c => c.enter m) x.ctl.mode m).ctl.mode = m := by rw [zc]; rfl
  have hb := heaterLaw_modeBlocks hs a h z.arb z.budget z.seat hm
  have ab := (acts_modeBlocks (w := 2) x.ctl.mode m hm (le_refl 2) .refl).arbLaw (by rw [z.arb]; exact a)
  rw [setMode_eq]
  exact (acts_postStatus (w := 2) _ (acts_airMode (congrArg Control.mode ((acts_modeBlocks (w := 2) x.ctl.mode m hm (le_refl 2) .refl).ctl (by omega)) |>.trans hm).symm (by omega) .refl)).heaterLaw (by omega) ab hb

end

end Sys2Proof.Machine
end

