-- ==== Sys2Proof/Laws/QueueLaw.lean ====
section
/-! SUPPORT. A completion and the end of a frame keep the law of the conversion queue (R64, R66, R72, R214). -/

namespace Sys2Proof.Machine

section
variable {s : State}

/-- The request of a completed conversion consumed: its tag is in neither the queue nor a notice (R66). -/
theorem queueMid_consume {v : Conversion} (hv : s.sched.conv = some v) (h : QueueLaw s) :
    QueueMid v.tag.toList (s.onSched fun k => k.consume v) := by
  obtain ⟨h1, h2, h3, h4, h5⟩ := h
  obtain ⟨_, v2, v3⟩ := h2 v hv
  refine ⟨?_, fun u hu => absurd hu (by simp [Scheduler.consume]), ?_, h4, h5⟩
  · show ((s.sched.consume v).queue.filter fun q => q.tag.isNone).length ≤ 1
    unfold Scheduler.consume
    dsimp only
    split
    · exact le_trans ((List.erase_sublist.filter _).length_le) h1
    · exact h1
  · show s.sched.tags.Perm ((s.sched.consume v).linkTags ++ noticeTags s ++ v.tag.toList)
    have hl : s.sched.linkTags.Perm (v.tag.toList ++ (s.sched.consume v).linkTags) := by
      unfold Scheduler.consume Scheduler.linkTags
      dsimp only
      split
      · rename_i hs
        have := (List.perm_cons_erase (v3 hs)).filterMap (·.tag)
        rw [List.filterMap_cons] at this
        cases ht : v.tag <;> simpa [ht] using this
      · rename_i hs
        rw [v2 (fun e => hs (Or.inl e))]
        exact List.Perm.refl _
    refine h3.trans ((hl.append_right _).trans ?_)
    rw [List.append_assoc]
    exact List.perm_append_comm

/-- The MEASURE notice takes up the tag of a completed conversion (R72). -/
theorem queueLaw_notice {v : Conversion} (r : Reading) (c : BitVec 12) (h : QueueMid v.tag.toList s) :
    QueueLaw (measureNotice s v r c) := by
  unfold measureNotice
  split
  · rename_i t ht
    rw [ht] at h
    obtain ⟨h1, h2, h3, h4, h5⟩ := h
    have e : (postNotice s (.measure t) (measurePayload v.chan t r c (s.sched.ch.get v.chan).substituted s.uptime)).sched = s.sched := by
      simp
    unfold QueueLaw
    rw [e]
    refine ⟨h1, h2, ?_, h4, h5⟩
    rcases postNotice_tags s (.measure t) (measurePayload v.chan t r c (s.sched.ch.get v.chan).substituted s.uptime)
      with ⟨_, n⟩ | ⟨n, _⟩
    · refine h3.trans ?_
      rw [List.append_assoc]
      exact (List.perm_append_comm.trans n.symm).append_left _
    · exfalso
      have hm : t ∈ noticeTags s := by
        rcases n with n | n
        · exact List.mem_append_left _ (List.mem_filterMap.2 ⟨_, n, rfl⟩)
        · cases n
      exact (List.nodup_append.1 (h3.nodup_iff.1 h4)).2.2 t (List.mem_append_right _ hm) t (by simp) rfl
  · rename_i ht
    rw [ht] at h
    exact queueMid_nil.1 h

/-- A completion keeps the law of the conversion queue. -/
theorem complete_queueLaw {v : Conversion} (hv : s.sched.conv = some v) (c : BitVec 12) (h : QueueLaw s) :
    QueueLaw (complete s v c) := by
  unfold complete
  dsimp only
  refine queueMid_nil.1 (queueMid_startNext (queueMid_nil.2 (queueLaw_notice _ _ ?_)))
  refine (acts_handed (w := 2) v.chan _ _ (le_refl 2) .refl).queueMid (by omega) ?_
  exact queueMid_congr (queueMid_consume hv h) rfl rfl

/-- A completion keeps the law of the heater. -/
theorem complete_heaterLaw {v : Conversion} (c : BitVec 12) (a : ArbLaw s.arb) (h : HeaterLaw s) :
    HeaterLaw (complete s v c) := by
  have k := acts_handed (w := 2) v.chan (s.sched.ch.get v.chan) ((s.sched.ch.get v.chan).reading c) (le_refl 2)
    (Acts.refl (s := (s.onSched fun k => k.consume v).onChannel v.chan fun r => r.record v.source c s.uptime))
  have hk : HeaterLaw (sensorEvents (deliver ((s.onSched fun k => k.consume v).onChannel v.chan fun r =>
      r.record v.source c s.uptime) v.chan ((s.sched.ch.get v.chan).reading c)) v.chan (s.sched.ch.get v.chan)
      ((s.sched.ch.get v.chan).reading c)) := k.heaterLaw (by omega) a h
  unfold complete
  dsimp only
  generalize sensorEvents (deliver _ _ _) _ _ _ = y at hk ⊢
  have hm : HeaterLaw (measureNotice y v ((s.sched.ch.get v.chan).reading c) c) := by
    unfold measureNotice; split
    · simpa [HeaterLaw] using hk
    · exact hk
  exact hm

/-- The tag of a MEASURE notice leaves the set of outstanding tags with its frame (R214). -/
theorem releaseTag_tags {t : Byte} (hx : (s.link.tx.bind fun x => x.what.tag?) = some t) (h : QueueLaw s) :
    (s.sched.tags.filter fun u => u != t).Perm (s.sched.linkTags ++ (noticeKeys s).filterMap NoticeKey.tag?) := by
  obtain ⟨_, _, h3, h4, _⟩ := h
  unfold noticeTags at h3
  rw [hx, Option.toList_some, ← List.append_assoc] at h3
  have hd := (List.nodup_append.1 (h3.nodup_iff.1 h4)).2.2
  refine (h3.filter _).trans ?_
  rw [List.filter_append]
  have e1 : (s.sched.linkTags ++ (noticeKeys s).filterMap NoticeKey.tag?).filter (fun u => u != t)
      = s.sched.linkTags ++ (noticeKeys s).filterMap NoticeKey.tag? :=
    List.filter_eq_self.2 fun u hu => by simpa using fun e => hd u hu t (by simp) e
  rw [e1]
  simp

/-- The end of a frame that carried no MEASURE notice loses no tag (R192). -/
theorem queueLaw_boundary (hx : (s.link.tx.bind fun x => x.what.tag?) = none) (h : QueueLaw s) :
    QueueLaw (transmitChoice (s.onLink fun l => { l with tx := none })) := by
  refine queueMid_nil.1 (queueMid_perm (queueMid_nil.2 h) (by simp) ((choice_tags rfl).trans ?_))
  unfold noticeTags
  rw [hx]
  exact List.Perm.refl _

/-- The end of a MEASURE notice's frame, with its tag released (R214). -/
theorem queueLaw_released {t : Byte} (hx : (s.link.tx.bind fun x => x.what.tag?) = some t) (h : QueueLaw s) :
    QueueLaw (transmitChoice ((releaseTag s t).onLink fun l => { l with tx := none })) := by
  have k := choice_tags (s := (releaseTag s t).onLink fun l => { l with tx := none }) rfl
  have e : (transmitChoice ((releaseTag s t).onLink fun l => { l with tx := none })).sched = (releaseTag s t).sched := by simp
  obtain ⟨h1, h2, _, h4, h5⟩ := id h
  unfold QueueLaw
  rw [e]
  refine ⟨h1, h2, ?_, List.Nodup.filter _ h4, le_trans (List.length_filter_le _ _) h5⟩
  refine (releaseTag_tags hx h).trans ((k.trans ?_).symm.append_left _)
  unfold noticeTags
  simp [releaseTag, noticeKeys]

end

end Sys2Proof.Machine
end

