-- ==== Sys2Proof/Laws/Steps.lean ====
section
/-! SUPPORT. What a command can do, said once: acts of the blocks, a change of mode, a completion, changes of the link that
keep its records, a door event, a reset; and then the end of a command. -/

namespace Sys2Proof.Machine

/-- `Moves w s t`: `t` comes from `s` by what commands do; with `w` true also by what ends OFF_LOCKED: its timer's expiry
and the resets. -/
inductive Moves (w : Bool) (s : State) : State → Prop
  | refl : Moves w s s
  | acts {t u} : Moves w s t → Acts 3 t u → Moves w s u
  | mode {t} (m : Mode) : ModeStep t.ctl.mode m → Moves w s t → Moves w s (setMode t m)
  | complete {t} (v : Conversion) (c : BitVec 12) : t.sched.conv = some v → Moves w s t → Moves w s (complete t v c)
  | link {t} (l : Link) (n : NoticeUnit) (k : Scheduler) : Moves w s t →
      (LinkIn t → LinkIn { t with link := l, notice := n, sched := k }) →
      (QueueLaw t → QueueLaw { t with link := l, notice := n, sched := k }) →
      Moves w s { t with link := l, notice := n, sched := k }
  | change {t} (d : DoorId) (b : Bool) : Moves w s t → Moves w s (t.onDoor d fun r => r.change b)
  | door {t} (d : DoorId) : Moves w s t → Moves w s (debounceDone t d)
  | minOff {t} : w = true → minOffDue t = true → Moves w s t → Moves w s (advance (setComp t .offReady))
  | powerOn {t} : w = true → Moves w s t → Moves w s (powerOn t)
  | commanded {t} : w = true → Moves w s t → Moves w s (commanded t)

section
variable {w : Bool} {s x : State}

/-- A change of the link's records that leaves the frame in transmission as it is. -/
theorem moves_onLink (f : Link → Link) (hx : ∀ l, (f l).tx = l.tx) (hk : LinkIn x → LinkIn (x.onLink f)) (h : Moves w s x) :
    Moves w s (x.onLink f) :=
  .link (f x.link) x.notice x.sched h hk fun q => queueMid_nil.1 (queueMid_congr (queueMid_nil.2 q) rfl (by
    show noticeTags (x.onLink f) = noticeTags x
    unfold noticeTags; rw [State.onLink_link, hx]; rfl))

theorem moves_settleLink (h : Moves w s x) : Moves w s (settleLink x) := by
  have k := linkIn_settle (s := x)
  have q : QueueLaw x → QueueLaw (settleLink x) := by
    unfold settleLink
    split
    · rename_i hc
      simp only [Bool.and_eq_true, Option.isNone_iff_eq_none] at hc
      exact fun q => queueMid_nil.1 (queueMid_perm (queueMid_nil.2 q) (by simp) (choice_tags hc.1))
    · exact id
  rw [settleLink_eq] at k q ⊢
  exact .link _ _ x.sched h k q

theorem moves_append (f : Frame) (k : ReplyKind) (hr : x.link.replies.length < Config.maxReplies) (h : Moves w s x) :
    Moves w s (appendReply x f k) := moves_onLink _ (fun _ => rfl) (linkIn_append f k hr) h

theorem moves_judge (f : Frame) (h : Moves w s x) : Moves w s (judge x f).1 := by
  rcases runs_judge (x := x) f with k | k
  · rw [k]; exact h
  · have hr : Moves w s (restartIdle x) := .acts h acts_restartIdle
    generalize judge x f = a at k
    cases k with
    | acts k => exact .acts hr k
    | mode m p hm => exact .mode m hm hr
    | reset =>
      exact moves_onLink (fun l => { l with resetTaken := true, waiting := [] }) (fun _ => rfl)
        (fun k => ⟨k.1, Nat.zero_le _, fun _ => rfl⟩) hr

/-- An owner's acts never add a reply. -/
theorem judge_replies (f : Frame) : (judge x f).1.link.replies.length ≤ x.link.replies.length := by
  rcases judge_acts (x := x) f with k | k
  · exact k.replies
  · rw [k]; exact (acts_restartIdle (x := x)).replies

theorem moves_execute (f : Frame) (hr : x.link.replies.length < Config.maxReplies) (h : Moves w s x) :
    Moves w s (execute x f) :=
  moves_append _ _ (lt_of_le_of_lt (judge_replies f) hr)
    (moves_onLink _ (fun _ => rfl) (fun k => ⟨k.1, k.2.1, fun e => absurd e (by simp)⟩) (moves_judge f h))

theorem moves_executeReady (h : Moves w s x) : Moves w s (executeReady x) := by
  unfold executeReady
  split
  · split
    · rename_i hc; exact moves_execute _ hc.2 h
    · exact h
  · exact h

theorem moves_handFrame (f : Frame) (h : Moves w s x) : Moves w s (handFrame x f) := by
  unfold handFrame
  split
  · exact h
  · split
    · exact moves_executeReady (moves_onLink _ (fun _ => rfl) (fun k => ⟨k.1, k.2.1, fun e => absurd e (by simp)⟩) h)
    · split
      · rename_i hp hw
        refine moves_onLink _ (fun _ => rfl) (fun k => ⟨k.1, by simpa using hw, fun e => ?_⟩) h
        simp only [State.onLink_link] at e
        rw [hp] at e; exact absurd e (by simp)
      · unfold busyReply; split
        · rename_i hr; exact moves_append _ _ hr h
        · exact h

theorem moves_rx (r : Receiver) (h : Moves w s x) : Moves w s (x.onLink fun l => { l with rx := r }) :=
  moves_onLink _ (fun _ => rfl) (linkIn_rx r) h

theorem moves_takeCharacter (c : Byte) (h : Moves w s x) : Moves w s (takeCharacter x c) := by
  unfold takeCharacter
  dsimp only
  split
  · exact moves_handFrame _ (moves_rx _ h)
  · exact moves_rx _ h

theorem moves_endSpacing (h : Moves w s x) : Moves w s (endSpacing x) := .acts h (.space (le_refl 3) .refl)

theorem moves_recheck (a : State) (h : Moves w s x) : Moves w s (recheck a x) := .acts h (acts_recheck a .refl)

theorem moves_finish (a : State) (h : Moves w s x) : Moves w s (finish a x) :=
  moves_settleLink (moves_recheck _ (moves_executeReady (moves_settleLink (moves_recheck _ h))))

theorem moves_moveUp (h : Moves w s x) : Moves w s (moveUp x) := by
  unfold moveUp
  split
  · rename_i f rest hw
    refine moves_executeReady (moves_onLink _ (fun _ => rfl) (fun k => ⟨k.1, ?_, fun e => absurd e (by simp)⟩) h)
    have := k.2.1
    simp only [hw, List.length_cons] at this
    simp only [State.onLink_link]; omega
  · rename_i hw
    exact moves_onLink _ (fun _ => rfl) (fun k => ⟨k.1, k.2.1, fun _ => hw⟩) h

/-- While a frame is in transmission, the execution of a request leaves it there. -/
theorem execute_tx (f : Frame) (hx : x.link.tx ≠ none) : (execute x f).link.tx = x.link.tx := by
  show (judge x f).1.link.tx = x.link.tx
  rcases judge_acts (x := x) f with k | k
  · exact (k.busy hx).1
  · rw [k]; exact (acts_restartIdle.busy hx).1

theorem moveUp_tx (hx : x.link.tx ≠ none) : (moveUp x).link.tx = x.link.tx := by
  unfold moveUp
  split
  · unfold executeReady
    split
    · split
      · exact execute_tx (x := x.onLink _) _ hx
      · rfl
    · rfl
  · rfl

/-- The transmitter freed and its choice made, after a frame that carried no MEASURE notice (R192). -/
theorem moves_boundary (hx : (x.link.tx.bind fun t => t.what.tag?) = none) (h : Moves w s x) :
    Moves w s (transmitChoice (x.onLink fun l => { l with tx := none })) := by
  have k := linkIn_boundary (s := x)
  have q := queueLaw_boundary hx
  have e := transmitChoice_eq (x.onLink fun l => { l with tx := none })
  generalize transmitChoice (x.onLink fun l => { l with tx := none }) = y at k q e ⊢
  have e' : y = { x with link := y.link, notice := y.notice } := e
  rw [e'] at k q ⊢
  exact .link _ _ x.sched h k q

/-- The same after a MEASURE notice, whose tag is released (R214). -/
theorem moves_released {tag : Byte} (hx : (x.link.tx.bind fun t => t.what.tag?) = some tag) (h : Moves w s x) :
    Moves w s (transmitChoice ((releaseTag x tag).onLink fun l => { l with tx := none })) := by
  have k : LinkIn x → _ := fun k => linkIn_boundary (s := releaseTag x tag) k
  have q := queueLaw_released hx
  have e := transmitChoice_eq ((releaseTag x tag).onLink fun l => { l with tx := none })
  generalize transmitChoice ((releaseTag x tag).onLink fun l => { l with tx := none }) = y at k q e ⊢
  have e' : y = { x with link := y.link, notice := y.notice, sched := (releaseTag x tag).sched } := e
  rw [e'] at k q ⊢
  exact .link _ _ _ h k q

theorem moves_frameSent (hw : (∃ t ∈ x.link.tx, t.what = .reply .reset) → w = true) (h : Moves w s x) :
    Moves w s (frameSent x) := by
  unfold frameSent
  split
  · rename_i t ht
    have hn : x.link.tx ≠ none := by rw [ht]; simp
    split
    · rename_i hr; exact .commanded (hw ⟨t, ht, hr⟩) h
    · cases hk : t.what with
      | reply r =>
        have tag : ∀ y : State, y.link.tx = x.link.tx → (y.link.tx.bind fun t => t.what.tag?) = none := fun y e => by
          rw [e, ht, Option.bind_some, hk]; rfl
        cases r
        · exact moves_boundary (tag _ (moveUp_tx hn)) (moves_moveUp h)
        · exact moves_boundary (tag x rfl) h
        · exact moves_boundary (tag x rfl) h
      | notice key q =>
        have k : Moves w s (x.onLink fun l =>
            { l with spacing := if q = .routine ∧ x.notice.spacing ≠ 0 then some 0 else l.spacing }) :=
          moves_onLink _ (fun _ => rfl) (fun k => ⟨k.1, k.2⟩) h
        have tag : ((x.onLink fun l => { l with spacing := if q = .routine ∧ x.notice.spacing ≠ 0 then some 0 else l.spacing
            }).link.tx.bind fun t => t.what.tag?) = key.tag? := by
          rw [State.onLink_link, ht, Option.bind_some, hk]; rfl
        cases key with
        | measure b => exact moves_released tag k
        | _ => exact moves_boundary tag k
  · exact h

end

/-! ### Every command -/

theorem outcome_moves {w : Bool} {s t u : State} (h : Moves w s t) (e : outcome s t = .next u) :
    ∃ t, Moves w s t ∧ u = finish s t := by
  cases e; exact ⟨t, h, rfl⟩

theorem runWhen_moves {w : Bool} {s t u : State} {b : Bool} (h : b = true → Moves w s t) (e : runWhen s b t = .next u) :
    ∃ t, Moves w s t ∧ u = finish s t := by
  refine outcome_moves ?_ e
  split
  · rename_i hb; exact h hb
  · exact .refl

/-- The commands that can end OFF_LOCKED: the expiry of the minimum off timer, and those that are or may be a reset. -/
def unlocks : Instr → Bool
  | .minOffExpiry => true
  | .powerOnReset => true
  | .commandedReset => true
  | .frameTransmitted => true
  | _ => false

/-- Everything a command can do: its moves, then the end of the command. -/
theorem exec_moves {c : Instr} {s u : State} (e : exec c s = .next u) : ∃ t, Moves (unlocks c) s t ∧ u = finish s t := by
  have act : ∀ {w t}, Acts 3 s t → Moves w s t := fun h => .acts .refl h
  cases c
  case receiveCharacter c => exact outcome_moves (moves_takeCharacter c .refl) e
  case framingError => exact outcome_moves (moves_rx _ .refl) e
  case lineBreak => exact outcome_moves (moves_rx _ .refl) e
  case gapTimeout => exact runWhen_moves (fun _ => moves_rx _ .refl) e
  case frameTransmitted => exact outcome_moves (moves_frameSent (fun _ => rfl) .refl) e
  case routineSpacingEnd => exact runWhen_moves (fun _ => moves_endSpacing .refl) e
  case powerOnReset => exact outcome_moves (.powerOn rfl .refl) e
  case commandedReset => exact runWhen_moves (fun _ => .commanded rfl .refl) e
  case selfStartExpiry =>
    refine runWhen_moves (fun hd => .mode _ ?_ .refl) e
    simp only [Bool.and_eq_true, beq_iff_eq] at hd
    rw [hd.1]; exact .start
  case serviceIdleExpiry =>
    refine runWhen_moves (fun hd => .mode _ ?_ .refl) e
    simp only [Bool.and_eq_true, beq_iff_eq] at hd
    rw [hd.1]; exact .leave
  case statusTimerExpiry => exact runWhen_moves (fun _ => act (acts_postStatus _ .refl)) e
  case offPhaseExpiry z => exact runWhen_moves (fun _ => act (acts_offPhaseEnd z (by omega) .refl)) e
  case onPhaseExpiry z => exact runWhen_moves (fun _ => act (acts_onPhaseEnd z (by omega) .refl)) e
  case minDwellExpiry => exact runWhen_moves (fun _ => act (acts_switchCheck .refl)) e
  case maxWaitExpiry r => exact runWhen_moves (fun _ => act (acts_switchCheck .refl)) e
  case maxRunExpiry => exact runWhen_moves (fun _ => act (acts_switchCheck .refl)) e
  case runSecond => exact runWhen_moves (fun _ => act (acts_runSecond (by omega) .refl)) e
  case minOffExpiry => exact runWhen_moves (fun hd => .minOff rfl hd .refl) e
  case runFeedback =>
    refine outcome_moves (act ?_) e
    split
    · rename_i hs; exact acts_startSuccess hs (acts_onPins _ (le_refl 3) .refl)
    · exact acts_onPins _ (le_refl 3) .refl
  case startWindowEnd =>
    refine runWhen_moves (fun hd => act (acts_fail _ ?_ (by omega) .refl)) e
    simp only [windowEndDue, Bool.and_eq_true, beq_iff_eq] at hd
    simp [hd.1, CompState.turning]
  case stepEnd =>
    refine runWhen_moves (fun hd => ?_) e
    have hs : s.arb.comp.step ≠ none := fun q => by simp [stepDue, q] at hd
    refine act (acts_stepDone _ (fun q => q.resolve_right fun r => hs r.2) ?_ hs .refl)
    unfold Compressor.top
    cases hg : s.arb.comp.step <;> simp
  case runoutEnd => exact runWhen_moves (fun _ => act (acts_compStop .refl)) e
  case trip =>
    have hp : Acts 3 s (feedback s false) := acts_onPins _ (le_refl 3) .refl
    refine outcome_moves (act ?_) e
    split
    · rename_i hr
      exact acts_unserve (acts_fail _ (running_turning hr) (by omega) hp)
    · exact hp
  case failureCountReset => exact runWhen_moves (fun _ => act (acts_onComp_kept _ (by simp) (Or.inl (by omega)) .refl)) e
  case lockoutExpiry =>
    refine runWhen_moves (fun hd => act (acts_lockoutEnd ?_ (le_refl 3) .refl)) e
    simp only [lockoutDue, Bool.and_eq_true, beq_iff_eq] at hd
    exact hd.1
  case endSwitchConfirm p =>
    have hp : Acts 3 s (s.onPins fun k => { k with endSwitch := p }) := acts_onPins _ (le_refl 3) .refl
    refine outcome_moves (act ?_) e
    split
    · rename_i q hq
      unfold confirmed at hq
      split at hq
      · rename_i hv
        split at hq
        · cases hq; exact acts_valveArrive hv hp
        · cases hq
      · cases hq
    · exact hp
  case valveCheckEnd =>
    refine outcome_moves (act ?_) e
    split
    · rename_i q t hq
      unfold valveCheckDue at hq
      split at hq
      · rename_i hv
        cases hq; exact acts_valveMiss hv (by omega) .refl
      · cases hq
    · exact .refl
  case stuckRecoveryExpiry => exact runWhen_moves (fun _ => act (acts_valveRecover .refl)) e
  case conversionComplete c =>
    refine outcome_moves ?_ e
    split
    · rename_i v hv
      split
      · exact .complete v c hv .refl
      · exact .refl
    · exact .refl
  case scanExpiry k => exact runWhen_moves (fun _ => act (acts_scanExpiry k .refl)) e
  case doorInputChange d b => exact outcome_moves (.change d b .refl) e
  case debounceEnd d => exact runWhen_moves (fun _ => .door d .refl) e
  case ajarExpiry d =>
    refine runWhen_moves (fun hd => act ?_) e
    have := acts_tryAjar d (le_refl 3) (Acts.refl (w := 3) (s := s))
    unfold tryAjar at this
    rwa [if_pos hd] at this
  case openSecondsDelivery d => exact runWhen_moves (fun _ => act (acts_deliverSeconds d (le_refl 3) .refl)) e
  case runOnLimit => exact runWhen_moves (fun _ => act (acts_endRunOn .refl)) e
  case damperPositionSwitch p =>
    have hp : Acts 3 s (s.onPins fun k => { k with damperSwitch := p }) := acts_onPins _ (le_refl 3) .refl
    refine outcome_moves (act ?_) e
    split
    · rename_i q _ _ hd
      have hc := acts_damperConfirm (x := s.onPins fun k => { k with damperSwitch := p }) q (by simp [hd]) hp
      refine acts_ite _ (acts_airInput _ (by simp) (by omega) ?_) hp
      exact acts_ite _ (acts_drawerRecovered (by omega) hc) hc
    · exact hp
  case damperCheckEnd =>
    refine outcome_moves (act ?_) e
    split
    · rename_i t _
      cases t
      · exact acts_damper _ (Or.inl (le_refl 3)) .refl
      · exact acts_drawerFaulted (by omega) (acts_declareFault _ _ _ (acts_damper _ (Or.inl (le_refl 3)) .refl))
      · exact acts_damper _ (Or.inl (le_refl 3)) .refl
    · exact .refl
  case deferralLimit =>
    refine runWhen_moves (fun hd => act (acts_heatEntry (Or.inl ?_) (by omega) .refl)) e
    simp only [deferralDue, Bool.and_eq_true, beq_iff_eq] at hd
    exact hd.1
  case prechillDone =>
    refine runWhen_moves (fun hd => act (acts_heatEntry (Or.inr ?_) (by omega) (acts_defrostWithdraw .refl))) e
    simp only [prechillDue, Bool.and_eq_true, beq_iff_eq] at hd
    exact ((acts_defrostWithdraw (w := 0) (Acts.refl (s := s))).phase (by omega)).1.trans hd.1
  case prechillWaitLimit =>
    refine runWhen_moves (fun hd => act (acts_heatEntry (Or.inr ?_) (by omega) (acts_defrostWithdraw .refl))) e
    simp only [waitLimitDue, Bool.and_eq_true, beq_iff_eq] at hd
    exact ((acts_defrostWithdraw (w := 0) (Acts.refl (s := s))).phase (by omega)).1.trans hd.1
  case sampleTimerExpiry =>
    exact runWhen_moves (fun _ => act (acts_queueDefrost (acts_onDefrost _ (by simp) (by simp) (by omega) .refl))) e
  case heatClockLimit =>
    refine runWhen_moves (fun hd => act (acts_heatEnd _ ?_ (by omega) (acts_endFault _ _ (acts_declareFault _ _ _ .refl)))) e
    simp only [heatDue, Bool.and_eq_true, beq_iff_eq] at hd
    simpa using hd.1
  case dripTimerExpiry =>
    refine runWhen_moves (fun hd => act (acts_dripEnd ?_ (by omega) .refl)) e
    simp only [dripDue, Bool.and_eq_true, beq_iff_eq] at hd
    exact hd.1
  case recoveryLimitExpiry =>
    refine runWhen_moves (fun hd => act (acts_recoverEnd ?_ (by omega) .refl)) e
    simp only [recoverDue, Bool.and_eq_true, beq_iff_eq] at hd
    exact hd.1
  all_goals exact outcome_moves (moves_handFrame _ .refl) e

end Sys2Proof.Machine
end

