-- ==== Sys2Proof/Laws/Invariants.lean ====
section
/-! SUPPORT. The laws of the air paths, the load and the link at the events that are more than acts of the blocks: door
events, resets, the link's own acts, and the passing of time. -/

namespace Sys2Proof.Machine

/-! ### Door events -/

section
variable {s t : State}

/-- Whether the Air Path Unit knows a door to be open. -/
def AirPath.knows (a : AirPath) : DoorId → Bool
  | .left => a.leftDoor.isOpen
  | .right => a.rightDoor.isOpen
  | .drawer => a.drawerDoor.isOpen
  | .freezer => a.freezerDoor.isOpen

theorem doorsKnown_iff : DoorsKnown s ↔ ∀ i, s.air.knows i = (s.doors.get i).state.isOpen := by
  constructor
  · rintro ⟨h1, h2, h3, h4⟩ i
    cases i <;> assumption
  · intro h
    exact ⟨h .left, h .right, h .drawer, h .freezer⟩

/-- A door's new state handed to the Air Path Unit (R88, R90): it knows that door's state, and the others as before. -/
theorem airDoor_law (d : DoorId) (st : DoorState) (hf : FansFollow t)
    (hd : (t.doors.get d).state.isOpen = st.isOpen)
    (ho : ∀ i, i ≠ d → t.air.knows i = (t.doors.get i).state.isOpen) (hm : t.air.mode = t.ctl.mode) :
    AirLaw (airDoor t d st) := by
  refine ⟨⟨AirPath.settle_follows _, ?_⟩, doorsKnown_iff.2 (fun i => ?_), ?_⟩
  · have := hf.2
    cases d <;> simpa [airDoor, airInput] using this
  · by_cases hi : i = d
    · subst hi
      have : (airDoor t i st).doors = t.doors := rfl
      rw [this, hd]
      cases i <;> simp [airDoor, airInput, AirPath.knows]
    · have := ho i hi
      have e : (airDoor t d st).doors = t.doors := rfl
      rw [e, ← this]
      cases d <;> cases i <;> simp_all [airDoor, airInput, AirPath.knows]
  · cases d <;> simpa [airDoor, airInput] using hm

theorem onDoor_fans (d : DoorId) (f : Door → Door) (h : FansFollow s) : FansFollow (s.onDoor d f) := h

/-- A door event that begins with a new door state, goes on with acts of the blocks, and hands the state to the Air Path
Unit keeps the law of the air paths. -/
theorem doorEvent_law (d : DoorId) (f : Door → Door) (st : DoorState) (hf : (f (s.doors.get d)).state = st)
    (h : AirLaw s) (k : Acts 2 (s.onDoor d f) t) : AirLaw (airDoor t d st) := by
  obtain ⟨_, _, _, _, _, _, _, h1, h2, h3, h4⟩ := k.same
  have hd := (k.below3 (by omega)).2.1
  have hk : ∀ i, t.air.knows i = s.air.knows i := by
    intro i; cases i <;> simp_all [AirPath.knows]
  refine airDoor_law d st (k.fansFollow h.1) ?_ (fun i hi => ?_) (k.airMode (by omega) h.2.2)
  · rw [hd]; simp [hf]
  · rw [hk, hd, State.onDoor_doors, Doors.get_set_ne _ _ hi]
    exact doorsKnown_iff.1 h.2.1 i

theorem openEvent_law (d : DoorId) (h : AirLaw s) : AirLaw (openEvent s d) := by
  have k := doorEvent_law d (fun r => { r with state := .opened, openedAt := some s.uptime, delivered := 0 }) .opened rfl h
    (acts_zoneOpened (doorZone d) (by omega) .refl)
  exact (acts_postDoor (w := 2) _ _ (acts_freezerDoorTo _ _ (le_refl 2) .refl)).airLaw (by omega) k

theorem closeEvent_law (d : DoorId) (h : AirLaw s) : AirLaw (closeEvent s d) := by
  have k := doorEvent_law d
    (fun r => { r with state := .closed, lastOpen := some ((s.doors.get d).openFor s.uptime), openedAt := none, delivered := 0 })
    .closed rfl h (acts_closeInject (doorZone d) (acts_zoneClosed (doorZone d) (by omega) .refl))
  have h1 := acts_freezerDoorTo (w := 2) d .closed (le_refl 2) (Acts.refl (s := airDoor (closeInject (zoneClosed (s.onDoor d
    fun r => { r with state := .closed, lastOpen := some ((s.doors.get d).openFor s.uptime), openedAt := none, delivered := 0 })
    (doorZone d)) (doorZone d)) d .closed))
  exact (acts_postDoor (w := 2) _ _ (acts_ite _ (acts_handSeconds _ _ (le_refl 2) h1) h1)).airLaw (by omega) k

/-- The end of a debounce window keeps the law of the air paths (R86). -/
theorem debounceDone_law (d : DoorId) (h : AirLaw s) : AirLaw (debounceDone s d) := by
  have k : AirLaw (s.onDoor d fun r => { r with window := none }) :=
    (acts_onDoor (w := 3) (s := s) (x := s) d (fun r => { r with window := none }) rfl (le_refl 3) .refl).airLaw (by omega) h
  unfold debounceDone
  dsimp only
  split
  · exact k
  · split
    · exact openEvent_law d k
    · exact closeEvent_law d k

theorem change_law (d : DoorId) (b : Bool) (h : AirLaw s) : AirLaw (s.onDoor d fun r => r.change b) := by
  refine (acts_onDoor (w := 3) (s := s) (x := s) d (fun r => r.change b) ?_ (le_refl 3) .refl).airLaw (by omega) h
  unfold Door.change; split <;> rfl

/-- For whatever does not depend on the doors or on what the Air Path Unit knows of them, a door event is acts of the
blocks with the Air Path Unit's evaluation between them. -/
theorem debounceDone_keeps {P : State → Prop} (d : DoorId)
    (ha : ∀ {x y : State}, Acts 2 x y → P x → P y)
    (hd : ∀ {x : State} (e : Doors) (a : AirPath), P x → P { x with doors := e, air := a }) (h : P s) :
    P (debounceDone s d) := by
  have air : ∀ (x : State) (st : DoorState), P x → P (airDoor x d st) := fun x st k => hd x.doors _ k
  have k : P (s.onDoor d fun r => { r with window := none }) := hd _ s.air h
  unfold debounceDone
  dsimp only
  split
  · exact k
  · split
    · unfold openEvent
      exact ha (acts_postDoor _ _ (acts_freezerDoorTo _ _ (le_refl 2) .refl)) (air _ _ (ha (acts_zoneOpened _ (by omega) .refl) (hd _ _ k)))
    · unfold closeEvent
      dsimp only
      refine ha (acts_postDoor _ _ (acts_ite _ (acts_handSeconds _ _ (le_refl 2) (acts_freezerDoorTo _ _ (le_refl 2) .refl))
        (acts_freezerDoorTo _ _ (le_refl 2) .refl))) (air _ _ (ha (acts_closeInject _ (acts_zoneClosed _ (by omega) .refl)) (hd _ _ k)))

end

/-! ### Every command -/

/-- A change of compressor state keeps the law of the air paths (R99). -/
theorem setComp_airLaw {s : State} (c : CompState) (h : AirLaw s) : AirLaw (setComp s c) :=
  (acts_airComp (w := 2) c (Acts.refl (s := s.onComp fun k => { k with state := c }))).airLaw (by omega) h

/-- The end of the minimum off time keeps the law of the load (R38). -/
theorem minOff_loadLaw {s : State} (hd : minOffDue s = true) (h : LoadLaw s) : LoadLaw (setComp s .offReady) := by
  simp only [minOffDue, Bool.and_eq_true, beq_iff_eq] at hd
  exact ⟨h.1, Or.inr (h.2.1.resolve_left (by simp [hd.1, CompState.turning])), h.2.2⟩

/-- A change of mode keeps the law of the air paths: the Air Path Unit is handed the mode last (R170). -/
theorem setMode_airLaw {s : State} (m : Mode) (h : AirLaw s) : AirLaw (setMode s m) := by
  have k := (acts_setMode m (le_refl 5) (Acts.refl (s := s))).airPaths ⟨h.1, h.2.1⟩
  have hz := (acts_modeZones s.ctl.mode m (le_refl 1) (Acts.refl (s := s.onCtl fun c => c.enter m))).ctl (by omega)
  have hm := congrArg Control.mode hz
  have hb := (acts_modeBlocks (w := 2) s.ctl.mode m hm (le_refl 2) .refl).ctl (by omega)
  refine ⟨k.1, k.2, ?_⟩
  rw [setMode_eq]
  exact (acts_postStatus (w := 2) _ .refl).airMode (by omega)
    ((AirPath.settle_mode _).trans ((congrArg Control.mode hb).trans hm).symm)

/-- Every command keeps the law of the air paths. -/
theorem Moves.airLaw {w : Bool} {s t : State} (h : Moves w s t) (k : AirLaw s) : AirLaw t := by
  induction h with
  | refl => exact k
  | acts _ ha ih => exact ha.airLaw (by omega) ih
  | mode m _ _ ih => exact setMode_airLaw m ih
  | complete v c _ _ ih => exact (acts_complete v c (le_refl 4) .refl).airLaw (by omega) ih
  | link l n k _ _ _ ih => exact ih
  | change d b _ ih => exact change_law d b ih
  | door d _ ih => exact debounceDone_law d ih
  | minOff _ _ _ ih => exact (acts_advance (w := 2) .refl).airLaw (by omega) (setComp_airLaw _ ih)
  | powerOn _ _ _ => exact (powerOn_acts _).airLaw (by omega) (freshState_air _)
  | commanded _ _ _ => exact (commanded_acts _).airLaw (by omega) (kept_air _)

/-- Every command keeps the law of the load. -/
theorem Moves.loadLaw {w : Bool} {s t : State} (h : Moves w s t) (k : LoadLaw s) : LoadLaw t := by
  induction h with
  | refl => exact k
  | acts _ ha ih => exact ha.loadLaw ih
  | mode m _ _ ih => exact (acts_setMode m (le_refl 5) .refl).loadLaw ih
  | complete v c _ _ ih => exact (acts_complete v c (le_refl 4) .refl).loadLaw ih
  | link l n k _ _ _ ih => exact ih
  | change d b _ ih => exact ih
  | door d _ ih => exact debounceDone_keeps d (fun h k => h.loadLaw k) (fun _ _ k => k) ih
  | minOff _ hd _ ih => exact (acts_advance (w := 2) .refl).loadLaw (minOff_loadLaw hd ih)
  | powerOn _ _ _ => exact (powerOn_acts _).loadLaw (freshState_load _)
  | commanded _ _ _ => exact (commanded_acts _).loadLaw (freshState_load _)

/-! ### The laws of the arbiter, the heater and the conversion queue -/

section
variable {s : State}

/-- The end of the minimum off time keeps the laws of the arbiter and the heater (R38). -/
theorem minOff_arbLaw (a : ArbLaw s.arb) : ArbLaw (setComp s .offReady).arb :=
  arbLaw_comp (c := { s.arb.comp with state := .offReady }) a (fun _ _ => Or.inl rfl) (fun _ => rfl)

theorem minOff_heaterLaw (h : HeaterLaw s) : HeaterLaw (setComp s .offReady) :=
  heaterLaw_congr (heaterLaw_comp (c := { s.arb.comp with state := .offReady }) h fun _ => rfl) rfl rfl rfl rfl rfl

/-- Right after a reset the laws of the arbiter, the heater and the conversion queue hold, whatever the pins read and
whatever credit the Defrost Unit keeps. -/
theorem fresh_arbLaw (s : State) : ArbLaw (freshState s).arb := by
  have h : (freshState s).arb = Arbiter.reset s.pins.endSwitch := rfl
  rw [h]
  refine ⟨List.nodup_nil, by simp [Arbiter.reset], by simp [Arbiter.reset], fun e t n k => ?_, fun n _ => rfl⟩
  refine ⟨Or.inl rfl, fun _ => rfl⟩

theorem fresh_heaterLaw (s : State) : HeaterLaw (freshState s) := heaterLaw_rest rfl rfl rfl ⟨rfl, rfl⟩ rfl rfl

theorem fresh_queueLaw (s : State) : QueueLaw (freshState s) := by
  refine ⟨by simp [freshState, State.base, Scheduler.reset], fun v hv => ?_, ?_, List.nodup_nil, Nat.zero_le _⟩
  · simp only [freshState, State.base, Scheduler.reset, Option.mem_def, Option.some.injEq] at hv
    subst hv; simp
  · exact List.Perm.nil

end

/-- Every command keeps the laws of the arbiter and of the heater. -/
theorem Moves.heaterLaw {w : Bool} {s t : State} (h : Moves w s t) (k : ArbLaw s.arb) :
    ArbLaw t.arb ∧ (HeaterLaw s → HeaterLaw t) := by
  induction h with
  | refl => exact ⟨k, id⟩
  | acts _ ha ih => exact ⟨ha.arbLaw ih.1, fun q => ha.heaterLaw (by omega) ih.1 (ih.2 q)⟩
  | mode m hs _ ih => exact ⟨(acts_setMode m (le_refl 5) .refl).arbLaw ih.1, fun q => setMode_heaterLaw hs ih.1 (ih.2 q)⟩
  | @complete t v c _ _ ih => exact ⟨(acts_complete v c (le_refl 4) .refl).arbLaw ih.1, fun q => complete_heaterLaw c ih.1 (ih.2 q)⟩
  | link l n k _ _ _ ih => exact ih
  | change d b _ ih => exact ih
  | @door t d _ ih =>
    exact debounceDone_keeps (P := fun x => ArbLaw x.arb ∧ (HeaterLaw s → HeaterLaw x)) d
      (fun h k => ⟨h.arbLaw k.1, fun q => h.heaterLaw (by omega) k.1 (k.2 q)⟩) (fun _ _ k => k) ih
  | minOff _ _ _ ih =>
    exact ⟨(acts_advance (w := 2) .refl).arbLaw (minOff_arbLaw ih.1),
      fun q => (acts_advance (w := 2) .refl).heaterLaw (by omega) (minOff_arbLaw ih.1) (minOff_heaterLaw (ih.2 q))⟩
  | powerOn _ _ _ => exact ⟨(powerOn_acts _).arbLaw (fresh_arbLaw _),
      fun _ => (powerOn_acts _).heaterLaw (by omega) (fresh_arbLaw _) (fresh_heaterLaw _)⟩
  | commanded _ _ _ => exact ⟨(commanded_acts _).arbLaw (fresh_arbLaw _),
      fun _ => (commanded_acts _).heaterLaw (by omega) (fresh_arbLaw _) (heaterLaw_rest rfl rfl rfl ⟨rfl, rfl⟩ rfl rfl)⟩

/-- Every command keeps the law of the conversion queue. -/
theorem Moves.queueLaw {w : Bool} {s t : State} (h : Moves w s t) (k : QueueLaw s) : QueueLaw t := by
  have mid : ∀ {v : Nat} {x y : State}, v < 4 → Acts v x y → QueueLaw x → QueueLaw y :=
    fun hv h q => queueMid_nil.1 (h.queueMid hv (queueMid_nil.2 q))
  induction h with
  | refl => exact k
  | acts _ ha ih => exact mid (by omega) ha ih
  | @mode t m _ _ ih =>
    exact mid (by omega) (setMode_acts (w := 2) m (le_refl 2) .refl) (show QueueLaw (t.onCtl fun c => c.enter m) from ih)
  | complete v c hv _ ih => exact complete_queueLaw hv c ih
  | link l n k _ _ hq ih => exact hq ih
  | change d b _ ih => exact ih
  | door d _ ih => exact debounceDone_keeps (P := QueueLaw) d (fun h k => mid (by omega) h k) (fun _ _ k => k) ih
  | @minOff t _ _ _ ih => exact mid (by omega) (acts_advance (w := 2) .refl) (show QueueLaw (setComp t .offReady) from ih)
  | @powerOn t _ _ _ => exact mid (by omega) (powerOn_acts t) (fresh_queueLaw t)
  | @commanded t _ _ _ => exact mid (by omega) (commanded_acts t) (fresh_queueLaw t)

/-! ### The passing of time -/

section
variable (s : State)

/-- A millisecond keeps the law of the air paths. -/
theorem tick_air (h : AirLaw s) : AirLaw (tick s) := by
  obtain ⟨h1, _, _, _, _, h6, h7, _⟩ := msTick_eq s
  have hd : ∀ i, ((msTick s).doors.get i).state.isOpen = (s.doors.get i).state.isOpen := by
    intro i; rw [h1]; cases i <;> rfl
  change AirLaw (msTick s)
  refine ⟨⟨?_, ?_⟩, ?_, ?_⟩
  · rcases h7 with e | e <;> rw [e] <;> exact h.1.1
  · rw [h6, ← h.1.2]; rcases h7 with e | e <;> rw [e]
  · refine doorsKnown_of h.2.1 ?_ hd
    rcases h7 with e | e <;> rw [e] <;> exact ⟨rfl, rfl, rfl, rfl⟩
  · have e : (msTick s).ctl.mode = s.ctl.mode := by unfold msTick; dsimp only; split <;> rfl
    rw [e, ← h.2.2]; rcases h7 with e | e <;> rw [e]

/-- A millisecond keeps the law of the load. -/
theorem tick_load (h : LoadLaw s) : LoadLaw (tick s) := by
  obtain ⟨_, h2, _, _, _, _, _, h8⟩ := msTick_eq s
  change LoadLaw (msTick s)
  obtain ⟨k1, k2, k3⟩ := h
  refine ⟨by rw [h2]; exact k1, ?_, ?_⟩
  · rcases h8 with e | e <;> rw [e]
    · exact k2
    · rcases k2 with k | k
      · exact Or.inl k
      · exact Or.inr ⟨k.1, by simp [Compressor.tick, k.2]⟩
  · rw [h2]
    rcases h8 with e | e <;> rw [e]
    · exact k3
    · have : s.arb.comp.tick.top = s.arb.comp.top := by
        unfold Compressor.top Compressor.tick
        cases s.arb.comp.step <;> rfl
      rw [this]; exact k3

/-- What a millisecond changes of the arbiter: the remaining times. -/
theorem tick_arb : (tick s).arb = s.arb ∨ (tick s).arb = { s.arb with comp := s.arb.comp.tick, valve := s.arb.valve.tick } := by
  change (msTick s).arb = _ ∨ (msTick s).arb = _
  unfold msTick
  dsimp only
  split
  · right; simp only [secondTick]
  · left; rfl

theorem tick_mode : (tick s).ctl.mode = s.ctl.mode ∧ (tick s).defrost.seat = s.defrost.seat
    ∧ (tick s).budget.heater = s.budget.heater := by
  change (msTick s).ctl.mode = _ ∧ (msTick s).defrost.seat = _ ∧ (msTick s).budget.heater = _
  unfold msTick
  dsimp only
  split <;> exact ⟨rfl, rfl, rfl⟩

theorem tick_toward (v : Valve) (e : Evap) : v.tick.toward e = v.toward e := by cases v <;> rfl

/-- A millisecond keeps the law of the arbiter. -/
theorem tick_arbLaw (h : ArbLaw s.arb) : ArbLaw (tick s).arb := by
  rcases tick_arb s with e | e <;> rw [e]
  · exact h
  · obtain ⟨h1, h2, h3, h4, h5⟩ := h
    have hs : s.arb.comp.slow → s.arb.comp.tick.slow :=
      fun q => q.imp id fun q => ⟨q.1, q.2.1, by simp [Compressor.tick, q.2.2]⟩
    refine ⟨h1, h2, h3, fun e t n k => ?_, fun n k => ?_⟩
    · simp only at k
      cases hv : s.arb.valve <;> rw [hv] at k <;> cases k
      obtain ⟨k1, k2⟩ := h4 _ _ _ hv
      exact ⟨hs k1, k2⟩
    · simp only at k
      cases hv : s.arb.valve <;> rw [hv] at k <;> cases k
      exact h5 _ hv

/-- A millisecond keeps the law of the heater. -/
theorem tick_heaterLaw (h : HeaterLaw s) : HeaterLaw (tick s) := by
  obtain ⟨h1, h2, h3⟩ := tick_mode s
  have ha : (tick s).arb.hold = s.arb.hold ∧ (tick s).arb.list = s.arb.list ∧ (tick s).arb.grant = s.arb.grant
      ∧ (tick s).arb.feedsFreeze = s.arb.feedsFreeze := by
    rcases tick_arb s with e | e <;> rw [e]
    · exact ⟨rfl, rfl, rfl, rfl⟩
    · refine ⟨rfl, rfl, rfl, ?_⟩
      unfold Arbiter.feedsFreeze
      exact congrArg (_ && ·) (tick_toward _ _)
  obtain ⟨a1, a2, a3, a4⟩ := ha
  exact heaterLaw_arb h h1 h2 h3 a1 (fun p q => ⟨a2.trans p, a3.trans q⟩) (fun _ q => by rw [a3]; exact q)
    (fun _ q => a4.trans q)

/-- A millisecond keeps the law of the conversion queue. -/
theorem tick_queueLaw (h : QueueLaw s) : QueueLaw (tick s) := by
  have hs : (tick s).sched.queue = s.sched.queue ∧ (tick s).sched.tags = s.sched.tags
      ∧ (tick s).sched.conv = s.sched.conv.map Conversion.tick ∧ noticeTags (tick s) = noticeTags s := by
    obtain ⟨_, _, h3, h4, h5, _⟩ := msTick_eq s
    have hn : noticeTags (msTick s) = noticeTags s := by
      unfold noticeTags noticeKeys
      rw [h3, h4, h5]
      simp only [Link.tick]
      cases s.link.tx <;> simp [Sending.tick]
    change (msTick s).sched.queue = _ ∧ (msTick s).sched.tags = _ ∧ (msTick s).sched.conv = _ ∧ noticeTags (msTick s) = _
    rw [hn]
    unfold msTick
    dsimp only
    split <;> exact ⟨rfl, rfl, rfl, rfl⟩
  obtain ⟨k1, k2, k3, k4⟩ := hs
  refine queueMid_nil.1 (queueMid_sched (queueMid_nil.2 h) k4 (congrArg (List.filterMap QEntry.tag) k1 :) k2 (by rw [k1]; exact id) (fun q v hv => ?_))
  rw [Option.mem_def, k3] at hv
  obtain ⟨u, hu, rfl⟩ := Option.map_eq_some_iff.1 hv
  rw [k1]
  exact q u hu

end

/-! ### Every command and every step -/

/-- Every command keeps the records of the link. -/
theorem Moves.linkIn {w : Bool} {s t : State} (h : Moves w s t) (k : LinkIn s) : LinkIn t := by
  induction h with
  | refl => exact k
  | acts _ ha ih => exact ha.linkIn ih
  | mode m _ _ ih => exact (acts_setMode m (le_refl 5) .refl).linkIn ih
  | complete v c _ _ ih => exact (acts_complete v c (le_refl 4) .refl).linkIn ih
  | link l n k _ hk _ ih => exact hk ih
  | change d b _ ih => exact ih
  | door d _ ih => exact debounceDone_keeps d (fun h k => h.linkIn k) (fun _ _ k => k) ih
  | minOff _ _ _ ih => exact (acts_advance (w := 2) .refl).linkIn ih
  | @powerOn t _ _ _ => exact (powerOn_acts t).linkIn (linkIn_fresh t)
  | @commanded t _ _ _ => exact (commanded_acts t).linkIn (linkIn_fresh t)

/-- A compressor in OFF_LOCKED is still there, with its timer as it was. -/
def Locked (s t : State) : Prop :=
  s.arb.comp.state = .offLocked → t.arb.comp.state = .offLocked ∧ t.arb.comp.minOffLeft = s.arb.comp.minOffLeft

theorem Locked.trans {s t u : State} (h : Locked s t) (k : Locked t u) : Locked s u :=
  fun q => ⟨(k (h q).1).1, (k (h q).1).2.trans (h q).2⟩

/-- No command but those that end OFF_LOCKED changes a compressor in OFF_LOCKED or its timer (R38). -/
theorem Moves.staysLocked {s t : State} (h : Moves false s t) : Locked s t := by
  generalize hw : false = w at h
  induction h with
  | refl => exact fun k => ⟨k, rfl⟩
  | acts _ ha ih => exact ih.trans ha.staysDown.1
  | mode m _ _ ih => exact ih.trans (acts_setMode m (le_refl 5) .refl).staysDown.1
  | complete v c _ _ ih => exact ih.trans (acts_complete v c (le_refl 4) .refl).staysDown.1
  | link l n k _ _ _ ih => exact ih
  | change d b _ ih => exact ih
  | door d _ ih =>
    exact debounceDone_keeps (P := fun x => Locked s x) d
      (fun h k => Locked.trans k h.staysDown.1) (fun _ _ k => k) ih
  | minOff h1 => exact absurd (hw.trans h1) (by decide)
  | powerOn h1 => exact absurd (hw.trans h1) (by decide)
  | commanded h1 => exact absurd (hw.trans h1) (by decide)

/-- What every command and a millisecond keep, every step keeps. -/
theorem step_keeps {P : State → Prop} (hq : ∀ (s : State) (q : List Instr), P s → P { s with pending := q })
    (he : ∀ {c : Instr} {s u : State}, exec c s = .next u → P s → P u) (ht : ∀ s, P s → P (tick s)) {s u : State}
    (e : step s = .next u) (h : P s) : P u := by
  unfold step at e
  split at e
  · exact he e (hq _ _ h)
  · cases e; exact ht s h

end Sys2Proof.Machine
end

