-- ==== Sys2Proof/Laws/Requests.lean ====
section
/-! SUPPORT. How a command ends: an event of the blocks under the law of the link, a quiet event, and a request that is
executed at once (R55, R191, R192). -/

namespace Sys2Proof.Machine

/-- No work of the link is left to do in this state: an event that changes no compressor state, valve or grant ends as its
rule leaves it. -/
def Settled (s : State) : Prop :=
  s.link.boundary = false ∧ (∀ p ∈ s.link.place, p.answered = false → Config.maxReplies ≤ s.link.replies.length)

/-- A two-byte field is read back from its two bytes (R198). -/
@[simp] theorem half_bytes (v : Half) : half (hiByte v) (loByte v) = v := by
  unfold half hiByte loByte
  apply BitVec.eq_of_toNat_eq
  have h := v.isLt
  rw [BitVec.toNat_or]
  simp only [BitVec.toNat_shiftLeft, BitVec.toNat_setWidth, BitVec.toNat_ushiftRight, Nat.shiftLeft_eq, Nat.shiftRight_eq_div_pow]
  have h1 : v.toNat / 2 ^ 8 % 2 ^ 8 % 2 ^ 16 * 2 ^ 8 % 2 ^ 16 = 2 ^ 8 * (v.toNat / 2 ^ 8) := by omega
  have h2 : v.toNat % 2 ^ 8 % 2 ^ 16 = v.toNat % 2 ^ 8 := by omega
  rw [h1, h2, ← Nat.two_pow_add_eq_or_of_lt (by omega)]
  omega

section
variable {w : Nat} {s t x : State}

theorem settleLink_idem (s : State) : settleLink (settleLink s) = settleLink s := by
  by_cases h : (s.link.tx.isNone && s.link.boundary) = true
  · have hb : (settleLink s).link.boundary = false := by unfold settleLink; rw [if_pos h]; simp
    exact settleLink_of hb
  · have e : settleLink s = s := by unfold settleLink; rw [if_neg h]
    rw [e, e]

/-- The end of a command with no READY request left: the feeding check, then the boundary (R55, R192). -/
theorem finish_ready (h : executeReady (settleLink (recheck s x)) = settleLink (recheck s x)) :
    finish s x = settleLink (recheck s x) := by
  unfold finish
  dsimp only
  rw [h, recheck_self, settleLink_idem]

theorem settleLink_place (s : State) : (settleLink s).link.place = s.link.place := by
  unfold settleLink; split <;> simp

theorem settleLink_waiting (s : State) : (settleLink s).link.waiting = s.link.waiting := by
  unfold settleLink; split <;> simp

theorem settleLink_resetTaken (s : State) : (settleLink s).link.resetTaken = s.link.resetTaken := by
  unfold settleLink; split <;> simp

theorem executeReady_not (h : ∀ p ∈ s.link.place, p.answered = false → Config.maxReplies ≤ s.link.replies.length) :
    executeReady s = s := by
  unfold executeReady
  split
  · rename_i p hp
    rw [if_neg]
    rintro ⟨ha, hl⟩
    exact absurd (h p hp ha) (by omega)
  · rfl

/-- How an event that is acts of the blocks ends: the feeding check and its consequences, then the boundary of an idle
transmitter (R55, R192). A READY request still waits for a place in the reply list (R191). -/
theorem finish_event (hl : LinkLaw s) (k : Acts w s x) : finish s x = settleLink (recheck s x) := by
  obtain ⟨_, _, _, _, _, h6, h7⟩ := hl
  have k3 : Acts w s (recheck s x) := acts_recheck s k
  refine finish_ready (executeReady_not fun p hp ha => ?_)
  rw [settleLink_place, k3.same.2.2.2.2.1] at hp
  have hr := h7 p hp ha
  have ht : s.link.tx ≠ none := fun e => by rw [h6 e] at hr; simp [Config.maxReplies] at hr
  obtain ⟨b1, b2, _⟩ := k3.busy ht
  have e : settleLink (recheck s x) = recheck s x := by
    unfold settleLink
    rw [if_neg]
    rw [b1]; cases h : s.link.tx <;> simp_all
  rw [e, b2]
  exact hr

theorem finish_acts (hl : LinkLaw s) (k : Acts w s x) : ∃ z, Acts 0 x z ∧ finish s x = settleLink z :=
  ⟨recheck s x, acts_recheck s .refl, finish_event hl k⟩

/-- A quiet event ends as its rule leaves it. -/
theorem finish_quiet (h : feedingMoved s x = false) (hs : Settled x) : finish s x = x := by
  have e : recheck s x = x := by unfold recheck; simp [h]
  rw [finish_ready] <;> rw [e, settleLink_of hs.1]
  exact executeReady_not hs.2

/-- An event that is acts of the blocks and moves neither compressor state, valve nor grant. -/
theorem finish_still (hl : LinkLaw s) (k : Acts w s x) (h : feedingMoved s x = false) : finish s x = settleLink x := by
  have e : recheck s x = x := by unfold recheck; simp [h]
  rw [finish_event hl k, e]

/-! ### A request executed at once -/

/-- A request's frame in the execution place (R190). -/
def placed (s : State) (f : Frame) : State := s.onLink fun l => { l with place := some { frame := f, answered := false } }

/-- A request row is the arrival of its frame (log 4). -/
theorem exec_frame {c : Instr} {f : Frame} (h : frameOf c = some f) (s : State) : exec c s = runRequest s f := by
  cases c <;> first | (injection h with h; subst h; rfl) | cases h

/-- A request executed: its owner's acts, then its reply appended (R191). -/
theorem execute_eq (f : Frame) (hr : s.link.replies.length < Config.maxReplies) : executeReady (placed s f) = execute (placed s f) f := by
  unfold executeReady placed
  simp [hr]

theorem carries_settle {f : Frame} (h : Carries s f) : Carries (settleLink s) f := by
  unfold settleLink
  split
  · rename_i hc
    simp only [Bool.and_eq_true, Option.isNone_iff_eq_none] at hc
    exact carries_choice hc.1 h
  · exact h

/-- The place of a request that has been executed is ANSWERED. -/
theorem executed_place (f : Frame) : (execute s f).link.place = some { frame := f, answered := true } := rfl

/-- A request that is executed at once: the state its owner's acts lead to, with the feeding check and the boundary after
it, and its reply on its way (R191). -/
theorem request_runs (h : Ready s) (f : Frame) :
    ∃ z t, runRequest s f = .next t ∧ t = settleLink z ∧ z = recheck s (execute (placed s f) f)
      ∧ Acts 0 (execute (placed s f) f) z ∧ Carries t (replyFrame f (judge (placed s f) f).2) := by
  have e : handFrame s f = execute (placed s f) f := by
    unfold handFrame
    rw [h.2.1]
    simp only [Bool.false_eq_true, if_false, h.1]
    exact execute_eq f h.2.2
  have k : Acts 0 (execute (placed s f) f) (recheck s (execute (placed s f) f)) := acts_recheck s .refl
  refine ⟨_, _, rfl, ?_, rfl, k, ?_⟩
  · show finish s (handFrame s f) = _
    rw [e]
    refine finish_ready (executeReady_not fun p hp ha => ?_)
    rw [settleLink_place, k.same.2.2.2.2.1, executed_place] at hp
    obtain rfl : _ = p := by simpa using hp
    simp at ha
  · show Carries (finish s (handFrame s f)) _
    have hc : Carries (execute (placed s f) f) (replyFrame f (judge (placed s f) f).2) :=
      Or.inl ⟨_, List.mem_append_right _ (List.mem_singleton.2 rfl), rfl⟩
    have hc2 := carries_settle (k.carries hc)
    rw [e]
    rwa [finish_ready (executeReady_not fun p hp ha => ?_)]
    rw [settleLink_place, k.same.2.2.2.2.1, executed_place] at hp
    obtain rfl : _ = p := by simpa using hp
    simp at ha

/-- With a reply to send, the boundary of an idle transmitter changes the link alone (R192). -/
theorem settleLink_reply (h : s.link.replies ≠ []) : settleLink s = { s with link := (settleLink s).link } := by
  unfold settleLink
  split
  · unfold transmitChoice
    dsimp only
    split
    · rfl
    · rename_i hn; simp at hn; exact absurd hn h
  · rfl

/-- No feeding check follows an event that moves neither compressor state, valve nor grant, or that leaves no hold (R55). -/
theorem recheck_still (h : feedingMoved s x = false ∨ x.arb.hold = false) : recheck s x = x := by
  unfold recheck
  rcases h with h | h
  · simp [h]
  · split
    · unfold feedingCheck; simp [h]
    · rfl

/-- A request that moves neither compressor state, valve nor grant, or that leaves no hold, changes, after its owner's acts,
the link alone. -/
theorem request_quiet (h : Ready s) (f : Frame)
    (hq : feedingMoved s (judge (placed s f) f).1 = false ∨ (judge (placed s f) f).1.arb.hold = false) :
    ∃ t, runRequest s f = .next t ∧ OnlyLink (judge (placed s f) f).1 t
      ∧ Carries t (replyFrame f (judge (placed s f) f).2)
      ∧ t.link.waiting = (judge (placed s f) f).1.link.waiting
      ∧ t.link.resetTaken = (judge (placed s f) f).1.link.resetTaken := by
  obtain ⟨z, t, h1, h2, h3, k, h5⟩ := request_runs h f
  refine ⟨t, h1, ?_, h5, by rw [h2, settleLink_waiting, k.same.2.2.2.2.2.1]; rfl,
    by rw [h2, settleLink_resetTaken, k.same.2.2.2.2.2.2.1]; rfl⟩
  have e : recheck s (execute (placed s f) f) = execute (placed s f) f := recheck_still hq
  rw [h2, h3, e, settleLink_reply]
  · rfl
  · simp [execute, appendReply]

/-- A request of a known kind and of a length that its kind takes reaches its owner (R197). -/
theorem judge_known {f : Frame} {ls : List Nat} (h : takenLengths f.kind = some ls) (hl : ls.contains f.payload.length = true) :
    judge s f = handle (restartIdle s) f := by
  unfold judge
  rw [h]
  exact if_pos hl

/-- The service idle timer and the link have nothing to do with each other. -/
theorem restartIdle_placed (f : Frame) : restartIdle (placed s f) = placed (restartIdle s) f := by
  unfold restartIdle
  split <;> split <;> first | rfl | (simp_all [placed])

end

end Sys2Proof.Machine
end

