-- ==== Sys2Proof/Laws/Replies.lean ====
section
/-! SUPPORT. What a READY request is answered: its command, with the reply and what the act leaves. -/

namespace Sys2Proof.Machine

theorem replyFrame_eq {f : Frame} {kind tag : Byte} (hf : f.kind = kind) (ht : f.tag = tag) (hk : kind < 0x80) (p :
    List Byte) :
    replyFrame f p = replyTo kind tag p := by
  subst hf; subst ht; unfold replyFrame replyTo replyKind; rw [if_pos hk]

theorem answers_quiet {c : Instr} {s : State} {f : Frame} {kind tag : Byte} {p : List Byte} {Q : State → Prop} (h :
    Ready s)
    (hc : exec c s = runRequest s f) (hf : f.kind = kind) (ht : f.tag = tag) (hk : kind < 0x80)
    (hj : (judge (placed s f) f).2 = p) (hq : feedingMoved s (judge (placed s f) f).1 = false ∨ (judge (placed s f)
    f).1.arb.hold = false)
    (hQ : ∀ t, OnlyLink (judge (placed s f) f).1 t → Q t) : Answers c s kind tag p Q := by
  obtain ⟨t, h1, h2, h3, _⟩ := request_quiet h f hq
  refine ⟨t, hc.trans h1, ?_, hQ t h2⟩
  rw [← replyFrame_eq hf ht hk, ← hj]; exact h3

/-- the answer is an explicit function r of the placed, restarted state -/
theorem answers_known_when {c : Instr} {s : State} {f : Frame} {kind tag : Byte} {ls : List Nat} {p : List Byte}
    {Q : State → Prop} (h : Ready s)
    (hc : exec c s = runRequest s f) (hf : f.kind = kind) (ht : f.tag = tag) (hk : kind < 0x80)
    (hl : takenLengths kind = some ls) (hn : ls.contains f.payload.length = true) 
    (u : State) (hj : handle (placed (restartIdle s) f) f = (u, p)) (hq : feedingMoved s u = false ∨ u.arb.hold = false)
    (hQ : ∀ t, OnlyLink u t → Q t) : Answers c s kind tag p Q := by
  have e : judge (placed s f) f = (u, p) := by
    rw [judge_known (hf ▸ hl) hn, restartIdle_placed, hj]
  refine answers_quiet h hc hf ht hk (by rw [e]) (by rw [e]; exact hq) (by rw [e]; exact hQ)

/-- the answer is an explicit function r of the placed, restarted state -/
theorem answers_known {c : Instr} {s : State} {f : Frame} {kind tag : Byte} {ls : List Nat} {p : List Byte}
    {Q : State → Prop} (h : Ready s)
    (hc : exec c s = runRequest s f) (hf : f.kind = kind) (ht : f.tag = tag) (hk : kind < 0x80)
    (hl : takenLengths kind = some ls) (hn : ls.contains f.payload.length = true) 
    (u : State) (hj : handle (placed (restartIdle s) f) f = (u, p)) (hq : feedingMoved s u = false)
    (hQ : ∀ t, OnlyLink u t → Q t) : Answers c s kind tag p Q :=
  answers_known_when h hc hf ht hk hl hn u hj (Or.inl hq) hQ

theorem moved_restart (s : State) (f : Frame) : feedingMoved s (placed (restartIdle s) f) = false := by
  unfold restartIdle; split <;> simp [feedingMoved, placed]

@[simp] theorem restartIdle_arb (s : State) : (restartIdle s).arb = s.arb := by unfold restartIdle; split <;> rfl

@[simp] theorem restartIdle_zones (s : State) : (restartIdle s).zones = s.zones := by unfold restartIdle; split <;> rfl

@[simp] theorem restartIdle_defrost (s : State) : (restartIdle s).defrost = s.defrost := by unfold restartIdle; split <;> rfl

@[simp] theorem restartIdle_budget (s : State) : (restartIdle s).budget = s.budget := by unfold restartIdle; split <;> rfl

@[simp] theorem restartIdle_sched (s : State) : (restartIdle s).sched = s.sched := by unfold restartIdle; split <;> rfl

@[simp] theorem restartIdle_fault (s : State) : (restartIdle s).fault = s.fault := by unfold restartIdle; split <;> rfl

@[simp] theorem restartIdle_notice (s : State) : (restartIdle s).notice = s.notice := by unfold restartIdle; split <;> rfl

@[simp] theorem restartIdle_doors (s : State) : (restartIdle s).doors = s.doors := by unfold restartIdle; split <;> rfl

@[simp] theorem restartIdle_air (s : State) : (restartIdle s).air = s.air := by unfold restartIdle; split <;> rfl

@[simp] theorem restartIdle_free (s : State) : (restartIdle s).free = s.free := by unfold restartIdle; split <;> rfl

@[simp] theorem restartIdle_uptime (s : State) : (restartIdle s).uptime = s.uptime := by unfold restartIdle; split <;> rfl

@[simp] theorem restartIdle_mode (s : State) : (restartIdle s).ctl.mode = s.ctl.mode := by unfold restartIdle; split <;> rfl

@[simp] theorem restartIdle_link (s : State) : (restartIdle s).link = s.link := by unfold restartIdle; split <;> rfl

@[simp] theorem placed_arb (s : State) (f : Frame) : (placed s f).arb = s.arb := rfl

@[simp] theorem placed_ctl (s : State) (f : Frame) : (placed s f).ctl = s.ctl := rfl

@[simp] theorem placed_zones (s : State) (f : Frame) : (placed s f).zones = s.zones := rfl

@[simp] theorem placed_sched (s : State) (f : Frame) : (placed s f).sched = s.sched := rfl

@[simp] theorem placed_defrost (s : State) (f : Frame) : (placed s f).defrost = s.defrost := rfl

@[simp] theorem placed_budget (s : State) (f : Frame) : (placed s f).budget = s.budget := rfl

@[simp] theorem placed_fault (s : State) (f : Frame) : (placed s f).fault = s.fault := rfl

@[simp] theorem placed_doors (s : State) (f : Frame) : (placed s f).doors = s.doors := rfl

@[simp] theorem placed_air (s : State) (f : Frame) : (placed s f).air = s.air := rfl

@[simp] theorem placed_free (s : State) (f : Frame) : (placed s f).free = s.free := rfl

@[simp] theorem placed_uptime (s : State) (f : Frame) : (placed s f).uptime = s.uptime := rfl

@[simp] theorem placed_notice (s : State) (f : Frame) : (placed s f).notice = s.notice := rfl

theorem onlyLink_onLink {u t : State} (g : Link → Link) (h : OnlyLink (u.onLink g) t) : OnlyLink u t := h

theorem onlyLink_placed {u t : State} {f : Frame} (h : OnlyLink (placed u f) t) : OnlyLink u t := h

theorem refused_known {c : Instr} {s : State} {f : Frame} {kind tag : Byte} {ls : List Nat} {x : Status} (h : Ready s)
    (hc : exec c s = runRequest s f) (hf : f.kind = kind) (ht : f.tag = tag) (hk : kind < 0x80)
    (hl : takenLengths kind = some ls) (hn : ls.contains f.payload.length = true)
    (hj : handle (placed (restartIdle s) f) f = refuse (placed (restartIdle s) f) x) : Refused c s kind tag x :=
  answers_known h hc hf ht hk hl hn _ hj (moved_restart s f) fun _ k => k

end Sys2Proof.Machine
end

