-- ==== Sys2Proof/Laws/Shutdown.lean ====
section
/-! SUPPORT. Turning off: the compressor stopped, modes left, and the state that then holds. -/

namespace Sys2Proof.Machine

/-- what a level-0 tail keeps of a state -/
theorem offFull_of {s t : State} {w : Nat} (k : Acts w s t) (hw : w < 3) (hs : s.arb.comp.state = .offLocked)
    (hm : s.arb.comp.minOffLeft = s.arb.timing.minOff) (hl : LoadLaw s) : OffFull t := by
  obtain ⟨h1, h2⟩ := k.staysDown.1 hs
  have ht := (k.kept hw).2.2.2.2.2.2.1.2.2.1
  have hL := k.loadLaw hl
  have := hL.2.1.resolve_left (by rw [h1]; simp [CompState.turning])
  refine ⟨h1, by rw [h2, hm, ht], this.1, this.2, by unfold State.speedLine; rw [h1]⟩

theorem compOff_off {s : State} (hl : LoadLaw s) (hn : s.arb.comp.state.turning = true) :
    (compOff s false).arb.comp.state = .offLocked ∧ (compOff s false).arb.comp.minOffLeft = s.arb.timing.minOff
      ∧ (compOff s false).arb.timing = s.arb.timing ∧ LoadLaw (compOff s false) := by
  have hL : LoadLaw (compOff s false) := (acts_compOff (w := 0) false hn .refl).loadLaw hl
  have kept := (acts_compOff (w := 0) false hn (Acts.refl (s := s))).kept (by omega)
  have ht := kept.2.2.2.2.2.2.1.2.2.1
  unfold compOff at *
  simp only [Bool.false_eq_true, if_false] at *
  have k : Acts 0 (setComp (s.onComp fun c => { c.off with minOffLeft := s.arb.timing.minOff, lockoutLeft := 0 }) .offLocked)
      (reportLevel (setComp (s.onComp fun c => { c.off with minOffLeft := s.arb.timing.minOff, lockoutLeft := 0 }) .offLocked) 0) := by
    refine acts_reportLevel 0 (fun _ => ⟨?_, Nat.zero_le _⟩) .refl
    simp [setComp, airComp, airInput, Compressor.off, Compressor.top]
  obtain ⟨h1, h2⟩ := k.staysDown.1 rfl
  exact ⟨h1, h2, ht, hL⟩

theorem stop_offFull {s t : State} {w : Nat} (hl : LoadLaw s) (hn : s.arb.comp.state.turning = true) (k : Acts w
    (compStop s) t)
    (hw : w < 3) : OffFull t := by
  have e : compStop s = compOff s false := if_pos hn
  rw [e] at k
  obtain ⟨h1, h2, h3, h4⟩ := compOff_off hl hn
  exact offFull_of k hw h1 (by rw [h2, h3]) h4

theorem loadLaw_of_arb {s t : State} (h : LoadLaw s) (h1 : t.arb.comp = s.arb.comp) (h2 : t.budget = s.budget) :
    LoadLaw t := by
  unfold LoadLaw at *; rw [h1, h2]; exact h

@[simp] theorem zonePause_arb (s : State) (z : ZoneId) : (zonePause s z).arb = s.arb := by unfold zonePause; split <;> simp

@[simp] theorem zonePause_budget (s : State) (z : ZoneId) : (zonePause s z).budget = s.budget := by unfold zonePause; split <;> simp

/-- Acts below level 2 keep what the core holds. -/
theorem mode_acts {a b : State} {m : Mode} (k : Acts 1 a b) (h : a.defrost.mode = m) : b.defrost.mode = m :=
  (congrArg Defrost.mode (k.below2 (by omega)) :).trans h

theorem mode_ite (c : Prop) [Decidable c] {x y : State} {m : Mode} (h : x.defrost.mode = m) (k : y.defrost.mode = m) :
    (if c then x else y).defrost.mode = m := by split <;> assumption

theorem mode_evaluate {x : State} {m : Mode} (h : x.defrost.mode = m) : (evaluate x).defrost.mode = m := by
  unfold evaluate enterPrechill
  refine mode_ite _ (mode_acts (acts_postDefrost (acts_post _ _ _ .refl)) ?_) h
  exact h

theorem mode_dueTest {x : State} {m : Mode} (h : x.defrost.mode = m) : (dueTest x).defrost.mode = m := by
  unfold dueTest
  exact mode_ite _ (mode_evaluate (mode_acts (acts_postDefrost (.refl (s := x.onDefrost fun d => { d with phase := .due, deferral := 0 }))) h)) h

theorem mode_becomeIdle {x : State} {m : Mode} (h : x.defrost.mode = m) : (becomeIdle x).defrost.mode = m := by
  unfold becomeIdle
  exact mode_dueTest (mode_acts (acts_endFault _ _ (acts_postDefrost (.refl (s := x.onDefrost fun d => { d with phase := .idle })))) h)

theorem defrostMode_mode (s : State) (o m : Mode) : (defrostMode s o m).defrost.mode = m := by
  have h0 : (s.onDefrost fun d => { d with mode := m }).defrost.mode = m := rfl
  unfold defrostMode
  dsimp only
  split
  · refine mode_ite _ ?_ h0
    unfold interrupt
    dsimp only
    refine mode_becomeIdle (mode_acts (acts_setBounds _ _ .refl) ?_)
    have h1 : ∀ c [Decidable c], (if c then heaterOff (s.onDefrost fun d => { d with mode := m }) else s.onDefrost fun d => { d with mode := m }).defrost.mode = m :=
      fun c _ => mode_ite _ (mode_acts (acts_heaterOff .refl) h0) h0
    have h2 : ∀ (c : Prop) [Decidable c] (A : State), A.defrost.mode = m → (if c then defrostWithdraw A else A).defrost.mode = m :=
      fun c _ A h => mode_ite _ (mode_acts (acts_defrostWithdraw .refl) h) h
    have h3 : ∀ (A : State), A.defrost.mode = m → (if A.defrost.hold then holdRelease (A.onDefrost fun d => { d with hold := false }) else A).defrost.mode = m :=
      fun A h => mode_ite _ ((congrArg Defrost.mode (holdRelease_core _) :).trans h) h
    have h4 : ∀ (A : State), A.defrost.mode = m → (if A.air.permit then A else airPermit A true).defrost.mode = m :=
      fun A h => mode_ite _ h h
    exact h4 _ (h3 _ (h2 _ _ (h1 _)))
  · exact mode_ite _ (mode_acts (acts_postDefrost (acts_heaterOff .refl)) h0) h0
  · exact mode_ite _ (mode_evaluate h0) h0

theorem unwish_core_eq (b : Budget) : b.unwish.core = b.core := by unfold Budget.unwish; split <;> rfl

/-- setMode's stages after the arbiter -/
theorem setMode_blocks (s : State) (m : Mode) : (setMode s m).air.mode = m ∧ (setMode s m).defrost.mode = m
    ∧ (setMode s m).budget.mode = m ∧ (m ≠ .service → (setMode s m).budget.force = none ∧
    (setMode s m).air.freshForce = none
      ∧ (setMode s m).air.freezerForce = none ∧ (setMode s m).air.condenserForce = none ∧
      (setMode s m).air.damperForce = none) := by
  unfold setMode
  dsimp only
  generalize (if s.ctl.mode = .run then arbLeaveRun _ else _ : State) = A
  have hd := defrostMode_mode A s.ctl.mode m
  generalize defrostMode A s.ctl.mode m = B at hd ⊢
  have k : Acts 0 (B.onBudget fun b => b.setMode m) (budgetChange B fun b => b.setMode m) := acts_settleFrom _ .refl
  have kb := (k.below1 (by omega)).2.2.1
  generalize hC : budgetChange B (fun b => b.setMode m) = C at k kb ⊢
  have kd := mode_acts (k.widen (by omega)) (m := m) hd
  have ka := acts_postStatus (w := 0) .mode (Acts.refl (s := airMode C m))
  have ha := (ka.below1 (by omega)).2.2.2
  have hb := (ka.below1 (by omega)).2.2.1
  have hc := mode_acts (ka.widen (by omega)) (m := m) kd
  generalize postStatus (airMode C m) .mode = D at *
  have e1 : D.air.mode = m := by
    have := congrArg (fun c => c.1) ha
    refine (this :).trans ?_
    have := congrArg (fun c => c.1) (AirPath.settle_core { C.air with
      mode := m, runOn := if m = .run then C.air.runOn else none
      freshForce := if m = .service then C.air.freshForce else none
      freezerForce := if m = .service then C.air.freezerForce else none
      condenserForce := if m = .service then C.air.condenserForce else none
      damperForce := if m = .service then C.air.damperForce else none })
    exact this
  have ebm : (Budget.setMode B.budget m).mode = m := (congrArg (fun c => c.2.2.2.2.2.1) (unwish_core_eq _) :)
  have ebc : D.budget.core = (Budget.setMode B.budget m).core := hb.trans kb
  refine ⟨e1, hc, (congrArg (fun c => c.2.2.2.2.2.1) ebc :).trans ebm, fun hm => ⟨?_, ?_⟩⟩
  · refine (congrArg (fun c => c.2.2.2.2.1) ebc :).trans ?_
    exact (congrArg (fun c => c.2.2.2.2.1) (unwish_core_eq _) :).trans (if_neg hm)
  · have := AirPath.settle_core { C.air with
      mode := m, runOn := if m = .run then C.air.runOn else none
      freshForce := if m = .service then C.air.freshForce else none
      freezerForce := if m = .service then C.air.freezerForce else none
      condenserForce := if m = .service then C.air.condenserForce else none
      damperForce := if m = .service then C.air.damperForce else none }
    have := ha.trans this
    simp only [if_neg hm, Prod.mk.injEq] at this
    exact this.2.2

/-- A request executed at once whose owner leads to `u`: the feeding check and the boundary follow (R55, R191, R192). -/
theorem answers_recheck {c : Instr} {s : State} {f : Frame} {kind tag : Byte} {ls : List Nat} {p : List Byte}
    {Q : State → Prop} (h : Ready s) (hc : exec c s = runRequest s f) (hf : f.kind = kind) (ht : f.tag = tag)
    (hk : kind < 0x80) (hl : takenLengths kind = some ls) (hn : ls.contains f.payload.length = true)
    (u : State) (hj : handle (placed (restartIdle s) f) f = (u, p))
    (hQ : ∀ l, Q (settleLink (recheck s { u with link := l }))) : Answers c s kind tag p Q := by
  have e : judge (placed s f) f = (u, p) := by
    rw [judge_known (hf ▸ hl) hn, restartIdle_placed, hj]
  obtain ⟨z, t, h1, h2, h3, _, h5⟩ := request_runs h f
  refine ⟨t, hc.trans h1, ?_, ?_⟩
  · rw [← replyFrame_eq hf ht hk]; rw [e] at h5; exact h5
  · unfold execute appendReply at h3
    rw [e] at h3
    rw [h2, h3]
    exact hQ _

theorem answers_acts {c : Instr} {s : State} {f : Frame} {kind tag : Byte} {ls : List Nat} {p : List Byte}
    {Q : State → Prop} (h : Ready s) (hc : exec c s = runRequest s f) (hf : f.kind = kind) (ht : f.tag = tag)
    (hk : kind < 0x80) (hl : takenLengths kind = some ls) (hn : ls.contains f.payload.length = true)
    (u : State) (hj : handle (placed (restartIdle s) f) f = (u, p))
    (hQ : ∀ l z, Acts 0 { u with link := l } z → Q (settleLink z)) : Answers c s kind tag p Q :=
  answers_recheck h hc hf ht hk hl hn u hj fun l => hQ l _ (acts_recheck s .refl)

theorem SameSettings.trans {a b c : State} (h : SameSettings a b) (k : SameSettings b c) : SameSettings a c :=
  ⟨fun z => (k.1 z).trans (h.1 z), fun z => (k.2.1 z).trans (h.2.1 z), k.2.2.1.trans h.2.2.1, k.2.2.2.1.trans h.2.2.2.1,
   k.2.2.2.2.1.trans h.2.2.2.2.1, k.2.2.2.2.2.1.trans h.2.2.2.2.2.1, k.2.2.2.2.2.2.1.trans h.2.2.2.2.2.2.1, k.2.2.2.2.2.2.2.trans h.2.2.2.2.2.2.2⟩

theorem Kept.trans {a b c : State} (h : Kept a b) (k : Kept b c) : Kept a c :=
  ⟨k.1.trans h.1, k.2.1.trans h.2.1, k.2.2.1.trans h.2.2.1, k.2.2.2.1.trans h.2.2.2.1, k.2.2.2.2.1.trans h.2.2.2.2.1,
   k.2.2.2.2.2.1.trans h.2.2.2.2.2.1, h.2.2.2.2.2.2.1.trans k.2.2.2.2.2.2.1, h.2.2.2.2.2.2.2.trans k.2.2.2.2.2.2.2⟩

theorem kept_settle (s : State) : Kept s (settleLink s) := by
  refine ⟨by simp, by simp, by simp, by simp, by simp, by simp, ⟨by simp, by simp, by simp, by simp, by simp, by simp, ?_, by simp⟩, by simp; exact faultsStay_rfl _⟩
  unfold settleLink; split
  · exact transmitChoice_settings _
  · rfl

theorem kept_link (s : State) (l : Link) : Kept s { s with link := l } :=
  ⟨rfl, rfl, rfl, rfl, rfl, rfl, ⟨fun _ => rfl, fun _ => rfl, rfl, rfl, rfl, rfl, rfl, rfl⟩, faultsStay_rfl _⟩

/-- whole tail of a request -/
theorem kept_tail {u z : State} {l : Link} (k : Acts 0 { u with link := l } z) : Kept u (settleLink z) :=
  (kept_link u l).trans ((k.kept (by omega)).trans (kept_settle z))

def Off3 (s : State) : Prop := s.arb.comp.state = .offLocked ∧ s.arb.comp.minOffLeft = s.arb.timing.minOff ∧ LoadLaw s

theorem Off3.acts {s t : State} {w : Nat} (h : Off3 s) (k : Acts w s t) (hw : w < 3) : Off3 t := by
  obtain ⟨h1, h2⟩ := k.staysDown.1 h.1
  have ht := (k.kept hw).2.2.2.2.2.2.1.2.2.1
  exact ⟨h1, by rw [h2, h.2.1, ht], k.loadLaw h.2.2⟩

theorem Off3.link {s : State} {l : Link} (h : Off3 s) : Off3 { s with link := l } := h

theorem Off3.settle {s : State} (h : Off3 s) : Off3 (settleLink s) := by
  unfold Off3 LoadLaw at *; simpa using h

theorem Off3.full {t : State} (h : Off3 t) : OffFull t := by
  have := h.2.2.2.1.resolve_left (by rw [h.1]; simp [CompState.turning])
  exact ⟨h.1, h.2.1, this.1, this.2, by unfold State.speedLine; rw [h.1]⟩

theorem compStop_off3 {s : State} (hl : LoadLaw s) (hn : s.arb.comp.state.turning = true) : Off3 (compStop s) := by
  have e : compStop s = compOff s false := if_pos hn
  rw [e]
  obtain ⟨h1, h2, h3, h4⟩ := compOff_off hl hn
  exact ⟨h1, by rw [h2, h3], h4⟩

theorem eachZone_pause_arb (s : State) : (eachZone zonePause s).arb = s.arb ∧ (eachZone zonePause s).budget = s.budget := by
  simp [eachZone, ZoneId.all]

@[simp] theorem defrost_postStatus_arb (s : State) (c : StatusCause) : (postStatus s c).arb = s.arb := by simp [postStatus]

/-- leaving RUN or SERVICE for HOLD -/
theorem setMode_hold_off {s : State} (hl : LoadLaw s) (hn : s.arb.comp.state.turning = true) (hm : s.ctl.mode ≠ .hold) :
    Off3 (setMode s .hold) := by
  have tail : ∀ {A : State}, A.ctl.mode = .hold → Off3 A → Off3 (postStatus (airMode (budgetChange (defrostMode A s.ctl.mode .hold) fun b => b.setMode .hold) .hold) .mode) := by
    intro A hc hA
    have k := acts_budgetChange_wish (w := 2) (fun b => b.setMode .hold) (fun _ k => k.setMode .hold) (by simp)
      (fun b => Budget.setMode_settings b .hold) (fun b => setMode_claim b .hold) (by omega)
      (acts_defrostMode s.ctl.mode .hold hc (le_refl 2) (Acts.refl (s := A)))
    exact hA.acts (acts_postStatus _ (acts_airMode ((congrArg Control.mode (k.ctl (by omega))).trans hc).symm (by omega) k))
      (by omega)
  unfold setMode
  dsimp only
  refine tail ?_ ?_
  · have k : ∀ c [Decidable c] (x : State), Acts 1 x (if c then eachZone zonePause x else x) :=
      fun c _ x => acts_ite _ (acts_eachZone _ (fun _ z k => acts_zonePause z (le_refl 1) k) .refl) .refl
    have k2 : ∀ (c d : Prop) [Decidable c] [Decidable d] (x : State),
        Acts 1 x (if c then arbLeaveRun x else if d then arbLeaveService x else x) :=
      fun c d _ _ x => acts_ite _ (acts_arbLeaveRun .refl) (acts_ite _ (acts_arbLeaveService (le_refl 1) .refl) .refl)
    exact congrArg Control.mode (((k2 _ _ _).ctl (by omega)).trans ((k _ _).ctl (by omega)))
  cases h : s.ctl.mode with
  | hold => exact absurd h hm
  | run =>
    simp only [if_true, reduceCtorEq, if_false]
    refine compStop_off3 (s := (eachZone zonePause _).onArb _) (loadLaw_of_arb hl ?_ ?_) ?_
    · simp [eachZone, ZoneId.all]
    · simp [eachZone, ZoneId.all]
    · simpa [eachZone, ZoneId.all] using hn
  | service =>
    simp only [if_true, reduceCtorEq, if_false]
    exact compStop_off3 (s := State.onArb _ _) hl hn

theorem setMode_service_forces {s : State} (m : Mode) (hm : s.ctl.mode = .service) (hn : m ≠ .run) :
    (setMode s m).arb.forcedLevel = none ∧ (setMode s m).arb.forcedValve = none := by
  unfold setMode
  dsimp only
  rw [hm]
  simp only [if_neg hn, reduceCtorEq, if_false, if_true]
  generalize hX : (s.onCtl fun c => { c with mode := m, selfStart := none, serviceIdle := if m = .service then some Config.serviceIdle else none }) = X
  generalize hB : arbLeaveService X = B
  have kB : B.arb.forcedLevel = none ∧ B.arb.forcedValve = none := by
    have k : Acts 0 (X.onArb fun a => { a with forcedLevel := none, forcedValve := none }) B := by rw [← hB]; exact acts_compStop .refl
    have := (k.below1 (by omega)).2.1
    simp only [Prod.mk.injEq] at this
    exact ⟨this.2.2.2.2.2.2.1, this.2.2.2.2.2.2.2⟩
  have kC : (defrostMode B .service m).arb.core = B.arb.core := by
    unfold defrostMode
    dsimp only
    split
    · exact ((acts_postDefrost (acts_heaterOff (Acts.refl (w := 0) (s := B.onDefrost fun d => { d with mode := m })))).below1 (by omega)).2.1
    · rfl
  generalize defrostMode B .service m = C at kC ⊢
  have kD : Acts 0 (C.onBudget fun b => b.setMode m) (budgetChange C fun b => b.setMode m) := acts_settleFrom _ .refl
  have kD := (kD.below1 (by omega)).2.1
  generalize budgetChange C (fun b => b.setMode m) = D at kD ⊢
  have kE := ((acts_postStatus (w := 0) .mode (Acts.refl (s := airMode D m))).below1 (by omega)).2.1
  generalize postStatus (airMode D m) .mode = E at kE ⊢
  have := (kE.trans (kD.trans kC :))
  simp only [Prod.mk.injEq] at this
  exact ⟨this.2.2.2.2.2.2.1.trans kB.1, this.2.2.2.2.2.2.2.trans kB.2⟩

end Sys2Proof.Machine
end

