-- ==== Sys2Proof/Laws/Notices.lean ====
section
/-! SUPPORT. Posting a notice changes the link, the notice queues and the free index alone. -/

namespace Sys2Proof.Machine

theorem onlyNotices_post {u t : State} {k : NoticeKey} {p : List Byte} (h : OnlyLink (postNotice u k p) t) :
    OnlyNotices u t := by
  have e := postNotice_eq u k p
  have es := postNotice_settings u k p
  unfold OnlyLink at h
  generalize postNotice u k p = v at e es h
  refine ⟨?_, by rw [h]; exact es⟩
  rw [h]
  have e1 : v.uptime = u.uptime := by rw [e]
  have e2 : v.ms = u.ms := by rw [e]
  have e3 : v.ctl = u.ctl := by rw [e]
  have e4 : v.zones = u.zones := by rw [e]
  have e5 : v.arb = u.arb := by rw [e]
  have e6 : v.sched = u.sched := by rw [e]
  have e7 : v.doors = u.doors := by rw [e]
  have e8 : v.air = u.air := by rw [e]
  have e9 : v.defrost = u.defrost := by rw [e]
  have e10 : v.budget = u.budget := by rw [e]
  have e11 : v.fault = u.fault := by rw [e]
  have e12 : v.pins = u.pins := by rw [e]
  have e13 : v.pending = u.pending := by rw [e]
  simp only [e1, e2, e3, e4, e5, e6, e7, e8, e9, e10, e11, e12, e13]

theorem OnlyNotices.kept {u t : State} (h : OnlyNotices u t) : Kept u t := by
  obtain ⟨e, es⟩ := h
  refine ⟨by rw [e], by rw [e], by rw [e], by rw [e], by rw [e], by rw [e],
    ⟨fun z => by rw [e], fun c => by rw [e], by rw [e], by rw [e], by rw [e], by rw [e], es, by rw [e]⟩, ?_⟩
  rw [e]; exact faultsStay_rfl _

theorem onlyNotices_of_link {u t : State} (h : OnlyLink u t) : OnlyNotices u t := by
  unfold OnlyLink at h; rw [h]; exact ⟨rfl, rfl⟩

theorem OnlyNotices.trans {a b c : State} (h : OnlyNotices a b) (k : OnlyNotices b c) : OnlyNotices a c := by
  refine ⟨?_, k.2.trans h.2⟩
  rw [k.1, h.1]

/-- A change of the link, the free index and the status timer alone. -/
theorem onlyNotices_timer (s : State) (l : Link) (n : Nat) (x : Option Nat) :
    OnlyNotices s { s with link := l, free := n, notice := { s.notice with statusLeft := x } } := ⟨rfl, rfl⟩

theorem onlyNotices_postFault (s : State) (c : FaultCause) (e : Option FaultEntry) : OnlyNotices s (postFault s c e) := by
  unfold postFault
  split
  · exact OnlyNotices.trans (b := takeFree s) ⟨rfl, rfl⟩ (onlyNotices_post (t := postNotice (takeFree s) _ _) rfl)
  · exact onlyNotices_post rfl

theorem finish_nohold {w : Nat} {s x : State} (hl : LinkLaw s) (k : Acts w s x) (h : feedingMoved s x = false
    ∨ x.arb.hold = false) :
    finish s x = settleLink x := by
  have e : recheck s x = x := recheck_still h
  obtain ⟨_, _, _, _, _, h6, h7⟩ := hl
  rw [finish_ready, e]
  rw [e]
  refine executeReady_not fun p hp ha => ?_
  rw [settleLink_place, k.same.2.2.2.2.1] at hp
  have hr := h7 p hp ha
  have ht : s.link.tx ≠ none := fun e => by rw [h6 e] at hr; simp [Config.maxReplies] at hr
  obtain ⟨b1, b2, _⟩ := k.busy ht
  have e : settleLink x = x := by
    unfold settleLink
    rw [if_neg]
    rw [b1]; cases h : s.link.tx <;> simp_all
  rw [e, b2]
  exact hr

theorem onlyNotices_settle (x : State) : OnlyNotices x (settleLink x) := by
  unfold settleLink
  split
  · rcases transmitChoice_cases x with ⟨r, l, _, h⟩ | ⟨_, h⟩
    · rw [h]; exact ⟨rfl, rfl⟩
    · rw [h]; exact ⟨by unfold rotate; dsimp only; split <;> rfl, rotate_settings _⟩
  · exact ⟨rfl, rfl⟩

theorem LinkLaw.settled {s : State} (h : LinkLaw s) : Settled s := ⟨h.2.2.2.2.1, h.2.2.2.2.2.2⟩

end Sys2Proof.Machine
end

