-- ==== Sys2Proof/Laws/Heater.lean ====
section
/-! SUPPORT. What stands while the heater is claimed or turned off; entering a mode by a request. -/

namespace Sys2Proof.Machine

theorem still_claimFor (s : State) (u : HeaterUse) : (claimFor s u).arb.comp.state = s.arb.comp.state ∧
    (claimFor s u).arb.valve = s.arb.valve ∧ (claimFor s u).arb.grant = s.arb.grant
    ∧ (claimFor s u).defrost.use = some u ∧ (claimFor s u).defrost.heater ≠ .off := by
  unfold claimFor heaterClaim
  dsimp only
  split
  · have key : ∀ (w : State) (b : Budget), (w.arb = s.arb ∧ w.defrost.use = some u ∧ w.defrost.heater ≠ .off) →
        ((settleFrom w b).arb.comp.state = s.arb.comp.state ∧ (settleFrom w b).arb.valve = s.arb.valve ∧ (settleFrom w b).arb.grant = s.arb.grant
        ∧ (settleFrom w b).defrost.use = some u ∧ (settleFrom w b).defrost.heater ≠ .off) := by
      rintro w b ⟨e1, e2, e3⟩
      obtain ⟨⟨a1, a2, a3, _, a5⟩, a6⟩ := still_settleFrom w b
      refine ⟨a1.trans (by rw [e1]), a2.trans (by rw [e1]), a3.trans (by rw [e1]), a5.trans e2, ?_⟩
      rcases a6 with a6 | a6 <;> rw [a6]
      · exact e3
      · decide
    refine key _ _ ?_
    split
    · simp [heaterOn, postDefrost, airHeater, airInput]
    · simp
  · simp

/-- Settling, and a claim, change the Air Path Unit by the heater's report alone (R98, R135). -/
theorem settleFrom_air {P : AirPath → Prop} (hp : ∀ a : AirPath, P a → P ({ a with heaterOn := true } : AirPath).settle) (s : State)
    (b : Budget) (h : P s.air) : P (settleFrom s b).air := by
  have hc : ∀ (x : State) (n : Nat), (handCap x n).air = x.air := by intro x n; unfold handCap; split <;> rfl
  have hr : ∀ x : State, (reportBudget b x).air = x.air := by intro x; unfold reportBudget; split <;> simp
  have he : ∀ x : State, (evalAim x).air = x.air := by
    intro x
    unfold evalAim stepDown beginStep claimLevel
    (repeat' split) <;> simp
  unfold settleFrom
  dsimp only
  rw [he, hr, hc]
  split
  · simpa [heaterOn, postDefrost, airHeater, airInput] using hp _ h
  · exact h

theorem claimFor_air {P : AirPath → Prop} (hp : ∀ a : AirPath, P a → P ({ a with heaterOn := true } : AirPath).settle) (s : State)
    (u : HeaterUse) (h : P s.air) : P (claimFor s u).air := by
  unfold claimFor heaterClaim
  dsimp only
  split
  · refine settleFrom_air hp _ _ ?_
    split
    · simpa [heaterOn, postDefrost, airHeater, airInput] using hp _ h
    · exact h
  · exact h

/-- A travelling damper travels on through an evaluation (R101). -/
theorem settle_travelling {a : AirPath} {e : DamperEnd} {t : Attempt} {n : Nat} (h : a.damper = .travelling e t n) :
    a.settle.damper = .travelling e t n := by
  unfold AirPath.settle; dsimp only; rw [h]

/-- advance leaves the heater and its use. -/
theorem advance_heater (s : State) : (advance s).defrost.heater = s.defrost.heater ∧
    (advance s).defrost.use = s.defrost.use := by
  have hg : ∀ (x : State) (r : Requester), (handGrant x r).defrost.heater = x.defrost.heater ∧ (handGrant x r).defrost.use = x.defrost.use := by
    intro x r
    cases r <;> simp only [handGrant, zoneGrant] <;> (try split) <;> simp
  have hf : ∀ (l : List Requester) (x : State), (l.foldl handGrant x).defrost.heater = x.defrost.heater ∧ (l.foldl handGrant x).defrost.use = x.defrost.use := by
    intro l; induction l with
    | nil => exact fun x => ⟨rfl, rfl⟩
    | cons r l ih => exact fun x => ⟨(ih _).1.trans (hg x r).1, (ih _).2.trans (hg x r).2⟩
  have e1 : ∀ x : State, (tryActivate x).defrost.heater = x.defrost.heater ∧ (tryActivate x).defrost.use = x.defrost.use := by
    intro x; unfold tryActivate
    split
    · split
      · exact hf _ _
      · exact ⟨rfl, rfl⟩
    · exact ⟨rfl, rfl⟩
  have e2 : ∀ x : State, (tryMove x).defrost = x.defrost := by
    intro x; unfold tryMove; split
    · split <;> rfl
    · rfl
  have e3 : ∀ x : State, (tryStart x).defrost = x.defrost := by
    intro x; unfold tryStart; split
    · simp only [compStart, setComp, airComp, airInput, claimLevel, reportBudget]
      split <;> simp
    · rfl
  have e4 : ∀ x : State, (leaveRunout x).defrost = x.defrost := by
    intro x; unfold leaveRunout; split <;> simp [setComp, airComp, airInput]
  unfold advance
  rw [(still_evalAim _).2, e3, e2]
  obtain ⟨a, b⟩ := e1 (leaveRunout s)
  rw [e4] at a b
  exact ⟨a, b⟩

theorem still_heaterOff (s : State) : (heaterOff s).arb.comp.state = s.arb.comp.state ∧
    (heaterOff s).arb.valve = s.arb.valve
    ∧ (heaterOff s).arb.grant = s.arb.grant ∧ (heaterOff s).arb.hold = s.arb.hold := by
  have key : ∀ (x : State) (f : Budget → Budget), x.arb = s.arb → (budgetChange x f).arb.comp.state = s.arb.comp.state ∧ (budgetChange x f).arb.valve = s.arb.valve
    ∧ (budgetChange x f).arb.grant = s.arb.grant ∧ (budgetChange x f).arb.hold = s.arb.hold := by
    intro x f hx
    obtain ⟨⟨a1, a2, a3, a4, _⟩, _⟩ := still_settleFrom (x.onBudget f) x.budget
    rw [← hx]; exact ⟨a1, a2, a3, a4⟩
  unfold heaterOff
  dsimp only
  split
  · unfold heaterRelease; split
    · exact key _ _ (by simp [airHeater, airInput])
    · simp [airHeater, airInput]
  · unfold heaterCancel; split
    · exact key _ _ (by simp)
    · simp
  · simp

theorem entered_of {s x u z : State} {l : Link} {m : Mode} (he : x.ctl.enter m =
    { s.ctl with mode := m, selfStart := none, serviceIdle := if m = .service then some 300 else none })
    (hk : Kept { s with ctl := x.ctl.enter m } (x.onCtl fun c => c.enter m)) (hu : u = setMode x m) (k : Acts 0
    { u with link := l } z) : Entered s m (settleLink z) := by
  have k2 : Acts 2 (x.onCtl fun c => c.enter m) u := by rw [hu]; exact setMode_acts m (le_refl 2) .refl
  have hc : (settleLink z).ctl = x.ctl.enter m := by
    rw [settleLink_ctl, (k.kept (by omega)).2.2.2.1]
    exact (k2.kept (by omega)).2.2.2.1
  obtain ⟨b1, b2, b3, _⟩ := setMode_blocks x m
  rw [← hu] at b1 b2 b3
  have kb := k.below1 (by omega)
  refine ⟨hc.trans he, ?_, ?_, ?_, ?_⟩
  · rw [hc]; exact hk.trans ((k2.kept (by omega)).trans (kept_tail k))
  · rw [settleLink_air]; exact (congrArg (fun c => c.1) kb.2.2.2 :).trans b1
  · rw [settleLink_defrost]; exact mode_acts (k.widen (by omega)) b2
  · rw [settleLink_budget]; exact (congrArg (fun c => c.2.2.2.2.2.1) kb.2.2.1 :).trans b3

theorem entered_placed {s : State} {f : Frame} {u z : State} {l : Link} {m : Mode} (hu : u = setMode (placed
    (restartIdle s) f) m)
    (k : Acts 0 { u with link := l } z) : Entered s m (settleLink z) := by
  refine entered_of (x := placed (restartIdle s) f) ?_ ?_ hu k
  · by_cases hs : s.ctl.mode = .service
    · unfold restartIdle; rw [if_pos hs]; rfl
    · unfold restartIdle; rw [if_neg hs]; rfl
  · unfold restartIdle
    split <;> exact ⟨rfl, rfl, rfl, rfl, rfl, rfl, ⟨fun _ => rfl, fun _ => rfl, rfl, rfl, rfl, rfl, rfl, rfl⟩, faultsStay_rfl _⟩

end Sys2Proof.Machine
end

