-- ==== Sys2Proof/Laws/Receiving.lean ====
section
/-! SUPPORT. The receiver: what it does with a character, and with the characters of a frame. -/

namespace Sys2Proof.Machine

theorem rx_quiet {s : State} (hl : LinkLaw s) (r : Receiver) : 
    finish s { s with link := { s.link with rx := r } } = { s with link := { s.link with rx := r } } :=
  finish_quiet (by simp [feedingMoved]) hl.settled

theorem take_goes {s : State} (hl : LinkLaw s) {c : Byte} {x : Receiver} {o : Option (List Byte)} (h :
    s.link.rx.take c = (x, o)) (ho : o.bind judgeFrame = none) :
    exec (.receiveCharacter c) s = .next { s with link := { s.link with rx := x } } := by
  show Host.Outcome.next (finish s (takeCharacter s c)) = _
  have : takeCharacter s c = { s with link := { s.link with rx := x } } := by
    unfold takeCharacter; rw [h]; simp only; rw [ho]; rfl
  rw [this]; exact congrArg _ (rx_quiet hl _)

theorem take_frame {s : State} {c : Byte} {x : Receiver} {o : Option (List Byte)} {f : Frame} (h : s.link.rx.take c =
    (x, o)) (ho : o.bind judgeFrame = some f) :
    exec (.receiveCharacter c) s = runRequest { s with link := { s.link with rx := x } } f := by
  show Host.Outcome.next (finish s (takeCharacter s c)) = Host.Outcome.next (finish _ (handFrame _ f))
  have : takeCharacter s c = handFrame { s with link := { s.link with rx := x } } f := by
    unfold takeCharacter; rw [h]; simp only; rw [ho]; rfl
  rw [this]; rfl

theorem crc_snoc (bs : List Byte) (b : Byte) : crc (bs ++ [b]) = crcByte (crc bs) b := by simp [crc]

theorem half_inj {a b : Half} (h : be16 a = be16 b) : a = b := by
  have := congrArg (fun l : List Byte => half (l.getD 0 0) (l.getD 1 0)) h
  simpa [be16] using this

theorem judge_wire (f : Frame) (x : Half) (h : f.payload.length ≤ 56) : judgeFrame (f.covered ++ be16 x)
    = if x = crc f.covered then some f else none := by
  have hn : (BitVec.ofNat 8 f.payload.length).toNat = f.payload.length := by
    simp; omega
  unfold judgeFrame Frame.covered encNum
  simp only [List.cons_append, hn, List.take_left', List.drop_left']
  by_cases hx : x = crc (BitVec.ofNat 8 f.payload.length :: f.kind :: f.tag :: f.payload)
  · rw [if_pos (by rw [hx]), if_pos hx]
  · rw [if_neg (fun e => hx (half_inj e)), if_neg hx]

/-- state of the receiver after n characters of the wire, the body b = covered ++ check -/
def midway (f : Frame) (m : Nat) : Receiver :=
  let bs := (f.covered ++ be16 (crc f.covered)).take m
  let L := f.payload.length
  { phase := if m < 3 then .header else if m < L + 3 then .body else .check
    bytes := bs
    toCome := if m < 3 then 0 else L + 3 - m
    gap := 0 }

theorem wire_len (f : Frame) : (f.covered ++ be16 (crc f.covered)).length = f.payload.length + 5 := by
  simp [Frame.covered, be16]

theorem mid_step (f : Frame) (h : f.payload.length ≤ 56) (m : Nat) (hm : m < f.payload.length + 4) (c : Byte)
    (hc : (f.covered ++ be16 (crc f.covered))[m]? = some c) : (midway f m).take c = (midway f (m + 1), none) := by
  have hn : (BitVec.ofNat 8 f.payload.length).toNat = f.payload.length := by simp; omega
  have ht : (f.covered ++ be16 (crc f.covered)).take (m + 1) = (f.covered ++ be16 (crc f.covered)).take m ++ [c] := by
    rw [List.take_add_one, hc]; rfl
  have hl : ((f.covered ++ be16 (crc f.covered)).take m).length = m := by
    rw [List.length_take, wire_len]; omega
  have hh : m ≠ 0 → ((f.covered ++ be16 (crc f.covered)).take m).headD 0 = BitVec.ofNat 8 f.payload.length := by
    intro h0
    obtain ⟨k, rfl⟩ := Nat.exists_eq_succ_of_ne_zero h0
    simp [Frame.covered, encNum]
  have h0' : m = 0 → c = BitVec.ofNat 8 f.payload.length := by
    intro e; subst e
    simp [Frame.covered, encNum] at hc
    exact hc.symm
  unfold midway
  simp only [ht]
  generalize (f.covered ++ be16 (crc f.covered)).take m = bs at *
  unfold Receiver.take
  by_cases h1 : m < 3
  · simp only [h1, if_true]
    by_cases h2 : m = 0
    · subst h2
      have hb : bs = [] := List.length_eq_zero_iff.1 hl
      have hcn : c.toNat = f.payload.length := by rw [h0' rfl, hn]
      subst hb
      simp [Config.maxPayload, hcn, not_lt.2 h]
    · have hb : bs ≠ [] := fun e => h2 (by rw [← hl, e]; rfl)
      have hd := hh h2
      simp only [hb, false_and, if_false, List.length_append, hl, List.length_cons, List.length_nil]
      by_cases h3 : m = 2
      · subst h3
        unfold afterTag
        have : (bs ++ [c]).headD 0 = BitVec.ofNat 8 f.payload.length := by
          cases bs with
          | nil => exact absurd rfl hb
          | cons a l => exact hd
        rw [this, hn]
        by_cases h4 : f.payload.length = 0
        · simp [h4]
        · simp [h4, Nat.pos_of_ne_zero h4]
      · have : m = 1 := by omega
        subst this
        simp
  · simp only [h1, if_false, show ¬ m + 1 < 3 by omega]
    by_cases h2 : m < f.payload.length + 3
    · simp only [h2, if_true]
      by_cases h3 : m + 1 < f.payload.length + 3
      · simp [h3, show ¬ f.payload.length + 3 - m ≤ 1 by omega]; omega
      · simp [h3, show f.payload.length + 3 - m ≤ 1 by omega]; omega
    · have hb : bs ≠ [] := fun e => by rw [e] at hl; simp at hl; omega
      have hd := hh (by omega)
      simp only [h2, if_false, show ¬ m + 1 < f.payload.length + 3 by omega]
      rw [hd, hn, List.length_append, hl]
      simp [show m ≠ f.payload.length + 4 by omega]
      omega

theorem mid_fold (f : Frame) (h : f.payload.length ≤ 56) (m : Nat) (hm : m ≤ f.payload.length + 4) :
    ((f.covered ++ be16 (crc f.covered)).take m).foldl (fun (r : Receiver) c => (r.take c).1) (midway f 0) = midway f m := by
  induction m with
  | zero => rfl
  | succ m ih =>
    have hlt : m < (f.covered ++ be16 (crc f.covered)).length := by rw [wire_len]; omega
    have hc : (f.covered ++ be16 (crc f.covered))[m]? = some (f.covered ++ be16 (crc f.covered))[m] := List.getElem?_eq_getElem hlt
    rw [List.take_add_one, hc, List.foldl_append, ih (by omega)]
    simp only [Option.toList_some, List.foldl_cons, List.foldl_nil]
    rw [mid_step f h m (by omega) _ hc]

end Sys2Proof.Machine
end

