-- ==== Sys2Proof/Laws/Transmitting.lean ====
section
/-! SUPPORT. The transmitter: rotation, the spacing, replies; posted notices are on their way; resets and ends of faults. -/

namespace Sys2Proof.Machine

theorem rotate_only (s : State) : OnlyNotices s (rotate s) :=
  ⟨by unfold rotate; dsimp only; split <;> rfl, rotate_settings s⟩

theorem choice_only (s : State) : OnlyNotices s (transmitChoice s) := by
  rcases transmitChoice_cases s with ⟨r, l, _, h⟩ | ⟨_, h⟩
  · rw [h]; exact ⟨rfl, rfl⟩
  · rw [h]; exact OnlyNotices.trans (b := s.onLink _) ⟨rfl, rfl⟩ (rotate_only _)

/-- with every placed request answered, a link act that moves nothing ends settled -/
theorem finish_placed {s x : State} (h : feedingMoved s x = false) (hb : x.link.boundary = false) (hp :
    ∀ p ∈ x.link.place, p.answered = true) :
    finish s x = x := finish_quiet h ⟨hb, fun p hq ha => by rw [hp p hq] at ha; cases ha⟩

theorem choice_arb (s : State) : (transmitChoice s).arb = s.arb := by rw [(choice_only s).1]

theorem moved_arb {s x : State} (h : x.arb = s.arb) : feedingMoved s x = false := by simp [feedingMoved, h]

theorem linkMid_of {s : State} (h : LinkLaw s) : s.link.replies.length ≤ 4 := h.2.1

theorem execute_placed (s : State) (f : Frame) : (execute s f).link.place = some { frame := f, answered := true } := rfl

theorem execute_carries (s : State) (f : Frame) : ∃ r ∈ (execute s f).link.replies, ∃ p, r.frame = replyFrame f p :=
  ⟨_, List.mem_append_right _ (List.mem_singleton.2 rfl), _, rfl⟩

theorem spacing_over_choice {s : State} (hl : LinkLaw s) (ht : s.link.tx = none) (ho : spacingOver s = true) :
    exec .routineSpacingEnd s = .next (rotate { s with link := { s.link with spacing := none } }) := by
  show Host.Outcome.next (finish s (if spacingOver s then endSpacing s else s)) = _
  rw [if_pos ho]
  have hb := hl.2.2.2.2.1
  have k : Acts 3 s (endSpacing s) := .space (le_refl 3) .refl
  rw [finish_nohold hl k (Or.inl (moved_arb rfl))]
  unfold settleLink
  have : ((endSpacing s).link.tx.isNone && (endSpacing s).link.boundary) = true := by simp [endSpacing, ht]
  rw [if_pos this]
  have hr : s.link.replies = [] := hl.2.2.2.2.2.1 ht
  rcases transmitChoice_cases (endSpacing s) with ⟨r, l, e, _⟩ | ⟨_, h⟩
  · simp [endSpacing, hr] at e
  · rw [h]; congr 2
    simp [endSpacing, State.onLink, hb]

theorem spacing_busy {s : State} (hl : LinkLaw s) (ho : spacingOver s = true) (ht : s.link.tx ≠ none) :
    exec .routineSpacingEnd s = .next { s with link := { s.link with spacing := none } } := by
  show Host.Outcome.next (finish s (if spacingOver s then endSpacing s else s)) = _
  rw [if_pos ho]
  have k : Acts 3 s (endSpacing s) := .space (le_refl 3) .refl
  rw [finish_nohold hl k (Or.inl (moved_arb rfl))]
  have hn : s.link.tx.isNone = false := by cases h : s.link.tx <;> simp_all
  have : endSpacing s = { s with link := { s.link with spacing := none } } := by
    unfold endSpacing; simp [State.onLink, hn]
  rw [this]
  unfold settleLink; simp [hn]

theorem put_statusLeft (n : NoticeUnit) (q : Queue) (l : List Notice) : (n.put q l).statusLeft = n.statusLeft := by cases q <;> rfl

theorem file_statusLeft (n : NoticeUnit) (k : NoticeKey) (p : List Byte) : (n.file k p).statusLeft = n.statusLeft := by
  unfold NoticeUnit.file; split
  · rfl
  · split
    · rfl
    · exact put_statusLeft _ _ _

theorem rotate_statusLeft (s : State) : (rotate s).notice.statusLeft = s.notice.statusLeft := by
  unfold rotate; dsimp only; split
  · exact put_statusLeft _ _ _
  · rfl

theorem transmitChoice_statusLeft (s : State) : (transmitChoice s).notice.statusLeft = s.notice.statusLeft := by
  rcases transmitChoice_cases s with ⟨r, l, _, h⟩ | ⟨_, h⟩ <;> rw [h]
  · rfl
  · exact rotate_statusLeft _

theorem postNotice_statusLeft (s : State) (k : NoticeKey) (p : List Byte) :
    (postNotice s k p).notice.statusLeft = s.notice.statusLeft := by
  rcases postNotice_cases s k p with ⟨_, h⟩ | ⟨_, h⟩ | ⟨_, h⟩ | ⟨_, h⟩ <;> rw [h]
  · exact file_statusLeft _ _ _
  · exact (transmitChoice_statusLeft _).trans (file_statusLeft _ _ _)
  · exact file_statusLeft _ _ _

def Has (s : State) (n : Notice) : Prop := n ∈ s.notice.urgent ++ s.notice.routine ∨ ∃ x ∈ s.link.tx, x.frame = { kind := n.key.kind, tag := 0, payload := n.payload }

theorem choice_has {s : State} {n : Notice} (ht : s.link.tx = none) (h : Has s n) : Has (transmitChoice s) n := by
  rcases h with h | ⟨x, hx, _⟩
  · rcases transmitChoice_cases s with ⟨r, l, _, e⟩ | ⟨_, e⟩ <;> rw [e]
    · exact Or.inl h
    · unfold rotate; dsimp only
      split
      · rename_i m rest hq
        split at hq
        · generalize (turnNow _).1 = q at hq ⊢
          cases q
          · simp only [NoticeUnit.get, State.onLink_notice] at hq
            rw [hq] at h
            rcases List.mem_append.1 h with h | h
            · rcases List.mem_cons.1 h with rfl | h
              · exact Or.inr ⟨_, rfl, rfl⟩
              · exact Or.inl (List.mem_append.2 (Or.inl h))
            · exact Or.inl (List.mem_append.2 (Or.inr h))
          · simp only [NoticeUnit.get, State.onLink_notice] at hq
            rw [hq] at h
            rcases List.mem_append.1 h with h | h
            · exact Or.inl (List.mem_append.2 (Or.inl h))
            · rcases List.mem_cons.1 h with rfl | h
              · exact Or.inr ⟨_, rfl, rfl⟩
              · exact Or.inl (List.mem_append.2 (Or.inr h))
        · cases hq
      · exact Or.inl h
  · rw [ht] at hx; cases hx

theorem file_has (n : NoticeUnit) (k : NoticeKey) (p : List Byte) : { key := k, payload := p } ∈
    (n.file k p).urgent ++ (n.file k p).routine := by
  have hr : ∀ q : List Notice, hasKey k q = true → { key := k, payload := p } ∈ replaceKey k p q := by
    intro q h
    obtain ⟨m, hm, hk⟩ := List.any_eq_true.1 h
    simp only [beq_iff_eq] at hk
    exact List.mem_map.2 ⟨m, hm, by rw [if_pos hk, ← hk]⟩
  unfold NoticeUnit.file
  split
  · rename_i h; exact List.mem_append.2 (Or.inl (hr _ h))
  · split
    · rename_i h; exact List.mem_append.2 (Or.inr (hr _ h))
    · cases n.map.get k <;> simp [NoticeUnit.put, NoticeUnit.get]

theorem post_has (s : State) (k : NoticeKey) (p : List Byte) (hq : (s.notice.quiet && k.quieted) = false) : Has
    (postNotice s k p) { key := k, payload := p } := by
  unfold postNotice
  rw [if_neg (by simp [hq])]
  dsimp only
  split
  · exact Or.inl (file_has _ _ _)
  · rename_i ht
    split
    · exact choice_has (by simpa using ht) (Or.inl (file_has _ _ _))
    · exact Or.inl (file_has _ _ _)

theorem settle_has {n : Notice} (z : State) (h : Has z n) : Has (settleLink z) n := by
  unfold settleLink; split
  · rename_i hc
    simp only [Bool.and_eq_true, Option.isNone_iff_eq_none] at hc
    exact choice_has hc.1 h
  · exact h

/-- the place and lists of a state whose link came from a reset -/
def Clean (s : State) : Prop := s.link.place = none ∧ s.link.waiting = [] ∧ s.link.rx = Receiver.hunting ∧ s.link.resetTaken = false

theorem Clean.acts {w : Nat} {s t : State} (h : Clean s) (k : Acts w s t) : Clean t := by
  obtain ⟨_, _, _, k1, k2, k3, k4, _⟩ := k.same
  exact ⟨k2.trans h.1, k3.trans h.2.1, k1.trans h.2.2.1, k4.trans h.2.2.2⟩

theorem Clean.settle {s : State} (h : Clean s) : Clean (settleLink s) := by
  refine ⟨(settleLink_place s).trans h.1, (settleLink_waiting s).trans h.2.1, ?_, (settleLink_resetTaken s).trans h.2.2.2⟩
  unfold settleLink; split
  · rw [transmitChoice_rx]; exact h.2.2.1
  · exact h.2.2.1

theorem finish_clean {s x : State} (h : Clean x) (hh : x.arb.hold = false) : finish s x = settleLink x := by
  have e : recheck s x = x := recheck_still (Or.inr hh)
  rw [finish_ready, e]
  rw [e]
  exact executeReady_not fun p hp => by rw [settleLink_place, h.1] at hp; cases hp

theorem clean_fresh (s : State) : Clean (freshState s) := ⟨rfl, rfl, rfl, rfl⟩

theorem reset_view {u t : State} (h : OnlyNotices u t) : t.uptime = u.uptime ∧ t.ctl = u.ctl ∧ t.zones = u.zones
    ∧ t.arb = u.arb ∧ t.sched = u.sched ∧ t.doors = u.doors
    ∧ t.air = u.air ∧ t.defrost = u.defrost ∧ t.budget = u.budget ∧ t.fault = u.fault ∧ t.pins = u.pins
    ∧ t.pending = u.pending ∧ t.ms = u.ms := by
  rw [h.1]; simp

/-- Nothing but entries latched and notices posted. -/
def EndsOnly (s t : State) : Prop :=
  OnlyNotices { s with fault := t.fault } t
    ∧ t.fault.capture = s.fault.capture ∧ t.fault.resetCount = s.fault.resetCount

theorem EndsOnly.trans {a b c : State} (h : EndsOnly a b) (k : EndsOnly b c) : EndsOnly a c := by
  obtain ⟨h1, h3, h4⟩ := h
  obtain ⟨k1, k3, k4⟩ := k
  refine ⟨⟨?_, k1.2.trans h1.2⟩, k3.trans h3, k4.trans h4⟩
  rw [k1.1, h1.1]

theorem endsOnly_rfl (s : State) : EndsOnly s s := ⟨⟨rfl, rfl⟩, rfl, rfl⟩

theorem endsOnly_notices {s t : State} (h : OnlyNotices s t) : EndsOnly s t := by
  obtain ⟨_, _, _, _, _, _, _, _, _, h10, _⟩ := reset_view h
  refine ⟨⟨?_, h.2⟩, by rw [h10], by rw [h10]⟩
  rw [h.1]

theorem onlyNotices_fault {u t : State} {c : FaultCause} {e : Option FaultEntry} (h : t = postFault u c e) :
    OnlyNotices u t := by
  subst h
  unfold postFault
  split
  · exact OnlyNotices.trans (b := takeFree u) ⟨rfl, rfl⟩ (onlyNotices_post rfl)
  · exact onlyNotices_post rfl

theorem endFault_ends (s : State) (c : FaultCode) (o : FaultObject) : EndsOnly s (endFault s c o) := by
  unfold endFault
  split
  · exact endsOnly_rfl s
  · rename_i e he
    exact EndsOnly.trans (b := s.onFault fun f =>
        { f with table := f.table.map fun x => if x.matches c o then { x with active := false } else x })
      ⟨⟨rfl, rfl⟩, rfl, rfl⟩ (endsOnly_notices (onlyNotices_fault rfl))

theorem endsOnly_ite (c : Prop) [Decidable c] {a b d : State} (h : EndsOnly a b) (k : EndsOnly a d) : EndsOnly a
    (if c then b else d) := by
  split <;> assumption

theorem ownersEnds_ends (s : State) : EndsOnly s (ownersEnds s) := by
  unfold ownersEnds
  dsimp only
  have e := endsOnly_rfl s
  have h1 := e.trans (endFault_ends s .compLockout .compressor)
  generalize endFault s .compLockout .compressor = a at *
  have h2 := endsOnly_ite (a.arb.valve.at.isSome = true) (h1.trans (endFault_ends a .valveTravel .valve)) h1
  generalize (if a.arb.valve.at.isSome = true then endFault a .valveTravel .valve else a) = b at *
  have h3 := endsOnly_ite (b.air.damper = .resting .closed) (h2.trans (endFault_ends b .damperTravel .damper)) h2
  generalize (if b.air.damper = .resting .closed then endFault b .damperTravel .damper else b) = c at *
  exact h3.trans (endFault_ends c .defrostOvertemp .heater)

end Sys2Proof.Machine
end

