-- ==== Sys2Proof/Laws/Events.lean ====
section
/-! SUPPORT. An event that acts on the blocks ends at a next state that the link settles. -/

namespace Sys2Proof.Machine

theorem event_recheck {w : Nat} {s x : State} (hl : LinkLaw s) (k : Acts w s x) : ∃ z, z = recheck s x ∧ Acts 0 x z
    ∧ outcome s x = .next (settleLink z) := by
  have e : outcome s x = .next (settleLink (recheck s x)) := congrArg Host.Outcome.next (finish_event hl k)
  have k2 : Acts 0 x (recheck s x) := acts_recheck s .refl
  generalize recheck s x = z at *
  exact ⟨z, rfl, k2, e⟩

theorem event_acts {w : Nat} {s x : State} (hl : LinkLaw s) (k : Acts w s x) : ∃ z, Acts 0 x z ∧ outcome s x = .next
    (settleLink z) := by
  obtain ⟨z, h1, h2⟩ := finish_acts hl k
  exact ⟨z, h1, congrArg _ h2⟩

theorem idle_event {s : State} (hl : LinkLaw s) : outcome s s = .next s :=
  congrArg _ (finish_quiet (by simp [feedingMoved]) hl.settled)

theorem when_true {s t : State} {b : Bool} (h : b = true) : runWhen s b t = outcome s t := by unfold runWhen; rw [h]; rfl

theorem when_false {s t : State} {b : Bool} (hl : LinkLaw s) (h : b = false) : runWhen s b t = .next s := by
  unfold runWhen; rw [h]; exact idle_event hl

theorem kept_event {x z : State} {w : Nat} {s : State} (k2 : Acts w s x) (hw : w < 3) (k : Acts 0 x z) : Kept s
    (settleLink z) :=
  (k2.kept hw).trans ((k.kept (by omega)).trans (kept_settle z))

theorem enter_ctl (s : State) (m : Mode) : s.ctl.enter m =
    { s.ctl with mode := m, selfStart := none, serviceIdle := if m = .service then some 300 else none } := rfl

theorem entered_ev {s z : State} {m : Mode} (k : Acts 0 (setMode s m) z) : Entered s m (settleLink z) := by
  have k' : Acts 0 { setMode s m with link := (setMode s m).link } z := by generalize setMode s m = u at *; exact k
  generalize hu : setMode s m = u at k'
  exact entered_of (x := s) (enter_ctl s m) (Acts.kept (w := 0) .refl (by omega)) hu.symm k'

theorem enterState_get (s : State) (z : ZoneId) (st : ZoneState) (c : ZoneCause) :
    (enterState s z st c).zones.get z = { s.zones.get z with state := st, enteredAt := s.uptime } := by
  unfold enterState postZone; simp [airZone, airInput]

theorem core_state {r q : Zone} (h : r.core = q.core) : r.state.served = q.state.served := (congrArg (fun c => c.2.1) h :)

theorem core_rest {r q : Zone} (h : r.core = q.core) : ({ r with state := .idle, enteredAt := 0 } : Zone) =
    { q with state := .idle, enteredAt := 0 } := (congrArg (fun c => c.1) h :)

theorem core_since {r q : Zone} (h : r.core = q.core) : r.since = q.since := (congrArg (fun c => c.2.2) h :)

/-- A zone that is neither CALLING nor COOLING stands with its whole record. -/
theorem core_eq {r q : Zone} (h : r.core = q.core) (hs : q.state.served ≠ .calling) : r = q := by
  have h1 := core_state h
  have h2 := core_rest h
  have h3 := core_since h
  have e : r.state = q.state := by
    cases hr : r.state <;> cases hq : q.state <;> simp_all [ZoneState.served]
  have t : r.enteredAt = q.enteredAt := by
    unfold Zone.since at h3
    rw [h1, if_neg hs, if_neg hs] at h3
    simpa using h3
  cases r; cases q; simp_all

/-- A zone that takes up work (R5, R8, R19). -/
theorem workRecord_took (z : ZoneId) (now : Time) (r : Zone) :
    ({ r.workRecord z with state := r.resting z, enteredAt := now } : Zone) = tookUpWork z now r := by
  have e : r.resting z = workState z r := by
    unfold Zone.resting workState
    cases r.doorOpenSince <;> simp
  have w : ∀ v : Temp, (r.cutIn + Config.pullDown < v) = (r.setpoint + r.halfBand + 50 < v) := fun _ => rfl
  unfold Zone.workRecord tookUpWork
  rw [e]
  by_cases h : workState z r = .idle
  · cases hm : r.mode <;> cases hv : r.lastAir <;> simp [h, Zone.offPhase, Zone.warm, hv, w]
  · simp [h]

theorem takeUpWork_get (s : State) (z : ZoneId) (c : ZoneCause) :
    (takeUpWork s z c).zones.get z = tookUpWork z s.uptime (s.zones.get z) := by
  have e : (takeUpWork s z c).zones = (enterState (s.onZone z fun r => r.workRecord z) z ((s.zones.get z).resting z) c).zones := rfl
  rw [e, enterState_get, ← workRecord_took]
  simp

theorem workState_served (z : ZoneId) (r : Zone) : (workState z r).served ≠ .calling := by
  unfold workState; (repeat' split) <;> decide

/-- A zone that leaves work for another state: its marks are cleared, the rest of its record stands (R23, R25). -/
theorem leftWork_of {r q : Zone} (h : r.core = q.core) (st : ZoneState) (now : Time) :
    ({ r.cleared with state := st, enteredAt := now } : Zone) = leftWork st now q := by
  have := core_rest h
  cases r; cases q; simp_all [Zone.cleared, leftWork]

end Sys2Proof.Machine
end

