-- ==== Sys2Proof/Laws/Aim.lean ====
section
/-! SUPPORT. The arbiter: what forming, activating, switching, starting and moving leave. -/

namespace Sys2Proof.Machine

theorem grants_uptime (l : List Requester) (s : State) : (l.foldl handGrant s).uptime = s.uptime :=
  (acts_grants (w := 0) l .refl).same.1

theorem returns_uptime (l : List Requester) (s : State) : (l.foldl handReturn s).uptime = s.uptime :=
  (acts_returns (w := 0) l .refl).same.1

/-- What activation does to the arbiter's record. -/
theorem tryActivate_arb (s : State) : (tryActivate s).arb = s.arb ∨ ∃ g, s.arb.grant = some g ∧ g.phase = .preparing
    ∧ s.arb.valve.at = some g.evap
    ∧ s.arb.comp.state = .running ∧ (tryActivate s).arb = { s.arb with grant := some (g.activate s.uptime) } := by
  unfold tryActivate
  split
  · rename_i g hg
    split
    · rename_i h
      right
      refine ⟨g, hg, h.1, h.2.1, h.2.2, ?_⟩
      unfold activate; rw [grants_arb]; rfl
    · left; rfl
  · left; rfl

theorem leaveRunout_arb (s : State) : (leaveRunout s).arb = if s.arb.grant.isSome ∧ s.arb.comp.state = .runout then
    { s.arb with comp := { s.arb.comp with state := .running } } else s.arb := by
  unfold leaveRunout; split <;> rfl

theorem tryMove_arb (s : State) : (tryMove s).arb = s.arb ∨ ∃ e x, valveWanted s = some e ∧ s.arb.valve.at = some x
    ∧ x ≠ e ∧ s.arb.comp.letsMove = true
    ∧ (tryMove s).arb = { s.arb with valve := .moving e .first Config.valveCheck } := by
  unfold tryMove
  split
  · split
    · rename_i e x h1 h2 h3
      exact Or.inr ⟨e, x, h1, h2, h3.1, h3.2, rfl⟩
    · exact Or.inl rfl
  · exact Or.inl rfl

theorem compStart_arb (s : State) : (compStart s).arb =
    { s.arb with budgetCap := s.budget.cap, comp := { s.arb.comp with level := 1, startLeft := Config.startWindow, state := .starting } } := by
  simp [compStart, claimLevel, setComp, airComp, airInput, State.onComp]

theorem tryStart_arb (s : State) : ((tryStart s) = s ∧ ¬ (startWanted s = true ∧ s.arb.comp.state = .offReady
    ∧ s.arb.dischargePos ≠ some .above))
    ∨ ((startWanted s = true ∧ s.arb.comp.state = .offReady ∧ s.arb.dischargePos ≠ some .above)
    ∧ tryStart s = compStart s) := by
  unfold tryStart; split
  · exact Or.inr ⟨by assumption, rfl⟩
  · exact Or.inl ⟨rfl, by assumption⟩

theorem evalAim_list (s : State) : (evalAim s).arb.list = s.arb.list ∧
    (evalAim s).arb.dischargePos = s.arb.dischargePos ∧ (evalAim s).arb.notFed = s.arb.notFed ∧
    (evalAim s).arb.timing = s.arb.timing
   ∧ (evalAim s).arb.forcedLevel = s.arb.forcedLevel ∧ (evalAim s).arb.forcedValve = s.arb.forcedValve ∧
    (evalAim s).arb.comp.runStart = s.arb.comp.runStart := by
  unfold evalAim stepDown beginStep claimLevel
  split
  · split
    · exact ⟨rfl, rfl, rfl, rfl, rfl, rfl, rfl⟩
    · split
      · simp
      · split <;> simp
  · split <;> simp

/-- advance keeps the list and the hold; a grant stays or activates -/
theorem advance_grant (s : State) : (advance s).arb.list = s.arb.list ∧ (advance s).arb.hold = s.arb.hold
    ∧ ((advance s).arb.grant = s.arb.grant ∨ ∃ g, s.arb.grant = some g ∧ g.phase = .preparing ∧
    (advance s).arb.grant = some (g.activate s.uptime)) := by
  have h1 : (leaveRunout s).arb.list = s.arb.list ∧ (leaveRunout s).arb.hold = s.arb.hold ∧ (leaveRunout s).arb.grant = s.arb.grant ∧ (leaveRunout s).uptime = s.uptime := by
    refine ⟨?_, ?_, ?_, (acts_leaveRunout (w := 0) .refl).same.1⟩ <;> (rw [leaveRunout_arb]; split <;> rfl)
  unfold advance
  generalize leaveRunout s = a at *
  have h2 : (tryActivate a).arb.list = s.arb.list ∧ (tryActivate a).arb.hold = s.arb.hold ∧ ((tryActivate a).arb.grant = s.arb.grant ∨ ∃ g, s.arb.grant = some g ∧ g.phase = .preparing ∧ (tryActivate a).arb.grant = some (g.activate s.uptime)) := by
    rcases tryActivate_arb a with h | ⟨g, g1, g2, _, _, g5⟩
    · rw [h]; exact ⟨h1.1, h1.2.1, Or.inl h1.2.2.1⟩
    · rw [g5]; exact ⟨h1.1, h1.2.1, Or.inr ⟨g, h1.2.2.1 ▸ g1, g2, by rw [h1.2.2.2]⟩⟩
  generalize tryActivate a = b at *
  have h3 : (tryMove b).arb.list = b.arb.list ∧ (tryMove b).arb.hold = b.arb.hold ∧ (tryMove b).arb.grant = b.arb.grant := by
    rcases tryMove_arb b with h | ⟨_, _, _, _, _, _, h⟩ <;> rw [h] <;> exact ⟨rfl, rfl, rfl⟩
  generalize tryMove b = c at *
  have h4 : (tryStart c).arb.list = c.arb.list ∧ (tryStart c).arb.hold = c.arb.hold ∧ (tryStart c).arb.grant = c.arb.grant := by
    rcases tryStart_arb c with ⟨h, _⟩ | ⟨_, h⟩ <;> rw [h]
    · exact ⟨rfl, rfl, rfl⟩
    · rw [compStart_arb]; exact ⟨rfl, rfl, rfl⟩
  generalize tryStart c = d at *
  obtain ⟨⟨_, _, e3, e4, _⟩, _⟩ := still_evalAim d
  rw [(evalAim_list d).1, e3, e4, h4.1, h4.2.1, h4.2.2, h3.1, h3.2.1, h3.2.2]
  exact h2

theorem event_nohold {w : Nat} {s x : State} (hl : LinkLaw s) (k : Acts w s x) (h : x.arb.hold = false) : outcome s x = .next
    (settleLink x) :=
  congrArg _ (finish_nohold hl k (Or.inr h))

/-- A grant formed, and what it brings about, is as R30 says. -/
theorem formGrant_formed (s : State) (e : Evap) : GrantFormed s s.arb.list e (advance (formGrant s e)) := by
  obtain ⟨h1, _, h3⟩ := advance_grant (formGrant s e)
  refine ⟨h1, ?_⟩
  rcases h3 with h3 | ⟨g, h3, _, h5⟩
  · exact ⟨_, h3, rfl, by simp [Entry.member]⟩
  · cases h3
    exact ⟨_, h5, rfl, by simp [Grant.activate, Entry.member]⟩

theorem GrantFormed.of_arb {s : State} {l : List Entry} {e : Evap} {t u : State} (h : GrantFormed s l e t)
    (hl : u.arb.list = t.arb.list) (hg : u.arb.grant = t.arb.grant) : GrantFormed s l e u :=
  ⟨hl.trans h.1, by rw [hg]; exact h.2⟩

theorem GrantFormed.of_eligible {s r : State} {l : List Entry} {e : Evap} {t : State} (h : GrantFormed r l e t)
    (he : ∀ x, r.arb.eligible x = s.arb.eligible x) : GrantFormed s l e t := by
  have : r.arb.eligible = s.arb.eligible := funext he
  unfold GrantFormed at *
  rw [← this]; exact h

/-- The best entry of a list is the first of the highest class (R30). -/
theorem bestEntry_first : ∀ {l : List Entry} {b : Entry}, bestEntry l = some b → FirstOfHighest l b
  | [], _, h => by cases h
  | a :: l, b, h => by
    unfold bestEntry at h
    cases hb : bestEntry l with
    | none =>
      rw [hb] at h
      cases l with
      | nil => cases h; exact ⟨[], [], rfl, by simp, by simp⟩
      | cons c l => unfold bestEntry at hb; (repeat' split at hb) <;> cases hb
    | some c =>
      obtain ⟨l1, l2, e, h1, h2⟩ := bestEntry_first hb
      rw [hb] at h
      dsimp only at h
      split at h
      · rename_i hlt
        cases h
        refine ⟨a :: l1, l2, by rw [e]; rfl, fun y hy => ?_, h2⟩
        rcases List.mem_cons.1 hy with rfl | hy
        · exact hlt
        · exact h1 y hy
      · rename_i hle
        cases h
        refine ⟨[], l, rfl, by simp, fun y hy => ?_⟩
        rw [e] at hy
        rcases List.mem_append.1 hy with hy | hy
        · have := h1 y hy; omega
        · rcases List.mem_cons.1 hy with rfl | hy
          · omega
          · have := h2 y hy; omega

theorem bestEntry_some : ∀ {l : List Entry}, l ≠ [] → ∃ b, bestEntry l = some b
  | [], h => absurd rfl h
  | a :: l, _ => by unfold bestEntry; (repeat' split) <;> exact ⟨_, rfl⟩

/-- A decided switch leaves the list and the grant that R36 says, and the hold as it is. -/
theorem doSwitch_switched (s : State) (g : Grant) : Switched s g (doSwitch s g) ∧ (doSwitch s g).arb.hold = s.arb.hold := by
  unfold doSwitch
  dsimp only
  have hr := returns_arb (g.holders.map (·.requester)) (relist s g.holders)
  generalize (g.holders.map (·.requester)).foldl handReturn (relist s g.holders) = y at *
  have hl : y.arb.list = s.arb.list ++ g.holders.map fun m => m.entry s.uptime := by rw [hr]; rfl
  have hf := formGrant_formed y (otherEvap g.evap)
  rw [hl] at hf
  refine ⟨hf.of_eligible fun x => ?_, (advance_grant _).2.1.trans ?_⟩
  · unfold Arbiter.eligible; rw [hr]; rfl
  · simp only [formGrant, State.onArb, hr]; rfl

theorem switches_iff {s : State} {g : Grant} (hg : s.arb.grant = some g) :
    s.arb.switches s.uptime = true ↔ s.arb.Decides g s.uptime := by
  unfold Arbiter.switches Arbiter.ground Arbiter.Decides
  rw [hg]
  simp [and_assoc, Option.any_eq_true, or_assoc]

end Sys2Proof.Machine
end

