-- ==== Sys2Proof/Laws/Tame.lean ====
section
/-! SUPPORT. Events that leave the execution place and a transmission end settled; the arbiter at rest. -/

namespace Sys2Proof.Machine

theorem evalAim_off {s : State} (h : s.arb.comp.state.running_ = false) : evalAim s = s := by
  unfold evalAim stepDown Arbiter.stepFree; simp [h]

theorem tryActivate_not {s : State} (h : s.arb.comp.state ≠ .running) : tryActivate s = s := by
  unfold tryActivate; split
  · exact if_neg fun q => h q.2.2
  · rfl

theorem leaveRunout_not {s : State} (h : s.arb.comp.state ≠ .runout) : leaveRunout s = s := if_neg fun q => h q.2

theorem tryMove_none {s : State} (h : valveWanted s = none) : tryMove s = s := by unfold tryMove; rw [h]

theorem tryMove_there {s : State} {e : Evap} (h : valveWanted s = some e) (k : s.arb.valve.at = some e) : tryMove s = s := by
  unfold tryMove; rw [h, k]; simp

theorem tryStart_not {s : State} (h : startWanted s = false) : tryStart s = s := by unfold tryStart; simp [h]

@[simp] theorem enterState_sched (s : State) (z : ZoneId) (st : ZoneState) (c : ZoneCause) :
    (enterState s z st c).sched = s.sched := by
  unfold enterState postZone; simp [airZone, airInput]

@[simp] theorem grants_sched (l : List Requester) (s : State) : (l.foldl handGrant s).sched = s.sched := by
  have h : ∀ (s : State) r, (handGrant s r).sched = s.sched := by
    intro s r; cases r <;> simp only [handGrant, zoneGrant] <;> (try split) <;> simp
  induction l generalizing s with
  | nil => rfl
  | cons r l ih => exact (ih _).trans (h s r)

@[simp] theorem evalAim_sched (s : State) : (evalAim s).sched = s.sched := by
  unfold evalAim stepDown beginStep claimLevel
  split
  · split
    · rfl
    · split
      · simp
      · split <;> simp
  · split <;> simp

theorem evalAim_level (s : State) : (evalAim s).arb.comp.level = s.arb.comp.level := by
  unfold evalAim stepDown beginStep claimLevel
  split
  · split
    · rfl
    · split
      · simp
      · split <;> simp
  · split <;> simp

theorem settleLink_quiet {s x : State} (hl : LinkLaw s) (h : x.link = s.link) : settleLink x = x :=
  settleLink_of (by rw [h]; exact hl.2.2.2.2.1)

/-- What an event leaves of the link: the execution place, and a transmission with the reply list beside it. -/
def Tame (s x : State) : Prop := x.link.place = s.link.place ∧ (s.link.tx ≠ none → x.link.tx = s.link.tx ∧ x.link.replies = s.link.replies ∧ x.link.boundary = s.link.boundary)

theorem Tame.trans {a b c : State} (h : Tame a b) (k : Tame b c) : Tame a c :=
  ⟨k.1.trans h.1, fun e => by
    obtain ⟨h1, h2, h3⟩ := h.2 e
    obtain ⟨k1, k2, k3⟩ := k.2 (by rw [h1]; exact e)
    exact ⟨k1.trans h1, k2.trans h2, k3.trans h3⟩⟩

theorem tame_link {s x : State} (h : x.link = s.link) : Tame s x := by unfold Tame; rw [h]; exact ⟨rfl, fun _ => ⟨rfl, rfl, rfl⟩⟩

theorem Acts.tame {w : Nat} {s x : State} (k : Acts w s x) : Tame s x := ⟨k.same.2.2.2.2.1, k.busy⟩

theorem finish_tame {s x : State} (hl : LinkLaw s) (k : Tame s x) : finish s x = settleLink (recheck s x) := by
  have k : Tame s (recheck s x) := k.trans (acts_recheck (w := 0) s .refl).tame
  obtain ⟨_, _, _, _, _, h6, h7⟩ := hl
  rw [finish_ready]
  generalize recheck s x = y at *
  refine executeReady_not fun p hp ha => ?_
  rw [settleLink_place, k.1] at hp
  have hr := h7 p hp ha
  have ht : s.link.tx ≠ none := fun e => by rw [h6 e] at hr; simp [Config.maxReplies] at hr
  obtain ⟨b1, b2, _⟩ := k.2 ht
  have e : settleLink y = y := by
    unfold settleLink
    rw [if_neg]
    rw [b1]; cases h : s.link.tx <;> simp_all
  rw [e, b2]
  exact hr

theorem tame_nohold {s x : State} (hl : LinkLaw s) (k : Tame s x) (h : feedingMoved s x = false ∨ x.arb.hold = false)
    : outcome s x = .next (settleLink x) :=
  congrArg _ ((finish_tame hl k).trans (by rw [recheck_still h]))

theorem tame_acts {s x : State} (hl : LinkLaw s) (k : Tame s x) : ∃ z, Acts 0 x z ∧ outcome s x = .next (settleLink z) := by
  refine ⟨recheck s x, acts_recheck s .refl, ?_⟩
  exact congrArg Host.Outcome.next (finish_tame hl k)

theorem tame_quiet {s x : State} (hl : LinkLaw s) (k : x.link = s.link) (h : feedingMoved s x = false
    ∨ x.arb.hold = false) : outcome s x = .next x :=
  (tame_nohold hl (tame_link k) h).trans (congrArg _ (settleLink_quiet hl k))

end Sys2Proof.Machine
end

