-- ==== Sys2Proof/Laws/Compressor.lean ====
section
/-! SUPPORT. The compressor and the valve: failures, steps, stops, the fault then recorded. -/

namespace Sys2Proof.Machine

theorem recorded_stays {s t : State} {c : FaultCode} {o : FaultObject} (h : Recorded s c o) (k :
    FaultsStay s.fault t.fault) : Recorded t c o := by
  obtain ⟨e, he, h1, h2⟩ := h
  obtain ⟨e', he', k1, k2⟩ := k.1 e he
  exact ⟨e', he', k1.trans h1, k2.trans h2⟩

theorem recorded_acts {w : Nat} {s t : State} {c : FaultCode} {o : FaultObject} (h : Recorded s c o) (k : Acts w s t)
    (hw : w < 3) : Recorded t c o :=
  recorded_stays h (k.kept hw).2.2.2.2.2.2.2

theorem recorded_settle {s : State} {c : FaultCode} {o : FaultObject} (h : Recorded s c o) : Recorded (settleLink s)
    c o := by
  unfold Recorded at *; simpa using h

theorem declare_recorded (s : State) (c : FaultCode) (o : FaultObject) (d : Option Sensor) : Recorded
    (declareFault s c o d) c o := by
  have e : (declareFault s c o d).fault.table = declareIn s.fault.table c o d (faultNow s) := by
    unfold declareFault postFault; dsimp only; split <;> simp
  refine ⟨_, by rw [e]; exact declareIn_has _ c o d _, ?_⟩
  exact declaredEntry_is _ c o d _

theorem forced_acts {s t : State} (k : Acts 0 s t) (h : s.arb.forcedLevel = none) : t.arb.forcedLevel = none :=
  ((congrArg (fun c => c.2.2.2.2.2.2.1) (k.below1 (by omega)).2.1 :)).trans h

theorem valve_acts {s t : State} (k : Acts 0 s t) (h : s.arb.forcedValve = none) : t.arb.forcedValve = none :=
  ((congrArg (fun c => c.2.2.2.2.2.2.2) (k.below1 (by omega)).2.1 :)).trans h

theorem compOff_off3 {s : State} (hl : LoadLaw s) (hn : s.arb.comp.state.turning = true) : Off3 (compOff s false) := by
  obtain ⟨h1, h2, h3, h4⟩ := compOff_off hl hn
  exact ⟨h1, by rw [h2, h3], h4⟩

/-- The compressor off into LOCKOUT. -/
theorem compOff_lock (s : State) :
    (compOff s true).arb.comp.state = .lockout ∧ (compOff s true).arb.comp.lockoutLeft = 1800 := by
  unfold compOff
  simp only [if_true]
  have k : Acts 0 (setComp (s.onComp fun c => { c.off with minOffLeft := 0, lockoutLeft := Config.lockoutTime }) .lockout)
      (reportLevel (setComp (s.onComp fun c => { c.off with minOffLeft := 0, lockoutLeft := Config.lockoutTime }) .lockout) 0) := by
    refine acts_reportLevel 0 (fun _ => ⟨?_, Nat.zero_le _⟩) .refl
    simp [setComp, airComp, airInput, Compressor.off, Compressor.top]
  exact (k.staysDown.2.resolve_left (by omega)).1 rfl

/-- The state of a failure before what follows it: off, the fault declared, the count raised (R40, R45). -/
def failed (s : State) (c : FaultCode) (lock : Bool) : State :=
  (declareFault (compOff (s.onArb fun a => { a with forcedLevel := none }) lock) c .compressor none).onComp
    fun k => { k with failures := k.failures + 1 }

theorem failed_facts (s : State) (c : FaultCode) (lock : Bool) (hn : s.arb.comp.state.turning = true) :
    Recorded (failed s c lock) c .compressor ∧ (failed s c lock).arb.forcedLevel = none
      ∧ (failed s c lock).arb.comp.failures = s.arb.comp.failures + 1 ∧ (failed s c lock).defrost.phase = s.defrost.phase
      ∧ Kept s (failed s c lock) := by
  have k1 : Acts 0 (s.onArb fun a => { a with forcedLevel := none }) (compOff (s.onArb fun a => { a with forcedLevel := none }) lock) :=
    acts_compOff _ hn .refl
  have f1 := forced_acts k1 rfl
  have n1 : (compOff (s.onArb fun a => { a with forcedLevel := none }) lock).arb.comp.failures = s.arb.comp.failures :=
    (k1.staysDown.2.resolve_left (by omega)).2
  have e : (failed s c lock).arb.comp.failures = (declareFault (compOff (s.onArb fun a => { a with forcedLevel := none }) lock)
      c .compressor none).arb.comp.failures + 1 := rfl
  have p : (failed s c lock).defrost.phase = (declareFault (compOff (s.onArb fun a => { a with forcedLevel := none }) lock)
      c .compressor none).defrost.phase := rfl
  have kk : Kept (declareFault (compOff (s.onArb fun a => { a with forcedLevel := none }) lock) c .compressor none) (failed s c lock) :=
    ⟨rfl, rfl, rfl, rfl, rfl, rfl, ⟨fun _ => rfl, fun _ => rfl, rfl, rfl, rfl, rfl, rfl, rfl⟩, faultsStay_rfl _⟩
  have k0 : Kept s (s.onArb fun a => { a with forcedLevel := none }) :=
    ⟨rfl, rfl, rfl, rfl, rfl, rfl, ⟨fun _ => rfl, fun _ => rfl, rfl, rfl, rfl, rfl, rfl, rfl⟩, faultsStay_rfl _⟩
  have q1 := (congrArg Defrost.phase (k1.below2 (by omega)) :)
  refine ⟨declare_recorded _ _ _ _, ?_, by rw [e, declareFault_arb, n1], by rw [p, declareFault_defrost]; exact q1,
    k0.trans ((k1.kept (by omega)).trans (((acts_declareFault (w := 0) _ _ _ .refl).kept (by omega)).trans kk))⟩
  show (declareFault _ c .compressor none).arb.forcedLevel = none
  rw [declareFault_arb]; exact f1

theorem compFail_low {s : State} (c : FaultCode) (hl : LoadLaw s) (hn : s.arb.comp.state.turning = true) (hf :
    s.arb.comp.failures < 2) :
    Acts 0 (failed s c false) (compFail s c) ∧ Off3 (failed s c false) := by
  have hd : decide (3 ≤ s.arb.comp.failures + 1) = false := decide_eq_false (by omega)
  have e : compFail s c = tryMove (select (failed s c false)) := by
    unfold compFail failed; rw [hd]; rfl
  have o : Off3 (compOff (s.onArb fun a => { a with forcedLevel := none }) false) :=
    compOff_off3 (loadLaw_of_arb hl rfl rfl) hn
  refine ⟨by rw [e]; exact acts_tryMove (acts_select .refl), ?_⟩
  have := o.acts (acts_declareFault (w := 0) c .compressor none .refl) (by omega)
  exact this

theorem compFail_high {s : State} (c : FaultCode) (hf : 2 ≤ s.arb.comp.failures) :
    Acts 0 (failed s c true) (compFail s c) ∧ (failed s c true).arb.comp.state = .lockout
      ∧ (failed s c true).arb.comp.lockoutLeft = 1800 ∧ Recorded (compFail s c) .compLockout .compressor := by
  have hd : decide (3 ≤ s.arb.comp.failures + 1) = true := decide_eq_true (by omega)
  have e : compFail s c = enterLockout (failed s c true) := by
    unfold compFail failed; rw [hd]; rfl
  have o := compOff_lock (s.onArb fun a => { a with forcedLevel := none })
  have a : (declareFault (compOff (s.onArb fun a => { a with forcedLevel := none }) true) c .compressor none).arb
      = (compOff (s.onArb fun a => { a with forcedLevel := none }) true).arb := declareFault_arb _ _ _ _
  have k : Acts 0 (declareFault (failed s c true) .compLockout .compressor none) (enterLockout (failed s c true)) :=
    acts_dissolve .refl
  rw [e]
  refine ⟨(acts_declareFault (w := 0) _ _ _ .refl).trans k, ?_, ?_, recorded_acts (declare_recorded _ _ _ _) k (by omega)⟩
  · show (declareFault _ c .compressor none).arb.comp.state = _
    rw [a]; exact o.1
  · show (declareFault _ c .compressor none).arb.comp.lockoutLeft = _
    rw [a]; exact o.2

/-- Withdrawing DEFROST and the entry to HEAT leave the forced level. -/
theorem forced_heat (s : State) (h : s.arb.forcedLevel = none) : (defrostLocked s).arb.forcedLevel = none := by
  have f : ∀ {a b : State}, Acts 0 a b → a.arb.forcedLevel = none → b.arb.forcedLevel = none := forced_acts
  unfold defrostLocked
  dsimp only
  split
  · let x := s.onDefrost fun d => { d with lockout := true }
    have h1 : (defrostWithdraw x).arb.forcedLevel = none := f (acts_defrostWithdraw .refl) h
    show (heatEntry (defrostWithdraw x)).arb.forcedLevel = none
    generalize defrostWithdraw x = y at h1
    unfold heatEntry
    dsimp only
    have tail : ∀ v : State, v.arb.forcedLevel = none →
        (postDefrost (queueDefrost (v.onDefrost fun d => { d with sampleTimer := none }))).arb.forcedLevel = none := fun v hv =>
      f (acts_postDefrost (acts_queueDefrost (Acts.refl (w := 0) (s := v.onDefrost fun d => { d with sampleTimer := none })))) hv
    refine tail _ ?_
    generalize hu : ((airPermit (defrostBounds _) false).onDefrost fun d => { d with hold := true }) = u
    have h2 : u.arb.forcedLevel = none := by rw [← hu]; exact h1
    unfold holdRequest
    split
    · exact h2
    · dsimp only
      generalize hq : ((dropFreeze u).onArb fun a => { a with hold := true, notFed := false, list := a.list.filter fun e => e.requester != .freezer && e.requester != .drawer }) = q
      have h3 : q.arb.forcedLevel = none := by rw [← hq]; unfold dropFreeze; split <;> exact h2
      have zh : ∀ (x : State) (z : ZoneId), (zoneHeld x z).arb = x.arb := by
        intro x z; unfold zoneHeld; dsimp only; split <;> simp
      have h4 : (zoneHeld (zoneHeld q .freezer) .drawer).arb.forcedLevel = none := by rw [zh, zh]; exact h3
      generalize zoneHeld (zoneHeld q .freezer) .drawer = v at h4
      exact f (acts_ite _ (acts_afterGrant (acts_feedingCheck .refl)) (acts_feedingCheck .refl)) h4
  · exact h

/-- What a failure leaves, with what may follow it (R40, R45, R46, R180). -/
theorem fail_tail {s z : State} (c : FaultCode) (hl : LoadLaw s) (hn : s.arb.comp.state.turning = true) (k : Acts 0
    (fail s c) z) :
    Kept s z ∧ Recorded z c .compressor ∧ z.speedLine = 0 ∧ z.arb.forcedLevel = none
      ∧ z.arb.comp.failures = s.arb.comp.failures + 1
      ∧ (s.arb.comp.failures < 2 → Off3 z)
      ∧ (2 ≤ s.arb.comp.failures → z.arb.comp.state = .lockout ∧ z.arb.comp.lockoutLeft = 1800
      ∧ Recorded z .compLockout .compressor) := by
  have count : ∀ {y : State}, Acts 2 y z → z.arb.comp.failures = y.arb.comp.failures := fun k =>
    (k.staysDown.2.resolve_left (by omega)).2
  by_cases hf : s.arb.comp.failures < 2
  · obtain ⟨r, f, n, _, kp⟩ := failed_facts s c false hn
    obtain ⟨a, o⟩ := compFail_low c hl hn hf
    have oc : Off3 (compFail s c) := o.acts a (by omega)
    have e : fail s c = compFail s c := if_neg (by rw [oc.1]; decide)
    rw [e] at k
    have k2 := a.trans k
    have oz := o.acts k2 (by omega)
    exact ⟨kp.trans (k2.kept (by omega)), recorded_acts r k2 (by omega), oz.full.2.2.2.2, forced_acts k2 f,
      (count (k2.widen (by omega))).trans n, fun _ => oz, fun h => absurd hf (by omega)⟩
  · have hf' : 2 ≤ s.arb.comp.failures := by omega
    obtain ⟨r, f, n, _, kp⟩ := failed_facts s c true hn
    obtain ⟨a, o1, o2, r2⟩ := compFail_high c hf'
    obtain ⟨p1, p2⟩ := ((a.staysDown.2.resolve_left (by omega)).1) o1
    have e : fail s c = defrostLocked (compFail s c) := if_pos p1
    have k2 : Acts 2 (compFail s c) (fail s c) := by rw [e]; exact acts_defrostLocked (le_refl 2) .refl
    have fz : z.arb.forcedLevel = none := forced_acts k (by rw [e]; exact forced_heat _ (forced_acts a f))
    have k3 := k2.trans (k.widen (by omega))
    have k4 : Acts 2 (failed s c true) z := (a.widen (by omega)).trans k3
    obtain ⟨q1, q2⟩ := ((k3.staysDown.2.resolve_left (by omega)).1) p1
    exact ⟨kp.trans (k4.kept (by omega)), recorded_acts r k4 (by omega), by unfold State.speedLine; rw [q1], fz,
      (count k4).trans n, fun h => absurd h hf, fun _ => ⟨q1, q2.trans (p2.trans o2), recorded_acts r2 k3 (by omega)⟩⟩

theorem evalAim_comp (s : State) : ∃ x, (evalAim s).arb.comp = { s.arb.comp with step := x } := by
  unfold evalAim stepDown beginStep claimLevel
  split
  · split
    · exact ⟨_, rfl⟩
    · split
      · exact ⟨some { goal := s.arb.comp.level + 1, left := Config.stepTime }, by simp⟩
      · split
        · exact ⟨some { goal := s.arb.comp.level - 1, left := Config.stepTime }, by simp⟩
        · exact ⟨s.arb.comp.step, by simp⟩
  · split
    · exact ⟨some { goal := s.arb.comp.level - 1, left := Config.stepTime }, by simp⟩
    · exact ⟨s.arb.comp.step, by simp⟩

theorem settleFrom_comp (s : State) (b : Budget) : ∃ x, (settleFrom s b).arb.comp = { s.arb.comp with step := x } := by
  unfold settleFrom
  dsimp only
  generalize hu : (if s.budget.settle1.settle2.heaterDue then heaterOn (s.onBudget Budget.settle) else s.onBudget Budget.settle) = u
  have h1 : u.arb = s.arb := by rw [← hu]; split <;> simp [heaterOn, postDefrost, airHeater, airInput]
  obtain ⟨x, hx⟩ := evalAim_comp (reportBudget b (handCap u b.cap))
  refine ⟨x, hx.trans ?_⟩
  have : (reportBudget b (handCap u b.cap)).arb.comp = u.arb.comp := by
    rw [reportBudget_arb]; unfold handCap; split <;> rfl
  rw [this, h1]

theorem settleFrom_arb (s : State) (b : Budget) : (settleFrom s b).arb.list = s.arb.list ∧
    (settleFrom s b).arb.grant = s.arb.grant ∧ (settleFrom s b).arb.hold = s.arb.hold ∧
    (settleFrom s b).arb.notFed = s.arb.notFed
    ∧ (settleFrom s b).arb.valve = s.arb.valve := by
  unfold settleFrom
  dsimp only
  generalize hu : (if s.budget.settle1.settle2.heaterDue then heaterOn (s.onBudget Budget.settle) else s.onBudget Budget.settle) = u
  have h1 : u.arb = s.arb := by rw [← hu]; split <;> simp [heaterOn, postDefrost, airHeater, airInput]
  have h2 : (reportBudget b (handCap u b.cap)).arb.list = s.arb.list ∧ (reportBudget b (handCap u b.cap)).arb.grant = s.arb.grant ∧ (reportBudget b (handCap u b.cap)).arb.hold = s.arb.hold ∧ (reportBudget b (handCap u b.cap)).arb.notFed = s.arb.notFed ∧ (reportBudget b (handCap u b.cap)).arb.valve = s.arb.valve := by
    rw [← h1]
    rw [reportBudget_arb]; unfold handCap; split <;> exact ⟨rfl, rfl, rfl, rfl, rfl⟩
  generalize reportBudget b (handCap u b.cap) = v at *
  obtain ⟨⟨_, a, b, c, _⟩, _⟩ := still_evalAim v
  obtain ⟨d, _, e, _⟩ := evalAim_list v
  exact ⟨d.trans h2.1, b.trans h2.2.1, c.trans h2.2.2.1, e.trans h2.2.2.2.1, a.trans h2.2.2.2.2⟩

theorem reportLevel_comp (s : State) (l : Nat) : (∃ x, (reportLevel s l).arb.comp = { s.arb.comp with step := x }) ∧
    (reportLevel s l).arb.hold = s.arb.hold ∧ (reportLevel s l).arb.grant = s.arb.grant
    ∧ (reportLevel s l).arb.valve = s.arb.valve := by
  unfold reportLevel; split
  · exact ⟨⟨_, rfl⟩, rfl, rfl, rfl⟩
  · obtain ⟨_, a, b, _, c⟩ := settleFrom_arb (s.onBudget fun b => { b with level := l }) s.budget
    exact ⟨settleFrom_comp _ _, b, a, c⟩

/-- advance with a compressor not at OFF_READY -/
theorem advance_comp {s : State} (h : s.arb.comp.state ≠ .offReady) : (advance s).arb.comp.level = s.arb.comp.level
    ∧ ((advance s).arb.comp.state = s.arb.comp.state ∨ (s.arb.comp.state = .runout ∧
    (advance s).arb.comp.state = .running)) := by
  have h1 : (leaveRunout s).arb.comp.level = s.arb.comp.level ∧ ((leaveRunout s).arb.comp.state = s.arb.comp.state ∨ (s.arb.comp.state = .runout ∧ (leaveRunout s).arb.comp.state = .running)) := by
    rw [leaveRunout_arb]; split
    · rename_i q; exact ⟨rfl, Or.inr ⟨q.2, rfl⟩⟩
    · exact ⟨rfl, Or.inl rfl⟩
  have hr : (leaveRunout s).arb.comp.state ≠ .offReady := by rcases h1.2 with q | q <;> simp_all
  unfold advance
  generalize leaveRunout s = a at *
  have h2 : (tryActivate a).arb.comp = a.arb.comp := by
    rcases tryActivate_arb a with h | ⟨g, g1, g2, _, _, g5⟩
    · rw [h]
    · rw [g5]
  generalize tryActivate a = b at *
  have h3 : (tryMove b).arb.comp = b.arb.comp := by
    rcases tryMove_arb b with h | ⟨_, _, _, _, _, _, h⟩ <;> rw [h]
  generalize tryMove b = c at *
  have h4 : tryStart c = c := by
    rcases tryStart_arb c with ⟨h, _⟩ | ⟨h, _⟩
    · exact h
    · exact absurd h.2.1 (by rw [h3, h2]; exact hr)
  rw [h4]
  obtain ⟨x, hx⟩ := evalAim_comp c
  rw [hx, h3, h2]
  exact h1

theorem lock_acts {a b : State} (k : Acts 1 a b) (h : a.defrost.lockout = false) : b.defrost.lockout = false :=
  (congrArg Defrost.lockout (k.below2 (by omega)) :).trans h

theorem lock_evaluate {x : State} (h : x.defrost.lockout = false) : (evaluate x).defrost.lockout = false := by
  unfold evaluate
  split
  · unfold enterPrechill
    exact lock_acts (a := x.onDefrost fun d => { d with phase := .prechill, prechill := 0, waitLimit := some (later x.uptime Config.prechillWait) }) (acts_postDefrost (acts_post _ _ _ .refl)) h
  · exact h

theorem advance_valve {s : State} {g : Grant} {e : Evap} (hg : s.arb.grant = some g) (he : g.evap = e) (hv :
    s.arb.valve = .resting e) :
    (advance s).arb.valve = .resting e := by
  have h1 : (leaveRunout s).arb.valve = .resting e ∧ (leaveRunout s).arb.grant = some g := by
    rw [leaveRunout_arb]; split <;> exact ⟨hv, hg⟩
  unfold advance
  generalize leaveRunout s = a at *
  have h2 : (tryActivate a).arb.valve = .resting e ∧ ∃ q, (tryActivate a).arb.grant = some q ∧ q.evap = e := by
    rcases tryActivate_arb a with h | ⟨g', g1, g2, _, _, g5⟩
    · rw [h]; exact ⟨h1.1, g, h1.2, he⟩
    · rw [g5]; rw [h1.2] at g1; cases g1; exact ⟨h1.1, _, rfl, he⟩
  generalize tryActivate a = b at *
  have h3 : tryMove b = b := by
    obtain ⟨q, q1, q2⟩ := h2.2
    unfold tryMove valveWanted; rw [q1, h2.1]
    simp only [Valve.at]
    split
    · rename_i e' x h h'
      split
      · rename_i c
        split at h
        · simp only [Option.some.injEq] at h h'
          exact absurd (h'.symm.trans (q2.symm.trans h)) c.1
        · cases h
      · rfl
    · rfl
  rw [h3]
  have h4 : (tryStart b).arb.valve = .resting e := by
    rcases tryStart_arb b with ⟨h, _⟩ | ⟨_, h⟩ <;> rw [h]
    · exact h2.1
    · rw [compStart_arb]; exact h2.1
  exact (still_evalAim (tryStart b)).1.2.1.trans h4

theorem compStop_arb (s : State) : (compStop s).arb.hold = s.arb.hold ∧ (compStop s).arb.grant = s.arb.grant ∧
    (compStop s).arb.valve = s.arb.valve := by
  unfold compStop
  split
  · unfold compOff
    dsimp only
    obtain ⟨_, a, b, c⟩ := reportLevel_comp (setComp (s.onComp fun c => if false = true then { c.off with minOffLeft := 0, lockoutLeft := Config.lockoutTime } else { c.off with minOffLeft := s.arb.timing.minOff, lockoutLeft := 0 }) (if false = true then .lockout else .offLocked)) 0
    exact ⟨a, b, c⟩
  · exact ⟨rfl, rfl, rfl⟩

theorem dissolve_arb (s : State) : (dissolve s).arb.hold = s.arb.hold ∧ (dissolve s).arb.grant = none ∧
    (dissolve s).arb.valve = s.arb.valve := by
  unfold dissolve
  split
  · rw [returns_arb]; exact ⟨rfl, rfl, rfl⟩
  · rename_i h; exact ⟨rfl, h, rfl⟩

end Sys2Proof.Machine
end

