-- ==== Sys2Proof/Laws/Listing.lean ====
section
/-! SUPPORT. Who stands on the request list and in the grant: no act of the arbiter but a post brings a requester there, and
a withdrawal takes it away. -/

namespace Sys2Proof.Machine

/-- Every requester of `t`, but for those of `l`, is one of `s`. -/
def Fewer (l : List Requester) (s t : State) : Prop := ∀ r, r ∉ l → r ∈ t.arb.requesters → r ∈ s.arb.requesters

section
variable {l : List Requester} {s t u : State}

theorem Fewer.trans (h : Fewer l s t) (k : Fewer l t u) : Fewer l s u := fun r n m => h r n (k r n m)

theorem fewer_rfl (s : State) : Fewer l s s := fun _ _ m => m

theorem mem_requesters {a : Arbiter} {r : Requester} : r ∈ a.requesters ↔ (∃ e ∈ a.list, e.requester = r)
    ∨ ∃ g, a.grant = some g ∧ ∃ m ∈ g.selected ++ g.holders, m.requester = r := by
  unfold Arbiter.requesters
  cases a.grant with
  | none => simp
  | some g =>
    simp only [Option.map_some, Option.getD_some, List.mem_append, List.mem_map, Option.some.injEq, exists_eq_left']

/-- The same list and the same grant. -/
theorem fewer_of_eq (h : t.arb.list = s.arb.list) (k : t.arb.grant = s.arb.grant) : Fewer l s t := by
  intro r _ m; unfold Arbiter.requesters at *; rwa [h, k] at m

theorem unlisted_of (h : Fewer l s t) {r : Requester} (n : r ∉ l) (k : Unlisted s r) : Unlisted t r := fun m => k (h r n m)

theorem fewer_advance (s : State) : Fewer l s (advance s) := by
  obtain ⟨h1, _, h3⟩ := advance_grant s
  rcases h3 with h3 | ⟨g, h3, _, h5⟩
  · exact fewer_of_eq h1 h3
  · intro r _ m
    rw [mem_requesters] at m ⊢
    rw [h1, h5] at m
    refine m.imp id ?_
    rintro ⟨q, hq, x, hx, rfl⟩
    cases hq
    exact ⟨g, h3, x, by simpa [Grant.activate, or_comm] using hx, rfl⟩

theorem fewer_formGrant (s : State) (e : Evap) : Fewer l s (formGrant s e) := by
  intro r _ m
  rw [mem_requesters] at m ⊢
  rcases m with ⟨x, hx, rfl⟩ | ⟨g, hg, x, hx, rfl⟩
  · exact Or.inl ⟨x, List.mem_of_mem_filter hx, rfl⟩
  · cases hg
    simp only [List.append_nil, List.mem_map] at hx
    obtain ⟨y, hy, rfl⟩ := hx
    exact Or.inl ⟨y, List.mem_of_mem_filter hy, rfl⟩

theorem fewer_select (s : State) : Fewer l s (select s) := by
  unfold select
  split
  · exact (fewer_formGrant s _).trans (fewer_advance _)
  · exact fewer_rfl s

theorem reportLevel_rolls (s : State) (n : Nat) :
    (reportLevel s n).arb.list = s.arb.list ∧ (reportLevel s n).arb.grant = s.arb.grant := by
  unfold reportLevel; split
  · exact ⟨rfl, rfl⟩
  · obtain ⟨a, b, _⟩ := settleFrom_arb (s.onBudget fun b => { b with level := n }) s.budget
    exact ⟨a, b⟩

theorem compOff_rolls (s : State) (b : Bool) :
    (compOff s b).arb.list = s.arb.list ∧ (compOff s b).arb.grant = s.arb.grant := by
  unfold compOff; exact reportLevel_rolls _ _

theorem compStop_rolls (s : State) : (compStop s).arb.list = s.arb.list ∧ (compStop s).arb.grant = s.arb.grant := by
  unfold compStop; split
  · exact compOff_rolls s false
  · exact ⟨rfl, rfl⟩

theorem evalAim_rolls (s : State) : (evalAim s).arb.list = s.arb.list ∧ (evalAim s).arb.grant = s.arb.grant :=
  ⟨(evalAim_list s).1, (still_evalAim s).1.2.2.1⟩

theorem fewer_afterGrant (s : State) : Fewer l s (afterGrant s) := by
  unfold afterGrant
  split
  · exact fewer_rfl s
  · split
    · exact fewer_select s
    · split
      · split
        · exact fewer_of_eq (compStop_rolls s).1 (compStop_rolls s).2
        · obtain ⟨a, b⟩ := evalAim_rolls (if s.arb.comp.state = .running then setComp s .runout else s)
          refine fewer_of_eq (a.trans ?_) (b.trans ?_) <;> split <;> rfl
      · exact fewer_rfl s

theorem claimFor_rolls (s : State) (u : HeaterUse) :
    (claimFor s u).arb.list = s.arb.list ∧ (claimFor s u).arb.grant = s.arb.grant := by
  unfold claimFor heaterClaim
  split
  · dsimp only
    generalize hx : (s.onDefrost fun d => { d with heater := .claimed, use := some u }).onBudget Budget.claimHeater = x
    have e : (if x.budget.heater = .granted then heaterOn x else x).arb = s.arb := by
      rw [← hx]; split <;> simp [heaterOn, postDefrost, airHeater, airInput]
    rw [(settleFrom_arb _ _).1, (settleFrom_arb _ _).2.1, e]
    exact ⟨rfl, rfl⟩
  · exact ⟨rfl, rfl⟩

theorem heaterOff_rolls (s : State) : (heaterOff s).arb.list = s.arb.list ∧ (heaterOff s).arb.grant = s.arb.grant := by
  have hb : ∀ (x : State) (f : Budget → Budget), (budgetChange x f).arb.list = x.arb.list
      ∧ (budgetChange x f).arb.grant = x.arb.grant := fun x f =>
    ⟨(settleFrom_arb (x.onBudget f) x.budget).1, (settleFrom_arb (x.onBudget f) x.budget).2.1⟩
  unfold heaterOff
  dsimp only
  split
  · unfold heaterRelease; split
    · refine ⟨(hb _ _).1.trans ?_, (hb _ _).2.trans ?_⟩ <;> simp [airHeater, airInput]
    · simp [airHeater, airInput]
  · unfold heaterCancel; split
    · exact hb _ _
    · exact ⟨rfl, rfl⟩
  · exact ⟨rfl, rfl⟩

theorem reportNotFed_rolls (s : State) :
    (reportNotFed s).arb.list = s.arb.list ∧ (reportNotFed s).arb.grant = s.arb.grant := by
  unfold reportNotFed defrostNotFed
  split
  · split
    · exact claimFor_rolls _ _
    · exact ⟨rfl, rfl⟩
  · exact ⟨rfl, rfl⟩

theorem fewer_reportNotFed (s : State) : Fewer l s (reportNotFed s) :=
  fewer_of_eq (reportNotFed_rolls s).1 (reportNotFed_rolls s).2

theorem fewer_feedingCheck (s : State) : Fewer l s (feedingCheck s) := by
  unfold feedingCheck
  split
  · exact fewer_rfl s
  · split
    · exact fewer_reportNotFed s
    · split
      · exact fewer_rfl s
      · split
        · split
          · exact fewer_rfl s
          · exact (fewer_select s).trans (fewer_reportNotFed _)
        · exact (fewer_of_eq (compStop_rolls s).1 (compStop_rolls s).2).trans (fewer_reportNotFed _)

theorem fewer_recheck (a : State) (s : State) : Fewer l s (recheck a s) := by
  unfold recheck; split
  · exact fewer_feedingCheck s
  · exact fewer_rfl s

/-- While a grant stands, the feeding check changes neither it nor the list. -/
theorem recheck_granted (a s : State) (h : s.arb.grant ≠ none) :
    (recheck a s).arb.list = s.arb.list ∧ (recheck a s).arb.grant = s.arb.grant := by
  unfold recheck feedingCheck
  (repeat' split) <;> first
    | exact ⟨rfl, rfl⟩
    | exact reportNotFed_rolls s
    | (rename_i q _; exact absurd (by simpa using q.1) h)
    | exact ⟨(reportNotFed_rolls _).1.trans (compStop_rolls s).1, (reportNotFed_rolls _).2.trans (compStop_rolls s).2⟩

/-- The return of a grant at a trip or a hot stop changes its phase and its sets, and nothing else of the arbiter (R45, R48). -/
theorem unserve_arb {s : State} {g : Grant} (hg : s.arb.grant = some g) :
    (unserve s).arb = { s.arb with grant := some (if g.phase = .active then g.prepare else g) } := by
  unfold unserve
  rw [hg]
  dsimp only
  split
  · rw [returns_arb]; rfl
  · rw [← hg]

/-- With a grant standing no selection is made (R30). -/
theorem select_granted {s : State} (h : s.arb.grant ≠ none) : select s = s := by
  unfold select selectable
  cases hg : s.arb.grant
  · exact absurd hg h
  · simp

theorem tryMove_rolls (s : State) : (tryMove s).arb.list = s.arb.list ∧ (tryMove s).arb.grant = s.arb.grant := by
  rcases tryMove_arb s with h | ⟨_, _, _, _, _, _, h⟩ <;> rw [h] <;> exact ⟨rfl, rfl⟩

/-- A failure that brings no LOCKOUT keeps a grant as it is (R40, R45). -/
theorem compFail_granted {s : State} {g : Grant} (c : FaultCode) (hg : s.arb.grant = some g) (hf : s.arb.comp.failures < 2) :
    (compFail s c).arb.grant = some g := by
  have hd : decide (3 ≤ s.arb.comp.failures + 1) = false := decide_eq_false (by omega)
  have e : compFail s c = tryMove (select (failed s c false)) := by
    unfold compFail failed; rw [hd]; rfl
  have hg' : (failed s c false).arb.grant = some g := by
    show (declareFault _ c .compressor none).arb.grant = _
    rw [declareFault_arb, (compOff_rolls _ _).2]; exact hg
  rw [e, (tryMove_rolls _).2, select_granted (by rw [hg']; simp)]
  exact hg'

theorem fail_granted {s : State} {g : Grant} (c : FaultCode) (hl : LoadLaw s) (hn : s.arb.comp.state.turning = true)
    (hg : s.arb.grant = some g) (hf : s.arb.comp.failures < 2) : (fail s c).arb.grant = some g := by
  obtain ⟨a, o⟩ := compFail_low c hl hn hf
  have e : fail s c = compFail s c := if_neg (by rw [(o.acts a (by omega)).1]; decide)
  rw [e]
  exact compFail_granted c hg hf

theorem fewer_settle (s : State) : Fewer l s (settleLink s) := fewer_of_eq (by simp) (by simp)

/-! ### Posts and withdrawals -/

theorem relist_requesters (s : State) (ms : List Member) {g : Grant} (hg : s.arb.grant = some g)
    (hs : ms ⊆ g.selected ++ g.holders) : Fewer l s (relist s ms) := by
  intro r _ m
  rw [mem_requesters] at m ⊢
  rcases m with ⟨x, hx, rfl⟩ | ⟨g', hg', _⟩
  · rcases List.mem_append.1 hx with hx | hx
    · exact Or.inl ⟨x, hx, rfl⟩
    · obtain ⟨y, hy, rfl⟩ := List.mem_map.1 hx
      exact Or.inr ⟨g, hg, y, hs hy, rfl⟩
  · cases hg'

theorem fewer_switchCheck (s : State) : Fewer l s (switchCheck s) := by
  unfold switchCheck
  split
  · rename_i g hg
    split
    · unfold doSwitch
      generalize hy : (g.holders.map (·.requester)).foldl handReturn (relist s g.holders) = y
      have e : y.arb = (relist s g.holders).arb := by rw [← hy, returns_arb]
      have k : Fewer l s y := (relist_requesters s g.holders hg (by intro x hx; simp [hx])).trans
        (fewer_of_eq (by rw [e]) (by rw [e]))
      exact k.trans ((fewer_formGrant y _).trans (fewer_advance _))
    · exact fewer_rfl s
  · exact fewer_rfl s

theorem fewer_afterEntry (s : State) (r : Requester) (c : Cls) : Fewer l s (afterEntry s r c) := by
  unfold afterEntry; split
  · split
    · exact fewer_switchCheck s
    · exact fewer_rfl s
  · exact fewer_select s

theorem updateMembers_requester (ms : List Member) (r : Requester) (c : Cls) (n : Nat) :
    (updateMembers ms r c n).map (·.requester) = ms.map (·.requester) := by
  unfold updateMembers
  rw [List.map_map]
  refine List.map_congr_left fun m _ => ?_
  show (if m.requester = r then m.update c n else m).requester = _
  split <;> rfl

/-- A post brings at most its own requester to the list or the grant (R26, R27). -/
theorem fewer_post (s : State) (r : Requester) (c : Cls) (n : Nat) : Fewer [r] s (post s r c n) := by
  unfold post
  split
  · exact fewer_rfl s
  · split
    · rename_i e _
      unfold postListed
      have k : Fewer [r] s (s.onArb fun a =>
          { a with list := a.list.map fun x => if x.requester = e.requester then x.update c n else x }) := by
        intro q _ m
        rw [mem_requesters] at m ⊢
        refine m.imp ?_ id
        rintro ⟨x, hx, rfl⟩
        obtain ⟨y, hy, rfl⟩ := List.mem_map.1 hx
        refine ⟨y, hy, ?_⟩
        split <;> rfl
      dsimp only
      split
      · exact k.trans (fewer_afterEntry _ _ _)
      · exact k
    · have new : Fewer [r] s (postNew s r c n) := by
        have app : Fewer [r] s (afterEntry (s.onArb fun a => { a with list := a.list
            ++ [{ requester := r, evap := requesterEvap r, cls := c, wish := n, postedAt := s.uptime }] }) r c) := by
          refine Fewer.trans ?_ (fewer_afterEntry _ _ _)
          intro q hq m
          rw [mem_requesters] at m ⊢
          refine m.imp ?_ id
          rintro ⟨x, hx, rfl⟩
          rcases List.mem_append.1 hx with hx | hx
          · exact ⟨x, hx, rfl⟩
          · rw [List.mem_singleton] at hx; subst hx; exact absurd (List.mem_singleton.2 rfl) hq
        unfold postNew
        split
        · rename_i g hg
          split
          · dsimp only
            have k : Fewer [r] s (s.onArb fun a => { a with grant := some (g.join { requester := r, cls := c, wish := n }) }) := by
              intro q hq m
              rw [mem_requesters] at m ⊢
              refine m.imp id ?_
              rintro ⟨g', hg', x, hx, rfl⟩
              cases hg'
              refine ⟨g, hg, x, ?_, rfl⟩
              unfold Grant.join at hx
              have hne : x ≠ { requester := r, cls := c, wish := n } := by
                rintro rfl; exact hq (List.mem_singleton.2 rfl)
              split at hx <;> simp_all
            refine k.trans ?_
            obtain ⟨a, b⟩ := evalAim_rolls (if g.phase = .active then
              handGrant (s.onArb fun a => { a with grant := some (g.join { requester := r, cls := c, wish := n }) }) r
              else s.onArb fun a => { a with grant := some (g.join { requester := r, cls := c, wish := n }) })
            refine fewer_of_eq (a.trans ?_) (b.trans ?_) <;> split <;> first | rfl | rw [handGrant_arb]
          · exact app
        · exact app
      split
      · rename_i g hg
        split
        · refine Fewer.trans ?_ (fewer_of_eq (evalAim_rolls _).1 (evalAim_rolls _).2)
          intro q _ m
          unfold Arbiter.requesters at m ⊢
          simp only [State.onArb_arb, Option.map_some, Option.getD_some, List.map_append, updateMembers_requester] at m
          rw [hg]; simpa using m
        · exact new
      · exact new

/-- A withdrawal takes its requester off the list and out of the grant (R28). -/
theorem withdraw_fewer (s : State) (r : Requester) : Fewer l s (withdraw s r) ∧ Unlisted (withdraw s r) r := by
  let t := s.onArb fun a => { a with list := a.list.filter fun e => e.requester != r }
  have kt : ∀ q, q ∈ t.arb.requesters → q ∈ s.arb.requesters := by
    intro q m
    rw [mem_requesters] at m ⊢
    exact m.imp (fun ⟨x, hx, h⟩ => ⟨x, List.mem_of_mem_filter hx, h⟩) id
  have off : ∀ x ∈ t.arb.list, x.requester ≠ r := fun x hx => by simpa using (List.mem_filter.1 hx).2
  unfold withdraw
  split
  · rename_i g hg
    split
    · split
      · let u := t.onArb fun a => { a with grant := none }
        have ku : Fewer l s u := fun q _ m => kt q (by
          rw [mem_requesters] at m ⊢
          exact m.imp id (fun ⟨_, h, _⟩ => by cases h))
        have nu : Unlisted u r := by
          unfold Unlisted; rw [mem_requesters]
          rintro (⟨x, hx, h⟩ | ⟨_, h, _⟩)
          · exact off x hx h
          · cases h
        exact ⟨ku.trans (fewer_afterGrant u), unlisted_of (l := []) (fewer_afterGrant u) (by simp) nu⟩
      · let u := t.onArb fun a => { a with grant := some (g.without r) }
        have ku : Fewer l s u := fun q _ m => kt q (by
          rw [mem_requesters] at m ⊢
          refine m.imp id ?_
          rintro ⟨_, h, x, hx, e⟩
          cases h
          refine ⟨g, hg, x, ?_, e⟩
          rcases List.mem_append.1 hx with hx | hx
          · exact List.mem_append_left _ (List.mem_of_mem_filter hx)
          · exact List.mem_append_right _ (List.mem_of_mem_filter hx))
        have nu : Unlisted u r := by
          unfold Unlisted; rw [mem_requesters]
          rintro (⟨x, hx, h⟩ | ⟨_, h, x, hx, e⟩)
          · exact off x hx h
          · cases h
            rcases List.mem_append.1 hx with hx | hx
            · simpa [e] using (List.mem_filter.1 hx).2
            · simpa [e] using (List.mem_filter.1 hx).2
        have ke := fewer_of_eq (l := []) (evalAim_rolls u).1 (evalAim_rolls u).2
        exact ⟨ku.trans (fewer_of_eq (evalAim_rolls u).1 (evalAim_rolls u).2), unlisted_of ke (by simp) nu⟩
    · rename_i hh
      refine ⟨fun q _ m => kt q m, ?_⟩
      unfold Unlisted; rw [mem_requesters]
      rintro (⟨x, hx, h⟩ | ⟨g', h, x, hx, e⟩)
      · exact off x hx h
      · have : s.arb.grant = some g' := h
        rw [hg] at this; cases this
        apply hh
        unfold Grant.has
        rcases List.mem_append.1 hx with hx | hx <;> simp <;> [left; right] <;> exact ⟨x, hx, e⟩
  · rename_i hg
    refine ⟨fun q _ m => kt q m, ?_⟩
    unfold Unlisted; rw [mem_requesters]
    rintro (⟨x, hx, h⟩ | ⟨g', h, _⟩)
    · exact off x hx h
    · have : s.arb.grant = some g' := h
      rw [hg] at this; cases this

/-- The start conditions evaluated bring at most DEFROST to the list or the grant (R110, R112). -/
theorem fewer_evaluate (s : State) : Fewer [.defrost] s (evaluate s) := by
  unfold evaluate; split
  · unfold enterPrechill
    let x := s.onDefrost fun d =>
      { d with phase := .prechill, prechill := 0, waitLimit := some (later s.uptime Config.prechillWait) }
    have k : Fewer [.defrost] s (post x .defrost .prechill 4) := fewer_post x _ _ _
    have e : ∀ y : State, (postDefrost y).arb = y.arb := fun y => by simp [postDefrost]
    exact k.trans (fewer_of_eq (congrArg Arbiter.list (e _)) (congrArg Arbiter.grant (e _)))
  · exact fewer_rfl s

theorem fewer_handClass (s : State) : Fewer [.defrost] s (handClass s) := by
  unfold handClass; split
  · exact fewer_rfl s
  · exact fewer_evaluate (noteClass s)

theorem fewer_arb {s t : State} (h : t.arb = s.arb) : Fewer l s t := fewer_of_eq (by rw [h]) (by rw [h])

theorem fewer_standDown (s : State) (z : ZoneId) : Fewer l s (standDown s z) := by
  unfold standDown; split
  · exact (withdraw_fewer s _).1
  · exact fewer_rfl s

/-! ### Who stays -/

/-- Every requester of `s` is one of `t`. -/
def More (s t : State) : Prop := ∀ r, r ∈ s.arb.requesters → r ∈ t.arb.requesters

theorem More.trans (h : More s t) (k : More t u) : More s u := fun r m => k r (h r m)

theorem more_rfl (s : State) : More s s := fun _ m => m

theorem more_of_eq (h : t.arb.list = s.arb.list) (k : t.arb.grant = s.arb.grant) : More s t := by
  intro r m; unfold Arbiter.requesters at *; rwa [h, k]

theorem more_arb {s t : State} (h : t.arb = s.arb) : More s t := more_of_eq (by rw [h]) (by rw [h])

theorem more_advance (s : State) : More s (advance s) := by
  obtain ⟨h1, _, h3⟩ := advance_grant s
  rcases h3 with h3 | ⟨g, h3, _, h5⟩
  · exact more_of_eq h1 h3
  · intro r m
    rw [mem_requesters] at m ⊢
    rw [h1, h5]
    refine m.imp id ?_
    rintro ⟨q, hq, x, hx, rfl⟩
    rw [h3] at hq; cases hq
    exact ⟨_, rfl, x, by simpa [Grant.activate, or_comm] using hx, rfl⟩

/-- An entry of the list goes into the new grant or keeps its place. -/
theorem listed_formGrant (s : State) (e : Evap) {r : Requester} (h : ∃ x ∈ s.arb.list, x.requester = r) :
    r ∈ (formGrant s e).arb.requesters := by
  obtain ⟨x, hx, rfl⟩ := h
  rw [mem_requesters]
  cases ht : s.arb.eligible x && x.evap == e
  · exact Or.inl ⟨x, List.mem_filter.2 ⟨hx, by simp [ht]⟩, rfl⟩
  · exact Or.inr ⟨_, rfl, x.member, by simpa using ⟨x, ⟨hx, by simpa using ht⟩, rfl⟩, rfl⟩

theorem more_select (s : State) : More s (select s) := by
  unfold select
  split
  · rename_i e he
    refine More.trans (fun r m => listed_formGrant s _ ?_) (more_advance _)
    have hg : s.arb.grant = none := by
      unfold selectable at he
      split at he
      · rename_i h; simpa using h.1
      · cases he
    rw [mem_requesters] at m
    exact m.resolve_right (fun ⟨g, hg', _⟩ => by rw [hg] at hg'; cases hg')
  · exact more_rfl s

theorem more_reportNotFed (s : State) : More s (reportNotFed s) :=
  more_of_eq (reportNotFed_rolls s).1 (reportNotFed_rolls s).2

theorem more_recheck (a : State) (s : State) : More s (recheck a s) := by
  unfold recheck feedingCheck
  (repeat' split) <;> first
    | exact more_rfl s
    | exact more_reportNotFed s
    | exact (more_select s).trans (more_reportNotFed _)
    | exact (more_of_eq (compStop_rolls s).1 (compStop_rolls s).2).trans (more_reportNotFed _)

theorem more_settle (s : State) : More s (settleLink s) := more_of_eq (by simp) (by simp)

/-- A listed requester stays on the list, or enters the grant, at a switch. -/
theorem listed_switchCheck (s : State) {r : Requester} (h : ∃ x ∈ s.arb.list, x.requester = r) :
    r ∈ (switchCheck s).arb.requesters := by
  have here : r ∈ s.arb.requesters := mem_requesters.2 (Or.inl h)
  unfold switchCheck
  split
  · rename_i g hg
    split
    · unfold doSwitch
      generalize hy : (g.holders.map (·.requester)).foldl handReturn (relist s g.holders) = y
      have e : y.arb = (relist s g.holders).arb := by rw [← hy, returns_arb]
      refine more_advance _ r (listed_formGrant y _ ?_)
      obtain ⟨x, hx, rfl⟩ := h
      exact ⟨x, by rw [e]; exact List.mem_append_left _ hx, rfl⟩
    · exact here
  · exact here

theorem listed_afterEntry (s : State) (q : Requester) (c : Cls) {r : Requester} (h : ∃ x ∈ s.arb.list, x.requester = r) :
    r ∈ (afterEntry s q c).arb.requesters := by
  have here : r ∈ s.arb.requesters := mem_requesters.2 (Or.inl h)
  unfold afterEntry; split
  · split
    · exact listed_switchCheck s h
    · exact here
  · exact more_select s r here

theorem more_afterEntry (s : State) (q : Requester) {c : Cls} (hc : c ≠ .recovery) : More s (afterEntry s q c) := by
  unfold afterEntry; split
  · split
    · rename_i h; exact absurd h.1 hc
    · exact more_rfl s
  · exact more_select s

theorem mem_updated {ms : List Member} {r : Requester} {c : Cls} {n : Nat} {q : Requester}
    (h : ∃ m ∈ ms, m.requester = q) : ∃ m ∈ updateMembers ms r c n, m.requester = q := by
  have := updateMembers_requester ms r c n
  obtain ⟨m, hm, rfl⟩ := h
  have k : m.requester ∈ (updateMembers ms r c n).map (·.requester) := by rw [this]; exact List.mem_map.2 ⟨m, hm, rfl⟩
  obtain ⟨x, hx, e⟩ := List.mem_map.1 k
  exact ⟨x, hx, e⟩

/-- A post in RUN brings its requester to the list or the grant; one that is no RECOVERY post, with no switch to make, leaves
every other there (R26, R27). -/
theorem more_post (s : State) (r : Requester) (c : Cls) (n : Nat) :
    (s.ctl.mode = .run → r ∈ (post s r c n).arb.requesters) ∧ (c ≠ .recovery → More s (post s r c n)) := by
  unfold post
  split
  · exact ⟨fun h => absurd h ‹_›, fun _ => more_rfl s⟩
  · split
    · rename_i e he
      have hm : e ∈ s.arb.list := List.mem_of_find?_eq_some he
      have hr : e.requester = r := by simpa using List.find?_some he
      unfold postListed
      generalize ht : (s.onArb fun a =>
          { a with list := a.list.map fun x => if x.requester = e.requester then x.update c n else x }) = t
      have k : ∀ q, (∃ x ∈ s.arb.list, x.requester = q) → ∃ x ∈ t.arb.list, x.requester = q := by
        rintro q ⟨x, hx, rfl⟩
        rw [← ht]
        refine ⟨_, List.mem_map.2 ⟨x, hx, rfl⟩, ?_⟩
        split <;> rfl
      have kt : More s t := by
        intro q m
        rw [mem_requesters] at m ⊢
        exact m.imp (k q) (fun h => by rw [← ht]; exact h)
      have kl := k r ⟨e, hm, hr⟩
      dsimp only
      split
      · exact ⟨fun _ => listed_afterEntry t _ _ kl, fun hc => kt.trans (more_afterEntry t _ hc)⟩
      · exact ⟨fun _ => mem_requesters.2 (Or.inl kl), fun _ => kt⟩
    · have new : r ∈ (postNew s r c n).arb.requesters ∧ (c ≠ .recovery → More s (postNew s r c n)) := by
        let a := s.onArb fun a => { a with list := a.list
            ++ [{ requester := r, evap := requesterEvap r, cls := c, wish := n, postedAt := s.uptime }] }
        have ka : More s a := by
          intro q m
          rw [mem_requesters] at m ⊢
          exact m.imp (fun ⟨x, hx, h⟩ => ⟨x, List.mem_append_left _ hx, h⟩) id
        have app : r ∈ (afterEntry a r c).arb.requesters ∧ (c ≠ .recovery → More s (afterEntry a r c)) :=
          ⟨listed_afterEntry a _ _ ⟨_, List.mem_append_right _ (List.mem_singleton.2 rfl), rfl⟩,
            fun hc => ka.trans (more_afterEntry a _ hc)⟩
        unfold postNew
        split
        · rename_i g hg
          split
          · dsimp only
            let j := s.onArb fun a => { a with grant := some (g.join { requester := r, cls := c, wish := n }) }
            have hj : ∀ x, (x ∈ g.selected ++ g.holders ∨ x = { requester := r, cls := c, wish := n }) →
                x ∈ (g.join { requester := r, cls := c, wish := n }).selected
                  ++ (g.join { requester := r, cls := c, wish := n }).holders := by
              intro x hx
              unfold Grant.join
              split <;> simp only [List.mem_append, List.mem_singleton] at hx ⊢ <;> tauto
            have kj : More s j := by
              intro q m
              rw [mem_requesters] at m ⊢
              refine m.imp id ?_
              rintro ⟨g', hg', x, hx, e⟩
              rw [hg] at hg'; cases hg'
              exact ⟨_, rfl, x, hj x (Or.inl hx), e⟩
            have rj : r ∈ j.arb.requesters := mem_requesters.2 (Or.inr ⟨_, rfl, _, hj _ (Or.inr rfl), rfl⟩)
            have ke : More j (evalAim (if g.phase = .active then handGrant j r else j)) := by
              obtain ⟨a, b⟩ := evalAim_rolls (if g.phase = .active then handGrant j r else j)
              refine more_of_eq (a.trans ?_) (b.trans ?_) <;> split <;> first | rfl | rw [handGrant_arb]
            exact ⟨ke r rj, fun _ => kj.trans ke⟩
          · exact app
        · exact app
      split
      · rename_i g hg
        split
        · rename_i hh
          generalize ht : (s.onArb fun a => { a with grant := some { g with
            selected := updateMembers g.selected r c n, holders := updateMembers g.holders r c n } }) = t
          have kt : More s t := by
            intro q m
            rw [mem_requesters] at m ⊢
            rw [← ht]
            refine m.imp id ?_
            rintro ⟨g', hg', x, hx, e⟩
            rw [hg] at hg'; cases hg'
            refine ⟨_, rfl, ?_⟩
            rcases List.mem_append.1 hx with hx | hx
            · obtain ⟨y, hy, k⟩ := mem_updated (r := r) (c := c) (n := n) ⟨x, hx, e⟩
              exact ⟨y, List.mem_append_left _ hy, k⟩
            · obtain ⟨y, hy, k⟩ := mem_updated (r := r) (c := c) (n := n) ⟨x, hx, e⟩
              exact ⟨y, List.mem_append_right _ hy, k⟩
          have ke := kt.trans (more_of_eq (evalAim_rolls t).1 (evalAim_rolls t).2)
          refine ⟨fun _ => ke r ?_, fun _ => ke⟩
          rw [mem_requesters]
          refine Or.inr ⟨g, hg, ?_⟩
          unfold Grant.has at hh
          simp only [Bool.or_eq_true, List.any_eq_true, beq_iff_eq] at hh
          rcases hh with ⟨x, hx, e⟩ | ⟨x, hx, e⟩
          · exact ⟨x, List.mem_append_left _ hx, e⟩
          · exact ⟨x, List.mem_append_right _ hx, e⟩
        · exact ⟨fun _ => new.1, new.2⟩
      · exact ⟨fun _ => new.1, new.2⟩

theorem more_handClass (s : State) : More s (handClass s) := by
  have h : ∀ t : State, More t (evaluate t) := by
    intro t
    unfold evaluate; split
    · unfold enterPrechill
      have e : ∀ y : State, (postDefrost y).arb = y.arb := fun y => by simp [postDefrost]
      let x := t.onDefrost fun d =>
        { d with phase := .prechill, prechill := 0, waitLimit := some (later t.uptime Config.prechillWait) }
      exact ((more_post x .defrost .prechill 4).2 (by decide)).trans (more_arb (e _))
    · exact more_rfl t
  unfold handClass; split
  · exact more_rfl s
  · exact h (noteClass s)

end

end Sys2Proof.Machine
end

