-- ==== Sys2Proof/Laws/DefrostPhases.lean ====
section
/-! SUPPORT. The Defrost Unit: credit, due, the entry to HEAT, the hold and its release. -/

namespace Sys2Proof.Machine

theorem dueTest_full {y : State} (hp : y.defrost.phase = .idle) (hc : y.defrost.current * 3600 ≤ y.defrost.credit) :
    (dueTest y).defrost.credit = y.defrost.credit ∧ (dueTest y).defrost.deferral = 0
    ∧ (dueTest y).defrost.phase = (if y.defrost.mode = .run ∧ y.defrost.freezerClass = .normal
    ∧ y.defrost.freezerDoor = .closed
          ∧ y.defrost.lockout = false then .prechill else .due) := by
  have e1 : dueTest y = evaluate (postDefrost (y.onDefrost fun d => { d with phase := .due, deferral := 0 })) := by
    unfold dueTest; rw [if_pos ⟨hp, hc⟩]
  let P := postDefrost (y.onDefrost fun d => { d with phase := .due, deferral := 0 })
  have hP : P.defrost = { y.defrost with phase := .due, deferral := 0 } := by simp [P, postDefrost]
  have hso : P.defrost.startOk = true ↔ y.defrost.mode = .run ∧ y.defrost.freezerClass = .normal ∧ y.defrost.freezerDoor = .closed ∧ y.defrost.lockout = false := by
    rw [hP]
    unfold Defrost.startOk
    cases y.defrost.freezerDoor <;> simp [DoorState.isOpen, and_assoc]
  rw [e1]
  show (evaluate P).defrost.credit = _ ∧ (evaluate P).defrost.deferral = _ ∧ (evaluate P).defrost.phase = _
  unfold evaluate
  by_cases hs : P.defrost.startOk = true
  · rw [if_pos ⟨by rw [hP], hs⟩, if_pos (hso.1 hs)]
    unfold enterPrechill
    have := (acts_postDefrost (w := 0) (acts_post .defrost .prechill 4 (.refl (s := P.onDefrost fun d => { d with phase := .prechill, prechill := 0, waitLimit := some (later P.uptime Config.prechillWait) })))).below2 (by omega)
    simp only [State.onDefrost_defrost, hP] at this
    exact ⟨(congrArg Defrost.credit this :), (congrArg Defrost.deferral this :), (congrArg Defrost.phase this :)⟩
  · rw [if_neg (fun q => hs q.2), if_neg (fun q => hs (hso.2 q)), hP]
    exact ⟨rfl, rfl, rfl⟩

theorem dueTest_below {y : State} (hc : y.defrost.credit < y.defrost.current * 3600) : dueTest y = y := by
  unfold dueTest; exact if_neg fun q => absurd q.2 (by unfold Defrost.target; omega)

theorem heatEntry_defrost (x : State) : (heatEntry x).defrost.core =
    ({ x.defrost with phase := .heat, credit := 0, probeLost := x.defrost.probeFaulted, heatClock := some 0, hold := true, sampleTimer := none } : Defrost).core := by
  unfold heatEntry
  dsimp only
  let t := x.onDefrost fun d => { d with phase := .heat, credit := 0, probeLost := d.probeFaulted, heatClock := some 0 }
  let u := (airPermit (defrostBounds t) false).onDefrost fun d => { d with hold := true }
  have hu : u.defrost = { x.defrost with phase := .heat, credit := 0, probeLost := x.defrost.probeFaulted, heatClock := some 0, hold := true } := by
    simp [u, t, airPermit, airInput, defrostBounds, setBounds]
  have k1 := (acts_holdRequest ⟨by rw [hu], by rw [hu]⟩ (le_refl 1) (Acts.refl (w := 1) (s := u))).below2 (by omega)
  rw [hu] at k1
  have k2 := (acts_postDefrost (acts_queueDefrost (Acts.refl (w := 0) (s := (holdRequest u).onDefrost fun d => { d with sampleTimer := none })))).below2 (by omega)
  refine k2.trans ?_
  exact congrArg (fun d : Defrost => ({ d with sampleTimer := none } : Defrost)) k1

theorem enterState_air (s : State) (z : ZoneId) (st : ZoneState) (c : ZoneCause) :
    (enterState s z st c).air.core = s.air.core := by
  unfold enterState postZone; simp only [postNotice_air]; unfold airZone airInput
  simp only [State.onAir_air, AirPath.settle_core]
  cases z <;> rfl

theorem zoneHeld_air (s : State) (z : ZoneId) : (zoneHeld s z).air.core = s.air.core ∧ (zoneHeld s z).arb = s.arb := by
  unfold zoneHeld
  dsimp only
  split
  · exact ⟨(enterState_air _ _ _ _).trans rfl, by simp⟩
  · exact ⟨rfl, rfl⟩

theorem holdRequest_holds (u : State) : (holdRequest u).arb.hold = true ∧ (holdRequest u).air.core = u.air.core := by
  unfold holdRequest
  split
  · rename_i h; exact ⟨h, rfl⟩
  · dsimp only
    generalize hd : (u.arb.grant.any fun g => g.evap == .freeze) = b
    generalize ht : ((dropFreeze u).onArb fun a => { a with hold := true, notFed := false, list := a.list.filter fun e => e.requester != .freezer && e.requester != .drawer }) = t
    have t1 : t.arb.hold = true ∧ t.air.core = u.air.core := by
      rw [← ht]; refine ⟨rfl, ?_⟩
      unfold dropFreeze; split <;> rfl
    have t2 : (zoneHeld (zoneHeld t .freezer) .drawer).arb.hold = true ∧ (zoneHeld (zoneHeld t .freezer) .drawer).air.core = u.air.core := by
      rw [(zoneHeld_air _ _).1, (zoneHeld_air _ _).2, (zoneHeld_air _ _).1, (zoneHeld_air _ _).2]; exact t1
    generalize zoneHeld (zoneHeld t .freezer) .drawer = v at *
    have k : Acts 0 v (if b = true ∧ (feedingCheck v).arb.grant.isNone = true then afterGrant (feedingCheck v) else feedingCheck v) :=
      acts_ite _ (acts_afterGrant (acts_feedingCheck .refl)) (acts_feedingCheck .refl)
    obtain ⟨_, k1, _, k2⟩ := k.below1 (by omega)
    exact ⟨(congrArg (fun c => c.2.2.2.2.1) k1 :).trans t2.1, k2.trans t2.2⟩

theorem heatEntry_holds (x : State) : (heatEntry x).arb.hold = true ∧ (heatEntry x).air.permit = false := by
  unfold heatEntry
  dsimp only
  let t := x.onDefrost fun d => { d with phase := .heat, credit := 0, probeLost := d.probeFaulted, heatClock := some 0 }
  let u := (airPermit (defrostBounds t) false).onDefrost fun d => { d with hold := true }
  have hu : u.air.permit = false := by
    have : u.air.core = ({ x.air with permit := false } : AirPath).core := by
      simp only [u, t, airPermit, airInput, State.onAir_air, State.onDefrost_air, AirPath.settle_core]
      rfl
    exact (congrArg (fun c => c.2.1) this :)
  obtain ⟨h1, h2⟩ := holdRequest_holds u
  have k2 := (acts_postDefrost (acts_queueDefrost (Acts.refl (w := 0) (s := (holdRequest u).onDefrost fun d => { d with sampleTimer := none })))).below1 (by omega)
  exact ⟨(congrArg (fun c => c.2.2.2.2.1) k2.2.1 :).trans h1, (congrArg (fun c => c.2.1) (k2.2.2.2.trans h2) :).trans hu⟩

theorem becomeIdle_below {x : State} (hc : x.defrost.credit < x.defrost.current * 3600) :
    becomeIdle x = endFault (postDefrost (x.onDefrost fun d => { d with phase := .idle })) .defrostOvertemp .heater := by
  unfold becomeIdle
  refine dueTest_below ?_
  simpa [postDefrost] using hc

/-- The entry to PRECHILL changes neither the intervals, the recovery limit and the credit, nor the fan permit. -/
theorem enterPrechill_same (p : State) : (enterPrechill p).defrost.current = p.defrost.current
    ∧ (enterPrechill p).defrost.recoveryLimit = p.defrost.recoveryLimit ∧ (enterPrechill p).defrost.credit = p.defrost.credit
    ∧ (enterPrechill p).air.permit = p.air.permit := by
  have k := acts_postDefrost (w := 0) (acts_post .defrost .prechill 4 (.refl (s := p.onDefrost fun d => { d with
    phase := .prechill, prechill := 0, waitLimit := some (later p.uptime Config.prechillWait) })))
  have k2 := k.below2 (by omega)
  exact ⟨(congrArg Defrost.current k2 :), (congrArg Defrost.recoveryLimit k2 :), (congrArg Defrost.credit k2 :),
    (congrArg (fun c => c.2.1) (k.below1 (by omega)).2.2.2 :)⟩

theorem evaluate_same (y : State) : (evaluate y).defrost.current = y.defrost.current
    ∧ (evaluate y).defrost.recoveryLimit = y.defrost.recoveryLimit ∧ (evaluate y).defrost.credit = y.defrost.credit
    ∧ (evaluate y).air.permit = y.air.permit := by
  unfold evaluate
  split
  · exact enterPrechill_same y
  · exact ⟨rfl, rfl, rfl, rfl⟩

/-- The start conditions evaluated leave the phase, or make it PRECHILL (R110). -/
theorem evaluate_phase (y : State) : (evaluate y).defrost.phase = y.defrost.phase ∨ (evaluate y).defrost.phase = .prechill := by
  unfold evaluate
  split
  · right
    have k := acts_postDefrost (w := 0) (acts_post .defrost .prechill 4 (.refl (s := y.onDefrost fun d => { d with
      phase := .prechill, prechill := 0, waitLimit := some (later y.uptime Config.prechillWait) })))
    exact (congrArg Defrost.phase (k.below2 (by omega)) :)
  · exact Or.inl rfl

/-- The test of the credit changes neither the intervals, the recovery limit and the credit, nor the fan permit. -/
theorem dueTest_same (y : State) : (dueTest y).defrost.current = y.defrost.current
    ∧ (dueTest y).defrost.recoveryLimit = y.defrost.recoveryLimit ∧ (dueTest y).defrost.credit = y.defrost.credit
    ∧ (dueTest y).air.permit = y.air.permit := by
  unfold dueTest
  split
  · obtain ⟨h1, h2, h3, h4⟩ := evaluate_same (postDefrost (y.onDefrost fun d => { d with phase := .due, deferral := 0 }))
    rw [h1, h2, h3, h4]; simp [postDefrost]
  · exact ⟨rfl, rfl, rfl, rfl⟩

/-- In IDLE the test of the credit leaves the phase at rest (R109, R110). -/
theorem dueTest_rest {y : State} (hp : y.defrost.phase = .idle) : (dueTest y).defrost.phase = y.defrost.restPhase := by
  unfold Defrost.restPhase
  by_cases hc : y.defrost.credit < y.defrost.current * 3600
  · rw [if_pos hc, dueTest_below hc]; exact hp
  · rw [if_neg hc, (dueTest_full hp (by omega)).2.2]

/-- What the end of RECOVER leaves (R123, R109): the next interval is in force, and a credit at its target starts anew. -/
theorem recoverEnd_leaves (s : State) : (recoverEnd s).defrost.phase = ({ s.defrost with current := s.defrost.next } : Defrost).restPhase
    ∧ (recoverEnd s).defrost.current = s.defrost.next ∧ (recoverEnd s).defrost.recoveryLimit = none
    ∧ (recoverEnd s).defrost.credit = s.defrost.credit ∧ (recoverEnd s).air.permit = true := by
  let x := setBounds ((airPermit s true).onDefrost fun d => { d with current := d.next, recoveryLimit := none }) .freezerEvap
    (Config.tempMin, Config.coilHigh)
  let y := endFault (postDefrost (x.onDefrost fun d => { d with phase := .idle })) .defrostOvertemp .heater
  have e : recoverEnd s = dueTest y := rfl
  have hy : y.defrost = { s.defrost with current := s.defrost.next, recoveryLimit := none, phase := .idle } := by
    simp [y, x, postDefrost, setBounds, airPermit, airInput]
  have hp : y.air.permit = true := by
    have : y.air.core = ({ s.air with permit := true } : AirPath).core := by
      simp only [y, endFault_air, postDefrost_air, State.onDefrost_air, x, setBounds, State.onChannel_air, airPermit, airInput,
        State.onAir_air, AirPath.settle_core]
    exact (congrArg (fun c => c.2.1) this :)
  obtain ⟨h1, h2, h3, h4⟩ := dueTest_same y
  rw [e, h1, h2, h3, h4, hy]
  refine ⟨?_, rfl, rfl, rfl, hp⟩
  unfold Defrost.restPhase
  by_cases hc : s.defrost.credit < s.defrost.next * 3600
  · rw [dueTest_below (by rw [hy]; exact hc), if_pos hc, hy]
  · rw [(dueTest_full (by rw [hy]) (by rw [hy]; exact not_lt.1 hc)).2.2, if_neg hc, hy]

theorem holdRelease_hold (s : State) : (holdRelease s).arb.hold = false := by
  unfold holdRelease
  split
  · have k := ((acts_select (Acts.refl (w := 0) (s := zoneReleased (zoneReleased (s.onArb fun a => { a with hold := false }) .freezer) .drawer))).below1 (by omega)).2.1
    refine (congrArg (fun c => c.2.2.2.2.1) k :).trans ?_
    simp
  · rename_i h; simpa using h

theorem queueDefrost_sched (s : State) : (queueDefrost s).sched.ch = s.sched.ch ∧
    (queueDefrost s).sched.queue = s.sched.queue
        ++ (if s.sched.queue.any (fun q => q.tag.isNone) then [] else [{ chan := .freezerEvap, tag := none }]) := by
  unfold queueDefrost
  by_cases hc : s.sched.queue.any (fun q => q.tag.isNone) = true
  · rw [if_pos hc, if_pos hc]; exact ⟨rfl, (List.append_nil _).symm⟩
  · rw [if_neg hc, if_neg hc]
    simp only [startNext, State.onSched_sched, startNext_ch]
    refine ⟨trivial, ?_⟩
    unfold Scheduler.startNext; split <;> rfl

end Sys2Proof.Machine
end

