-- ==== Sys2Proof/Laws/Records.lean ====
section
/-! SUPPORT. Channel records, doors, the damper events and the fault table. -/

namespace Sys2Proof.Machine

theorem band_iff (v lo hi : Temp) : (bandOf v lo hi = .below ↔ v < lo) ∧ (bandOf v lo hi = .above ↔ ¬ v < lo
    ∧ hi < v) ∧ (bandOf v lo hi = .inside ↔ lo ≤ v ∧ v ≤ hi) := by
  unfold bandOf
  by_cases h1 : v < lo
  · simp [h1]
  · by_cases h2 : hi < v
    · simp [h1, h2]
    · simp [h1, h2]; exact ⟨Int.not_lt.1 h1, Int.not_lt.1 h2⟩

theorem clamp_eq (x : Temp) : clampTemp x = max (-500) (min x 1500) := by
  unfold clampTemp Config.tempMin Config.tempMax Temp at *; split
  · omega
  · split <;> omega

theorem floor_fit (D N t1 : Int) (h : 0 < D) : D * (t1 + N / D) ≤ D * t1 + N ∧ D * t1 + N < D * (t1 + N / D + 1) := by
  have e := Int.mul_ediv_add_emod N D
  have e1 := Int.emod_nonneg N (by omega : D ≠ 0)
  have e2 := Int.emod_lt_of_pos N h
  constructor
  · rw [mul_add]; omega
  · rw [mul_add, mul_add, mul_one]; omega

theorem interp_low (a b : Nat) (ta tb : Temp) (h : b < a) : interpolate a b ta tb b = tb := by
  unfold interpolate
  have hp : (0 : Int) < (a : Int) - b := by omega
  generalize (a : Int) - b = d at *
  have : (2 * (tb - ta) * d + d) / (2 * d) = tb - ta := by
    rw [show 2 * (tb - ta) * d + d = d + (2 * d) * (tb - ta) by ring, Int.add_mul_ediv_left _ _ (by omega)]
    rw [Int.ediv_eq_zero_of_lt (by omega) (by omega)]; exact zero_add _
  rw [this]; exact add_sub_cancel ta tb

theorem curve_seg (code : Nat) : ∀ (l : List (Nat × Temp)), l.Pairwise (fun x y => y.1 < x.1)
    → ∀ k c1 t1 c2 t2, l[k]? = some (c1, t1) → l[k + 1]? = some (c2, t2) →
    c2 ≤ code → code ≤ c1 →
    2 * ((c1 : Int) - c2) * curveTemp code l ≤ 2 * ((c1 : Int) - c2) * t1 + 2 * (t2 - t1) * ((c1 : Int) - code) +
    ((c1 : Int) - c2)
    ∧ 2 * ((c1 : Int) - c2) * t1 + 2 * (t2 - t1) * ((c1 : Int) - code) + ((c1 : Int) - c2) < 2 * ((c1 : Int) - c2) *
    (curveTemp code l + 1)
  | [], _, k, c1, t1, c2, t2, h1, _, _, _ => by simp at h1
  | [x], _, k, c1, t1, c2, t2, h1, h2, _, _ => by simp at h2
  | (a, ta) :: (b, tb) :: rest, hp, k, c1, t1, c2, t2, h1, h2, l, u => by
    have hab : b < a := (List.pairwise_cons.1 hp).1 (b, tb) (List.mem_cons_self ..)
    have edge : ∀ t : Temp, c2 < c1 → code = c1 → t = t1 → 2 * ((c1 : Int) - c2) * t ≤ 2 * ((c1 : Int) - c2) * t1 + 2 * (t2 - t1) * ((c1 : Int) - code) + ((c1 : Int) - c2)
        ∧ 2 * ((c1 : Int) - c2) * t1 + 2 * (t2 - t1) * ((c1 : Int) - code) + ((c1 : Int) - c2) < 2 * ((c1 : Int) - c2) * (t + 1) := by
      rintro t h rfl rfl
      rw [sub_self, mul_zero, mul_add, mul_one]
      constructor <;> omega
    unfold curveTemp
    cases k with
    | zero =>
      simp at h1 h2
      obtain ⟨rfl, rfl⟩ := h1
      obtain ⟨rfl, rfl⟩ := h2
      by_cases ha : a ≤ code
      · rw [if_pos ha]; exact edge _ hab (by omega) rfl
      · rw [if_neg ha, if_pos l]
        unfold interpolate
        have := floor_fit (2 * ((a : Int) - b)) (2 * (tb - ta) * ((a : Int) - code) + ((a : Int) - b)) ta (by omega)
        rw [← add_assoc] at this
        exact this
    | succ k =>
      simp only [List.getElem?_cons_succ] at h1 h2
      have hp' := (List.pairwise_cons.1 hp).2
      have hd : c2 < c1 := by
        have hk := List.getElem?_eq_some_iff.1 h1
        have hk2 := List.getElem?_eq_some_iff.1 h2
        obtain ⟨q1, q2⟩ := hk
        obtain ⟨q3, q4⟩ := hk2
        have := List.pairwise_iff_getElem.1 hp' k (k + 1) q1 (Nat.succ_lt_succ q3) (by omega)
        simp only [List.getElem_cons_succ] at this
        rw [q2, q4] at this; exact this
      have hc : c1 ≤ b ∧ (c1 = b → t1 = tb) := by
        cases k with
        | zero => simp at h1; obtain ⟨rfl, rfl⟩ := h1; exact ⟨le_refl _, fun _ => rfl⟩
        | succ k =>
          simp only [List.getElem?_cons_succ] at h1
          have := (List.pairwise_cons.1 hp').1 _ (List.mem_of_getElem? h1)
          exact ⟨by simpa using le_of_lt this, fun e => by simp [e] at this⟩
      rw [if_neg (by omega)]
      by_cases hb : b ≤ code
      · have e : code = b := by omega
        rw [if_pos hb]
        refine edge _ hd (by omega) ?_
        rw [e, interp_low a b ta tb hab]
        exact (hc.2 (by omega)).symm
      · rw [if_neg hb]
        exact curve_seg code _ hp' k c1 t1 c2 t2 h1 h2 l u

theorem curve_end (code : Nat) (c : Nat) (t : Temp) : ∀ (l : List (Nat × Temp)), l.Pairwise (fun x y => y.1 < x.1)
    → l.getLast? = some (c, t) → code < c → curveTemp code l = t
  | [], _, h, _ => by simp at h
  | [x], _, h, _ => by simp at h; subst h; rfl
  | (a, ta) :: (b, tb) :: rest, hp, h, hc => by
    have hp' := (List.pairwise_cons.1 hp).2
    have h' : ((b, tb) :: rest).getLast? = some (c, t) := by simpa using h
    have hm : (c, t) ∈ (b, tb) :: rest := List.mem_of_getLast? h'
    have hb : c ≤ b := by
      rcases List.mem_cons.1 hm with h | h
      · cases h; exact le_refl _
      · exact le_of_lt ((List.pairwise_cons.1 hp').1 _ h)
    have ha := (List.pairwise_cons.1 hp).1 (b, tb) (List.mem_cons_self ..)
    unfold curveTemp
    rw [if_neg (by simp at ha; omega), if_neg (by omega)]
    exact curve_end code c t _ hp' h' hc

theorem curve_desc : Config.curve.Pairwise (fun x y => y.1 < x.1) := by decide

theorem consume_cases (r : Channel) (src : Source) : ∃ a b, r.consume src = { r with scanFlag := a, injectFlag := b } := by
  unfold Channel.consume; split
  · exact ⟨_, _, rfl⟩
  · cases src <;> exact ⟨_, _, rfl⟩

theorem consume_record (r : Channel) (src x : Source) (code : BitVec 12) (now : Time) :
    ((r.consume src).record x code now).result = (r.record x code now).result := by
  obtain ⟨a, b, h⟩ := consume_cases r src
  rw [h]
  unfold Channel.record Channel.reading
  cases r.substitute with
  | some v => rfl
  | none => cases classify code <;> rfl

theorem kept_onAir (s : State) (a : AirPath) : Kept s { s with air := a } :=
  ⟨rfl, rfl, rfl, rfl, rfl, rfl, ⟨fun _ => rfl, fun _ => rfl, rfl, rfl, rfl, rfl, rfl, rfl⟩, faultsStay_rfl _⟩

theorem onlyNotices_door (s : State) (d : DoorId) (n : Option Nat) : OnlyNotices s (postDoor s d n) := by
  unfold postDoor
  cases n with
  | none => exact onlyNotices_post rfl
  | some n =>
    dsimp only
    split
    · exact onlyNotices_post rfl
    · exact OnlyNotices.trans (b := takeFree s) ⟨rfl, rfl⟩ (onlyNotices_post (t := postNotice (takeFree s) _ _) rfl)

theorem doors_set_set (d : Doors) (i : DoorId) (v w : Door) : (d.set i v).set i w = d.set i w := by cases i <;> rfl

theorem evaluate_zones (x : State) (z : ZoneId) : ((evaluate x).zones.get z).core = (x.zones.get z).core := by
  unfold evaluate; split
  · unfold enterPrechill
    exact ((acts_postDefrost (acts_post .defrost .prechill 4 (.refl (w := 0) (s := x.onDefrost fun d => { d with phase := .prechill, prechill := 0, waitLimit := some (later x.uptime Config.prechillWait) })))).below1 (by omega)).1 z
  · rfl

theorem freezerDoorTo_zones (x : State) (d : DoorId) (st : DoorState) (z : ZoneId) :
    ((freezerDoorTo x d st).zones.get z).core = (x.zones.get z).core := by
  unfold freezerDoorTo defrostDoor; split
  · exact evaluate_zones _ z
  · rfl

theorem handSeconds_zones (x : State) (d : DoorId) (n : Nat) (z : ZoneId) :
    ((handSeconds x d n).zones.get z).core = (x.zones.get z).core := by
  have h : ∀ y : State, ((dueTest y).zones.get z).core = (y.zones.get z).core := by
    intro y; unfold dueTest; split
    · rw [evaluate_zones]; simp
    · rfl
  unfold handSeconds addCredit
  (repeat' split) <;> first | rfl | exact h _

theorem workRecord_faulted (r : Zone) (z : ZoneId) : (r.workRecord z).damperFaulted = r.damperFaulted := by
  unfold Zone.workRecord; split
  · split <;> rfl
  · rfl

theorem takeUpWork_faulted (s : State) (z : ZoneId) (c : ZoneCause) :
    ((takeUpWork s z c).zones.get z).damperFaulted = (s.zones.get z).damperFaulted := by
  have e : (takeUpWork s z c).zones = (enterState (s.onZone z fun r => r.workRecord z) z ((s.zones.get z).resting z) c).zones := rfl
  rw [e, enterState_get]
  simp [workRecord_faulted]

theorem recovered_faulted (s : State) : (drawerRecovered s).zones.drawer.damperFaulted = false := by
  unfold drawerRecovered
  dsimp only
  split
  · exact takeUpWork_faulted _ .drawer _
  · rfl

theorem drawer_core {s t : State} (k : Acts 0 s t) : t.zones.drawer.core = s.zones.drawer.core := (k.below1 (by omega)).1 .drawer

theorem faulted_faulted (s : State) : (drawerFaulted s).zones.drawer.damperFaulted = true
    ∧ (s.zones.drawer.state ≠ .disabled → s.zones.drawer.state ≠ .paused →
    (drawerFaulted s).zones.drawer.state = .fault) := by
  unfold drawerFaulted
  dsimp only
  split
  · rename_i h; exact ⟨rfl, fun k => absurd h k⟩
  · rename_i h; exact ⟨rfl, fun _ k => absurd h k⟩
  · rename_i h; exact ⟨rfl, fun _ _ => h⟩
  · let t := s.onZone .drawer fun r => { r with damperFaulted := true }
    have e := enterState_get ((standDown t .drawer).onZone .drawer fun r => { r with timer := none }) .drawer .fault .damper
    have c := core_rest (drawer_core (acts_standDown .drawer (Acts.refl (w := 0) (s := t))))
    have e1 : (enterState ((standDown t .drawer).onZone .drawer fun r => { r with timer := none }) .drawer .fault .damper).zones.drawer = _ := e
    refine ⟨?_, fun _ _ => ?_⟩
    · refine (congrArg Zone.damperFaulted e1).trans ?_
      exact (congrArg Zone.damperFaulted c :)
    · exact congrArg Zone.state e1

theorem settle_served {r q : Zone} (h : r.core = q.core) (k : q.state = .fault) : r.state = .fault := by
  have := core_state h
  rw [k] at this
  cases hr : r.state <;> simp_all [ZoneState.served]

theorem map_others {l : List FaultEntry} {c : FaultCode} {o : FaultObject} {f : FaultEntry → FaultEntry} (h :
    ∀ x ∈ l, ¬ (x.code = c ∧ x.object = o)) :
    l.map (fun x => if x.matches c o then f x else x) = l := by
  induction l with
  | nil => rfl
  | cons a l ih =>
    have ha : a.matches c o = false := by
      rw [Bool.eq_false_iff]; intro k; exact h a (by simp) ((matches_iff a c o).1 k)
    simp [ha, ih fun x hx => h x (List.mem_cons_of_mem _ hx)]

theorem map_one {l r : List FaultEntry} {e : FaultEntry} {c : FaultCode} {o : FaultObject}
    {f : FaultEntry → FaultEntry} (he : e.code = c ∧ e.object = o) (h : ∀ x ∈ l ++ r, ¬ (x.code = c ∧ x.object = o)) :
    (l ++ e :: r).map (fun x => if x.matches c o then f x else x) = l ++ f e :: r := by
  rw [List.map_append, List.map_cons, map_others fun x hx => h x (by simp [hx]), map_others fun x hx => h x (by simp [hx]), if_pos ((matches_iff e c o).2 he)]

theorem find_one {l r : List FaultEntry} {e : FaultEntry} {c : FaultCode} {o : FaultObject} (he : e.code = c
    ∧ e.object = o) (h : ∀ x ∈ l ++ r, ¬ (x.code = c ∧ x.object = o)) :
    (l ++ e :: r).find? (fun x => x.matches c o) = some e := by
  rw [List.find?_append, (List.find?_eq_none (l := l)).2]
  · simp [(matches_iff e c o).2 he]
  · intro x hx k; exact h x (by simp [hx]) ((matches_iff x c o).1 k)

theorem postFault_fault_eq (s : State) (c : FaultCause) (e : Option FaultEntry) : (postFault s c e).fault = s.fault := by
  unfold postFault; split <;> simp

end Sys2Proof.Machine
end

