-- ==== Sys2Proof/Laws/ModeChange.lean ====
section
/-! SUPPORT. What a change of mode does to the zones, to the arbiter and to a defrost at work (R25, R59, R129). -/

namespace Sys2Proof.Machine

section
variable {s t x : State}

/-! ### The zones -/

theorem enterState_get_ne (s : State) {z y : ZoneId} (h : y ≠ z) (st : ZoneState) (c : ZoneCause) :
    (enterState s z st c).zones.get y = s.zones.get y := by
  unfold enterState postZone; simp [airZone, airInput, Zones.get_set_ne _ _ h]

theorem enterState_uptime (s : State) (z : ZoneId) (st : ZoneState) (c : ZoneCause) : (enterState s z st c).uptime = s.uptime := by
  unfold enterState; simp [airZone, airInput]

/-- What an act of each zone on its own record does to the records. -/
theorem eachZone_get (f : State → ZoneId → State) (g : ZoneId → Time → Zone → Zone)
    (h1 : ∀ s z, (f s z).zones.get z = g z s.uptime (s.zones.get z)) (h2 : ∀ s z y, y ≠ z → (f s z).zones.get y = s.zones.get y)
    (h3 : ∀ s z, (f s z).uptime = s.uptime) (s : State) (z : ZoneId) :
    (eachZone f s).zones.get z = g z s.uptime (s.zones.get z) := by
  show (f (f (f s .fresh) .drawer) .freezer).zones.get z = _
  cases z
  · rw [h2 _ _ _ (by decide), h2 _ _ _ (by decide), h1]
  · rw [h2 _ _ _ (by decide), h1, h2 _ _ _ (by decide), h3]
  · rw [h1, h2 _ _ _ (by decide), h2 _ _ _ (by decide), h3, h3]

/-- Entering RUN (R25). -/
theorem zoneRun_get (s : State) (z : ZoneId) : (eachZone zoneRun s).zones.get z =
    if (s.zones.get z).state = .paused then tookUpWork z s.uptime (s.zones.get z) else s.zones.get z := by
  refine eachZone_get zoneRun (fun z now r => if r.state = .paused then tookUpWork z now r else r) (fun s z => ?_)
    (fun s z y h => ?_) (fun s z => ?_) s z
  · unfold zoneRun; split
    · exact takeUpWork_get s z .run
    · rfl
  · unfold zoneRun; split
    · unfold takeUpWork noteClass
      rw [State.onDefrost_zones, enterState_get_ne _ h]
      simp [Zones.get_set_ne _ _ h]
    · rfl
  · unfold zoneRun; split
    · unfold takeUpWork noteClass; simp [enterState_uptime]
    · rfl

/-- Leaving RUN (R25). -/
theorem zonePause_get (s : State) (z : ZoneId) : (eachZone zonePause s).zones.get z =
    if (s.zones.get z).state = .disabled then s.zones.get z
    else leftWork .paused s.uptime { s.zones.get z with held := false } := by
  refine eachZone_get zonePause (fun z now r => if r.state = .disabled then r else leftWork .paused now { r with held := false })
    (fun s z => ?_) (fun s z y h => ?_) (fun s z => ?_) s z
  · unfold zonePause; split
    · rfl
    · show (enterState _ z .paused .pause).zones.get z = _
      rw [enterState_get]; simp [Zone.cleared, leftWork]
  · unfold zonePause; split
    · rfl
    · show (enterState _ z .paused .pause).zones.get y = _
      rw [enterState_get_ne _ h]; simp [Zones.get_set_ne _ _ h]
  · unfold zonePause; split
    · rfl
    · show (enterState _ z .paused .pause).uptime = _
      rw [enterState_uptime]; rfl

/-- Acts for a grant leave the record of a zone that is neither CALLING nor COOLING. -/
theorem zone_acts (k : Acts 0 s t) (z : ZoneId) (h : (s.zones.get z).state.served ≠ .calling) : t.zones.get z = s.zones.get z :=
  core_eq (k.below1 (by omega) |>.1 z) h

/-! ### A defrost at work -/

theorem becomeIdle_defrost (hm : x.defrost.mode ≠ .run) (hc : x.defrost.current * 3600 ≤ x.defrost.credit) :
    (becomeIdle x).defrost = { x.defrost with phase := .due, deferral := 0 } ∧ (becomeIdle x).air = x.air
      ∧ (becomeIdle x).zones = x.zones := by
  let y := endFault (postDefrost (x.onDefrost fun d => { d with phase := .idle })) .defrostOvertemp .heater
  have hy : y.defrost = { x.defrost with phase := .idle } ∧ y.air = x.air ∧ y.zones = x.zones := by simp [y]
  have e : becomeIdle x = postDefrost (y.onDefrost fun d => { d with phase := .due, deferral := 0 }) := by
    show dueTest y = _
    unfold dueTest evaluate
    rw [if_pos ⟨by rw [hy.1], by rw [hy.1]; exact hc⟩, if_neg]
    rintro ⟨_, q⟩
    simp [Defrost.startOk, hy.1, hm] at q
  rw [e]
  refine ⟨?_, ?_, ?_⟩
  · rw [postDefrost_defrost, State.onDefrost_defrost, hy.1]
  · rw [postDefrost_air, State.onDefrost_air, hy.2.1]
  · rw [postDefrost_zones, State.onDefrost_zones, hy.2.2]

/-- A defrost interrupted outside RUN is due again at once, with the hold and the permit given back (R129). -/
theorem interrupt_due (hm : s.defrost.mode ≠ .run) : (interrupt s).defrost.core =
      ({ s.defrost with phase := .due, deferral := 0, credit := s.defrost.current * 3600, hold := false, prechill := 0
                        heatClock := none, sampleTimer := none, dripTimer := none, recoveryLimit := none
                        interrupted := true } : Defrost).core
    ∧ (interrupt s).air.permit = true := by
  unfold interrupt
  dsimp only
  have k1 : (if s.defrost.use = some .defrost then heaterOff s else s).defrost.core = s.defrost.core := by
    split
    · exact (acts_heaterOff (Acts.refl (w := 0) (s := s))).below2 (by omega)
    · rfl
  generalize (if s.defrost.use = some .defrost then heaterOff s else s) = a at k1 ⊢
  have k2 : (if s.defrost.phase = .prechill then defrostWithdraw a else a).defrost.core = s.defrost.core := by
    split
    · exact ((acts_defrostWithdraw (Acts.refl (w := 0) (s := a))).below2 (by omega)).trans k1
    · exact k1
  generalize (if s.defrost.phase = .prechill then defrostWithdraw a else a) = b at k2 ⊢
  have k3 : (if b.defrost.hold then holdRelease (b.onDefrost fun d => { d with hold := false }) else b).defrost.core
      = ({ s.defrost with hold := false } : Defrost).core := by
    have e : ({ b.defrost with hold := false } : Defrost).core = ({ s.defrost with hold := false } : Defrost).core :=
      congrArg (fun d : Defrost => ({ d with hold := false } : Defrost)) k2
    split
    · exact (holdRelease_core _).trans e
    · rename_i h
      have h : b.defrost.hold = false := by simpa using h
      rw [← e]
      cases hb : b.defrost; rw [hb] at h; dsimp only at h; subst h; rfl
  generalize (if b.defrost.hold then holdRelease (b.onDefrost fun d => { d with hold := false }) else b) = c at k3 ⊢
  have k4 : (if c.air.permit then c else airPermit c true).defrost = c.defrost
      ∧ (if c.air.permit then c else airPermit c true).air.permit = true := by
    split
    · exact ⟨rfl, by assumption⟩
    · refine ⟨rfl, ?_⟩
      have := AirPath.settle_core ({ c.air with permit := true } : AirPath)
      exact (congrArg (fun q => q.2.1) this :)
  generalize (if c.air.permit then c else airPermit c true) = d at k4 ⊢
  generalize hf : (d.onDefrost fun d =>
    { d with prechill := 0, waitLimit := none, heatClock := none, sampleTimer := none, dripTimer := none
             recoveryLimit := none, interrupted := true, credit := d.target }) = f
  have hfd : (setBounds f .freezerEvap (Config.tempMin, Config.coilHigh)).defrost.core
      = ({ s.defrost with credit := s.defrost.current * 3600, hold := false, prechill := 0
                          heatClock := none, sampleTimer := none, dripTimer := none, recoveryLimit := none
                          interrupted := true } : Defrost).core := by
    rw [← hf]
    show ({ d.defrost with prechill := 0, waitLimit := none, heatClock := none, sampleTimer := none, dripTimer := none
                           recoveryLimit := none, interrupted := true, credit := d.defrost.current * 3600 } : Defrost).core = _
    rw [k4.1]
    exact congrArg (fun d : Defrost => ({ d with prechill := 0, waitLimit := none, heatClock := none, sampleTimer := none
                                                 dripTimer := none, recoveryLimit := none, interrupted := true
                                                 credit := d.current * 3600 } : Defrost)) k3
  obtain ⟨e1, e2, _⟩ := becomeIdle_defrost (x := setBounds f .freezerEvap (Config.tempMin, Config.coilHigh))
    (by rw [(congrArg Defrost.mode hfd :)]; exact hm)
    (by rw [(congrArg Defrost.credit hfd :), (congrArg Defrost.current hfd :)])
  rw [e1, e2]
  refine ⟨congrArg (fun d : Defrost => ({ d with phase := .due, deferral := 0 } : Defrost)) hfd, ?_⟩
  rw [← hf]; exact k4.2

/-! ### The change of mode -/

/-- The Defrost Unit's and the zones' records and the permit after the last blocks of a change of mode (R170). -/
theorem setMode_tail (y : State) (m : Mode) :
    let t := postStatus (airMode (budgetChange y fun b => b.setMode m) m) .mode
    t.defrost.core = y.defrost.core ∧ t.air.permit = y.air.permit ∧ ∀ z, (t.zones.get z).core = (y.zones.get z).core := by
  have k : Acts 0 (y.onBudget fun b => b.setMode m) (budgetChange y fun b => b.setMode m) := acts_settleFrom _ .refl
  have k1 := (k.below2 (by omega))
  have k2 := (k.below1 (by omega)).1
  have k3 := (k.below1 (by omega)).2.2.2
  generalize budgetChange y (fun b => b.setMode m) = u at k1 k2 k3 ⊢
  have q := acts_postStatus (w := 0) .mode (Acts.refl (s := airMode u m))
  have e : (airMode u m).air.permit = u.air.permit := by
    have := AirPath.settle_core { u.air with
      mode := m, runOn := if m = .run then u.air.runOn else none
      freshForce := if m = .service then u.air.freshForce else none
      freezerForce := if m = .service then u.air.freezerForce else none
      condenserForce := if m = .service then u.air.condenserForce else none
      damperForce := if m = .service then u.air.damperForce else none }
    exact (congrArg (fun c => c.2.1) this :)
  exact ⟨(q.below2 (by omega)).trans k1,
    ((congrArg (fun c => c.2.1) (q.below1 (by omega)).2.2.2 :).trans e).trans (congrArg (fun c => c.2.1) k3 :),
    fun z => ((q.below1 (by omega)).1 z).trans (k2 z)⟩

/-- Entering RUN, the PAUSED zones take up work (R25). -/
theorem setMode_run (hm : s.ctl.mode = .hold) (z : ZoneId) : ((setMode s .run).zones.get z).core =
    (if (s.zones.get z).state = .paused then tookUpWork z s.uptime (s.zones.get z) else s.zones.get z).core := by
  let y := eachZone zoneRun (s.onCtl fun c => c.enter .run)
  have e : setMode s .run = postStatus (airMode (budgetChange (evaluate (y.onDefrost fun d => { d with mode := .run }))
      fun b => b.setMode .run) .run) .mode := by
    rw [setMode_eq, hm]; rfl
  have k := (setMode_tail (evaluate (y.onDefrost fun d => { d with mode := .run })) .run).2.2 z
  rw [e]
  refine (k.trans (evaluate_zones _ z)).trans ?_
  exact congrArg Zone.core (zoneRun_get (s.onCtl fun c => c.enter .run) z)

/-! ### Leaving RUN -/

/-- A zone out of work: DISABLED it stays so, PAUSED without a hold its record stands. -/
def Parked (r q : Zone) : Prop :=
  (r.state = .disabled → q.state = .disabled) ∧ (r.state = .paused → r.held = false → q = r)

theorem Parked.trans {r q p : Zone} (h : Parked r q) (k : Parked q p) : Parked r p :=
  ⟨fun a => k.1 (h.1 a), fun a b => by
    have e := h.2 a b
    exact (k.2 (by rw [e]; exact a) (by rw [e]; exact b)).trans e⟩

theorem parked_eq {r q : Zone} (h : q = r) : Parked r q := by rw [h]; exact ⟨id, fun _ _ => rfl⟩

theorem parked_core {r q : Zone} (h : q.core = r.core) : Parked r q :=
  ⟨fun a => by rw [core_eq h (by rw [a]; decide)]; exact a, fun a _ => core_eq h (by rw [a]; decide)⟩

theorem parked_acts (k : Acts 0 s t) (z : ZoneId) : Parked (s.zones.get z) (t.zones.get z) := parked_core ((k.below1 (by omega)).1 z)

/-- A release of the hold finds a zone out of work so (R15). -/
theorem parked_released (s : State) (y z : ZoneId) (h : (s.zones.get y).state = .disabled ∨ (s.zones.get y).state = .paused) :
    Parked (s.zones.get z) ((zoneReleased s y).zones.get z) := by
  unfold zoneReleased
  dsimp only
  rw [if_neg (by rcases h with h | h <;> rw [h] <;> decide)]
  by_cases e : z = y
  · subst e
    simp only [State.onZone_zones, Zones.get_set]
    exact ⟨id, fun _ b => by cases hz : s.zones.get z; rw [hz] at b; dsimp only at b; subst b; rfl⟩
  · exact parked_eq (by simp [Zones.get_set_ne _ _ e])

/-- Whether a zone is out of work. -/
def Zone.out (r : Zone) : Prop := r.state = .disabled ∨ (r.state = .paused ∧ r.held = false)

theorem Parked.out {r q : Zone} (h : Parked r q) (k : r.out) : q.out :=
  k.imp h.1 fun a => by rw [h.2 a.1 a.2]; exact a

/-- An interrupted defrost leaves the zones out of work (R129). -/
theorem interrupt_zones (hm : s.defrost.mode ≠ .run) (ho : ∀ z, (s.zones.get z).out) (z : ZoneId) :
    Parked (s.zones.get z) ((interrupt s).zones.get z) := by
  unfold interrupt
  dsimp only
  have k1 : ∀ z, Parked (s.zones.get z) ((if s.defrost.use = some .defrost then heaterOff s else s).zones.get z) := by
    intro z; split
    · exact parked_acts (acts_heaterOff .refl) z
    · exact parked_eq rfl
  have c1 : (if s.defrost.use = some .defrost then heaterOff s else s).defrost.core = s.defrost.core := by
    split
    · exact (acts_heaterOff (Acts.refl (w := 0) (s := s))).below2 (by omega)
    · rfl
  generalize (if s.defrost.use = some .defrost then heaterOff s else s) = a at k1 c1 ⊢
  have k2 : ∀ z, Parked (s.zones.get z) ((if s.defrost.phase = .prechill then defrostWithdraw a else a).zones.get z) := by
    intro z; refine (k1 z).trans ?_; split
    · exact parked_acts (acts_defrostWithdraw .refl) z
    · exact parked_eq rfl
  have c2 : (if s.defrost.phase = .prechill then defrostWithdraw a else a).defrost.core = s.defrost.core := by
    split
    · exact ((acts_defrostWithdraw (Acts.refl (w := 0) (s := a))).below2 (by omega)).trans c1
    · exact c1
  generalize (if s.defrost.phase = .prechill then defrostWithdraw a else a) = b at k2 c2 ⊢
  have k3 : Parked (s.zones.get z)
      ((if b.defrost.hold then holdRelease (b.onDefrost fun d => { d with hold := false }) else b).zones.get z) := by
    refine (k2 z).trans ?_
    split
    · unfold holdRelease
      split
      · have o : ∀ {r : Zone}, r.out → r.state = .disabled ∨ r.state = .paused := fun h => h.imp id (·.1)
        generalize hy : ((b.onDefrost fun d => { d with hold := false }).onArb fun a => { a with hold := false }) = y
        have ey : y.zones = b.zones := by rw [← hy]; rfl
        have p1 : ∀ z, Parked (b.zones.get z) ((zoneReleased y .freezer).zones.get z) := by
          intro z; rw [← ey]
          exact parked_released y .freezer z (by rw [ey]; exact o ((k2 .freezer).out (ho .freezer)))
        refine (p1 z).trans ((parked_released _ .drawer z (o ?_)).trans (parked_acts (acts_select .refl) z))
        exact (p1 .drawer).out ((k2 .drawer).out (ho .drawer))
      · exact parked_eq rfl
    · exact parked_eq rfl
  have c3 : (if b.defrost.hold then holdRelease (b.onDefrost fun d => { d with hold := false }) else b).defrost.mode = s.defrost.mode := by
    split
    · exact (congrArg Defrost.mode (holdRelease_core _) :).trans (congrArg Defrost.mode c2 :)
    · exact (congrArg Defrost.mode c2 :)
  generalize (if b.defrost.hold then holdRelease (b.onDefrost fun d => { d with hold := false }) else b) = c at k3 c3 ⊢
  refine k3.trans (parked_eq ?_)
  generalize hd : (if c.air.permit then c else airPermit c true) = d
  have ed : d.zones = c.zones ∧ d.defrost.mode = s.defrost.mode := by rw [← hd]; split <;> exact ⟨rfl, c3⟩
  rw [(becomeIdle_defrost (by show d.defrost.mode ≠ _; rw [ed.2]; exact hm) (by
    show d.defrost.current * 3600 ≤ d.defrost.target; exact le_refl _)).2.2]
  exact congrArg (fun q : Zones => q.get z) ed.1

/-- Leaving RUN for HOLD, under the laws of the arbiter and the heater (R25, R59, R129). -/
theorem setMode_left (a : ArbLaw s.arb) (h : HeaterLaw s) (hm : s.ctl.mode = .run) : LeftRun s (setMode s .hold) := by
  have law : HeaterLaw (setMode s .hold) := setMode_heaterLaw (by rw [hm]; exact .stop) a h
  have mode : (setMode s .hold).ctl.mode = .hold :=
    congrArg Control.mode ((setMode_acts (x := s) .hold (le_refl 2) .refl).kept (by omega)).2.2.2.1
  obtain ⟨x, hx⟩ : ∃ x, x = eachZone zonePause (s.onCtl fun c => c.enter .hold) := ⟨_, rfl⟩
  obtain ⟨v, hv⟩ : ∃ v, v = arbLeaveRun x := ⟨_, rfl⟩
  obtain ⟨y, hy⟩ : ∃ y, y = v.onDefrost fun d => { d with mode := .hold } := ⟨_, rfl⟩
  obtain ⟨u, hu⟩ : ∃ u, u = if y.defrost.phase.working then interrupt y else y := ⟨_, rfl⟩
  have e : setMode s .hold = postStatus (airMode (budgetChange u fun b => b.setMode .hold) .hold) .mode := by
    rw [setMode_eq, hm, hu, hy, hv, hx]; rfl
  obtain ⟨t1, t2, t3⟩ := setMode_tail u .hold
  rw [← e] at t1 t2 t3
  have kx : Acts 0 (x.onArb fun a => { a with list := [], grant := none }) v := by rw [hv]; exact acts_compStop .refl
  have xd : x.defrost.core = s.defrost.core := by
    rw [hx]
    exact (acts_eachZone (w := 1) zonePause (fun _ z k => acts_zonePause z (le_refl 1) k)
      (Acts.refl (s := s.onCtl fun c => c.enter .hold))).below2 (by omega)
  have ym : y.defrost.mode ≠ .run := by rw [hy]; exact (by decide : Mode.hold ≠ .run)
  have yd : y.defrost.core = ({ s.defrost with mode := .hold } : Defrost).core := by
    rw [hy]
    exact congrArg (fun d : Defrost => ({ d with mode := .hold } : Defrost)) ((kx.below2 (by omega)).trans xd)
  have yz : ∀ z, y.zones.get z = if (s.zones.get z).state = .disabled then s.zones.get z
      else leftWork .paused s.uptime { s.zones.get z with held := false } := by
    intro z
    have g : x.zones.get z = if (s.zones.get z).state = .disabled then s.zones.get z
        else leftWork .paused s.uptime { s.zones.get z with held := false } := by
      rw [hx]; exact zonePause_get (s.onCtl fun c => c.enter .hold) z
    have q : (x.zones.get z).state.served ≠ .calling := by
      rw [g]; split
      · rename_i q; rw [q]; decide
      · exact (by decide : ZoneState.paused.served ≠ .calling)
    have ey : y.zones = v.zones := by rw [hy]; rfl
    rw [ey, ← g]
    exact zone_acts kx z q
  have yo : ∀ z, (y.zones.get z).out := by
    intro z; rw [yz]; split
    · exact Or.inl (by assumption)
    · exact Or.inr ⟨rfl, rfl⟩
  have uz : ∀ z, Parked (y.zones.get z) ((setMode s .hold).zones.get z) := by
    intro z
    refine Parked.trans ?_ (parked_core (t3 z))
    rw [hu]
    split
    · exact interrupt_zones ym yo z
    · exact parked_eq rfl
  have ne : (setMode s .hold).ctl.mode ≠ .run := by rw [mode]; decide
  have yp : y.defrost.phase = s.defrost.phase := (congrArg Defrost.phase yd :)
  refine ⟨fun z => ⟨fun q => ?_, fun q => (uz z).1 (by rw [yz, if_pos q]; exact q)⟩, (law.2.2.1 ne).2.1, (law.2.2.1 ne).2.2,
    (law.rest ne).1, ?_, ?_, fun q => ?_, fun q1 q2 => ?_⟩
  · have g := yz z; rw [if_neg q] at g
    rw [(uz z).2 (by rw [g]; rfl) (by rw [g]; rfl), g]
  · by_contra q
    have := ((law.rest ne).2 q).2
    rw [mode] at this; cases this
  · refine (congrArg Defrost.current t1 :).trans ?_
    rw [hu]
    split
    · exact (congrArg Defrost.current (interrupt_due ym).1 :).trans (congrArg Defrost.current yd :)
    · exact (congrArg Defrost.current yd :)
  · have eu : u = y := hu.trans (if_neg (by rw [yp]; rcases q with q | q <;> rw [q] <;> decide))
    rw [eu] at t1
    exact ⟨(congrArg Defrost.phase t1 :).trans yp, (congrArg Defrost.credit t1 :).trans (congrArg Defrost.credit yd :)⟩
  · have eu : u = interrupt y := hu.trans (if_pos (by
      rw [yp]; cases hp : s.defrost.phase <;> first | rfl | exact absurd hp q1 | exact absurd hp q2))
    rw [eu] at t1 t2
    obtain ⟨i1, i2⟩ := interrupt_due ym
    have yc : y.defrost.current = s.defrost.current := (congrArg Defrost.current yd :)
    rw [yc] at i1
    generalize setMode s .hold = r at t1 t2 ⊢
    have d := t1.trans i1
    clear t1 i1
    exact ⟨(congrArg Defrost.phase d :), (congrArg Defrost.hold d :), (congrArg Defrost.interrupted d :),
      (congrArg Defrost.credit d :),
      (congrArg Defrost.heatClock d :), (congrArg Defrost.dripTimer d :), (congrArg Defrost.recoveryLimit d :), t2.trans i2⟩

/-- What leaving RUN leaves behind stands under acts for a grant that keep the lists, the hold and an OFF heater. -/
theorem LeftRun.acts {s t u : State} (h : LeftRun s t) (k : Acts 0 t u) (hl : u.arb.list = t.arb.list)
    (hg : u.arb.grant = t.arb.grant) (ho : u.defrost.heater = t.defrost.heater) : LeftRun s u := by
  obtain ⟨h1, h2, h3, h4, h5, h6, h7, h8⟩ := h
  have kd := k.below2 (by omega)
  have ka := k.below1 (by omega)
  have f : ∀ {α : Type} (g : Defrost → α), g u.defrost.core = g t.defrost.core := fun g => congrArg g kd
  refine ⟨fun z => ⟨fun q => ?_, fun q => ?_⟩, hl.trans h2, hg.trans h3, (congrArg (fun c => c.2.2.2.2.1) ka.2.1 :).trans h4,
    ho.trans h5, (f Defrost.current :).trans h6, fun q => ?_, fun q1 q2 => ?_⟩
  · have e := (h1 z).1 q
    rw [zone_acts k z (by rw [e]; exact (by decide : ZoneState.paused.served ≠ .calling)), e]
  · have e := (h1 z).2 q
    rw [zone_acts k z (by rw [e]; decide), e]
  · exact ⟨(f Defrost.phase :).trans (h7 q).1, (f Defrost.credit :).trans (h7 q).2⟩
  · obtain ⟨a1, a2, a3, a4, a5, a6, a7, a8⟩ := h8 q1 q2
    exact ⟨(f Defrost.phase :).trans a1, (f Defrost.hold :).trans a2, (f Defrost.interrupted :).trans a3,
      (f Defrost.credit :).trans a4, (f Defrost.heatClock :).trans a5, (f Defrost.dripTimer :).trans a6,
      (f Defrost.recoveryLimit :).trans a7, (congrArg (fun c => c.2.1) ka.2.2.2 :).trans a8⟩

/-- Entering RUN, carried to the end of the command. -/
theorem enteredRun_of {s u z : State} {l : Link} (e : ∀ z, (u.zones.get z).core =
    (if (s.zones.get z).state = .paused then tookUpWork z s.uptime (s.zones.get z) else s.zones.get z).core)
    (k : Acts 0 { u with link := l } z) : EnteredRun s (settleLink z) := by
  intro y
  have c := ((k.below1 (by omega)).1 y).trans (e y)
  simp only [settleLink_zones]
  refine ⟨fun q => ?_, fun q => ?_⟩
  · rw [if_pos q] at c
    exact core_eq c (workState_served _ _)
  · rw [if_neg (by rw [q]; decide)] at c
    exact core_eq c (by rw [q]; decide)

/-- Leaving RUN, carried to the end of the command. -/
theorem leftRun_settle {s u a : State} (e : LeftRun s u) (l : Link) : LeftRun s (settleLink (recheck a { u with link := l })) := by
  rw [recheck_still (x := { u with link := l }) (Or.inr e.2.2.2.1)]
  unfold LeftRun at *
  simpa using e

end

end Sys2Proof.Machine
end

