-- ==== Sys2Proof/Laws/Schedule.lean ====
section
/-! SUPPORT. What leaves the conversion scheduler as it is: the air paths, the load, the compressor, grants and selection, the
valve's moves, the hold's checks, and the reactions of a result's watcher but for a coil's boundaries (R61, R68). -/

namespace Sys2Proof.Machine

section
variable (s : State)

@[simp] theorem airInput_sched (f : AirPath → AirPath) : (airInput s f).sched = s.sched := rfl
@[simp] theorem airZone_sched (z : ZoneId) (st : ZoneState) (c : ZoneCause) : (airZone s z st c).sched = s.sched := rfl
@[simp] theorem airComp_sched (c : CompState) : (airComp s c).sched = s.sched := rfl
@[simp] theorem airPermit_sched (b : Bool) : (airPermit s b).sched = s.sched := rfl
@[simp] theorem airHeater_sched (b : Bool) : (airHeater s b).sched = s.sched := rfl
@[simp] theorem setComp_sched (c : CompState) : (setComp s c).sched = s.sched := rfl
@[simp] theorem noteClass_sched : (noteClass s).sched = s.sched := rfl
@[simp] theorem beginMove_sched (e : Evap) (t : Attempt) : (beginMove s e t).sched = s.sched := rfl
@[simp] theorem formGrant_sched (e : Evap) : (formGrant s e).sched = s.sched := rfl
@[simp] theorem relist_sched (ms : List Member) : (relist s ms).sched = s.sched := rfl

@[simp] theorem zoneGrant_sched (z : ZoneId) : (zoneGrant s z).sched = s.sched := by unfold zoneGrant; split <;> simp
@[simp] theorem zoneReturn_sched (z : ZoneId) : (zoneReturn s z).sched = s.sched := by unfold zoneReturn; split <;> simp
@[simp] theorem handGrant_sched (r : Requester) : (handGrant s r).sched = s.sched := by cases r <;> simp [handGrant]
@[simp] theorem handReturn_sched (r : Requester) : (handReturn s r).sched = s.sched := by cases r <;> simp [handReturn]

@[simp] theorem returns_sched (l : List Requester) : (l.foldl handReturn s).sched = s.sched := by
  induction l generalizing s with
  | nil => rfl
  | cons r l ih => exact (ih _).trans (handReturn_sched s r)

@[simp] theorem claimLevel_sched (l : Nat) : (claimLevel s l).sched = s.sched := by unfold claimLevel; simp
@[simp] theorem beginStep_sched (l : Nat) : (beginStep s l).sched = s.sched := rfl
@[simp] theorem stepDown_sched : (stepDown s).sched = s.sched := by unfold stepDown; split <;> simp
@[simp] theorem heaterOn_sched : (heaterOn s).sched = s.sched := by unfold heaterOn; simp
@[simp] theorem handCap_sched (n : Nat) : (handCap s n).sched = s.sched := by unfold handCap; split <;> simp
@[simp] theorem settleFrom_sched (b : Budget) : (settleFrom s b).sched = s.sched := by
  unfold settleFrom; simp; split <;> simp
@[simp] theorem budgetChange_sched (f : Budget → Budget) : (budgetChange s f).sched = s.sched := by unfold budgetChange; simp
@[simp] theorem wishChange_sched (f : Budget → Budget) : (wishChange s f).sched = s.sched := by
  unfold wishChange; split <;> simp
@[simp] theorem reportLevel_sched (l : Nat) : (reportLevel s l).sched = s.sched := by unfold reportLevel; split <;> simp
@[simp] theorem heaterClaim_sched : (heaterClaim s).sched = s.sched := by
  have key : ∀ (c : Prop) [Decidable c] (a b : State), a.sched = b.sched → (if c then a else b).sched = b.sched := by
    intro c _ a b h; split
    · exact h
    · rfl
  unfold heaterClaim; split
  · exact (settleFrom_sched _ _).trans (key _ _ _ (heaterOn_sched _))
  · rfl
@[simp] theorem heaterCancel_sched : (heaterCancel s).sched = s.sched := by unfold heaterCancel; split <;> simp
@[simp] theorem heaterRelease_sched : (heaterRelease s).sched = s.sched := by unfold heaterRelease; split <;> simp
@[simp] theorem claimFor_sched (u : HeaterUse) : (claimFor s u).sched = s.sched := by unfold claimFor; simp
@[simp] theorem heaterOff_sched : (heaterOff s).sched = s.sched := by unfold heaterOff; dsimp only; split <;> simp
@[simp] theorem compOff_sched (b : Bool) : (compOff s b).sched = s.sched := by unfold compOff; simp
@[simp] theorem compStop_sched : (compStop s).sched = s.sched := by unfold compStop; split <;> simp
@[simp] theorem compStart_sched : (compStart s).sched = s.sched := by unfold compStart; simp

@[simp] theorem tryMove_sched : (tryMove s).sched = s.sched := by
  unfold tryMove; split
  · split <;> simp
  · rfl
@[simp] theorem tryStart_sched : (tryStart s).sched = s.sched := by unfold tryStart; split <;> simp
@[simp] theorem tryActivate_sched : (tryActivate s).sched = s.sched := by
  unfold tryActivate activate; split
  · split <;> simp
  · rfl
@[simp] theorem leaveRunout_sched : (leaveRunout s).sched = s.sched := by unfold leaveRunout; split <;> simp
@[simp] theorem advance_sched : (advance s).sched = s.sched := by unfold advance; simp
@[simp] theorem select_sched : (select s).sched = s.sched := by unfold select; split <;> simp
@[simp] theorem doSwitch_sched (g : Grant) : (doSwitch s g).sched = s.sched := by unfold doSwitch; simp
@[simp] theorem switchCheck_sched : (switchCheck s).sched = s.sched := by
  unfold switchCheck; split
  · split <;> simp
  · rfl
@[simp] theorem afterEntry_sched (r : Requester) (c : Cls) : (afterEntry s r c).sched = s.sched := by
  unfold afterEntry; split
  · split <;> simp
  · simp
@[simp] theorem postListed_sched (e : Entry) (c : Cls) (n : Nat) : (postListed s e c n).sched = s.sched := by
  unfold postListed; dsimp only; split <;> simp
@[simp] theorem postNew_sched (r : Requester) (c : Cls) (n : Nat) : (postNew s r c n).sched = s.sched := by
  unfold postNew; split
  · split
    · dsimp only; split <;> simp
    · simp
  · simp
@[simp] theorem post_sched (r : Requester) (c : Cls) (n : Nat) : (post s r c n).sched = s.sched := by
  unfold post; split
  · rfl
  · split
    · simp
    · split
      · split <;> simp
      · simp
@[simp] theorem evaluate_sched : (evaluate s).sched = s.sched := by
  unfold evaluate enterPrechill; split <;> simp
@[simp] theorem valveRecover_sched : (valveRecover s).sched = s.sched := by unfold valveRecover; split <;> simp
@[simp] theorem damperRecover_sched : (damperRecover s).sched = s.sched := by unfold damperRecover; split <;> simp
@[simp] theorem reportNotFed_sched : (reportNotFed s).sched = s.sched := by
  unfold reportNotFed defrostNotFed; split
  · split <;> simp
  · rfl
@[simp] theorem feedingCheck_sched : (feedingCheck s).sched = s.sched := by
  unfold feedingCheck; (repeat' split) <;> simp
@[simp] theorem recheck_sched (a : State) : (recheck a s).sched = s.sched := by unfold recheck; split <;> simp

/-! ### The watchers' reactions -/

@[simp] theorem afterGrant_sched : (afterGrant s).sched = s.sched := by
  unfold afterGrant; (repeat' split) <;> simp
@[simp] theorem withdraw_sched (r : Requester) : (withdraw s r).sched = s.sched := by
  unfold withdraw; (repeat' split) <;> simp
@[simp] theorem standDown_sched (z : ZoneId) : (standDown s z).sched = s.sched := by unfold standDown; split <;> simp
@[simp] theorem handClass_sched : (handClass s).sched = s.sched := by unfold handClass; split <;> simp
@[simp] theorem zonePost_sched (z : ZoneId) (c : Cls) : (zonePost s z c).sched = s.sched := by unfold zonePost; simp
@[simp] theorem zoneCall_sched (z : ZoneId) : (zoneCall s z).sched = s.sched := by unfold zoneCall; simp
@[simp] theorem zoneSatisfied_sched (z : ZoneId) : (zoneSatisfied s z).sched = s.sched := by unfold zoneSatisfied; simp
@[simp] theorem classChanged_sched (z : ZoneId) (c : Cls) : (classChanged s z c).sched = s.sched := by
  unfold classChanged; split <;> simp
@[simp] theorem zoneResult_sched (z : ZoneId) (v : Temp) (b : Band) : (zoneResult s z v b).sched = s.sched := by
  unfold zoneResult; simp [apply_ite State.sched]
@[simp] theorem zoneFaulted_sched (z : ZoneId) : (zoneFaulted s z).sched = s.sched := by unfold zoneFaulted; simp
@[simp] theorem zoneRecovered_sched (z : ZoneId) : (zoneRecovered s z).sched = s.sched := by unfold zoneRecovered; simp
@[simp] theorem freshEvapResult_sched (a : Sensor) (b : Option Band) : (freshEvapResult s a b).sched = s.sched := by
  unfold freshEvapResult endRunOn; split <;> simp
@[simp] theorem unserve_sched : (unserve s).sched = s.sched := by
  unfold unserve; (repeat' split) <;> first | rfl | simp
@[simp] theorem stopHot_sched : (stopHot s).sched = s.sched := by unfold stopHot; split <;> simp
@[simp] theorem dischargeResult_sched (b : Band) : (dischargeResult s b).sched = s.sched := by
  unfold dischargeResult; cases b <;> simp
  split <;> simp
@[simp] theorem dischargeFault_sched : (dischargeFault s).sched = s.sched := by unfold dischargeFault; simp
@[simp] theorem dischargeRecover_sched : (dischargeRecover s).sched = s.sched := by unfold dischargeRecover; simp
@[simp] theorem heatEnd_sched (c : HeatCause) : (heatEnd s c).sched = s.sched := by unfold heatEnd; simp
@[simp] theorem dueTest_sched : (dueTest s).sched = s.sched := by unfold dueTest; split <;> simp
@[simp] theorem becomeIdle_sched : (becomeIdle s).sched = s.sched := by unfold becomeIdle; simp

/-- The requests of a scheduler: its queue with the tags, the conversion in flight and the flags (R64, R69). -/
def Asks (k m : Scheduler) : Prop :=
  m.queue = k.queue ∧ m.tags = k.tags ∧ m.conv = k.conv
    ∧ ∀ c, (m.ch.get c).scanFlag = (k.ch.get c).scanFlag ∧ (m.ch.get c).injectFlag = (k.ch.get c).injectFlag

theorem asks_rfl (k : Scheduler) : Asks k k := ⟨rfl, rfl, rfl, fun _ => ⟨rfl, rfl⟩⟩

theorem asks_eq {k m : Scheduler} (h : m = k) : Asks k m := h ▸ asks_rfl k

theorem asks_setBounds (c : Chan) (b : Temp × Temp) : Asks s.sched (setBounds s c b).sched :=
  ⟨rfl, rfl, rfl, fun i => ⟨channels_set Channel.scanFlag s.sched.ch c { s.sched.ch.get c with low := b.1, high := b.2 } rfl i,
    channels_set Channel.injectFlag s.sched.ch c { s.sched.ch.get c with low := b.1, high := b.2 } rfl i⟩⟩

theorem asks_recoverEnd : Asks s.sched (recoverEnd s).sched := by
  unfold recoverEnd; rw [becomeIdle_sched]; exact asks_setBounds _ _ _

theorem asks_coilOk (v : Temp) (b : Band) : Asks s.sched (coilOk s v b).sched := by
  unfold coilOk serviceCut
  (repeat' split) <;> first | exact asks_recoverEnd s | exact asks_eq (by simp)

theorem asks_coilResult (r : Option (Temp × Band)) : Asks s.sched (coilResult s r).sched := by
  have key : ∀ t : State, t.sched = s.sched →
      Asks s.sched (match r with | some (v, b) => coilOk t v b | none => t).sched := by
    intro t h
    rw [← h]
    split
    · exact asks_coilOk t _ _
    · exact asks_rfl _
  exact key _ (by split <;> rfl)

/-- A result handed to its channel's watcher makes and drops no request of a conversion (R81). -/
theorem asks_deliver (c : Chan) (x : Reading) : Asks s.sched (deliver s c x).sched := by
  unfold deliver
  (repeat' split) <;> first | exact asks_coilResult s _ | exact asks_eq (by simp)

/-- Nor does a faulted or recovered event (R82 to R84). -/
@[simp] theorem sensorEvents_sched (c : Chan) (old : Channel) (x : Reading) : (sensorEvents s c old x).sched = s.sched := by
  unfold sensorEvents
  (repeat' split) <;> first | rfl | simp | (cases c <;> simp [deliverFaulted, deliverRecovered, coilFault, coilRecover])

end

end Sys2Proof.Machine
end

