-- ==== Sys2Proof/Laws/Conversions.lean ====
section
/-! SUPPORT. A completion of a conversion: what it leaves of the scheduler (R64, R66), and its MEASURE notice, which stands in
a queue or is in transmission (R72, R211). -/

namespace Sys2Proof.Machine

/-- A notice stands in one of the queues or is in transmission. -/
def Holds (s : State) (n : Notice) : Prop :=
  n ∈ s.notice.urgent ++ s.notice.routine
    ∨ ∃ x ∈ s.link.tx, x.frame = { kind := n.key.kind, tag := 0, payload := n.payload }

section
variable {s x : State} {n : Notice}

theorem holds_rotate (ht : s.link.tx = none) (h : Holds s n) : Holds (rotate s) n := by
  rcases h with h | ⟨x, hx, _⟩
  · unfold rotate
    dsimp only
    split
    · rename_i m rest hq
      split at hq
      · generalize (turnNow s).1 = t at hq ⊢
        cases t <;> simp only [NoticeUnit.get] at hq <;> simp only [hq, List.mem_append, List.mem_cons] at h
        · rcases h with (rfl | h) | h
          · exact Or.inr ⟨_, rfl, rfl⟩
          · exact Or.inl (by simp [NoticeUnit.put, h])
          · exact Or.inl (by simp [NoticeUnit.put, h])
        · rcases h with h | rfl | h
          · exact Or.inl (by simp [NoticeUnit.put, h])
          · exact Or.inr ⟨_, rfl, rfl⟩
          · exact Or.inl (by simp [NoticeUnit.put, h])
      · exact absurd hq (by simp)
    · exact Or.inl h
  · rw [ht] at hx; simp at hx

theorem holds_choice (ht : s.link.tx = none) (h : Holds s n) : Holds (transmitChoice s) n := by
  rcases transmitChoice_cases s with ⟨r, l, e, k⟩ | ⟨e, k⟩ <;> rw [k]
  · rcases h with h | ⟨x, hx, _⟩
    · exact Or.inl h
    · rw [ht] at hx; simp at hx
  · exact holds_rotate ht h

theorem holds_settle (h : Holds s n) : Holds (settleLink s) n := by
  unfold settleLink
  split
  · rename_i hc
    simp only [Bool.and_eq_true, Option.isNone_iff_eq_none] at hc
    exact holds_choice hc.1 h
  · exact h

theorem replaceKey_other {k : NoticeKey} {p : List Byte} {q : List Notice} (hk : n.key ≠ k) (h : n ∈ q) :
    n ∈ replaceKey k p q := List.mem_map.2 ⟨n, h, if_neg hk⟩

theorem replaceKey_same {k : NoticeKey} {p : List Byte} {q : List Notice} (h : hasKey k q = true) :
    { key := k, payload := p } ∈ replaceKey k p q := by
  obtain ⟨m, hm, e⟩ := List.mem_map.1 ((hasKey_iff k q).1 h)
  exact List.mem_map.2 ⟨m, hm, by rw [if_pos e, ← e]⟩

theorem file_other {u : NoticeUnit} {k : NoticeKey} {p : List Byte} (hk : n.key ≠ k) (h : n ∈ u.urgent ++ u.routine) :
    n ∈ (u.file k p).urgent ++ (u.file k p).routine := by
  unfold NoticeUnit.file
  rcases List.mem_append.1 h with h | h <;> (repeat' split) <;>
    first
    | exact List.mem_append_left _ (replaceKey_other hk h)
    | exact List.mem_append_right _ (replaceKey_other hk h)
    | exact List.mem_append_left _ h
    | exact List.mem_append_right _ h
    | (cases u.map.get k <;> simp [NoticeUnit.put, NoticeUnit.get, h])

theorem file_same (u : NoticeUnit) (k : NoticeKey) (p : List Byte) :
    { key := k, payload := p } ∈ (u.file k p).urgent ++ (u.file k p).routine := by
  unfold NoticeUnit.file
  split
  · exact List.mem_append_left _ (replaceKey_same ‹_›)
  · split
    · exact List.mem_append_right _ (replaceKey_same ‹_›)
    · cases u.map.get k <;> simp [NoticeUnit.put]

/-- A notice filed stands after the handing over. -/
theorem holds_filed {k : NoticeKey} {p : List Byte} (hq : k.quieted = true → Holds s n)
    (h : Holds (s.onNotice fun u => u.file k p) n) : Holds (postNotice s k p) n := by
  rcases postNotice_cases s k p with ⟨q, e⟩ | ⟨_, e⟩ | ⟨ht, e⟩ | ⟨_, e⟩ <;> rw [e]
  · exact hq q
  · exact h
  · exact holds_choice ht h
  · exact h

theorem holds_post {k : NoticeKey} {p : List Byte} (hk : n.key ≠ k) (h : Holds s n) : Holds (postNotice s k p) n :=
  holds_filed (fun _ => h) (h.imp (file_other hk) id)

/-- A MEASURE notice handed over stands in a queue or is in transmission (R72, R211). -/
theorem holds_measure (t : Byte) (p : List Byte) : Holds (postNotice s (.measure t) p) { key := .measure t, payload := p } :=
  holds_filed (fun h => by simp [NoticeKey.quieted] at h) (Or.inl (file_same _ _ _))

/-- Acts of the blocks below level 4 lose no MEASURE notice. -/
theorem Acts.holds {w : Nat} (h : Acts w s x) (hw : w < 3) (hk : n.key.tag? ≠ none) (k : Holds s n) : Holds x n := by
  induction h with
  | refl => exact k
  | post a p _ q ih => exact holds_post (fun e => hk (e ▸ q.resolve_left (by omega))) ih
  | unit a b r d _ _ ih => exact ih
  | rest z k f n _ _ _ _ ih => exact ih
  | stat y _ ih => exact ih
  | wide c n d p h1 => omega
  | space h1 => omega

/-! ### The completion -/

/-- A completion before the next conversion's start: the watcher and the Fault Unit told, the notice posted (R66, R72, R81). -/
def handed (s : State) (v : Conversion) (code : BitVec 12) : State :=
  let old := s.sched.ch.get v.chan
  let t := (s.onSched fun k => k.consume v).onChannel v.chan fun r => r.record v.source code s.uptime
  sensorEvents (deliver t v.chan (old.reading code)) v.chan old (old.reading code)

theorem complete_eq (s : State) (v : Conversion) (code : BitVec 12) :
    complete s v code = startNext (measureNotice (handed s v code) v ((s.sched.ch.get v.chan).reading code) code) := rfl

@[simp] theorem measureNotice_sched (v : Conversion) (r : Reading) (c : BitVec 12) :
    (measureNotice s v r c).sched = s.sched := by unfold measureNotice; split <;> simp

/-- The scheduler after a completion: the request consumed, and the winner of what is left started (R64, R66). -/
theorem complete_sched (s : State) (v : Conversion) (code : BitVec 12) :
    (complete s v code).sched = { (handed s v code).sched with conv := (handed s v code).sched.winner }
      ∧ Asks ((s.onSched fun k => k.consume v).onChannel v.chan fun r => r.record v.source code s.uptime).sched
          (handed s v code).sched := by
  have h : Asks ((s.onSched fun k => k.consume v).onChannel v.chan fun r => r.record v.source code s.uptime).sched
      (handed s v code).sched := by
    unfold handed; rw [sensorEvents_sched]; exact asks_deliver _ _ _
  refine ⟨?_, h⟩
  have hc : (handed s v code).sched.conv = none := h.2.2.1
  rw [complete_eq]
  simp only [startNext, State.onSched_sched, measureNotice_sched]
  unfold Scheduler.startNext
  rw [hc]

@[simp] theorem measureNotice_zones (v : Conversion) (r : Reading) (c : BitVec 12) :
    (measureNotice s v r c).zones = s.zones := by unfold measureNotice; split <;> simp
@[simp] theorem measureNotice_arb (v : Conversion) (r : Reading) (c : BitVec 12) :
    (measureNotice s v r c).arb = s.arb := by unfold measureNotice; split <;> simp
@[simp] theorem measureNotice_air (v : Conversion) (r : Reading) (c : BitVec 12) :
    (measureNotice s v r c).air = s.air := by unfold measureNotice; split <;> simp
@[simp] theorem measureNotice_defrost (v : Conversion) (r : Reading) (c : BitVec 12) :
    (measureNotice s v r c).defrost = s.defrost := by unfold measureNotice; split <;> simp
@[simp] theorem measureNotice_budget (v : Conversion) (r : Reading) (c : BitVec 12) :
    (measureNotice s v r c).budget = s.budget := by unfold measureNotice; split <;> simp
@[simp] theorem measureNotice_fault (v : Conversion) (r : Reading) (c : BitVec 12) :
    (measureNotice s v r c).fault = s.fault := by unfold measureNotice; split <;> simp

/-- What a completed conversion leaves of the units' records once the watcher and the Fault Unit have been told. -/
def UnitsOf (h y : State) : Prop :=
  y.zones = h.zones ∧ y.arb = h.arb ∧ y.air = h.air ∧ y.defrost = h.defrost ∧ y.budget = h.budget ∧ y.fault = h.fault

/-- The event of a completion ends in a next state: the units told, then the feeding check and the boundary. -/
theorem completes (hl : LinkLaw s) {v : Conversion} (hv : s.sched.conv = some v) (h0 : v.left = 0) (code : BitVec 12) :
    ∃ y, exec (.conversionComplete code) s = .next (settleLink (recheck s y)) ∧ Kept s (settleLink (recheck s y))
      ∧ UnitsOf (handed s v code) y ∧ complete s v code = y := by
  let t := (s.onSched fun k => k.consume v).onChannel v.chan fun r => r.record v.source code s.uptime
  have e : exec (.conversionComplete code) s = outcome s (complete s v code) := by
    show outcome s (match s.sched.conv with | some v => if v.left = 0 then complete s v code else s | none => s) = _
    rw [hv]; simp only [h0, if_true]
  have k2 : Acts 2 t (handed s v code) := acts_handed _ _ _ (le_refl 2) .refl
  have kt : Kept s t := by
    refine ⟨rfl, rfl, rfl, rfl, rfl, rfl, ⟨fun _ => rfl, fun c => ?_, rfl, rfl, rfl, rfl, rfl, rfl⟩, faultsStay_rfl _⟩
    simp only [t, State.onChannel_sched, State.onSched_sched, Scheduler.consume]
    by_cases hc : c = v.chan
    · subst hc; simp
    · rw [Channels.get_set_ne _ _ hc, Channels.get_set_ne _ _ hc]
  have km : Kept (handed s v code) (complete s v code) := by
    rw [complete_eq]
    have kn : Kept (handed s v code)
        (measureNotice (handed s v code) v ((s.sched.ch.get v.chan).reading code) code) := by
      unfold measureNotice; split
      · exact (onlyNotices_post (t := postNotice _ _ _) rfl).kept
      · exact (Acts.refl (w := 0)).kept (by omega)
    exact kn.trans ((acts_startNext (w := 0) .refl).kept (by omega))
  have ku : UnitsOf (handed s v code) (complete s v code) := by
    rw [complete_eq]; unfold startNext; exact ⟨by simp, by simp, by simp, by simp, by simp, by simp⟩
  have k4 : Tame s (complete s v code) := (acts_complete v code (le_refl 4) (.refl (s := s))).tame
  have kk := kt.trans ((k2.kept (by omega)).trans km)
  generalize complete s v code = y at *
  have ef : outcome s y = .next (settleLink (recheck s y)) := congrArg Host.Outcome.next (finish_tame hl k4)
  exact ⟨y, e.trans ef, kk.trans (((acts_recheck (w := 0) s .refl).kept (by omega)).trans (kept_settle _)), ku, rfl⟩

/-- Where neither the compressor nor the valve nor the grant moved, the event ends as the completion left it. -/
theorem recheck_same {y : State} (h : y.arb = s.arb) : recheck s y = y :=
  recheck_still (Or.inl (by simp [feedingMoved, h]))

end

end Sys2Proof.Machine
end

