-- ==== Sys2Proof/Laws/FaultRecord.lean ====
section
/-! SUPPORT. What leaves the Fault Unit's record as it is: the air paths, the load, the compressor, grants and selection, the
valve's moves and the hold's checks (only declarations, ends and CLEAR_FAULT write it, R152, R155, R159). -/

namespace Sys2Proof.Machine

section
variable (s : State)

@[simp] theorem airInput_fault (f : AirPath → AirPath) : (airInput s f).fault = s.fault := rfl
@[simp] theorem airZone_fault (z : ZoneId) (st : ZoneState) (c : ZoneCause) : (airZone s z st c).fault = s.fault := rfl
@[simp] theorem airComp_fault (c : CompState) : (airComp s c).fault = s.fault := rfl
@[simp] theorem airPermit_fault (b : Bool) : (airPermit s b).fault = s.fault := rfl
@[simp] theorem airHeater_fault (b : Bool) : (airHeater s b).fault = s.fault := rfl
@[simp] theorem setComp_fault (c : CompState) : (setComp s c).fault = s.fault := rfl
@[simp] theorem noteClass_fault : (noteClass s).fault = s.fault := rfl
@[simp] theorem beginMove_fault (e : Evap) (t : Attempt) : (beginMove s e t).fault = s.fault := rfl
@[simp] theorem formGrant_fault (e : Evap) : (formGrant s e).fault = s.fault := rfl
@[simp] theorem relist_fault (ms : List Member) : (relist s ms).fault = s.fault := rfl

@[simp] theorem enterState_fault (z : ZoneId) (st : ZoneState) (c : ZoneCause) : (enterState s z st c).fault = s.fault := by
  unfold enterState; simp

@[simp] theorem zoneGrant_fault (z : ZoneId) : (zoneGrant s z).fault = s.fault := by unfold zoneGrant; split <;> simp
@[simp] theorem zoneReturn_fault (z : ZoneId) : (zoneReturn s z).fault = s.fault := by unfold zoneReturn; split <;> simp
@[simp] theorem handGrant_fault (r : Requester) : (handGrant s r).fault = s.fault := by cases r <;> simp [handGrant]
@[simp] theorem handReturn_fault (r : Requester) : (handReturn s r).fault = s.fault := by cases r <;> simp [handReturn]

@[simp] theorem grants_fault (l : List Requester) : (l.foldl handGrant s).fault = s.fault := by
  induction l generalizing s with
  | nil => rfl
  | cons r l ih => exact (ih _).trans (handGrant_fault s r)

@[simp] theorem returns_fault (l : List Requester) : (l.foldl handReturn s).fault = s.fault := by
  induction l generalizing s with
  | nil => rfl
  | cons r l ih => exact (ih _).trans (handReturn_fault s r)

@[simp] theorem claimLevel_fault (l : Nat) : (claimLevel s l).fault = s.fault := by unfold claimLevel; simp
@[simp] theorem beginStep_fault (l : Nat) : (beginStep s l).fault = s.fault := rfl
@[simp] theorem stepDown_fault : (stepDown s).fault = s.fault := by unfold stepDown; split <;> simp
@[simp] theorem evalAim_fault : (evalAim s).fault = s.fault := by
  unfold evalAim; split
  · split
    · rfl
    · split <;> simp
  · simp
@[simp] theorem heaterOn_fault : (heaterOn s).fault = s.fault := by unfold heaterOn; simp
@[simp] theorem handCap_fault (n : Nat) : (handCap s n).fault = s.fault := by unfold handCap; split <;> simp
@[simp] theorem settleFrom_fault (b : Budget) : (settleFrom s b).fault = s.fault := by
  unfold settleFrom; simp; split <;> simp
@[simp] theorem budgetChange_fault (f : Budget → Budget) : (budgetChange s f).fault = s.fault := by unfold budgetChange; simp
@[simp] theorem wishChange_fault (f : Budget → Budget) : (wishChange s f).fault = s.fault := by
  unfold wishChange; split <;> simp
@[simp] theorem reportLevel_fault (l : Nat) : (reportLevel s l).fault = s.fault := by unfold reportLevel; split <;> simp
@[simp] theorem heaterClaim_fault : (heaterClaim s).fault = s.fault := by
  have key : ∀ (c : Prop) [Decidable c] (a b : State), a.fault = b.fault → (if c then a else b).fault = b.fault := by
    intro c _ a b h; split
    · exact h
    · rfl
  unfold heaterClaim; split
  · exact (settleFrom_fault _ _).trans (key _ _ _ (heaterOn_fault _))
  · rfl
@[simp] theorem heaterCancel_fault : (heaterCancel s).fault = s.fault := by unfold heaterCancel; split <;> simp
@[simp] theorem heaterRelease_fault : (heaterRelease s).fault = s.fault := by unfold heaterRelease; split <;> simp
@[simp] theorem claimFor_fault (u : HeaterUse) : (claimFor s u).fault = s.fault := by unfold claimFor; simp
@[simp] theorem heaterOff_fault : (heaterOff s).fault = s.fault := by unfold heaterOff; dsimp only; split <;> simp
@[simp] theorem compOff_fault (b : Bool) : (compOff s b).fault = s.fault := by unfold compOff; simp
@[simp] theorem compStop_fault : (compStop s).fault = s.fault := by unfold compStop; split <;> simp
@[simp] theorem compStart_fault : (compStart s).fault = s.fault := by unfold compStart; simp

@[simp] theorem tryMove_fault : (tryMove s).fault = s.fault := by
  unfold tryMove; split
  · split <;> simp
  · rfl
@[simp] theorem tryStart_fault : (tryStart s).fault = s.fault := by unfold tryStart; split <;> simp
@[simp] theorem tryActivate_fault : (tryActivate s).fault = s.fault := by
  unfold tryActivate activate; split
  · split <;> simp
  · rfl
@[simp] theorem leaveRunout_fault : (leaveRunout s).fault = s.fault := by unfold leaveRunout; split <;> simp
@[simp] theorem advance_fault : (advance s).fault = s.fault := by unfold advance; simp
@[simp] theorem select_fault : (select s).fault = s.fault := by unfold select; split <;> simp
@[simp] theorem doSwitch_fault (g : Grant) : (doSwitch s g).fault = s.fault := by unfold doSwitch; simp
@[simp] theorem switchCheck_fault : (switchCheck s).fault = s.fault := by
  unfold switchCheck; split
  · split <;> simp
  · rfl
@[simp] theorem afterEntry_fault (r : Requester) (c : Cls) : (afterEntry s r c).fault = s.fault := by
  unfold afterEntry; split
  · split <;> simp
  · simp
@[simp] theorem postListed_fault (e : Entry) (c : Cls) (n : Nat) : (postListed s e c n).fault = s.fault := by
  unfold postListed; dsimp only; split <;> simp
@[simp] theorem postNew_fault (r : Requester) (c : Cls) (n : Nat) : (postNew s r c n).fault = s.fault := by
  unfold postNew; split
  · split
    · dsimp only; split <;> simp
    · simp
  · simp
@[simp] theorem post_fault (r : Requester) (c : Cls) (n : Nat) : (post s r c n).fault = s.fault := by
  unfold post; split
  · rfl
  · split
    · simp
    · split
      · split <;> simp
      · simp
@[simp] theorem evaluate_fault : (evaluate s).fault = s.fault := by
  unfold evaluate enterPrechill; split <;> simp
@[simp] theorem valveRecover_fault : (valveRecover s).fault = s.fault := by unfold valveRecover; split <;> simp
@[simp] theorem damperRecover_fault : (damperRecover s).fault = s.fault := by unfold damperRecover; split <;> simp
@[simp] theorem reportNotFed_fault : (reportNotFed s).fault = s.fault := by
  unfold reportNotFed defrostNotFed; split
  · split <;> simp
  · rfl
@[simp] theorem feedingCheck_fault : (feedingCheck s).fault = s.fault := by
  unfold feedingCheck; (repeat' split) <;> simp
@[simp] theorem recheck_fault (a : State) : (recheck a s).fault = s.fault := by unfold recheck; split <;> simp

/-- The end of a condition latches its entry and leaves the rest of the record as it is (R155). -/
theorem endFault_fault_eq (c : FaultCode) (o : FaultObject) : (endFault s c o).fault = { s.fault with
    table := s.fault.table.map fun e => if e.code = c ∧ e.object = o then { e with active := false } else e } := by
  have hm : ∀ e : FaultEntry, e.matches c o = true ↔ e.code = c ∧ e.object = o := fun e => by simp [FaultEntry.matches]
  unfold endFault
  split
  · rename_i h
    rw [List.find?_eq_none] at h
    rw [List.map_congr_left (g := id), List.map_id]
    intro e he
    have := h e he
    simp only [Bool.and_eq_true, hm] at this
    split
    · rename_i q
      cases ha : e.active
      · cases e; simp_all
      · exact absurd ⟨q, ha⟩ this
    · rfl
  · rw [postFault_fault_eq]
    simp only [State.onFault_fault, hm]

/-- The entries that the owners' ends at a commanded reset latch: the conditions that do not survive it, or that the switches
show to be over (R168). -/
theorem ownersEnds_table : (ownersEnds s).fault.table = s.fault.table.map fun e =>
    if (e.code = .compLockout ∧ e.object = .compressor) ∨ (s.arb.valve.at.isSome = true ∧ e.code = .valveTravel ∧ e.object = .valve)
        ∨ (s.air.damper = .resting .closed ∧ e.code = .damperTravel ∧ e.object = .damper)
        ∨ (e.code = .defrostOvertemp ∧ e.object = .heater) then { e with active := false } else e := by
  unfold ownersEnds
  dsimp only
  have ha := endFault_arb s .compLockout .compressor
  have hd := endFault_air s .compLockout .compressor
  have hf := endFault_fault_eq s .compLockout .compressor
  generalize endFault s .compLockout .compressor = a at *
  rw [← ha, ← hd]
  by_cases h1 : a.arb.valve.at.isSome = true <;> by_cases h2 : a.air.damper = .resting .closed <;>
    · simp only [h1, h2, if_true, if_false, endFault_fault_eq, hf, List.map_map, endFault_air, true_and, false_and, false_or,
        Bool.false_eq_true]
      refine List.map_congr_left fun e _ => ?_
      obtain ⟨c, o, d, f, l, n, b⟩ := e
      simp only [Function.comp]
      cases c <;> cases o <;> simp

end

end Sys2Proof.Machine
end

