-- ==== Sys2Proof/Laws/Forces.lean ====
section
/-! SUPPORT. Requests: forces and interlocks, settings, and clearing. -/

namespace Sys2Proof.Machine

theorem arrange_perm (k : Nat) (l : List Instr) : (arrange k l).Perm l := by
  induction l generalizing k with
  | nil => exact List.Perm.refl _
  | cons c rest ih =>
    cases rest with
    | nil => exact List.Perm.refl _
    | cons d rest =>
      have := ih (k + 1)
      refine (List.perm_insertIdx _ _ ?_).trans (List.Perm.cons _ this)
      rw [this.length_eq]
      exact Nat.le_of_lt_succ (Nat.mod_lt _ (Nat.succ_pos _))

theorem tickSettings (s : State) : SameSettings s (tick s) := by
  unfold tick msTick
  dsimp only
  refine ⟨?_, ?_, ?_, ?_, ?_, ?_, ?_, ?_⟩
  · intro z; split <;> cases z <;> rfl
  · intro z; split <;> cases z <;> rfl
  all_goals (split <;> rfl)

theorem moves_frameSent_false {s x : State} (hn : ¬ ∃ t ∈ x.link.tx, t.what = .reply .reset) (h : Moves false s x) :
    Moves false s (frameSent x) := moves_frameSent (fun k => absurd k hn) h

theorem of_le_one {v : Byte} (h : v.toNat ≤ 1) : v = 0 ∨ v = 1 := by
  have : v.toNat = 0 ∨ v.toNat = 1 := by omega
  exact this.imp (fun k => BitVec.eq_of_toNat_eq k) (fun k => BitVec.eq_of_toNat_eq k)

theorem of_le_five {v : Byte} (h : v.toNat ≤ 5) : levelOf v = some v.toNat := by simp [levelOf, h]

theorem ge_two {v : Byte} (h : 1 < v.toNat) : boolOf v = none ∧ evapOf v = none ∧ damperEndOf v = none := by
  obtain ⟨n, hn⟩ : ∃ n, v.toNat = n + 2 := ⟨v.toNat - 2, by omega⟩
  simp [boolOf, evapOf, damperEndOf, hn]

theorem force_wrong {α : Type} {s : State} {o : Option α} {l : α → Option Interlock} {t : α → State} (hm :
    s.ctl.mode ≠ .service)
    (ho : o ≠ none) : doForce s o l t = refuse s .wrongState := by
  unfold doForce
  cases o with
  | none => exact absurd rfl ho
  | some v => exact if_neg hm

theorem known_kind {kind : Byte} {ls : List Nat} (h : takenLengths kind = some ls) : kind < 0x80 := by
  unfold takenLengths at h
  cases hf : kindTable.find? (fun row => row.1 == kind) with
  | none => rw [hf] at h; simp at h
  | some r =>
    have h1 := List.find?_some hf
    have h2 := List.mem_of_find?_eq_some hf
    have : ∀ r ∈ kindTable, r.1 < 0x80 := by decide
    have h3 := this r h2
    simp only [beq_iff_eq] at h1
    rwa [h1] at h3

theorem kept_restart_placed {s : State} {f : Frame} : Kept (restartIdle s) (placed (restartIdle s) f) := kept_link _ _

theorem bool_ok {b : Byte} : (boolOf b).isSome = true ↔ b.toNat ≤ 1 := by
  unfold boolOf
  obtain hb | hb | ⟨n, hb⟩ : b.toNat = 0 ∨ b.toNat = 1 ∨ ∃ n, b.toNat = n + 2 := by
    rcases h : b.toNat with _ | _ | n
    · exact Or.inl rfl
    · exact Or.inr (Or.inl rfl)
    · exact Or.inr (Or.inr ⟨n, rfl⟩)
  all_goals simp [hb]

theorem range_bad {f : BudgetFields} (hc : carries f.carried 0 = true) (h : f.budget.toNat < 20
    ∨ 40 < f.budget.toNat) : f.ok = false := by
  have : inRange f.budget.toNat 20 40 = false := by
    unfold inRange
    rcases h with h | h
    · simp; omega
    · simp; omega
  simp [BudgetFields.ok, checkCarried, hc, this]

theorem takeBudget_mm (b : Budget) (n : Nat) : (b.takeBudget n).mullionMode = b.mullionMode := by unfold Budget.takeBudget; split <;> rfl

theorem setAjar_doors (s : State) (n : Nat) :
    setAjar s n = { s with doors := (setAjar s n).doors, link := (setAjar s n).link, notice := (setAjar s n).notice, free := (setAjar s n).free }
    ∧ (setAjar s n).doors.ajarTime = n
    ∧ (setAjar s n).notice.settings = s.notice.settings
    ∧ ∀ y, (setAjar s n).doors.get y = (if (s.doors.get y).state = .opened ∧ n ≤ (s.doors.get y).openFor s.uptime
        then { s.doors.get y with state := .ajar } else s.doors.get y) := by
  have step : ∀ (u : State) (d : DoorId), u.doors.ajarTime = n → u.uptime = s.uptime →
      (tryAjar u d = { u with doors := (tryAjar u d).doors, link := (tryAjar u d).link, notice := (tryAjar u d).notice, free := (tryAjar u d).free }
      ∧ (tryAjar u d).doors.ajarTime = n ∧ (tryAjar u d).notice.settings = u.notice.settings
      ∧ (tryAjar u d).doors.get d = (if (u.doors.get d).state = .opened ∧ n ≤ (u.doors.get d).openFor s.uptime
        then { u.doors.get d with state := .ajar } else u.doors.get d)
      ∧ ∀ y, y ≠ d → (tryAjar u d).doors.get y = u.doors.get y) := by
    intro u d hn hu
    have cond : ajarDue u d = true ↔ (u.doors.get d).state = .opened ∧ n ≤ (u.doors.get d).openFor s.uptime := by
      simp [ajarDue, hn, hu]
    have key : ∀ (v : State) (sec : Option Nat), postDoor v d sec = { v with link := (postDoor v d sec).link, notice := (postDoor v d sec).notice, free := (postDoor v d sec).free } ∧ (postDoor v d sec).notice.settings = v.notice.settings := by
      intro v sec
      unfold postDoor
      dsimp only
      split
      · exact ⟨by rw [postNotice_eq], postNotice_settings _ _ _⟩
      · split
        · exact ⟨by rw [postNotice_eq], postNotice_settings _ _ _⟩
        · exact ⟨by rw [postNotice_eq]; rfl, postNotice_settings _ _ _⟩
    unfold tryAjar
    by_cases hc : ajarDue u d = true
    · rw [if_pos hc, if_pos (cond.1 hc)]
      unfold becomeAjar
      obtain ⟨k1, k2⟩ := key (u.onDoor d fun r => { r with state := .ajar }) (some ((u.doors.get d).openFor u.uptime))
      generalize postDoor (u.onDoor d fun r => { r with state := .ajar }) d (some ((u.doors.get d).openFor u.uptime)) = v at k1 k2 ⊢
      have kd : v.doors = u.doors.set d { u.doors.get d with state := .ajar } := by rw [k1]; rfl
      refine ⟨?_, ?_, k2, ?_, ?_⟩
      · rw [k1]; rfl
      · rw [kd]; simp [hn]
      · rw [kd]; simp
      · intro y hy; rw [kd, Doors.get_set_ne _ _ hy]
    · rw [if_neg hc, if_neg (fun k => hc (cond.2 k))]
      exact ⟨rfl, hn, rfl, rfl, fun _ _ => rfl⟩
  unfold setAjar DoorId.all
  simp only [List.foldl_cons, List.foldl_nil]
  set s0 : State := { s with doors := { s.doors with ajarTime := n } } with hs0
  obtain ⟨a1, a2, a3, a4, a5⟩ := step s0 .left rfl rfl
  set s1 := tryAjar s0 .left
  obtain ⟨b1, b2, b3, b4, b5⟩ := step s1 .right a2 (by rw [a1])
  set s2 := tryAjar s1 .right
  obtain ⟨c1, c2, c3, c4, c5⟩ := step s2 .drawer b2 (by rw [b1, a1])
  set s3 := tryAjar s2 .drawer
  obtain ⟨d1, d2, d3, d4, d5⟩ := step s3 .freezer c2 (by rw [c1, b1, a1])
  set s4 := tryAjar s3 .freezer
  refine ⟨?_, d2, d3.trans (c3.trans (b3.trans a3)), ?_⟩
  · rw [d1, c1, b1, a1]
  · intro y
    cases y
    · rw [d5 _ (by decide), c5 _ (by decide), b5 _ (by decide), a4]; rfl
    · rw [d5 _ (by decide), c5 _ (by decide), b4, a5 _ (by decide)]; rfl
    · rw [d5 _ (by decide), c4, b5 _ (by decide), a5 _ (by decide)]; rfl
    · rw [d4, c5 _ (by decide), b5 _ (by decide), a5 _ (by decide)]; rfl

theorem startNext_sched (s : State) : startNext s = { s with sched := s.sched.startNext } := rfl

theorem firstInject_none {k : Scheduler} (h : ∀ c, (k.ch.get c).injectFlag = false) : k.firstInject = none := by
  unfold Scheduler.firstInject
  rw [List.find?_eq_none]
  intro c _; simp [h c]

theorem sub_none (x : State) (c : Chan) : ((powerOn x).sched.ch.get c).substitute = none ∧
    ((commanded x).sched.ch.get c).substitute = none := by
  have h1 := ((powerOn_acts x).kept (by omega)).2.2.2.2.2.2.1.2.1 c
  have h2 := ((commanded_acts x).kept (by omega)).2.2.2.2.2.2.1.2.1 c
  have h3 := (congrArg (fun k => k.2.2.2) h1 :)
  have h4 := (congrArg (fun k => k.2.2.2) h2 :)
  exact ⟨h3.trans (by cases c <;> rfl), h4.trans (by cases c <;> rfl)⟩

theorem dueTest_zero {x : State} (hc : x.defrost.credit = 0) (h1 : 1 ≤ x.defrost.current) : dueTest x = x := by
  unfold dueTest; rw [if_neg]
  rintro ⟨_, h⟩
  unfold Defrost.target at h; omega

theorem becomeIdle_zero {x : State} (hc : x.defrost.credit = 0) (h1 : 1 ≤ x.defrost.current) :
    (becomeIdle x).defrost.core = ({ x.defrost with phase := .idle } : Defrost).core := by
  unfold becomeIdle
  have k := acts_endFault (w := 0) .defrostOvertemp .heater (acts_postDefrost (.refl (s := x.onDefrost fun d => { d with phase := .idle })))
  have hk := k.below2 (by omega)
  generalize endFault _ _ _ = y at hk ⊢
  have e1 : y.defrost.credit = 0 := (congrArg Defrost.credit hk :).trans hc
  have e2 : y.defrost.current = x.defrost.current := (congrArg Defrost.current hk :)
  rw [dueTest_zero e1 (by rw [e2]; exact h1)]
  exact hk

theorem clears_iff (o : Option FaultObject) : clears o = fun e : FaultEntry => !e.active &&
    (o = none || o = some e.object) := by
  funext e
  unfold clears
  cases o with
  | none => simp
  | some x =>
    simp only [Option.all_some, reduceCtorEq, decide_false, Bool.false_or]
    congr 1
    by_cases hx : e.object = x
    · simp [hx]
    · have hx' : ¬ x = e.object := fun k => hx k.symm
      simp [hx, hx']

theorem count_left (l : List FaultEntry) (p : FaultEntry → Bool) : l.length - l.countP p =
    (l.filter fun e => !p e).length := by
  rw [List.countP_eq_length_filter]
  have := List.length_eq_length_filter_add (l := l) p
  omega

theorem clearRecord_eq (s : State) (o : Option FaultObject) :
    OnlyNotices { s with fault := { s.fault with table := s.fault.table.filter fun e => !clears o e, capture := none } } (clearRecord s o) := by
  unfold clearRecord
  dsimp only
  split
  · exact onlyNotices_postFault _ _ _
  · exact ⟨rfl, rfl⟩

theorem force_taken {α : Type} {s : State} {o : Option α} {v : α} {l : α → Option Interlock} {t : α → State} (hm :
    s.ctl.mode = .service)
    (ho : o = some v) (hl : l v = none) : doForce s o l t = done (t v) := by
  unfold doForce; subst ho; simp [hm, hl]

theorem force_denied {α : Type} {s : State} {o : Option α} {v : α} {l : α → Option Interlock} {t : α → State}
    {i : Interlock} (hm : s.ctl.mode = .service)
    (ho : o = some v) (hl : l v = some i) : doForce s o l t = (s, [statusCode .denied, interlockCode i]) := by
  unfold doForce; subst ho; simp [hm, hl]

/-- A force is admitted when none of its interlocks holds (R178). -/
theorem firstLock_none {l : List (Bool × Interlock)} (h : firstLock l = none) : ∀ p ∈ l, p.1 = false := by
  unfold firstLock at h
  simpa using h

theorem bool_val {v : Byte} (hv : v.toNat ≤ 1) : boolOf v = some (v == 1) := by rcases of_le_one hv with rfl | rfl <;> decide

theorem onlyLink_air {s : State} {f : AirPath → AirPath} {fr : Frame} {t : State} (k : OnlyLink (airInput (placed
    (restartIdle s) fr) f) t) :
    OnlyLink ((restartIdle s).onAir fun a => (f a).settle) t := k

theorem lockValve_r (s : State) (f : Frame) (e : Evap) : lockValve (placed (restartIdle s) f) e = lockValve s e := by simp [lockValve]

theorem lockLevel_r (s : State) (f : Frame) (l : Nat) : lockLevel (placed (restartIdle s) f) l = lockLevel s l := by simp [lockLevel]

theorem lockHeater_r (s : State) (f : Frame) (b : Bool) : lockHeater (placed (restartIdle s) f) b = lockHeater s b := by simp [lockHeater]

theorem lockMullion_r (s : State) (f : Frame) (b : Bool) : lockMullion (placed (restartIdle s) f) b = lockMullion s b := by simp [lockMullion]

end Sys2Proof.Machine
end

