-- ==== Sys2Proof/Laws/Stepping.lean ====
section
/-! SUPPORT. The steps toward the aim (R34, R41, R42), and what settling leaves of the load's record (R134, R135). -/

namespace Sys2Proof.Machine

theorem levelWeight_succ (n : Nat) : Config.levelWeight (n + 1) = 2 * n + 4 := by
  show 4 + 2 * n = _; omega

theorem grantsLevel_iff (b : Budget) (n : Nat) : b.grantsLevel (n + 1) = true ↔
    n = 0 ∨ (n + 1 ≤ b.cap ∧ 2 * n + 4 + (if b.heater = .granted then 10 else 0) ≤ b.pending.getD b.inForce - 5) := by
  unfold Budget.grantsLevel Budget.levelFits Budget.available
  rw [levelWeight_succ]
  simp only [Bool.or_eq_true, Bool.and_eq_true, decide_eq_true_iff, Config.heaterWeight, Config.reserve]
  refine or_congr (by omega) (and_congr Iff.rfl decide_eq_true_iff)

theorem claimLevel_level (b : Budget) (l : Nat) : (b.claimLevel l).level = l := by
  unfold Budget.claimLevel; split <;> rfl

/-- The aim with another budget cap: 1 as before, or the level asked for under the caps. -/
theorem aim_cap (a : Arbiter) (m : Mode) (c : Nat) :
    (a.aim m = 1 ∧ ({ a with budgetCap := c } : Arbiter).aim m = 1)
      ∨ ∃ x, a.aim m = a.capped x ∧ ({ a with budgetCap := c } : Arbiter).aim m = ({ a with budgetCap := c } : Arbiter).capped x := by
  unfold Arbiter.aim
  split
  · cases h : a.forcedLevel with
    | none => exact Or.inl ⟨rfl, rfl⟩
    | some l => exact Or.inr ⟨l, rfl, rfl⟩
  · cases h : a.grant with
    | none => exact Or.inl ⟨rfl, rfl⟩
    | some g =>
      dsimp only
      split
      · exact Or.inr ⟨_, rfl, rfl⟩
      · exact Or.inl ⟨rfl, rfl⟩

/-- A refusal: the aim that lay above the level does not fall below it while the cap in force reaches the level. -/
theorem aim_refused {a : Arbiter} {m : Mode} {c : Nat} (h : a.comp.level < a.aim m)
    (hc : a.comp.level ≤ c) : a.comp.level ≤ ({ a with budgetCap := c } : Arbiter).aim m := by
  rcases aim_cap a m c with ⟨q, _⟩ | ⟨x, q, r⟩
  · omega
  · rw [q] at h; rw [r]
    unfold Arbiter.capped at *
    dsimp only at *
    omega

theorem beginStep_line {s : State} (l : Nat) (h : s.arb.comp.state.running_ = true) : (beginStep s l).speedLine = l := by
  have hs : (beginStep s l).arb.comp.state = s.arb.comp.state := rfl
  unfold State.speedLine
  rw [hs]
  cases hc : s.arb.comp.state <;> rw [hc] at h <;> first | rfl | cases h

/-- What the arbiter does on its aim (R34, R41, R50). -/
theorem evalAim_stepped {s : State} (hf : s.arb.stepFree = true) :
    Stepped s.arb.comp.level s.budget (s.arb.aim s.ctl.mode) (evalAim s) := by
  have hv : (evalAim s).arb.valve = s.arb.valve := (still_evalAim s).1.2.1
  have hr : s.arb.comp.state.running_ = true := by
    unfold Arbiter.stepFree at hf; simp at hf; exact hf.1
  have hn : s.arb.comp.step = none := by
    unfold Arbiter.stepFree at hf; simp at hf; exact hf.2
  unfold Stepped
  dsimp only
  rw [hv, ← grantsLevel_iff]
  refine ⟨fun h => ?_, fun h => ?_, fun h hm => ?_, fun h hm hg => ?_, fun h hm hg => ?_⟩
  · have e : evalAim s = beginStep s (s.arb.comp.level - 1) := by
      unfold evalAim; rw [if_neg (by rintro ⟨_, q⟩; omega)]
      unfold stepDown; rw [if_pos ⟨hf, h⟩]
    rw [e]; exact ⟨⟨rfl, beginStep_line _ hr⟩, rfl⟩
  · have e : evalAim s = s := by
      unfold evalAim; rw [if_neg (by rintro ⟨_, q⟩; omega)]
      unfold stepDown; rw [if_neg (by rintro ⟨_, q⟩; omega)]
    rw [e]; exact ⟨hn, rfl⟩
  · have e : evalAim s = s := by
      unfold evalAim; rw [if_pos ⟨hf, h⟩, if_pos hm]
    rw [e]; exact ⟨hn, rfl⟩
  · have e : evalAim s = beginStep (claimLevel s (s.arb.comp.level + 1)) (s.arb.comp.level + 1) := by
      unfold evalAim; rw [if_pos ⟨hf, h⟩, if_neg hm, if_pos hg]
    rw [e]
    refine ⟨⟨rfl, beginStep_line _ ?_⟩, ?_⟩
    · unfold claimLevel; simpa using hr
    show (claimLevel s (s.arb.comp.level + 1)).budget.level = _
    unfold claimLevel
    simp [claimLevel_level]
  · have e : evalAim s = stepDown (s.onArb fun a => { a with budgetCap := s.budget.cap }) := by
      unfold evalAim; rw [if_pos ⟨hf, h⟩, if_neg hm, if_neg hg]
    rw [e]
    unfold stepDown
    split
    · rename_i q
      refine ⟨rfl, rfl, fun hc => ?_⟩
      exact absurd (Nat.lt_of_lt_of_le q.2 (aim_refused (a := s.arb) (m := s.ctl.mode) h hc)) (lt_irrefl _)
    · exact ⟨rfl, rfl, fun _ => hn⟩

theorem Stepped.of_eq {n : Nat} {b : Budget} {a : Nat} {t u : State} (h : Stepped n b a t) (ha : u.arb = t.arb)
    (hb : u.budget = t.budget) : Stepped n b a u := by
  unfold Stepped State.speedLine at *
  rw [ha, hb]; exact h

/-- What the aim's evaluation may change of the load's record and of the cap: the level and the mullion heater at a claim, with
which a step begins; the cap to the one in force. -/
theorem evalAim_record (s : State) : ((evalAim s).arb.budgetCap = s.arb.budgetCap ∨ (evalAim s).arb.budgetCap = s.budget.cap)
    ∧ (evalAim s).budget = { s.budget with level := (evalAim s).budget.level, mullion := (evalAim s).budget.mullion }
    ∧ ((evalAim s).arb.comp.step = s.arb.comp.step → (evalAim s).budget = s.budget) := by
  have down : ∀ x : State, (stepDown x).arb.budgetCap = x.arb.budgetCap ∧ (stepDown x).budget = x.budget := by
    intro x; unfold stepDown; split <;> exact ⟨rfl, rfl⟩
  unfold evalAim
  split
  · rename_i h
    split
    · exact ⟨Or.inl rfl, rfl, fun _ => rfl⟩
    · split
      · have hn : s.arb.comp.step = none := by
          have := h.1; unfold Arbiter.stepFree at this; simp at this; exact this.2
        have hc : ∀ (b : Budget) (l : Nat), b.claimLevel l = { b with level := (b.claimLevel l).level, mullion := (b.claimLevel l).mullion } := by
          intro b l; unfold Budget.claimLevel Budget.shed; (repeat' split) <;> rfl
        refine ⟨Or.inr ?_, ?_, fun q => ?_⟩
        · unfold claimLevel; simp [beginStep]
        · unfold claimLevel; simpa [beginStep] using hc _ _
        · rw [hn] at q; cases q
      · obtain ⟨d1, d2⟩ := down (s.onArb fun a => { a with budgetCap := s.budget.cap })
        rw [d1, d2]; exact ⟨Or.inr rfl, rfl, fun _ => rfl⟩
  · obtain ⟨d1, d2⟩ := down s
    rw [d1, d2]; exact ⟨Or.inl rfl, rfl, fun _ => rfl⟩

/-- With a step in flight the aim's evaluation changes nothing. -/
theorem evalAim_busy {s : State} (h : s.arb.stepFree = false) : evalAim s = s := by
  unfold evalAim stepDown
  rw [h]; simp

/-- The aim evaluated again at once changes nothing. -/
theorem evalAim_idem (s : State) : evalAim (evalAim s) = evalAim s := by
  by_cases hf : s.arb.stepFree = true
  · have begun : ∀ (x : State) (l : Nat), evalAim (beginStep x l) = beginStep x l := fun x l =>
      evalAim_busy (by unfold Arbiter.stepFree beginStep; simp)
    have down : ∀ x : State, evalAim (stepDown x) = stepDown x ∨ (stepDown x = x ∧ ¬ (x.arb.stepFree = true ∧ x.arb.aim x.ctl.mode < x.arb.comp.level)) := by
      intro x
      unfold stepDown
      split
      · exact Or.inl (begun _ _)
      · rename_i q; exact Or.inr ⟨rfl, q⟩
    by_cases h : s.arb.comp.level < s.arb.aim s.ctl.mode
    · by_cases hm : s.arb.valve.isMoving = true
      · have e : evalAim s = s := by unfold evalAim; rw [if_pos ⟨hf, h⟩, if_pos hm]
        rw [e, e]
      · by_cases hg : s.budget.grantsLevel (s.arb.comp.level + 1) = true
        · have e : evalAim s = beginStep (claimLevel s (s.arb.comp.level + 1)) (s.arb.comp.level + 1) := by
            unfold evalAim; rw [if_pos ⟨hf, h⟩, if_neg hm, if_pos hg]
          rw [e, begun]
        · have e : evalAim s = stepDown (s.onArb fun a => { a with budgetCap := s.budget.cap }) := by
            unfold evalAim; rw [if_pos ⟨hf, h⟩, if_neg hm, if_neg hg]
          rw [e]
          rcases down (s.onArb fun a => { a with budgetCap := s.budget.cap }) with q | ⟨q, r⟩
          · exact q
          · rw [q]
            generalize hx : (s.onArb fun a => { a with budgetCap := s.budget.cap }) = x at *
            have x1 : x.arb.valve.isMoving = s.arb.valve.isMoving := by rw [← hx]; rfl
            have x2 : x.budget = s.budget := by rw [← hx]; rfl
            have x3 : x.arb.comp.level = s.arb.comp.level := by rw [← hx]; rfl
            have x4 : (x.onArb fun a => { a with budgetCap := x.budget.cap }) = x := by rw [← hx]; rfl
            unfold evalAim
            split
            · rw [x1, if_neg hm, x2, x3, if_neg hg, ← x2, x4, q]
            · exact q
    · have e : evalAim s = stepDown s := by unfold evalAim; rw [if_neg fun q => h q.2]
      rw [e]
      rcases down s with q | ⟨q, _⟩
      · exact q
      · rw [q, e, q]
  · have e := evalAim_busy (s := s) (by simpa using hf)
    rw [e, e]

end Sys2Proof.Machine
end

