-- ==== Sys2Proof/Laws/SettledLoad.lean ====
section
/-! SUPPORT. What settling leaves of the load's record (R134, R135, R143, R146), and what the arbiter then has of it. -/

namespace Sys2Proof.Machine

theorem levelWeight_eq (l : Nat) : Config.levelWeight l = if l = 0 then 0 else 2 * l + 2 := by
  cases l with
  | zero => rfl
  | succ n => rw [levelWeight_succ, if_neg (by omega)]; omega

theorem sumBare_weighs (b : Budget) : b.sumBare = b.weighs := by
  unfold Budget.sumBare Budget.weighs
  rw [levelWeight_eq]; rfl

theorem sum_weighs (b : Budget) : b.sum = b.weighs + if b.mullion = .on then 2 else 0 := by
  unfold Budget.sum Budget.weighs
  rw [levelWeight_eq]; rfl

theorem available_units (b : Budget) : b.available = b.units := rfl

/-- The cap is the highest level that fits (R134). -/
theorem capOf_iff (b : Budget) : 1 ≤ b.capOf ∧ b.capOf ≤ 5 ∧ ∀ l, 2 ≤ l → l ≤ 5 →
    (l ≤ b.capOf ↔ 2 * l + 2 + (if b.heater = .none_ then 0 else 10) ≤ b.units) := by
  have hc : ∀ l, 2 ≤ l → (b.capFits l = true ↔ 2 * l + 2 + (if b.heater = .none_ then 0 else 10) ≤ b.units) := by
    intro l hl
    unfold Budget.capFits
    rw [levelWeight_eq, if_neg (by omega)]
    exact decide_eq_true_iff
  have h5 := hc 5 (by omega)
  have h4 := hc 4 (by omega)
  have h3 := hc 3 (by omega)
  have h2 := hc 2 (by omega)
  generalize (if b.heater = .none_ then 0 else 10) = k at *
  have : b.capOf = if b.capFits 5 = true then 5 else if b.capFits 4 = true then 4 else if b.capFits 3 = true then 3 else if b.capFits 2 = true then 2 else 1 := rfl
  rw [this]
  simp only [h5, h4, h3, h2]
  refine ⟨?_, ?_, fun l h1 h2 => ?_⟩
  · split_ifs <;> omega
  · split_ifs <;> omega
  · split_ifs <;> omega

theorem shed_eq (b : Budget) : b.shed = { b with mullion := if b.mullion = .on then .shed else b.mullion } := by
  unfold Budget.shed; split <;> rfl

/-- Steps 1 and 2 of settling: the mullion heater shed where it does not fit, a pending budget resolved. -/
theorem settle12 (b : Budget) : b.settle1.settle2 = { b with
    mullion := if b.mullion = .on ∧ b.units < b.weighs + 2 then .shed else b.mullion
    inForce := if b.weighs ≤ b.units then b.pending.getD b.inForce else b.inForce
    pending := if b.weighs ≤ b.units then none else b.pending } := by
  have e1 : b.settle1 = { b with mullion := if b.mullion = .on ∧ b.units < b.weighs + 2 then .shed else b.mullion } := by
    unfold Budget.settle1
    rw [sum_weighs, available_units, shed_eq]
    by_cases hm : b.mullion = .on
    · simp only [hm, if_true, true_and]
      split <;> first | rfl | (cases b; simp_all)
    · simp only [hm, if_false, false_and]
      split <;> rfl
  rw [e1]
  unfold Budget.settle2
  cases hp : b.pending with
  | none => 
    dsimp only
    simp only [Option.getD_none, ite_self]
  | some p =>
    obtain ⟨fi, pe, lv, ht, mm, aw, ap, af, fo, mu, ca, mo⟩ := b
    cases hp
    generalize hW : Budget.weighs _ = W
    dsimp only
    rw [sum_weighs]
    have hu : Budget.units { inForce := fi, pending := some p, level := lv, heater := ht, mullionMode := mm, ambientWish := aw, ambientPos := ap, ambientFaulted := af, force := fo, mullion := mu, cap := ca, mode := mo } = p - 5 := rfl
    rw [hu]
    have hw : ∀ q, Budget.weighs { inForce := fi, pending := some p, level := lv, heater := ht, mullionMode := mm, ambientWish := aw, ambientPos := ap, ambientFaulted := af, force := fo, mullion := q, cap := ca, mode := mo } = W := fun q => hW
    rw [hw]
    by_cases h : W ≤ p - 5
    · rw [if_pos, if_pos h, if_pos h]
      · rfl
      · show _ ≤ p - 5
        dsimp only
        split_ifs <;> first | omega | simp_all
    · rw [if_neg, if_neg h, if_neg h]
      show ¬ _ ≤ p - 5
      omega

/-- Step 3 of settling: a WAITING heater that fits is granted, the mullion heater shed for it. -/
theorem settle3_eq (b : Budget) : b.settle3 = { b with
    heater := if b.heater = .waiting ∧ b.weighs + 10 ≤ b.units then .granted else b.heater
    mullion := if (b.heater = .waiting ∧ b.weighs + 10 ≤ b.units) ∧ b.mullion = .on ∧ b.units < b.weighs + 12 then .shed
      else b.mullion } := by
  have h1 : b.heaterDue = true ↔ b.heater = .waiting ∧ b.weighs + 10 ≤ b.units := by
    unfold Budget.heaterDue Budget.heaterFits
    rw [sumBare_weighs]
    simp only [Bool.and_eq_true, beq_iff_eq]
    exact and_congr Iff.rfl decide_eq_true_iff
  have h2 : b.heaterFitsNow = true ↔ b.weighs + (if b.mullion = .on then 2 else 0) + 10 ≤ b.units := by
    unfold Budget.heaterFitsNow
    rw [sum_weighs]
    exact decide_eq_true_iff
  unfold Budget.settle3
  by_cases h : b.heater = .waiting ∧ b.weighs + 10 ≤ b.units
  · rw [if_pos (h1.2 h)]
    simp only [h, true_and, and_self, if_true]
    rw [shed_eq]
    simp only [h2]
    by_cases hm : b.mullion = .on
    · by_cases hf : b.units < b.weighs + 12
      · simp only [hm, if_true, hf, and_self]; rw [if_neg (by omega)]
      · simp only [hm, if_true, hf, and_false, if_false]; rw [if_pos (by omega), ← hm]
    · simp only [hm, if_false, false_and]
      split <;> rfl
  · rw [if_neg (fun q => h (h1.1 q)), if_neg h, if_neg (fun q => h q.1)]

/-- Step 4 of settling: the mullion claim. -/
theorem settle4_eq (b : Budget) : b.settle4 = { b with
    mullion := if b.mullion ≠ .on ∧ b.wished = true ∧ b.heater ≠ .waiting then (if b.weighs + 2 ≤ b.units then .on else .shed)
      else b.mullion } := by
  unfold Budget.settle4 Budget.mullionFits
  split
  · rename_i h
    rw [sum_weighs, if_neg h.1]
    congr 1
    refine if_congr ?_ rfl rfl
    exact decide_eq_true_iff
  · rfl

/-- Steps 1 and 3 shed the mullion heater exactly where it does not fit what stands after them. -/
theorem shed_twice (ht : Claim) (mu : Mullion) (B U W W2 : Nat) (m1 : Mullion) (hW : W = B + if ht = .granted then 10 else 0)
    (h1 : m1 = if mu = .on ∧ U < W + 2 then .shed else mu)
    (hW2 : W2 = B + if (if ht = .waiting ∧ W + 10 ≤ U then Claim.granted else ht) = .granted then 10 else 0) :
    (if (ht = .waiting ∧ W + 10 ≤ U) ∧ m1 = .on ∧ U < W + 12 then Mullion.shed else m1)
      = if mu = .on ∧ U < W2 + 2 then .shed else mu := by
  by_cases hm : mu = .on
  · subst hm
    simp only [true_and] at h1 ⊢
    cases ht with
    | waiting =>
      simp only [reduceCtorEq, if_false, Nat.add_zero] at hW
      subst hW
      by_cases hf : W + 10 ≤ U
      · simp only [hf, and_self, if_true] at hW2
        rw [if_neg (by omega)] at h1
        subst h1 hW2
        simp only [hf, true_and]
      · simp only [hf, and_false, if_false, reduceCtorEq, Nat.add_zero] at hW2
        subst h1 hW2
        simp [hf]
    | none_ => simp at hW hW2; subst hW hW2 h1; simp
    | granted => simp at hW hW2; subst hW hW2 h1; simp
  · simp only [hm, false_and, if_false] at h1 ⊢
    subst h1
    simp [hm]

/-- Settling is what R134 and R135 say it is. -/
theorem settle_settles (b : Budget) : b.SettlesTo b.settle := by
  unfold Budget.settle
  rw [settle12, settle3_eq, settle4_eq]
  obtain ⟨fi, pe, lv, ht, mm, aw, ap, af, fo, mu, ca, mo⟩ := b
  generalize hb : ({ inForce := fi, pending := pe, level := lv, heater := ht, mullionMode := mm, ambientWish := aw, ambientPos := ap, ambientFaulted := af, force := fo, mullion := mu, cap := ca, mode := mo } : Budget) = b
  have bh : b.heater = ht := by rw [← hb]
  have bm : b.mullion = mu := by rw [← hb]
  have bp : b.pending = pe := by rw [← hb]
  have bi : b.inForce = fi := by rw [← hb]
  have bw : b.weighs = (if b.level = 0 then 0 else 2 * b.level + 2) + if ht = .granted then 10 else 0 := by rw [← bh]; rfl
  have bu : b.units = b.pending.getD b.inForce - 5 := rfl
  generalize h1 : ({ b with
    mullion := if b.mullion = .on ∧ b.units < b.weighs + 2 then .shed else b.mullion
    inForce := if b.weighs ≤ b.units then b.pending.getD b.inForce else b.inForce
    pending := if b.weighs ≤ b.units then none else b.pending } : Budget) = b1
  have a1 : b1.heater = ht := by rw [← h1]; exact bh
  have a2 : b1.mullion = if mu = .on ∧ b.units < b.weighs + 2 then .shed else mu := by rw [← h1, ← bm]
  have a3 : b1.weighs = b.weighs := by rw [← h1]; rfl
  have a4 : b1.units = b.units := by
    rw [← h1]; unfold Budget.units; dsimp only; split <;> rfl
  have a5 : b1.wished = b.wished := by rw [← h1]; rfl
  have a6 : b1.level = b.level := by rw [← h1]
  rw [a3, a4]
  generalize h2 : ({ b1 with
    heater := if b1.heater = .waiting ∧ b.weighs + 10 ≤ b.units then .granted else b1.heater
    mullion := if (b1.heater = .waiting ∧ b.weighs + 10 ≤ b.units) ∧ b1.mullion = .on ∧ b.units < b.weighs + 12 then .shed
      else b1.mullion } : Budget) = b2
  have c1 : b2.heater = if ht = .waiting ∧ b.weighs + 10 ≤ b.units then .granted else ht := by rw [← h2, ← a1]
  have c2 : b2.mullion = if (ht = .waiting ∧ b.weighs + 10 ≤ b.units) ∧ b1.mullion = .on ∧ b.units < b.weighs + 12 then .shed else b1.mullion := by rw [← h2, ← a1]
  have c4 : b2.units = b.units := by rw [← h2]; exact a4
  have c5 : b2.wished = b.wished := by rw [← h2]; exact a5
  have c3 : b2.weighs = (if b.level = 0 then 0 else 2 * b.level + 2) + if b2.heater = .granted then 10 else 0 := by
    have : b2.level = b.level := by rw [← h2]; exact a6
    rw [← this]; rfl
  have tw := shed_twice ht mu _ b.units b.weighs b2.weighs b1.mullion bw a2 (c1 ▸ c3)
  rw [c4, c5]
  generalize h3 : ({ b2 with
    mullion := if b2.mullion ≠ .on ∧ b.wished = true ∧ b2.heater ≠ .waiting then (if b2.weighs + 2 ≤ b.units then .on else .shed)
      else b2.mullion } : Budget) = b3
  have d1 : b3.heater = b2.heater := by rw [← h3]
  have d2 : b3.mullion = if b2.mullion ≠ .on ∧ b.wished = true ∧ b2.heater ≠ .waiting then (if b2.weighs + 2 ≤ b.units then .on else .shed)
      else b2.mullion := by rw [← h3]
  have d3 : b3.weighs = b2.weighs := by rw [← h3]; rfl
  have d4 : b3.units = b.units := by rw [← h3]; exact c4
  have d6 : b3.inForce = if b.weighs ≤ b.units then b.pending.getD b.inForce else b.inForce := by rw [← h3, ← h2, ← h1]
  have d7 : b3.pending = if b.weighs ≤ b.units then none else b.pending := by rw [← h3, ← h2, ← h1]
  have cap := capOf_iff b3
  have du : ∀ c, ({ b3 with cap := c } : Budget).units = b3.units := fun _ => rfl
  have dw : ∀ c, ({ b3 with cap := c } : Budget).weighs = b3.weighs := fun _ => rfl
  refine ⟨?_, fun h => ?_, fun p h k => ?_, fun p h k => ?_, ?_, fun hw hh => ?_, fun hw => ?_, cap⟩
  · show _ = _
    rw [← h3, ← h2, ← h1]; rfl
  · refine ⟨d6.trans ?_, d7.trans ?_⟩ <;> rw [h] <;> simp
  · have : b.units = p - 5 := by rw [bu, h]; rfl
    refine ⟨d6.trans ?_, d7.trans ?_⟩ <;> rw [if_pos (by omega)]
    rw [h]; rfl
  · have : b.units = p - 5 := by rw [bu, h]; rfl
    refine ⟨d6.trans ?_, d7.trans ?_⟩ <;> rw [if_neg (by omega)]
    exact h
  · exact d1.trans (c1.trans (by rw [bh]))
  · have hh : b2.heater ≠ .waiting := fun q => hh (d1.trans q)
    show b3.mullion = if b3.weighs + 2 ≤ b3.units then _ else _
    rw [d2, d3, d4]
    by_cases hm : b2.mullion = .on
    · rw [if_neg (fun q => q.1 hm), hm, if_pos]
      rw [c2, tw] at hm
      by_contra q
      split_ifs at hm with r
      exact r ⟨hm, by omega⟩
    · rw [if_pos ⟨hm, hw, hh⟩]
  · show b3.mullion = if b.mullion = .on ∧ b3.units < b3.weighs + 2 then _ else _
    have hw : b.wished = false ∨ b2.heater = .waiting := hw.imp id fun q => d1.symm.trans q
    rw [d2, d3, d4, bm, ← tw, ← c2]
    exact if_neg (by rintro ⟨-, q, r⟩; exact hw.elim (fun h => Bool.false_ne_true (h.symm.trans q)) r)

/-- Whether settling grants a heater that WAITs, as step 3 finds it. -/
theorem heaterDue_iff (b : Budget) : b.settle1.settle2.heaterDue = true ↔ b.heater = .waiting ∧ b.weighs + 10 ≤ b.units := by
  unfold Budget.heaterDue Budget.heaterFits
  rw [settle12, sumBare_weighs, available_units]
  have hu : ∀ m, Budget.units { b with
      mullion := m
      inForce := if b.weighs ≤ b.units then b.pending.getD b.inForce else b.inForce
      pending := if b.weighs ≤ b.units then none else b.pending } = b.units := by
    intro m; unfold Budget.units; dsimp only; split <;> rfl
  rw [hu]
  simp only [Bool.and_eq_true, beq_iff_eq]
  exact and_congr Iff.rfl decide_eq_true_iff

/-- The state in which the aim is evaluated anew once the unit has settled: the settled record, a new cap handed, and the heater
ON that was granted. -/
theorem settleFrom_after (s : State) (b : Budget) : ∃ y, settleFrom s b = evalAim y ∧ y.budget = s.budget.settle ∧ y.ctl = s.ctl
    ∧ y.arb = { s.arb with budgetCap := if s.budget.settle.cap = b.cap then s.arb.budgetCap else s.budget.settle.cap }
    ∧ y.defrost = { s.defrost with
        heater := if s.budget.heater = .waiting ∧ s.budget.weighs + 10 ≤ s.budget.units then .on else s.defrost.heater } := by
  refine ⟨_, rfl, ?_, ?_, ?_, ?_⟩
  all_goals simp only [reportBudget_budget, reportBudget_ctl, reportBudget_arb, reportBudget_defrost]
  all_goals unfold handCap
  all_goals simp only [heaterDue_iff]
  all_goals by_cases hd : s.budget.heater = .waiting ∧ s.budget.weighs + 10 ≤ s.budget.units
  all_goals simp only [hd, and_self, if_true, if_false]
  all_goals split
  all_goals simp_all [heaterOn, postDefrost, airHeater, airInput]

/-! ### The next step (R31, R34, R41) -/

theorem topWish_eq {ms : List Member} {top : Nat} (h1 : ∀ m ∈ ms, m.wish ≤ top) (h2 : top = 0 ∨ ∃ m ∈ ms, m.wish = top) :
    topWish ms = top := by
  have key : ∀ (ms : List Member) (n : Nat), n ≤ ms.foldl (fun n m => max n m.wish) n
      ∧ (∀ m ∈ ms, m.wish ≤ ms.foldl (fun n m => max n m.wish) n)
      ∧ ∀ k, n ≤ k → (∀ m ∈ ms, m.wish ≤ k) → ms.foldl (fun n m => max n m.wish) n ≤ k := by
    intro ms
    induction ms with
    | nil => intro n; exact ⟨le_refl n, by simp, fun k h _ => h⟩
    | cons a ms ih =>
      intro n
      obtain ⟨i1, i2, i3⟩ := ih (max n a.wish)
      refine ⟨by simp only [List.foldl_cons]; omega, fun m hm => ?_, fun k h hk => ?_⟩
      · simp only [List.foldl_cons]
        rcases List.mem_cons.1 hm with rfl | hm
        · omega
        · exact i2 m hm
      · have := hk a List.mem_cons_self
        exact i3 k (by omega) fun m hm => hk m (List.mem_cons_of_mem _ hm)
  obtain ⟨_, k2, k3⟩ := key ms 0
  refine le_antisymm (k3 top (by omega) h1) ?_
  rcases h2 with rfl | ⟨m, hm, rfl⟩
  · exact Nat.zero_le _
  · exact k2 m hm

theorem target_top {g : Grant} {top : Nat} (ha : g.phase = .active) (h1 : ∀ m ∈ g.holders, m.wish ≤ top)
    (h2 : top = 0 ∨ ∃ m ∈ g.holders, m.wish = top) : g.target = top := by
  unfold Grant.target Grant.counted
  rw [ha]; exact topWish_eq h1 h2

/-- With an ACTIVE grant nothing but the aim is acted on. -/
theorem advance_active {s : State} {g : Grant} (hs : s.arb.comp.state = .running) (hg : s.arb.grant = some g)
    (ha : g.phase = .active) : advance s = evalAim s := by
  have e1 : leaveRunout s = s := by unfold leaveRunout; rw [hs]; simp
  have e2 : tryActivate s = s := by unfold tryActivate; rw [hg]; simp [ha]
  have e3 : tryMove s = s := by unfold tryMove valveWanted; rw [hg]; simp [ha]
  have e4 : tryStart s = s := by unfold tryStart startWanted; rw [hg]; simp [ha]
  unfold advance
  rw [e1, e2, e3, e4]

/-- The end of a step with an ACTIVE grant: the level reached, reported when it lies lower, and the aim evaluated anew (R41). -/
theorem stepDone_active {s : State} {g : Grant} {n : Nat} (hs : s.arb.comp.state = .running) (hg : s.arb.grant = some g)
    (ha : g.phase = .active) :
    let b := if n < s.arb.comp.level ∧ s.budget.level ≠ n then ({ s.budget with level := n } : Budget).settle else s.budget
    ∃ y, stepDone s n = evalAim y ∧ y.budget = b ∧ y.ctl = s.ctl
      ∧ y.arb = { s.arb with comp := { s.arb.comp with level := n, step := none }
                             budgetCap := if b.cap = s.budget.cap then s.arb.budgetCap else b.cap } := by
  intro b
  let t := s.onComp fun c => { c with level := n, step := none }
  have idem : ∀ y : State, y.arb.comp.state = .running → y.arb.grant = some g → advance (evalAim y) = evalAim y := by
    intro y h1 h2
    obtain ⟨q1, _, q3, _⟩ := (still_evalAim y).1
    rw [advance_active (q1.trans h1) (q3.trans h2) ha, evalAim_idem]
  by_cases hd : n < s.arb.comp.level ∧ s.budget.level ≠ n
  · obtain ⟨y, e, y1, y2, y3, _⟩ := settleFrom_after (t.onBudget fun b => { b with level := n }) t.budget
    have hb : b = ({ s.budget with level := n } : Budget).settle := if_pos hd
    have yb : y.budget = b := by rw [y1, hb]; rfl
    have ya : y.arb = { s.arb with comp := { s.arb.comp with level := n, step := none }
                                   budgetCap := if b.cap = s.budget.cap then s.arb.budgetCap else b.cap } := by
      rw [y3, hb]; rfl
    refine ⟨y, ?_, yb, y2, ya⟩
    have e2 : stepDone s n = advance (evalAim y) := by
      unfold stepDone
      dsimp only
      rw [if_pos hd.1]
      refine congrArg advance ?_
      unfold reportLevel budgetChange
      exact (if_neg hd.2).trans e
    rw [e2]
    exact idem y (by rw [ya]; exact hs) (by rw [ya]; exact hg)
  · have hb : b = s.budget := if_neg hd
    refine ⟨t, ?_, hb.symm, rfl, by rw [hb, if_pos rfl]; rfl⟩
    have e2 : stepDone s n = advance t := by
      unfold stepDone
      dsimp only
      split
      · rename_i h
        unfold reportLevel
        exact congrArg advance (if_pos (by by_contra q; exact hd ⟨h, q⟩))
      · rfl
    rw [e2]
    exact advance_active (s := t) hs hg ha

end Sys2Proof.Machine
end

