-- ==== Sys2Proof/Laws/HeatStart.lean ====
section
/-! SUPPORT. The claim of the defrost heater at the entry to HEAT (R55, R115, R116, R138). -/

namespace Sys2Proof.Machine

/-- A heater in use keeps its use, and at most a claimed one is switched on. -/
def Rises (s t : State) : Prop :=
  s.defrost.heater ≠ .off → t.defrost.use = s.defrost.use ∧ (t.defrost.heater = s.defrost.heater ∨ t.defrost.heater = .on)

theorem Rises.trans {s t u : State} (h : Rises s t) (k : Rises t u) : Rises s u := fun q => by
  obtain ⟨h1, h2⟩ := h q
  obtain ⟨k1, k2⟩ := k (by rcases h2 with r | r <;> rw [r] <;> first | exact q | decide)
  refine ⟨k1.trans h1, ?_⟩
  rcases k2 with k2 | k2
  · rw [k2]; exact h2
  · exact Or.inr k2

theorem rises_of {s t : State} (h : t.defrost = s.defrost) : Rises s t := fun _ => by rw [h]; exact ⟨rfl, Or.inl rfl⟩

theorem Rises.on {s t : State} (h : Rises s t) (k : s.defrost.heater = .on) : t.defrost.heater = .on := by
  rcases (h (by rw [k]; decide)).2 with q | q
  · exact q.trans k
  · exact q

theorem Rises.use {s t : State} (h : Rises s t) {u : HeaterUse} (k : s.defrost.heater ≠ .off ∧ s.defrost.use = some u) :
    t.defrost.heater ≠ .off ∧ t.defrost.use = some u := by
  obtain ⟨h1, h2⟩ := h k.1
  exact ⟨by rcases h2 with r | r <;> rw [r] <;> first | exact k.1 | decide, h1.trans k.2⟩

theorem rises_settleFrom (s : State) (b : Budget) : Rises s (settleFrom s b) := fun _ =>
  ⟨(still_settleFrom s b).1.2.2.2.2, (still_settleFrom s b).2⟩

theorem rises_reportLevel (s : State) (l : Nat) : Rises s (reportLevel s l) := by
  unfold reportLevel; split
  · exact rises_of rfl
  · exact rises_settleFrom (s.onBudget fun b => { b with level := l }) s.budget

theorem rises_compStop (s : State) : Rises s (compStop s) := by
  unfold compStop; split
  · unfold compOff
    dsimp only
    refine Rises.trans (rises_of ?_) (rises_reportLevel _ 0)
    rfl
  · exact rises_of rfl

theorem rises_advance (s : State) : Rises s (advance s) := fun _ => ⟨(advance_heater s).2, Or.inl (advance_heater s).1⟩

theorem rises_select (s : State) : Rises s (select s) := by
  unfold select; split
  · rename_i e _
    exact Rises.trans (t := formGrant s e.evap) (rises_of rfl) (rises_advance _)
  · exact rises_of rfl

theorem rises_afterGrant (s : State) : Rises s (afterGrant s) := by
  unfold afterGrant; split
  · exact rises_of rfl
  · split
    · exact rises_select s
    · split
      · split
        · exact rises_compStop s
        · refine rises_of ((still_evalAim _).2.trans ?_); split <;> rfl
      · exact rises_of rfl

theorem rises_reportNotFed (s : State) : Rises s (reportNotFed s) := fun q => by
  unfold reportNotFed; split
  · unfold defrostNotFed
    rw [if_neg (by rintro ⟨_, r⟩; exact q r)]
    exact ⟨rfl, Or.inl rfl⟩
  · exact ⟨rfl, Or.inl rfl⟩

theorem rises_feedingCheck (s : State) : Rises s (feedingCheck s) := by
  unfold feedingCheck
  (repeat' split) <;> first
    | exact rises_of rfl
    | exact rises_reportNotFed s
    | exact (rises_select s).trans (rises_reportNotFed _)
    | exact (rises_compStop s).trans (rises_reportNotFed _)

theorem rises_recheck (a s : State) : Rises s (recheck a s) := by
  unfold recheck; split
  · exact rises_feedingCheck s
  · exact rises_of rfl

/-- A claim taken while the heater is NONE that fits without the mullion heater is granted at once (R138). -/
theorem claimFor_on {s : State} (u : HeaterUse) (hb : s.budget.heater = .none_) (hf : s.budget.weighs + 10 ≤ s.budget.units) :
    (claimFor s u).defrost.heater = .on := by
  have hfit : s.budget.heaterFits = true := by
    unfold Budget.heaterFits; rw [sumBare_weighs]; exact decide_eq_true hf
  have hg : s.budget.claimHeater.heater = .granted := by
    unfold Budget.claimHeater
    have : s.budget.shed.heaterFits = true := by
      unfold Budget.shed; split
      · exact hfit
      · exact hfit
    rw [if_pos this]
    split <;> rfl
  unfold claimFor heaterClaim
  dsimp only
  simp only [State.onDefrost_budget, State.onBudget_budget, hb, hg, if_true]
  rcases (still_settleFrom _ _).2 with q | q
  · rw [q]; simp [heaterOn, postDefrost, airHeater, airInput]
  · exact q

/-- What a stop leaves while no heater is claimed: nothing accounted, and the Defrost Unit as it was (R43, R137). -/
theorem compStop_free {s : State} (ht : s.arb.comp.state.turning = true) (hb : s.budget.heater = .none_) :
    (compStop s).arb.comp.state = .offLocked ∧ (compStop s).budget.level = 0 ∧ (compStop s).budget.heater = .none_
    ∧ (compStop s).defrost = s.defrost ∧ (compStop s).arb.notFed = s.arb.notFed := by
  unfold compStop
  rw [if_pos ht]
  unfold compOff
  simp only [Bool.false_eq_true, if_false]
  generalize hx : setComp (s.onComp fun c => { c.off with minOffLeft := s.arb.timing.minOff, lockoutLeft := 0 }) .offLocked = x
  have x1 : x.arb.comp.state = .offLocked := by rw [← hx]; rfl
  have x2 : x.budget = s.budget := by rw [← hx]; rfl
  have x3 : x.defrost = s.defrost := by rw [← hx]; rfl
  have x4 : x.arb.notFed = s.arb.notFed := by rw [← hx]; rfl
  unfold reportLevel
  split
  · rename_i h; exact ⟨x1, h, by rw [x2]; exact hb, x3, x4⟩
  · unfold budgetChange
    obtain ⟨y, e, y1, _, y3, y4⟩ := settleFrom_after (x.onBudget fun b => { b with level := 0 }) x.budget
    have hy : y.arb.comp.state = .offLocked := by rw [y3]; exact x1
    have ey : evalAim y = y := evalAim_busy (by unfold Arbiter.stepFree; rw [hy]; rfl)
    rw [e, ey]
    have hw : (x.onBudget fun b => { b with level := 0 }).budget.heater = .none_ := by rw [← hb, ← x2]; rfl
    obtain ⟨s1, _, _, _, s5, _⟩ := settle_settles (x.onBudget fun b => { b with level := 0 }).budget
    rw [← y1] at s1 s5
    rw [hw, if_neg (by rintro ⟨q, _⟩; cases q)] at s5
    rw [hw, if_neg (by rintro ⟨q, _⟩; cases q)] at y4
    exact ⟨hy, by rw [s1]; rfl, s5, y4.trans x3, by rw [y3]; exact x4⟩

/-- The units available are never fewer than 15 (R134). -/
theorem LoadLaw.units {s : State} (h : LoadLaw s) : 15 ≤ s.budget.units := by
  obtain ⟨⟨_, h1, _, h2⟩, _⟩ := h
  unfold Budget.units
  cases hp : s.budget.pending with
  | none => simp only [Option.getD_none]; omega
  | some p => have := (h2 p hp).1; simp only [Option.getD_some]; omega

/-- FREEZE not fed, in HEAT with the heater OFF: it is claimed, and ON when the claim fits (R55, R116, R138). -/
theorem reportNotFed_claims {s : State} (hh : s.arb.hold = true) (hn : s.arb.notFed = false) (hf : s.arb.feedsFreeze = false)
    (hp : s.defrost.phase = .heat) (ho : s.defrost.heater = .off) :
    (reportNotFed s).defrost.heater ≠ .off ∧ (reportNotFed s).defrost.use = some .defrost
    ∧ (s.budget.heater = .none_ → s.budget.weighs + 10 ≤ s.budget.units → (reportNotFed s).defrost.heater = .on) := by
  unfold reportNotFed defrostNotFed
  rw [if_pos ⟨hh, by simp [hn], by simp [hf]⟩, if_pos ⟨hp, ho⟩]
  obtain ⟨_, _, _, h1, h2⟩ := still_claimFor (s.onArb fun a => { a with notFed := true }) .defrost
  exact ⟨h2, h1, fun hb hw => claimFor_on .defrost hb hw⟩

/-! ### The hold taken at the entry to HEAT (R54, R55) -/

/-- The state in which the hold's feeding check is made: the hold stands, FREEZE's grant and entries of zones are gone. -/
theorem holdRequest_check {s : State} (h : s.arb.hold = false) : ∃ v, (holdRequest s = feedingCheck v ∨ holdRequest s = afterGrant (feedingCheck v))
    ∧ v.arb = { s.arb with hold := true, notFed := false
                           list := s.arb.list.filter fun e => e.requester != .freezer && e.requester != .drawer
                           grant := if s.arb.grant.any (fun g => g.evap == .freeze) then none else s.arb.grant }
    ∧ v.budget = s.budget ∧ v.defrost = s.defrost := by
  have zh : ∀ (x : State) (z : ZoneId), (zoneHeld x z).arb = x.arb ∧ (zoneHeld x z).budget = x.budget ∧ (zoneHeld x z).defrost = x.defrost := by
    intro x z; unfold zoneHeld; dsimp only; split <;> simp
  unfold holdRequest
  rw [if_neg (by simp [h])]
  dsimp only
  generalize hw : ((dropFreeze s).onArb fun a =>
      { a with hold := true, notFed := false
               list := a.list.filter fun e => e.requester != .freezer && e.requester != .drawer }) = w
  have w1 : w.arb = { s.arb with hold := true, notFed := false
                                 list := s.arb.list.filter fun e => e.requester != .freezer && e.requester != .drawer
                                 grant := if s.arb.grant.any (fun g => g.evap == .freeze) then none else s.arb.grant } := by
    rw [← hw]; unfold dropFreeze; split <;> rfl
  have w2 : w.budget = s.budget := by rw [← hw]; unfold dropFreeze; split <;> rfl
  have w3 : w.defrost = s.defrost := by rw [← hw]; unfold dropFreeze; split <;> rfl
  obtain ⟨a1, a2, a3⟩ := zh (zoneHeld w .freezer) .drawer
  obtain ⟨b1, b2, b3⟩ := zh w .freezer
  refine ⟨zoneHeld (zoneHeld w .freezer) .drawer, ?_, a1.trans (b1.trans w1), a2.trans (b2.trans w2), a3.trans (b3.trans w3)⟩
  split
  · exact Or.inr rfl
  · exact Or.inl rfl

theorem rises_hold {s v : State} (h : holdRequest s = feedingCheck v ∨ holdRequest s = afterGrant (feedingCheck v)) :
    Rises (feedingCheck v) (holdRequest s) := by
  rcases h with h | h <;> rw [h]
  · exact rises_of rfl
  · exact rises_afterGrant _

/-- What the entry to HEAT does after the hold's request reaches neither the arbiter nor the heater. -/
theorem heatEntry_tail (s : State) : (postDefrost (queueDefrost (s.onDefrost fun d => { d with sampleTimer := none }))).defrost
      = { s.defrost with sampleTimer := none }
    ∧ (postDefrost (queueDefrost (s.onDefrost fun d => { d with sampleTimer := none }))).arb = s.arb := by
  have q : ∀ x : State, (queueDefrost x).defrost = x.defrost ∧ (queueDefrost x).arb = x.arb := by
    intro x; unfold queueDefrost startNext; (repeat' split) <;> exact ⟨rfl, rfl⟩
  unfold postDefrost
  rw [postNotice_defrost, postNotice_arb, (q _).1, (q _).2]
  exact ⟨rfl, rfl⟩

/-- The entry to HEAT with FREEZE not fed claims the heater, and has it ON when the claim fits (R55, R115, R116, R138). -/
theorem heatEntry_unfed {s : State} (hh : s.arb.hold = false) (ho : s.defrost.heater = .off) (hf : s.arb.feedsFreeze = false) :
    (heatEntry s).defrost.heater ≠ .off ∧ (heatEntry s).defrost.use = some .defrost
    ∧ (s.budget.heater = .none_ → s.budget.weighs + 10 ≤ s.budget.units → (heatEntry s).defrost.heater = .on) := by
  unfold heatEntry
  dsimp only
  generalize hu : ((airPermit (defrostBounds _) false).onDefrost fun d => { d with hold := true }) = u
  have u1 : u.arb = s.arb := by rw [← hu]; rfl
  have u2 : u.budget = s.budget := by rw [← hu]; rfl
  have u3 : u.defrost.phase = .heat ∧ u.defrost.heater = .off := by rw [← hu]; exact ⟨rfl, ho⟩
  obtain ⟨v, hv, v1, v2, v3⟩ := holdRequest_check (s := u) (by rw [u1]; exact hh)
  have vf : v.arb.feedsFreeze = false := by
    rw [v1]; show u.arb.feedsFreeze = false; rw [u1]; exact hf
  have e : feedingCheck v = reportNotFed v := by
    unfold feedingCheck
    rw [if_neg (by rw [v1]; simp), if_pos (by simp [vf])]
  obtain ⟨c1, c2, c3⟩ := reportNotFed_claims (s := v) (by rw [v1]) (by rw [v1]) vf (by rw [v3]; exact u3.1) (by rw [v3]; exact u3.2)
  have r : Rises (feedingCheck v) (postDefrost (queueDefrost ((holdRequest u).onDefrost fun d => { d with sampleTimer := none }))) := by
    exact (rises_hold hv).trans fun _ => by rw [(heatEntry_tail _).1]; exact ⟨rfl, Or.inl rfl⟩
  rw [e] at r
  obtain ⟨d1, d2⟩ := r.use ⟨c1, c2⟩
  refine ⟨d1, d2, fun hb hw => r.on (c3 (by rw [v2, u2]; exact hb) (by rw [v2, u2]; exact hw))⟩

/-- The entry to HEAT with FREEZE fed and no one waiting for FRESH stops the compressor, and the heater is ON (R55, R116, R138). -/
theorem heatEntry_fed {s : State} (hl : LoadLaw s) (hh : s.arb.hold = false) (ho : s.defrost.heater = .off)
    (hb : s.budget.heater = .none_) (hf : s.arb.feedsFreeze = true) (hg : ∀ g ∈ s.arb.grant, g.evap ≠ .fresh)
    (hw : ∀ e ∈ s.arb.list, e.evap ≠ .fresh) :
    (heatEntry s).defrost.heater = .on ∧ (heatEntry s).defrost.use = some .defrost
    ∧ (heatEntry s).arb.comp.state = .offLocked := by
  unfold heatEntry
  dsimp only
  generalize hu : ((airPermit (defrostBounds _) false).onDefrost fun d => { d with hold := true }) = u
  have u1 : u.arb = s.arb := by rw [← hu]; rfl
  have u2 : u.budget = s.budget := by rw [← hu]; rfl
  have u3 : u.defrost.phase = .heat ∧ u.defrost.heater = .off := by rw [← hu]; exact ⟨rfl, ho⟩
  obtain ⟨v, hv, v1, v2, v3⟩ := holdRequest_check (s := u) (by rw [u1]; exact hh)
  have vg : v.arb.grant = none := by
    rw [v1, u1]
    cases hs : s.arb.grant with
    | none => simp
    | some g =>
      have := hg g hs
      cases he : g.evap
      · exact absurd he this
      · simp [he]
  have vc : v.arb.comp = s.arb.comp := by rw [v1, u1]
  have vf : v.arb.feedsFreeze = true := by
    rw [v1]; show u.arb.feedsFreeze = true; rw [u1]; exact hf
  have vt : v.arb.comp.state.turning = true := by
    unfold Arbiter.feedsFreeze at vf; simp only [Bool.and_eq_true] at vf; exact vf.1
  have vw : v.arb.freshWaits = false := by
    unfold Arbiter.freshWaits
    rw [List.any_eq_false]
    intro e he
    rw [v1, u1] at he
    have := hw e (List.mem_filter.1 he).1
    simp [this]
  have e : feedingCheck v = reportNotFed (compStop v) := by
    unfold feedingCheck
    rw [if_neg (by rw [v1]; simp), if_neg (by simp [vf]), vg]
    simp [vw]
  obtain ⟨k1, k2, k3, k4, k5⟩ := compStop_free vt (by rw [v2, u2]; exact hb)
  obtain ⟨h1, _, _⟩ := compStop_arb v
  have vl : LoadLaw v := by
    have hsu : LoadLaw u := loadLaw_of_arb hl (by rw [u1]) (by rw [u2])
    exact loadLaw_of_arb hsu (by rw [v1]) v2
  have off := compStop_off3 vl vt
  obtain ⟨c1, c2, c3⟩ := reportNotFed_claims (s := compStop v) (by rw [h1, v1]) (by rw [k5, v1]) (by unfold Arbiter.feedsFreeze; rw [k1]; rfl)
    (by rw [k4, v3]; exact u3.1) (by rw [k4, v3]; exact u3.2)
  have hon : (feedingCheck v).defrost.heater = .on := by
    rw [e]
    refine c3 k3 ?_
    have : (compStop v).budget.weighs = 0 := by unfold Budget.weighs; rw [k2, k3]; rfl
    have := off.2.2.units
    omega
  have r : Rises (feedingCheck v) (postDefrost (queueDefrost ((holdRequest u).onDefrost fun d => { d with sampleTimer := none }))) := by
    exact (rises_hold hv).trans fun _ => by rw [(heatEntry_tail _).1]; exact ⟨rfl, Or.inl rfl⟩
  refine ⟨r.on hon, (r.use ⟨by rw [hon]; decide, by rw [e]; exact c2⟩).2, ?_⟩
  have kf : Acts 0 (compStop v) (feedingCheck v) := by rw [e]; exact acts_reportNotFed .refl
  have kh : Acts 0 (compStop v) (holdRequest u) := by
    rcases hv with hv | hv <;> rw [hv]
    · exact kf
    · exact acts_afterGrant kf
  have := (kh.staysDown.1 k1).1
  rw [(heatEntry_tail _).2]; exact this

/-! ### DEFROST withdrawn before the entry to HEAT (R28, R113) -/

/-- The withdrawal of DEFROST from a grant it is no member of: its entry alone goes (R28). -/
theorem defrostWithdraw_apart {s : State} (h : ∀ g ∈ s.arb.grant, g.has .defrost = false) :
    (defrostWithdraw s).budget = s.budget
    ∧ (defrostWithdraw s).arb = { s.arb with list := s.arb.list.filter fun e => e.requester != .defrost } := by
  unfold defrostWithdraw withdraw
  dsimp only
  split
  · rename_i g hg
    rw [if_neg (by simp [h g hg])]
    exact ⟨rfl, rfl⟩
  · exact ⟨rfl, rfl⟩

/-- With the compressor off and locked, the withdrawal of DEFROST leaves the load record (R43, R46). -/
theorem defrostWithdraw_down {s : State} (h : s.arb.comp.state = .offLocked ∨ s.arb.comp.state = .lockout) :
    (defrostWithdraw s).budget = s.budget := by
  have down : ∀ {x : State}, x.arb.comp = s.arb.comp → x.arb.comp.state.running_ = false ∧ x.arb.comp.state ≠ .running
      ∧ x.arb.comp.state ≠ .runout ∧ x.arb.comp.state ≠ .offReady := by
    intro x hx
    rw [hx]
    rcases h with h | h <;> rw [h] <;> decide
  have adv : ∀ {x : State}, x.arb.comp = s.arb.comp → (advance x).budget = x.budget := by
    intro x hx
    unfold advance
    rw [leaveRunout_not (down hx).2.2.1, tryActivate_not (down hx).2.1]
    have hm : (tryMove x).arb.comp = s.arb.comp ∧ (tryMove x).budget = x.budget := by
      unfold tryMove
      (repeat' split) <;> exact ⟨hx, rfl⟩
    generalize tryMove x = y at *
    have hs : tryStart y = y := if_neg fun q => (down hm.1).2.2.2 q.2.1
    rw [hs, evalAim_off (down hm.1).1]
    exact hm.2
  have aft : ∀ {x : State}, x.arb.comp = s.arb.comp → (afterGrant x).budget = x.budget := by
    intro x hx
    unfold afterGrant select
    split
    · rfl
    · split
      · split
        · rename_i e _; exact adv (x := formGrant x e.evap) hx
        · rfl
      · rw [if_neg (by simp [(down hx).1])]
  unfold defrostWithdraw withdraw
  dsimp only
  split
  · split
    · split
      · exact aft rfl
      · rw [evalAim_off]
        · rfl
        · exact (down (x := s) rfl).1
    · rfl
  · rfl

/-- FREEZE stays fed with FRESH neither granted nor asked for, or the compressor has just been stopped. -/
def FedOrStopped (s x : State) : Prop :=
  (x.arb.feedsFreeze = true ∧ (∀ g ∈ x.arb.grant, g.evap ≠ .fresh) ∧ ∀ e ∈ x.arb.list, e.evap ≠ .fresh)
  ∨ ∃ v, x = compStop v ∧ v.budget = s.budget ∧ v.arb.comp.state.turning = true

theorem feedsFreeze_of {a b : Arbiter} (h : a.feedsFreeze = true) (hc : b.comp.state = a.comp.state) (hv : b.valve = a.valve) :
    b.feedsFreeze = true := by
  unfold Arbiter.feedsFreeze at *; rw [hc, hv]; exact h

/-- The withdrawal of DEFROST with FREEZE fed and no one granted or waiting for FRESH (R28, R33, R43, R44). -/
theorem defrostWithdraw_fed {s : State} (hf : s.arb.feedsFreeze = true) (hg : ∀ g ∈ s.arb.grant, g.evap ≠ .fresh)
    (hw : ∀ e ∈ s.arb.list, e.evap ≠ .fresh) : FedOrStopped s (defrostWithdraw s) := by
  have ev : ∀ x : State, (evalAim x).arb.comp.state = x.arb.comp.state ∧ (evalAim x).arb.valve = x.arb.valve := fun x => by
    obtain ⟨y, hy⟩ := evalAim_comp x
    exact ⟨by rw [hy], (still_evalAim x).1.2.1⟩
  have fw : ∀ e ∈ s.arb.list.filter (fun e => e.requester != .defrost), e.evap ≠ .fresh :=
    fun e he => hw e (List.mem_filter.1 he).1
  unfold defrostWithdraw withdraw
  dsimp only
  split
  · rename_i g hs
    split
    · split
      · have key : ∀ x : State, x.budget = s.budget → x.arb.feedsFreeze = true → x.arb.grant = none →
            (∀ e ∈ x.arb.list, e.evap ≠ .fresh) → FedOrStopped s (afterGrant x) := by
          intro x xb xf xg xl
          have ng : ∀ g ∈ x.arb.grant, g.evap ≠ .fresh := by rw [xg]; simp
          unfold afterGrant
          split
          · exact Or.inl ⟨xf, ng, xl⟩
          · rename_i hm
            have xv : x.arb.valve = .resting .freeze := by
              unfold Arbiter.feedsFreeze Valve.toward at xf
              simp only [not_or, Valve.isMoving] at hm
              cases hv : x.arb.valve <;> simp [hv] at xf hm ⊢
              exact xf.2
            have xt : x.arb.comp.state.turning = true := by
              unfold Arbiter.feedsFreeze at xf; simp only [Bool.and_eq_true] at xf; exact xf.1
            split
            · unfold select
              split
              · rename_i e he
                have hev : e.evap = .freeze := by
                  have hm := xl e (selectable_mem he).1
                  cases h : e.evap
                  · exact absurd h hm
                  · rfl
                have hr : (formGrant x e.evap).arb.comp.state ≠ .offReady := by
                  show x.arb.comp.state ≠ .offReady
                  intro q; rw [q] at xt; exact absurd xt (by decide)
                have c := (advance_comp hr).2
                have v := advance_valve (s := formGrant x e.evap) (e := .freeze) rfl hev xv
                obtain ⟨l, _, gr⟩ := advance_grant (formGrant x e.evap)
                refine Or.inl ⟨?_, ?_, ?_⟩
                · unfold Arbiter.feedsFreeze
                  rw [v]
                  have : (advance (formGrant x e.evap)).arb.comp.state.turning = true := by
                    rcases c with c | ⟨_, c⟩
                    · rw [c]; exact xt
                    · rw [c]; rfl
                  rw [this]; rfl
                · rcases gr with gr | ⟨g', g1, _, gr⟩ <;> rw [gr]
                  · rintro _ ⟨⟩; show e.evap ≠ .fresh; simp [hev]
                  · cases g1; rintro _ ⟨⟩; show e.evap ≠ .fresh; simp [hev]
                · rw [l]; exact fun y hy => xl y (List.mem_filter.1 hy).1
              · exact Or.inl ⟨xf, ng, xl⟩
            · split
              · rename_i hrun
                split
                · exact Or.inr ⟨x, rfl, xb, xt⟩
                · generalize hy : (if x.arb.comp.state = .running then setComp x .runout else x) = y
                  have y1 : y.arb.comp.state.turning = true := by rw [← hy]; split; · rfl
                                                                  · exact xt
                  have y2 : y.arb.valve = x.arb.valve ∧ y.arb.grant = x.arb.grant ∧ y.arb.list = x.arb.list := by
                    rw [← hy]; split <;> exact ⟨rfl, rfl, rfl⟩
                  refine Or.inl ⟨?_, ?_, ?_⟩
                  · unfold Arbiter.feedsFreeze; rw [(ev y).1, (ev y).2, y1, y2.1, xv]; rfl
                  · rw [(evalAim_rolls y).2, y2.2.1]; exact ng
                  · rw [(evalAim_rolls y).1, y2.2.2]; exact xl
              · exact Or.inl ⟨xf, ng, xl⟩
        exact key _ rfl hf rfl fw
      · refine Or.inl ⟨feedsFreeze_of hf (ev _).1 (ev _).2, ?_, ?_⟩
        · rw [(evalAim_rolls _).2]; rintro _ ⟨⟩; exact hg g hs
        · rw [(evalAim_rolls _).1]; exact fw
    · exact Or.inl ⟨hf, by simpa [State.onArb] using hg, fw⟩
  · exact Or.inl ⟨hf, by simpa [State.onArb] using hg, fw⟩

/-- Before HEAT the defrost holds nothing (R54, R116). -/
theorem HeaterLaw.before {s : State} (h : HeaterLaw s)
    (hp : (s.defrost.phase = .due ∧ s.defrost.mode = .run) ∨ s.defrost.phase = .prechill) :
    s.arb.hold = false ∧ s.defrost.heater = .off ∧ s.budget.heater = .none_ := by
  obtain ⟨h1, h2, h3, h4, h5⟩ := h
  have hn : s.defrost.phase ≠ .heat ∧ s.defrost.phase ≠ .drip := by
    rcases hp with p | p
    · rw [p.1]; decide
    · rw [p]; decide
  have ho : s.defrost.heater = .off := by
    by_contra q
    rcases (h1 q).2 with r | r
    · exact hn.1 r.2.1
    · rcases hp with p | p
      · rw [← h4, p.2] at r; cases r.2
      · have := (h3 (by rw [r.2]; decide)).1
        rw [p] at this; exact absurd this (by decide)
  refine ⟨?_, ho, by rw [h5, ho]; rfl⟩
  by_contra q
  exact (h2 (by simpa using q)).2.1.elim hn.1 hn.2

end Sys2Proof.Machine
end

