-- ==== Sys2Proof/Laws/Stuck.lean ====
section
/-! SUPPORT. A STUCK valve stays as it is whatever the arbiter does but its own recovery attempt (R52, R53). -/

namespace Sys2Proof.Machine

variable {s : State}

/-- Nothing that has become possible for a grant moves a STUCK valve. -/
theorem advance_stuck (h : s.arb.valve.isStuck = true) : (advance s).arb.valve = s.arb.valve := by
  have h1 : (leaveRunout s).arb.valve = s.arb.valve := by rw [leaveRunout_arb]; split <;> rfl
  have h2 : (tryActivate (leaveRunout s)).arb.valve = s.arb.valve := by
    rcases tryActivate_arb (leaveRunout s) with e | ⟨_, _, _, _, _, e⟩ <;> rw [e] <;> exact h1
  have h3 : (tryMove (tryActivate (leaveRunout s))).arb.valve = s.arb.valve := by
    rcases tryMove_arb (tryActivate (leaveRunout s)) with e | ⟨_, _, _, e, _⟩
    · rw [e]; exact h2
    · rw [h2] at e; cases hv : s.arb.valve <;> rw [hv] at h e <;> simp [Valve.isStuck, Valve.at] at h e
  have h4 : (tryStart (tryMove (tryActivate (leaveRunout s)))).arb.valve = s.arb.valve := by
    rcases tryStart_arb (tryMove (tryActivate (leaveRunout s))) with ⟨e, _⟩ | ⟨_, e⟩ <;> rw [e]
    · exact h3
    · rw [compStart_arb]; exact h3
  exact (still_evalAim _).1.2.1.trans h4

theorem select_stuck (h : s.arb.valve.isStuck = true) : select s = s := by
  unfold select selectable
  rw [if_neg (by simp [h])]

theorem switchCheck_stuck (h : s.arb.valve.isStuck = true) : (switchCheck s).arb.valve = s.arb.valve := by
  unfold switchCheck
  split
  · split
    · unfold doSwitch
      dsimp only
      refine (advance_stuck ?_).trans ?_ <;> simp only [formGrant, State.onArb, returns_arb, relist]
      exact h
    · rfl
  · rfl

theorem afterEntry_stuck (r : Requester) (c : Cls) (h : s.arb.valve.isStuck = true) :
    (afterEntry s r c).arb.valve = s.arb.valve := by
  unfold afterEntry
  split
  · split
    · exact switchCheck_stuck h
    · rfl
  · rw [select_stuck h]

/-- A post leaves a STUCK valve as it is. -/
theorem post_stuck (r : Requester) (c : Cls) (n : Nat) (h : s.arb.valve.isStuck = true) :
    (post s r c n).arb.valve = s.arb.valve := by
  have hn : (postNew s r c n).arb.valve = s.arb.valve := by
    unfold postNew
    dsimp only
    split
    · split
      · refine (still_evalAim _).1.2.1.trans ?_
        split
        · rw [handGrant_arb]; rfl
        · rfl
      · exact afterEntry_stuck (s := s.onArb _) r c h
    · exact afterEntry_stuck (s := s.onArb _) r c h
  unfold post postListed
  dsimp only
  split
  · rfl
  · split
    · split
      · exact afterEntry_stuck (s := s.onArb _) _ c h
      · rfl
    · split
      · split
        · exact (still_evalAim _).1.2.1
        · exact hn
      · exact hn

theorem evaluate_stuck (h : s.arb.valve.isStuck = true) : (evaluate s).arb.valve = s.arb.valve := by
  unfold evaluate enterPrechill
  split
  · simp only [postDefrost, postNotice_arb]
    exact post_stuck (s := s.onDefrost _) _ _ _ h
  · rfl

/-- The end of a LOCKOUT leaves a STUCK valve as it is. -/
theorem lockoutEnd_stuck (h : s.arb.valve.isStuck = true) : (lockoutEnd s).arb.valve = s.arb.valve := by
  have h1 : (leaveLockout s).arb.valve = s.arb.valve := by
    unfold leaveLockout setComp airComp airInput; simp
  have h2 : (defrostUnlocked (leaveLockout s)).arb.valve = s.arb.valve := (evaluate_stuck (by simpa [h1] using h)).trans h1
  unfold lockoutEnd
  rw [select_stuck (by rw [h2]; exact h)]
  exact h2

/-- With the compressor off, the feeding check leaves a valve as it is, and a damper that travels. -/
theorem recheck_off (a : State) (h : s.arb.comp.state.turning = false) :
    (recheck a s).arb.valve = s.arb.valve
    ∧ ∀ e t n, s.air.damper = .travelling e t n → (recheck a s).air.damper = .travelling e t n := by
  have hf : s.arb.feedsFreeze = false := by unfold Arbiter.feedsFreeze; rw [h]; rfl
  unfold recheck feedingCheck
  split
  · split
    · exact ⟨rfl, fun _ _ _ => id⟩
    · rw [if_pos (by simp [hf])]
      unfold reportNotFed defrostNotFed
      split
      · split
        · exact ⟨(still_claimFor _ _).2.1, fun e t n q =>
            claimFor_air (P := fun a => a.damper = .travelling e t n) (fun a ha => settle_travelling ha) _ _ q⟩
        · exact ⟨rfl, fun _ _ _ => id⟩
      · exact ⟨rfl, fun _ _ _ => id⟩
  · exact ⟨rfl, fun _ _ _ => id⟩

end Sys2Proof.Machine
end

