-- ==== Sys2Proof/Tests/Slice0.lean ====
section
/-! SUPPORT. Tests: ill-formed commands that the check refuses, small runs of one step, and for every statement with
hypotheses states and operands that meet them, clause by clause. -/

open Sys2Proof Sys2Proof.Machine

namespace Sys2Proof.Tests

/-! ### Well-formedness -/

theorem test_bad_kind_of_a_known_kind_is_ill_formed : WellFormed (.badKind 0 0x01 []) = false := by decide
theorem test_bad_length_of_an_unknown_kind_is_ill_formed : WellFormed (.badLength 0 0x00 [1]) = false := by decide
theorem test_bad_length_with_a_taken_length_is_ill_formed : WellFormed (.badLength 0 0x20 [0]) = false := by decide
theorem test_a_payload_of_57_bytes_is_ill_formed :
    WellFormed (.badKind 0 0x00 (List.replicate 57 0)) = false ∧ WellFormed (.badLength 0 0x01 (List.replicate 57 0)) = false := by
  decide
theorem test_well_formed_frames_at_their_bounds :
    WellFormed (.badKind 0 0x00 (List.replicate 56 0)) = true ∧ WellFormed (.badKind 0 0xFF []) = true
    ∧ WellFormed (.badLength 0 0x01 (List.replicate 56 0)) = true ∧ WellFormed (.badLength 0 0x24 []) = true
    ∧ WellFormed (.getState 0) = true := by
  decide
theorem test_no_word_spells_a_command : decodeTableWord 8 1 = none ∧ State.reset.withFetchWord 8 1 = State.reset := by decide

/-! ### The states of the tests -/

def inMode (m : Mode) : State := State.reset.onCtl fun c => { c with mode := m }
def comp (c : CompState) (level : Nat) : State :=
  (State.reset.onComp fun k => { k with state := c, level := level }).onBudget fun b => { b with level := level }
def phase (p : Phase) : State := State.reset.onDefrost fun d => { d with phase := p }
def door (d : DoorId) (r : Door → Door) : State := State.reset.onDoor d r
def valve (v : Valve) : State := State.reset.onArb fun a => { a with valve := v }
def damper (d : Damper) : State := State.reset.onAir fun a => { a with damper := d }
def link (f : Link → Link) : State := State.reset.onLink f
def sending (w : Sent) : Sending := { frame := { kind := 0x81, tag := 7, payload := [0] }, what := w, left := 0 }
def ask : Frame := { kind := 0x01, tag := 9, payload := [] }
def receiving (p : RxPhase) (bs : List Byte) (n : Nat) : State :=
  link fun l => { l with rx := { phase := p, bytes := bs, toCome := n, gap := 0 } }

theorem test_ready : Ready State.reset := by unfold Ready; decide
theorem test_link_law : LinkLaw State.reset := by unfold LinkLaw noticeKeys; decide
theorem test_load_law : LoadLaw State.reset := by unfold LoadLaw Budget.Sound Compressor.Sound; decide
theorem test_load_law_running : LoadLaw (comp .running 1) := by unfold LoadLaw Budget.Sound Compressor.Sound; decide
theorem test_load_law_runout : LoadLaw (comp .runout 1) := by unfold LoadLaw Budget.Sound Compressor.Sound; decide
theorem test_load_law_lockout : LoadLaw (comp .lockout 0) := by unfold LoadLaw Budget.Sound Compressor.Sound; decide
theorem test_load_law_starting : LoadLaw (comp .starting 1) := by unfold LoadLaw Budget.Sound Compressor.Sound; decide
theorem test_air_law : AirLaw State.reset := by
  unfold AirLaw FansFollow DoorsKnown AirPath.Follows; decide

theorem test_arb_law (s : State) (h : s.arb = State.reset.arb) : ArbLaw s.arb := by
  rw [h]; exact ⟨by decide, by decide, by decide, fun _ _ _ q => Valve.noConfusion q, fun _ q => Valve.noConfusion q⟩
theorem test_heater_law : HeaterLaw State.reset := by unfold HeaterLaw; decide
theorem test_queue_law : QueueLaw State.reset := by unfold QueueLaw Scheduler.Serves noticeTags; decide

/-! ### Steps -/

theorem test_a_step_takes_the_front_command :
    step { State.reset with pending := [.minOffExpiry, .trip] } = exec .minOffExpiry { State.reset with pending := [.trip] } := by
  rfl

theorem hypotheses_of_EmptyQueuePassesAMillisecond :
    State.reset.pending = [] ∧ ({ State.reset with ms := 999 } : State).pending = [] ∧ (999 + 1 = 1000) := by decide

theorem hypotheses_of_EveryStepKeepsTheLaws :
    (∃ t, step State.reset = .next t) ∧ AirLaw State.reset ∧ LoadLaw State.reset ∧ LinkLaw State.reset ∧ ArbLaw State.reset.arb
      ∧ HeaterLaw State.reset ∧ QueueLaw State.reset :=
  ⟨⟨_, rfl⟩, test_air_law, test_load_law, test_link_law, test_arb_law _ rfl, test_heater_law, test_queue_law⟩

theorem hypotheses_of_MinimumOffTimeHolds : ∃ s : State, s.arb.comp.state = .offLocked ∧ s.arb.comp.minOffLeft = 1
    ∧ (∀ x ∈ s.link.tx, x.what ≠ .reply .reset) ∧ ∃ t, exec .runSecond s = .next t :=
  ⟨State.reset.onComp fun c => { c with minOffLeft := 1 }, by decide, by decide, by decide, ⟨_, rfl⟩⟩

/-- Fans that run and a damper whose target is OPEN. -/
def blowing : State := (State.reset.onCtl fun c => { c with mode := .run }).onAir fun a =>
  ({ a with mode := .run, freshZone := .cooling, drawerZone := .cooling, freezerZone := .cooling, comp := .running } : AirPath).settle

theorem hypotheses_of_EveryStepKeepsTheAirLaw_at_the_outputs :
    AirLaw blowing ∧ blowing.air.freshFan = true ∧ blowing.air.freezerFan = true ∧ blowing.air.target = .opened := by
  unfold AirLaw FansFollow DoorsKnown AirPath.Follows; decide

/-- SERVICE with the compressor OFF_READY, and the coil's last value +19.9. -/
def serviced : State :=
  ((((inMode .service).onComp fun c => { c with state := .offReady }).onBudget fun b => { b with mode := .service }).onDefrost
    fun d => { d with mode := .service }).onChannel .freezerEvap fun r => { r with lastValue := some 199 }

/-- SERVICE with the defrost heater forced ON. -/
def heated : State :=
  { serviced with
    defrost := { serviced.defrost with heater := .on, use := some .service }, budget := { serviced.budget with heater := .granted }
    air := { serviced.air with mode := .service, heaterOn := true } }

/-- RUN, as every unit has been told it. -/
def running : State := (inMode .run).onDefrost fun d => { d with mode := .run }

theorem hypotheses_of_EveryStepKeepsTheHeaterLaw_at_the_outputs :
    HeaterLaw heated ∧ heated.heaterOutput = true ∧ AirLaw heated := by
  unfold HeaterLaw AirLaw FansFollow DoorsKnown AirPath.Follows; decide

/-! ### Requests: reading and refusals -/

theorem hypotheses_of_ReadingRequestsAreAnswered :
    Ready State.reset ∧ zoneOf 0 = some .fresh ∧ zoneOf 2 = some .freezer ∧ chanOf 0 = some .freshAir ∧ chanOf 7 = some .aux :=
  ⟨test_ready, by decide, by decide, by decide, by decide⟩

theorem hypotheses_of_GetBudgetReply : Ready State.reset := test_ready

theorem hypotheses_of_GetFaultReadsAPage :
    Ready State.reset ∧ (∀ n ∈ (none : Option Byte), n.toNat ≤ 15) ∧ (∀ n ∈ some (15 : Byte), n.toNat ≤ 15)
    ∧ State.reset.fault.capture.isNone :=
  ⟨test_ready, by decide, by decide, by decide⟩

theorem hypotheses_of_ValuesOutOfRangeAreRefused :
    Ready State.reset ∧ zoneOf 3 = none ∧ 2 < (3 : Byte).toNat ∧ chanOf 8 = none ∧ 15 < (16 : Byte).toNat
    ∧ (7 < (8 : Byte).toNat ∧ (8 : Byte).toNat < 0x10) ∧ 0x13 < (0x14 : Byte).toNat ∧ 1 < (2 : Byte).toNat ∧ 5 < (6 : Byte).toNat :=
  ⟨test_ready, by decide⟩

theorem hypotheses_of_RequestsOutOfPlaceAreRefused :
    (Ready (inMode .run) ∧ (inMode .run).ctl.mode ≠ .hold ∧ (inMode .run).ctl.mode ≠ .service ∧ (1 : Byte).toNat ≤ 1
      ∧ (5 : Byte).toNat ≤ 5)
    ∧ (Ready (inMode .service) ∧ (inMode .service).ctl.mode = .service ∧ (inMode .service).ctl.mode ≠ .hold)
    ∧ (Ready (phase .due) ∧ (phase .due).defrost.phase ≠ .idle) ∧ (Ready (phase .idle) ∧ (phase .idle).defrost.phase = .idle)
    ∧ (Ready (phase .drip) ∧ (phase .drip).defrost.phase = .drip)
    ∧ (Ready (phase .recover) ∧ (phase .recover).defrost.phase = .recover) :=
  ⟨⟨test_ready, by decide⟩, ⟨test_ready, by decide⟩, ⟨test_ready, by decide⟩, ⟨test_ready, by decide⟩, ⟨test_ready, by decide⟩,
    test_ready, by decide⟩

theorem hypotheses_of_UnknownFramesAreAnswered : Ready State.reset ∧ WellFormed (.badKind 7 0x81 []) = true
    ∧ WellFormed (.badKind 7 0x00 []) = true ∧ WellFormed (.badLength 7 0x01 [0]) = true :=
  ⟨test_ready, by decide, by decide, by decide⟩

/-- A request in the execution place, `n` waiting and `m` replies. -/
def full (n m : Nat) : State := link fun l =>
  { l with place := some { frame := ask, answered := true }, waiting := List.replicate n ask
           replies := List.replicate m { frame := ask, kind := .busy } }

theorem hypotheses_of_FullListsTurnRequestsAway :
    ((LinkLaw (full 1 0) ∧ (full 1 0).link.waiting.length < 2)
      ∧ (LinkLaw (full 2 3) ∧ (full 2 3).link.waiting.length = 2 ∧ (full 2 3).link.replies.length < 4)
      ∧ (LinkLaw (full 2 4) ∧ (full 2 4).link.waiting.length = 2 ∧ (full 2 4).link.replies.length = 4))
    ∧ (full 1 0).link.place ≠ none ∧ (full 2 3).link.place ≠ none ∧ (full 2 4).link.place ≠ none
    ∧ (full 1 0).link.resetTaken = false ∧ (full 2 4).link.resetTaken = false
    ∧ frameOf (.measure 3 7) = some { kind := 0x12, tag := 3, payload := [7] } := by
  unfold LinkLaw noticeKeys; decide

/-! ### Requests: modes and settings -/

/-- A frame of the given sort has just been sent, with the given requests waiting and replies beside it. -/
def sent (w : Sent) (waiting : List Frame) (replies : List Reply) : State := link fun l =>
  { l with tx := some (sending w), place := some { frame := ask, answered := true }, waiting := waiting, replies := replies }

theorem hypotheses_of_ResetRequestIsTaken :
    let r : Frame := { kind := 0x04, tag := 5, payload := [] }
    Ready State.reset
    ∧ (LinkLaw (sent (.reply .answer) [r, ask] []) ∧ (sent (.reply .answer) [r, ask] []).link.waiting = r :: [ask]
      ∧ (sent (.reply .answer) [r, ask] []).link.resetTaken = false)
    ∧ (let s := (sent (.reply .reset) [] []).onLink fun l => { l with resetTaken := true }
       LinkLaw s ∧ s.link.resetTaken = true) ∧ frameOf (.getState 9) = some ask := by
  unfold Ready LinkLaw noticeKeys; decide

theorem hypotheses_of_ModeRequestsMakeTheirMode :
    (∀ m, Ready (inMode m) ∧ (inMode m).ctl.mode = m)
    ∧ (Ready running ∧ running.ctl.mode = .run ∧ ArbLaw running.arb ∧ HeaterLaw running)
    ∧ (Ready (comp .running 1) ∧ LoadLaw (comp .running 1) ∧ (comp .running 1).arb.comp.state.turning = true) :=
  ⟨fun _ => ⟨test_ready, rfl⟩, ⟨test_ready, rfl, test_arb_law _ rfl, by unfold HeaterLaw; decide⟩, test_ready,
    test_load_law_running, by decide⟩

def zoneFields (carried : Byte) (setpoint : Half) : ZoneFields :=
  { carried := carried, enabled := 1, setpoint := setpoint, halfBand := 10, normalLevel := 5, recoveryLevel := 1, onTime := 60
    offTime := 7200, profile := 0 }

theorem hypotheses_of_SetZoneTakesItsSettings :
    Ready State.reset ∧ zoneOf 0 = some .fresh ∧ (zoneFields 0x02 9).ok .fresh (State.reset.zones.get .fresh) = false
    ∧ (zoneFields 0x02 10).ok .fresh (State.reset.zones.get .fresh) = true ∧ carries 0x02 0 = false ∧ carries 0x02 3 = false
    ∧ carries 0x02 4 = false ∧ (zoneFields 0x7F 70).ok .fresh (Zone.reset .fresh) = true
    ∧ (zoneFields 0x01 0).ok .fresh (Zone.reset .fresh) = true
    ∧ ({ zoneFields 0x01 0 with enabled := 0 } : ZoneFields).ok .fresh (Zone.reset .fresh) = true
    ∧ (State.reset.zones.get .fresh).state ≠ .disabled
    ∧ (Ready (running.onZone .fresh fun r => { r with state := .disabled })
      ∧ ((running.onZone .fresh fun r => { r with state := .disabled }).zones.get .fresh).state = .disabled) :=
  ⟨test_ready, by decide, by decide, by decide, by decide, by decide, by decide, by decide, by decide, by decide, by decide,
    test_ready, by decide⟩

def timingFields (carried : Byte) (minOff : Half) : TimingFields :=
  { carried := carried, minOff := minOff, minOn := 120, minDwell := 300, maxWait := 1200, maxRun := 3600 }

theorem hypotheses_of_SetTimingTakesItsSettings :
    Ready State.reset ∧ (timingFields 1 0).ok = false ∧ (timingFields 1 360).ok = true
    ∧ expiryPast { State.reset.arb with timing := (timingFields 1 360).apply State.reset.arb.timing } 0 1 = false :=
  ⟨test_ready, by decide⟩

def budgetFields (carried n : Byte) : BudgetFields := { carried := carried, budget := n, mode := 0 }

theorem hypotheses_of_SetBudgetTakesItsSettings :
    Ready State.reset ∧ LoadLaw State.reset ∧ (budgetFields 1 19).ok = false ∧ (budgetFields 1 20).ok = true
    ∧ (budgetFields 1 40).ok = true ∧ carries 1 0 = true ∧ (41 : Byte).toNat > 40 :=
  ⟨test_ready, test_load_law, by decide⟩

theorem hypotheses_of_SetBudgetTakesItsSettings_in_force_and_pending :
    let s := (comp .running 1).onBudget fun b => { b with heater := .granted, level := 1 }
    (Ready s ∧ LoadLaw s ∧ s.budget.weighs = 14) ∧ ((budgetFields 1 20).ok = true ∧ 14 ≤ (20 : Byte).toNat - 5)
    ∧ (let u := (comp .running 5).onBudget fun b => { b with heater := .granted }
       Ready u ∧ LoadLaw u ∧ (20 : Byte).toNat - 5 < u.budget.weighs) := by
  exact ⟨⟨test_ready, by unfold LoadLaw Budget.Sound Compressor.Sound; decide, by decide⟩, by decide, test_ready,
    by unfold LoadLaw Budget.Sound Compressor.Sound; decide, by decide⟩

theorem hypotheses_of_SetChannelTakesItsSettings :
    Ready State.reset ∧ chanOf 7 = some .aux
    ∧ ({ carried := 4, period := 0, policy := 0, offset := 51 } : ChannelFields).ok = false
    ∧ ({ carried := 4, period := 0, policy := 0, offset := 50 } : ChannelFields).ok = true :=
  ⟨test_ready, by decide⟩

theorem hypotheses_of_SetDefrostTakesItsSettings :
    Ready (phase .heat) ∧ (phase .heat).defrost.phase = .heat ∧ carries 2 1 = true
    ∧ ({ carried := 1, interval := 97, terminate := 0 } : DefrostFields).ok = false
    ∧ ({ carried := 1, interval := 96, terminate := 0 } : DefrostFields).ok = true :=
  ⟨test_ready, by decide⟩

def noticeFields (carried : Byte) (ajar : Half) : NoticeFields :=
  { carried := carried, mapStatus := 0, mapZone := 0, mapDoor := 0, mapDefrost := 0, mapMeasure := 0, mapBudget := 0, quiet := 0
    urgentWeight := 1, routineWeight := 1, spacing := 0, period := 0, ajar := ajar }

theorem hypotheses_of_SetNoticeTakesItsSettings :
    Ready State.reset ∧ (noticeFields 0x40 29).ok = false ∧ (noticeFields 0x40 30).ok = true ∧ carries 0x40 6 = true
    ∧ (noticeFields 0x3F 29).ok = true ∧ carries 0x3F 6 = false :=
  ⟨test_ready, by decide⟩

/-! ### Requests: measurement, defrost, faults -/

def idleConverter : State := State.reset.onSched fun q => { q with conv := none }
def tagged (n : Nat) : State := State.reset.onSched fun q => { q with tags := (List.range n).map fun i => BitVec.ofNat 8 i }

theorem hypotheses_of_QueueRequestsAct :
    chanOf 0 = some .freshAir ∧ (Ready (tagged 1) ∧ 0 ∈ (tagged 1).sched.tags)
    ∧ (Ready (tagged 7) ∧ 7 ∉ (tagged 7).sched.tags ∧ 7 ≤ (tagged 7).sched.tags.length)
    ∧ (Ready (tagged 6) ∧ 7 ∉ (tagged 6).sched.tags ∧ (tagged 6).sched.tags.length < 7 ∧ (tagged 6).sched.conv ≠ none)
    ∧ (Ready idleConverter ∧ idleConverter.sched.conv = none ∧ idleConverter.sched.queue = []
      ∧ ∀ k, (idleConverter.sched.ch.get k).injectFlag = false)
    ∧ (Ready State.reset ∧ ∃ v, State.reset.sched.conv = some v ∧ v.source ≠ .link) :=
  ⟨by decide, ⟨test_ready, by decide⟩, ⟨test_ready, by decide⟩, ⟨test_ready, by decide⟩,
    ⟨test_ready, by decide, by decide, fun k => by cases k <;> rfl⟩, test_ready, _, rfl, by decide⟩

theorem hypotheses_of_SubstituteIsTaken :
    Ready State.reset ∧ chanOf 8 = none ∧ ((0xFE0B : Half) ≠ 0x8000 ∧ (0xFE0B : Half).toInt < -500)
    ∧ (-500 ≤ (0xFE0C : Half).toInt ∧ (1500 : Half).toInt ≤ 1500) ∧ 1500 < (1501 : Half).toInt
    ∧ chanOf 4 = some .freezerEvap ∧ chanOf 6 = some .discharge ∧ chanOf 7 = some .aux :=
  ⟨test_ready, by decide⟩

theorem hypotheses_of_DefrostRequestsAct :
    (∀ p, Ready (phase p) ∧ 1 ≤ (phase p).defrost.current ∧ (phase p).defrost.phase = p)
    ∧ (let s := running.onDefrost fun d => { d with phase := .prechill }
       Ready s ∧ 1 ≤ s.defrost.current ∧ s.defrost.phase = .prechill ∧ HeaterLaw s) :=
  ⟨fun _ => ⟨test_ready, by show 1 ≤ 8; decide, rfl⟩, test_ready, by decide, rfl, by unfold HeaterLaw; decide⟩

theorem hypotheses_of_ClearFaultClearsTheRecord :
    clearObject 0xFF = some none ∧ clearObject 0x10 = some (some .compressor)
    ∧ (Ready State.reset ∧ State.reset.arb.comp.state ≠ .lockout ∧ State.reset.arb.hold = false ∧ ArbLaw State.reset.arb)
    ∧ (Ready (comp .lockout 0) ∧ (comp .lockout 0).arb.comp.state = .lockout ∧ LoadLaw (comp .lockout 0))
    ∧ (let s := ((comp .lockout 0).onArb fun a => { a with valve := .stuck 1 }).onAir fun a => { a with damper := .failed }
       Ready s ∧ s.arb.comp.state = .lockout ∧ LoadLaw s ∧ s.arb.valve.isStuck = true ∧ s.air.damper = .failed) :=
  ⟨by decide, by decide, ⟨test_ready, by decide, by decide, test_arb_law _ rfl⟩,
    ⟨test_ready, by decide, test_load_law_lockout⟩, test_ready, by decide, test_load_law_lockout, by decide, by decide⟩

/-! ### Requests: forces -/

theorem hypotheses_of_FanAndDamperForcesAreTaken :
    Ready (inMode .service) ∧ (inMode .service).ctl.mode = .service ∧ (1 : Byte).toNat ≤ 1
    ∧ (∀ d, ((inMode .service).doors.get d).state = .closed) ∧ (inMode .service).defrost.heater = .off :=
  ⟨test_ready, rfl, by decide, fun d => by cases d <;> rfl, rfl⟩

theorem hypotheses_of_ValveAndLevelForcesAreTaken :
    (Ready serviced ∧ serviced.ctl.mode = .service ∧ evapOf 1 = some .freeze ∧ lockValve serviced .freeze = none)
    ∧ ((5 : Byte).toNat ≤ 5 ∧ lockLevel serviced 5 = none ∧ HeaterLaw serviced ∧ serviced.arb.comp.state = .offReady
      ∧ serviced.arb.dischargePos ≠ some .above ∧ ∀ e ∈ serviced.arb.forcedValve, serviced.arb.valve = .resting e)
    ∧ (let s := (comp .running 1).onCtl fun c => { c with mode := .service }
       Ready s ∧ s.ctl.mode = .service ∧ lockLevel s (0 : Byte).toNat = none ∧ LoadLaw s ∧ s.arb.comp.state.turning = true) :=
  ⟨⟨test_ready, by decide⟩, by unfold HeaterLaw; decide, test_ready, by decide, by decide, test_load_law_running, by decide⟩

theorem hypotheses_of_HeaterForcesAreTaken :
    (Ready serviced ∧ serviced.ctl.mode = .service ∧ lockHeater serviced true = none ∧ serviced.defrost.heater = .off
      ∧ serviced.defrost.use ≠ some .service)
    ∧ (Ready heated ∧ heated.ctl.mode = .service ∧ heated.defrost.use = some .service ∧ lockHeater heated true = none
      ∧ heated.defrost.heater ≠ .off ∧ heated.arb.hold = false)
    ∧ (∀ on, lockMullion serviced on = none) ∧ LoadLaw serviced ∧ HeaterLaw serviced ∧ serviced.budget.mode = .service
    ∧ serviced.budget.settle = serviced.budget ∧ serviced.budget.heater ≠ .waiting
    ∧ serviced.arb.comp.state.running_ = false := by
  unfold Ready LoadLaw Budget.Sound Compressor.Sound HeaterLaw
  refine ⟨?_, ?_, ?_, ?_, ?_, ?_⟩ <;> decide

theorem hypotheses_of_InterlocksDenyForces :
    Ready serviced ∧ serviced.ctl.mode = .service
    ∧ (∀ d, ((serviced.onDoor d fun r => { r with state := .ajar }).doors.get d).state ≠ .closed)
    ∧ (let s := serviced.onDefrost fun d => { d with heater := .claimed }
       s.doors.freezer.state = .closed ∧ s.defrost.heater ≠ .off ∧ evapOf 1 = some .freeze ∧ lockValve s .freeze = some .heatComp)
    ∧ (let s := serviced.onComp fun c => { c with state := .lockout }
       s.arb.comp.state = .lockout ∧ lockLevel s 5 = some .lockout ∧ 1 ≤ (1 : Byte).toNat ∧ (5 : Byte).toNat ≤ 5)
    ∧ (let s := serviced.onComp fun c => { c with state := .offLocked }
       s.arb.comp.state = .offLocked ∧ s.arb.valve.isStuck = false)
    ∧ lockHeater (serviced.onChannel .freezerEvap fun r => { r with lastValue := some 200 }) true = some .heatTemp
    ∧ lockMullion (serviced.onBudget fun b => { b with level := 5, heater := .granted }) true ≠ none :=
  ⟨test_ready, by decide, fun d => by cases d <;> decide, by decide, by decide, by decide, by decide, by decide⟩

/-! ### The line -/

theorem hypotheses_of_LineEventsResetTheReceiver :
    LinkLaw State.reset ∧ State.reset.link.rx.phase = .hunt
    ∧ (let s := link fun l => { l with rx := { l.rx with phase := .check, gap := 10 } }
       LinkLaw s ∧ s.link.rx.phase ≠ .hunt ∧ 10 ≤ s.link.rx.gap)
    ∧ (let s := link fun l => { l with rx := { l.rx with phase := .header, gap := 9 } }
       LinkLaw s ∧ s.link.rx.phase ≠ .hunt ∧ s.link.rx.gap < 10) :=
  ⟨test_link_law, rfl, ⟨test_link_law, by decide⟩, test_link_law, by decide⟩

set_option maxRecDepth 8000 in
theorem hypotheses_of_ReceiverTakesCharacters :
    (∀ p bs n, LinkLaw (receiving p bs n) ∧ (receiving p bs n).link.rx = { phase := p, bytes := bs, toCome := n, gap := 0 })
    ∧ 56 < (57 : Byte).toNat ∧ (56 : Byte).toNat ≤ 56
    ∧ judgeFrame [0, 0x01, 7, 0, 0] = none
    ∧ (∃ a b, judgeFrame [0, 0x01, 7, a, b] = some { kind := 0x01, tag := 7, payload := [] })
    ∧ (∃ a b, judgeFrame [0, 0x00, 7, a, b] = some { kind := 0x00, tag := 7, payload := [] })
    ∧ WellFormed (.badKind 7 0x00 []) = true :=
  ⟨fun _ _ _ => ⟨test_link_law, rfl⟩, by decide, by decide, by decide,
    ⟨(crc [0, 1, 7] >>> 8).setWidth 8, (crc [0, 1, 7]).setWidth 8, by decide⟩,
    ⟨(crc [0, 0, 7] >>> 8).setWidth 8, (crc [0, 0, 7]).setWidth 8, by decide⟩, by decide⟩

theorem hypotheses_of_FrameCheck_and_ReceiverReadsBackEveryFrame :
    ∃ f : Frame, f.payload.length = 56 := ⟨{ kind := 0x24, tag := 255, payload := List.replicate 56 0xFF }, by decide⟩

theorem hypotheses_of_SentFrameIsFollowed :
    (LinkLaw (sent (.reply .answer) [] []) ∧ (sent (.reply .answer) [] []).link.waiting = [])
    ∧ (LinkLaw (sent (.reply .answer) [ask, ask] []) ∧ (sent (.reply .answer) [ask, ask] []).link.waiting = [ask, ask])
    ∧ (∀ w ∈ [[], [ask]], ∀ n ∈ [1, 3, 4],
        LinkLaw (sent (.reply .answer) w (List.replicate n { frame := ask, kind := .busy })))
    ∧ (let s := sent (.notice (.measure 3) .routine) [] [{ frame := ask, kind := .busy }]
       LinkLaw s ∧ (∀ p ∈ s.link.place, p.answered = true) ∧ s.notice.spacing ≠ 0)
    ∧ (LinkLaw (sent (.reply .busy) [] [{ frame := ask, kind := .answer }])
      ∧ ∀ p ∈ (sent (.reply .busy) [] []).link.place, p.answered = true)
    ∧ LinkLaw (sent (.reply .reset) [] []) := by
  unfold LinkLaw noticeKeys
  refine ⟨?_, ?_, ?_, ?_, ?_, ?_⟩ <;> decide

theorem hypotheses_of_SentFrameIsFollowed_at_a_request : Ready State.reset ∧ frameOf (.getState 9) = some ask :=
  ⟨test_ready, by decide⟩

def spaced (tx : Option Sending) (turn : Queue) (n : Nat) (urgent routine : List Notice) : State :=
  (link fun l => { l with tx := tx, turn := turn, turnLeft := n, spacing := some 100 }).onNotice fun k =>
    { k with urgent := urgent, routine := routine }

theorem hypotheses_of_NoticesLeaveByRotation :
    let n : Notice := { key := .fault, payload := [] }
    (LinkLaw (spaced (some (sending (.reply .busy))) .urgent 1 [] []) ∧ spacingOver (spaced none .urgent 1 [n] []) = true)
    ∧ (LinkLaw (spaced none .urgent 1 [n] []) ∧ LinkLaw (spaced none .urgent 0 [n] [{ key := .status, payload := [] }])
      ∧ LinkLaw (spaced none .urgent 0 [n] []) ∧ LinkLaw (spaced none .routine 1 [n] []) ∧ LinkLaw (spaced none .urgent 1 [] []))
    := by
  unfold LinkLaw noticeKeys
  refine ⟨⟨?_, ?_⟩, ?_, ?_, ?_, ?_, ?_⟩ <;> decide

/-! ### Resets and timers -/

theorem hypotheses_of_CommandedResetKeepsHistory :
    (∃ x, (sent (.reply .reset) [] []).link.tx = some x ∧ x.what = .reply .reset)
    ∧ ∃ e : FaultEntry, e.code = .compLockout ∧ e.object = .compressor ∧ e.active = true :=
  ⟨⟨_, rfl, rfl⟩, ⟨.compLockout, .compressor, none, ⟨0, 0⟩, ⟨0, 0⟩, 1, true⟩, rfl, rfl, rfl⟩

theorem hypotheses_of_TimersOfThePartExpire :
    (let s := State.reset.onCtl fun c => { c with selfStart := some 0 }
     LinkLaw s ∧ s.ctl.mode = .hold ∧ s.ctl.selfStart = some 0)
    ∧ (let s := (comp .running 1).onCtl fun c => { c with mode := .service, serviceIdle := some 0 }
       LinkLaw s ∧ s.ctl.mode = .service ∧ s.ctl.serviceIdle = some 0 ∧ LoadLaw s ∧ s.arb.comp.state.turning = true)
    ∧ (State.reset.ctl.selfStart ≠ some 0 ∧ State.reset.ctl.serviceIdle ≠ some 0
      ∧ State.reset.notice.statusLeft ≠ some 0)
    ∧ (∀ quiet, let s := State.reset.onNotice fun n => { n with statusLeft := some 0, quiet := quiet }
       LinkLaw s ∧ s.notice.statusLeft = some 0 ∧ s.notice.quiet = quiet) :=
  ⟨⟨test_link_law, by decide⟩, ⟨test_link_law, by decide, by decide, test_load_law_running, by decide⟩, by decide,
    fun _ => ⟨test_link_law, rfl, rfl⟩⟩

def timed (z : ZoneId) (st : ZoneState) (k : PhaseKind) : State := State.reset.onZone z fun r =>
  { r with mode := .timed, state := st, timer := some { kind := k, left := 0 } }

theorem hypotheses_of_TimedPhasesEnd : ∀ z st k, LinkLaw (timed z st k) ∧ ((timed z st k).zones.get z).mode = .timed
    ∧ ((timed z st k).zones.get z).state = st ∧ ((timed z st k).zones.get z).timer = some { kind := k, left := 0 } :=
  fun z _ _ => ⟨test_link_law, by cases z <;> rfl, by cases z <;> rfl, by cases z <;> rfl⟩

/-! ### The compressor and the valve -/

def holder : Member := { requester := .fresh, cls := .normal, wish := 2 }
def granted (p : GrantPhase) : Grant :=
  { evap := .fresh, phase := p, selected := if p = .preparing then [holder] else [], holders := if p = .preparing then [] else [holder]
    activation := some 0, dwellStart := some 0 }
def entry : Entry := { requester := .freezer, evap := .freeze, cls := .recovery, wish := 3, postedAt := 0 }
/-- An ACTIVE grant of FRESH, at an uptime, with a FREEZER entry of class RECOVERY listed or none. -/
def contested (now : Time) (l : List Entry) : State :=
  ({ comp .running 1 with uptime := now } : State).onArb fun a => { a with grant := some (granted .active), list := l }

theorem hypotheses_of_SetZoneTakesItsSettings_posted_again :
    (let s := (running.onZone .freezer fun r => { r with state := .calling }).onArb fun a => { a with list := [entry] }
     let r := s.zones.get .freezer
     let f := fun n => { zoneFields 0x08 0 with normalLevel := n }
     Ready s ∧ s.ctl.mode = .run ∧ r.state = .calling ∧ (f 4).ok .freezer r = true ∧ (f 5).ok .freezer r = true
      ∧ carries 0x08 0 = false ∧ carries 0x08 3 = true
      ∧ (f (encNum r.normalLevel)).ok .freezer r = true ∧ ((f (encNum r.normalLevel)).apply r).wish r.postClass = r.wish r.postClass
      ∧ ((f 4).apply r).wish r.postClass ≠ r.wish r.postClass ∧ (∃ e ∈ s.arb.list, e.requester = zoneRequester .freezer)
      ∧ ∀ e ∈ s.arb.list, e.requester = zoneRequester .freezer → clsRank r.postClass ≤ clsRank e.cls)
    ∧ (let s := (running.onZone .fresh fun r => { r with state := .cooling }).onArb fun a => { a with grant := some (granted .active) }
       let r := s.zones.get .fresh
       let f := { zoneFields 0x09 0 with normalLevel := 4 }
       Ready s ∧ s.ctl.mode = .run ∧ r.state = .cooling ∧ f.ok .fresh r = true ∧ carries 0x09 0 = true ∧ f.enabled = 1
        ∧ (f.apply r).wish r.postClass ≠ r.wish r.postClass ∧ (∀ e ∈ s.arb.list, e.requester ≠ zoneRequester .fresh)
        ∧ ∃ m ∈ (granted .active).selected ++ (granted .active).holders, m.requester = zoneRequester .fresh) :=
  ⟨⟨test_ready, by decide⟩, test_ready, by decide⟩

theorem hypotheses_of_SwitchIsDecided :
    (let s := contested 300 [entry]
     LinkLaw s ∧ s.arb.grant = some (granted .active) ∧ elapsed s.uptime 0 = s.arb.timing.minDwell
      ∧ s.arb.eligible entry = true ∧ entry.evap = otherEvap (granted .active).evap
      ∧ (∀ m ∈ (granted .active).holders, m.cls ≠ .recovery) ∧ s.arb.hold = false)
    ∧ (let s := contested 1200 [entry]; LinkLaw s ∧ elapsed s.uptime entry.postedAt = s.arb.timing.maxWait)
    ∧ (let s := contested 3600 [entry]; LinkLaw s ∧ elapsed s.uptime 0 = s.arb.timing.maxRun)
    ∧ (let s := contested 300 []; LinkLaw s ∧ elapsed s.uptime 0 = s.arb.timing.minDwell ∧ s.arb.list = []) :=
  ⟨⟨test_link_law, by decide⟩, ⟨test_link_law, by decide⟩, ⟨test_link_law, by decide⟩, test_link_law, by decide⟩

theorem hypotheses_of_SwitchIsDecided_and_SetTimingTakesItsSettings : ∀ now ∈ [300, 301],
    let s := contested now [entry]
    let u := (restartIdle s).onArb fun a => { a with timing := { a.timing with minDwell := 300 } }
    Ready s ∧ LinkLaw s ∧ s.arb.hold = false ∧ s.arb.grant = some (granted .active) ∧ (timingFields 4 0).ok = true ∧ carries 4 2 = true
    ∧ (∃ g ∈ s.arb.grant, ∃ x ∈ g.dwellStart, 300 ≤ elapsed s.uptime x) ∧ u.arb.Decides (granted .active) s.uptime
    ∧ s.arb.Decides (granted .active) s.uptime := by
  unfold Arbiter.Decides
  intro now h
  simp only [List.mem_cons, List.not_mem_nil, or_false] at h
  rcases h with rfl | rfl <;> exact ⟨test_ready, test_link_law, by decide, rfl, by decide, by decide, ⟨_, rfl, 0, rfl, by decide⟩,
    ⟨rfl, ⟨0, rfl, by decide⟩, entry, by decide, by decide, by decide, Or.inl (by decide)⟩,
    rfl, ⟨0, rfl, by decide⟩, entry, by decide, by decide, by decide, Or.inl (by decide)⟩

/-- RUNNING at level 1 in SERVICE, with no step in flight. -/
def turning : State := { serviced with arb := (comp .running 1).arb, budget := { serviced.budget with level := 1 } }

theorem hypotheses_of_ValveAndLevelForcesAreTaken_with_a_step :
    Ready turning ∧ turning.ctl.mode = .service ∧ lockLevel turning 5 = none ∧ lockLevel turning 1 = none ∧ HeaterLaw turning
    ∧ turning.arb.comp.state = .running ∧ turning.arb.comp.step = none ∧ 1 ≤ (1 : Byte).toNat ∧ (5 : Byte).toNat ≤ 5 :=
  ⟨test_ready, by decide, by decide, by decide, by unfold HeaterLaw; decide, by decide⟩

def prepared (c : CompState) : State :=
  ((comp c 0).onComp fun k => { k with minOffLeft := 0 }).onArb fun a => { a with grant := some (granted .preparing) }

theorem hypotheses_of_CompressorStarts :
    (let s := State.reset.onComp fun k => { k with minOffLeft := 0 }
     LinkLaw s ∧ s.arb.hold = false ∧ s.arb.comp.state = .offLocked ∧ s.arb.comp.minOffLeft = 0 ∧ s.arb.grant = none
      ∧ s.ctl.mode ≠ .service)
    ∧ (∀ c, LinkLaw (prepared c) ∧ (prepared c).arb.hold = false ∧ (prepared c).arb.comp.state = c
      ∧ (prepared c).arb.comp.minOffLeft = 0 ∧ (prepared c).arb.grant = some (granted .preparing)
      ∧ (prepared c).arb.valve = .resting (granted .preparing).evap ∧ (prepared c).arb.dischargePos ≠ some .above) :=
  ⟨⟨test_link_law, by decide⟩, fun c => ⟨test_link_law, by cases c <;> decide⟩⟩

theorem hypotheses_of_CompressorFails :
    (LinkLaw (comp .starting 1) ∧ LoadLaw (comp .starting 1) ∧ (comp .starting 1).arb.comp.startLeft = 0
      ∧ (comp .starting 1).arb.comp.failures < 2)
    ∧ (LinkLaw (comp .running 1) ∧ LoadLaw (comp .running 1)) ∧ (LinkLaw (comp .runout 1) ∧ LoadLaw (comp .runout 1))
    ∧ (let s := (comp .running 1).onComp fun c => { c with failures := 2, runStart := -600 }
       LinkLaw s ∧ LoadLaw s ∧ 2 ≤ s.arb.comp.failures ∧ s.arb.comp.failures ≠ 0 ∧ s.defrost.phase ≠ .prechill
        ∧ 600 ≤ elapsed s.uptime s.arb.comp.runStart)
    ∧ (State.reset.arb.comp.state ≠ .running ∧ State.reset.arb.comp.state ≠ .runout) :=
  ⟨⟨test_link_law, test_load_law_starting, by decide⟩, ⟨test_link_law, test_load_law_running⟩,
    ⟨test_link_law, test_load_law_runout⟩, ⟨test_link_law, test_load_law_running, by decide⟩, by decide⟩

theorem hypotheses_of_CompressorFails_with_a_grant :
    (LinkLaw (contested 300 []) ∧ LoadLaw (contested 300 []) ∧ (contested 300 []).arb.comp.state = .running
      ∧ (contested 300 []).arb.grant = some (granted .active) ∧ (contested 300 []).arb.comp.failures < 2)
    ∧ (let s := (comp .starting 1).onArb fun a => { a with grant := some (granted .preparing) }
       LinkLaw s ∧ LoadLaw s ∧ s.arb.comp.state = .starting ∧ s.arb.comp.startLeft = 0 ∧ s.arb.comp.failures < 2) :=
  ⟨⟨test_link_law, test_load_law_running, by decide⟩, test_link_law, test_load_law_starting, by decide⟩

theorem hypotheses_of_CompressorStepsAndStops :
    (let s := (comp .running 1).onComp fun c => { c with level := 2, step := some { goal := 1, left := 0 } }
     let s := s.onBudget fun b => { b with level := 2 }
     LinkLaw s ∧ LoadLaw s ∧ s.arb.comp.step = some { goal := 1, left := 0 } ∧ s.arb.hold = false)
    ∧ (let s := (comp .runout 1).onComp fun c => { c with runStart := -120 }
       LinkLaw s ∧ LoadLaw s ∧ s.arb.comp.state = .runout ∧ s.arb.timing.minOn ≤ elapsed s.uptime s.arb.comp.runStart)
    ∧ (LinkLaw (comp .lockout 0) ∧ LoadLaw (comp .lockout 0) ∧ (comp .lockout 0).arb.comp.lockoutLeft = 0) :=
  ⟨⟨test_link_law, by unfold LoadLaw Budget.Sound Compressor.Sound; decide, by decide⟩,
    ⟨test_link_law, test_load_law_runout, by decide⟩, test_link_law, by unfold LoadLaw Budget.Sound Compressor.Sound; decide,
    by decide⟩

theorem hypotheses_of_CompressorStepsAndStops_with_a_grant :
    let s := (((comp .running 1).onComp fun c => { c with level := 2, step := some { goal := 1, left := 0 } }).onBudget
      fun b => { b with level := 2 }).onArb fun a => { a with grant := some (granted .active) }
    LinkLaw s ∧ LoadLaw s ∧ s.arb.comp.step = some { goal := 1, left := 0 } ∧ s.arb.hold = false ∧ s.arb.comp.state = .running
    ∧ s.ctl.mode ≠ .service ∧ s.arb.grant = some (granted .active) ∧ (granted .active).phase = .active
    ∧ (∀ m ∈ (granted .active).holders, m.wish ≤ 2) ∧ (∃ m ∈ (granted .active).holders, m.wish = 2)
    ∧ 1 < s.arb.comp.level ∧ s.budget.level ≠ 1 :=
  ⟨test_link_law, by unfold LoadLaw Budget.Sound Compressor.Sound; decide, by decide⟩

/-- The valve on its way to FRESH, in a mode, with a grant, entries and a forced target. -/
def moving (m : Mode) (g : Option Grant) (l : List Entry) (f : Option Evap) : State :=
  (inMode m).onArb fun a => { a with valve := .moving .fresh .first 8, grant := g, list := l, forcedValve := f }

theorem hypotheses_of_ValveTravels :
    (∀ v, LinkLaw (valve v) ∧ (valve v).arb.hold = false ∧ (valve v).arb.valve = v)
    ∧ (∀ m g l f, LinkLaw (moving m g l f) ∧ (moving m g l f).arb.hold = false)
    ∧ (granted .preparing).evap = .fresh
    ∧ (let g : Grant := { evap := .freeze, phase := .preparing, selected := [{ requester := .freezer, cls := .normal, wish := 2 }]
                          holders := [], activation := none, dwellStart := none }
       g.evap ≠ .fresh ∧ ArbLaw (moving .run (some g) [] none).arb)
    ∧ (let s := moving .run none [entry] none
       s.arb.grant = none ∧ s.ctl.mode = .run ∧ s.arb.comp.state ≠ .starting ∧ ∃ x ∈ s.arb.list, s.arb.eligible x = true)
    ∧ (∀ x ∈ (moving .run none [] none).arb.list, (moving .run none [] none).arb.eligible x = false)
    ∧ (let s := moving .service none [] (some .freeze)
       s.ctl.mode ≠ .run ∧ ArbLaw s.arb ∧ s.arb.forcedValve = some (otherEvap .fresh) ∧ s.defrost.heater = .off)
    ∧ (let s := (comp .running 1).onArb fun a => { a with valve := .moving .freeze .second 0 }
       LinkLaw s ∧ LoadLaw s ∧ s.arb.comp.state.turning = true) := by
  have slow : ∀ m g l f, ((moving m g l f).arb.valve = .moving .fresh .first 8) ∧ (moving m g l f).arb.comp.state.turning = false :=
    fun _ _ _ _ => ⟨rfl, rfl⟩
  have law : ∀ m g l f, (moving m g l f).arb.requesters.Nodup → (∀ e ∈ l, e.evap = requesterEvap e.requester) →
      (∀ k ∈ g, ∀ x ∈ k.selected ++ k.holders, requesterEvap x.requester = k.evap) → ArbLaw (moving m g l f).arb :=
    fun m g l f h1 h2 h3 => ⟨h1, h2, h3, fun e t n _ => ⟨Or.inl (slow m g l f).2, fun _ => (slow m g l f).2⟩,
      fun n q => by rw [(slow m g l f).1] at q; cases q⟩
  exact ⟨fun _ => ⟨test_link_law, rfl, rfl⟩, fun _ _ _ _ => ⟨test_link_law, rfl⟩, rfl,
    ⟨by decide, law _ _ _ _ (by decide) (by decide) (by decide)⟩, ⟨rfl, rfl, by decide, entry, by decide, by decide⟩, by decide,
    ⟨by decide, law _ _ _ _ (by decide) (by decide) (by decide), by decide⟩, test_link_law, test_load_law_running, by decide⟩

theorem hypotheses_of_ValveTravels_at_the_choice :
    FirstOfHighest ((moving .run none [entry] none).arb.list.filter (moving .run none [entry] none).arb.eligible) entry :=
  ⟨[], [], by decide, by decide, by decide⟩

/-! ### Defrost -/

def feeding (p : Phase) (credit : Nat) : State :=
  ((comp .running 1).onArb fun a => { a with valve := .resting .freeze }).onDefrost fun d =>
    { d with phase := p, credit := credit, recoveryLimit := none }

theorem hypotheses_of_CreditGrows :
    (∀ p n, LinkLaw (feeding p n) ∧ (feeding p n).arb.comp.state = .running ∧ (feeding p n).arb.valve = .resting .freeze
      ∧ (feeding p n).defrost.phase = p ∧ (feeding p n).defrost.credit = n ∧ (feeding p n).defrost.recoveryLimit = none)
    ∧ (28798 + 1 < 8 * 3600) ∧ (8 * 3600 ≤ 28799 + 1)
    ∧ (∀ d, let s := door d fun r => { r with state := .opened, openedAt := some (-60) }
       LinkLaw s ∧ (s.doors.get d).state ≠ .closed ∧ (s.doors.get d).delivered + 60 ≤ (s.doors.get d).openFor s.uptime
        ∧ s.defrost.phase = .idle)
    ∧ (28559 + 4 * 60 < 8 * 3600) ∧ (8 * 3600 ≤ 28320 + 8 * 60) :=
  ⟨fun _ _ => ⟨test_link_law, rfl, rfl, rfl, rfl, rfl⟩, by decide, by decide,
    fun d => ⟨test_link_law, by cases d <;> decide⟩, by decide, by decide⟩

theorem hypotheses_of_HeatBegins :
    (let s := State.reset.onDefrost fun d => { d with phase := .due, mode := .run, deferral := 7200 }
     LinkLaw s ∧ s.defrost.phase = .due ∧ s.defrost.mode = .run ∧ 7200 ≤ s.defrost.deferral)
    ∧ (let s := State.reset.onDefrost fun d => { d with phase := .prechill, prechill := 600, waitLimit := some 0 }
       LinkLaw s ∧ s.defrost.phase = .prechill ∧ 600 ≤ s.defrost.prechill ∧ s.defrost.waitLimit = some 0
        ∧ (s.uptime - 0).toNat < 2 ^ 31) :=
  ⟨⟨test_link_law, by decide⟩, test_link_law, by decide⟩

/-- PRECHILL in RUN at its limits. -/
def prechilled (c : CompState) (l : Nat) (e : Evap) (g : Option Grant) : State :=
  (({ comp c l with ctl := running.ctl } : State).onArb fun a => { a with valve := .resting e, grant := g }).onDefrost fun d =>
    { d with phase := .prechill, mode := .run, prechill := 600, waitLimit := some 0 }

theorem hypotheses_of_HeatBegins_with_its_heater :
    (∀ x ∈ [prechilled .offLocked 0 .freeze none, prechilled .lockout 0 .freeze none,
        prechilled .running 1 .fresh (some (granted .active))],
      LinkLaw x ∧ HeaterLaw x ∧ x.defrost.phase = .prechill ∧ 600 ≤ x.defrost.prechill ∧ x.defrost.waitLimit = some 0
      ∧ ¬ (x.arb.comp.state.turning = true ∧ x.arb.valve.toward .freeze = true)
      ∧ ((x.arb.comp.state = .offLocked ∨ x.arb.comp.state = .lockout) ∨ ∃ g ∈ x.arb.grant, g.evap = .fresh)
      ∧ x.budget.weighs + 10 ≤ x.budget.units)
    ∧ (let x := prechilled .running 1 .freeze none
       LinkLaw x ∧ HeaterLaw x ∧ ArbLaw x.arb ∧ LoadLaw x ∧ x.arb.comp.state.turning = true ∧ x.arb.valve.toward .freeze = true
      ∧ (∀ g ∈ x.arb.grant, g.evap ≠ .fresh) ∧ ∀ e ∈ x.arb.list, e.evap ≠ .fresh) := by
  refine ⟨fun x hx => ?_, test_link_law, by unfold HeaterLaw; decide, ⟨by decide, by decide, by decide,
    fun _ _ _ q => Valve.noConfusion q, fun _ q => Valve.noConfusion q⟩, test_load_law_running, by decide⟩
  simp only [List.mem_cons, List.not_mem_nil, or_false] at hx
  rcases hx with rfl | rfl | rfl <;> exact ⟨test_link_law, by unfold HeaterLaw; decide, by decide, by decide, by decide, by decide,
    by decide, by decide⟩

theorem hypotheses_of_HeatBegins_at_the_arbiter : ArbLaw (prechilled .running 1 .fresh (some (granted .active))).arb :=
  ⟨by decide, by decide, by decide, fun _ _ _ q => Valve.noConfusion q, fun _ q => Valve.noConfusion q⟩

theorem hypotheses_of_HeatEndsInDripAndRecovery :
    (let s := State.reset.onDefrost fun d => { d with phase := .heat, heatClock := some 2400, sampleTimer := some 0 }
     LinkLaw s ∧ s.defrost.phase = .heat ∧ s.defrost.heatClock = some 2400 ∧ s.defrost.sampleTimer = some 0
      ∧ (s.uptime - 0).toNat < 2 ^ 31)
    ∧ (let s := State.reset.onDefrost fun d => { d with phase := .drip, dripTimer := some 0 }
       LinkLaw s ∧ s.defrost.phase = .drip ∧ s.defrost.dripTimer = some 0)
    ∧ (let s := State.reset.onDefrost fun d => { d with phase := .recover, recoveryLimit := some 0 }
       LinkLaw s ∧ s.defrost.phase = .recover ∧ s.defrost.recoveryLimit = some 0)
    ∧ (∀ n ∈ [28799, 28800], ({ Defrost.reset with credit := n } : Defrost).restPhase = if n < 28800 then .idle else .due)
    ∧ (∀ n ∈ [719, 720, 1500, 1501], ∃ d : Defrost, d.heatClock = some n) :=
  ⟨⟨test_link_law, by decide⟩, ⟨test_link_law, by decide⟩, ⟨test_link_law, by decide⟩, by decide,
    fun n _ => ⟨{ Defrost.reset with heatClock := some n }, rfl⟩⟩

/-! ### Measurement -/

theorem hypotheses_of_ReadingsAreJudged :
    classify 40 = .short ∧ classify 4055 = .opened ∧ classify 41 = .ok ∧ classify 4054 = .ok
    ∧ (Channel.reset .freshAir).substitute = none ∧ ∃ v, ((Channel.reset .freshAir).reading 2000).value = some v :=
  ⟨by decide, by decide, by decide, by decide, rfl, _, rfl⟩

theorem hypotheses_of_ThermistorCurve :
    4000 ≤ (4000 : BitVec 12).toNat ∧ (100 : BitVec 12).toNat ≤ 100 ∧ Config.curve[0]? = some (4000, -500)
    ∧ Config.curve[1]? = some (3900, -400) ∧ Config.curve[14]? = some (150, 1300) ∧ Config.curve[15]? = some (100, 1500)
    ∧ 3900 ≤ (3905 : BitVec 12).toNat ∧ (3905 : BitVec 12).toNat ≤ 4000 := by decide
theorem test_curve_between_breakpoints : curveTemp 3905 Config.curve = -405 ∧ curveTemp 1845 Config.curve = 253 := by decide

theorem hypotheses_of_ResultsAreRecorded :
    (∃ r : Channel, r.substitute = some (-500)) ∧ (∃ v b, ((Channel.reset .aux).reading 41).value = some (v, b))
    ∧ ((Channel.reset .aux).reading 40).value = none :=
  ⟨⟨{ Channel.reset .aux with substitute := some (-500) }, rfl⟩, ⟨_, _, rfl⟩, rfl⟩

theorem hypotheses_of_ConversionsComplete :
    (let s := State.reset.onSched fun q => { q with conv := some { chan := .aux, source := .link, tag := some 3, left := 0 } }
     LinkLaw s ∧ ∃ v, s.sched.conv = some v ∧ v.left = 0)
    ∧ (LinkLaw State.reset ∧ ∀ v ∈ State.reset.sched.conv, v.left ≠ 0)
    ∧ (let s := State.reset.onChannel .freshAir fun r => { r with countdown := 0 }
       LinkLaw s ∧ (s.sched.ch.get .freshAir).period ≠ 0 ∧ (s.sched.ch.get .freshAir).countdown = 0) :=
  ⟨⟨test_link_law, _, rfl, rfl⟩, ⟨test_link_law, by decide⟩, test_link_law, by decide⟩

/-- A conversion of a channel at its end, the channel with a substitute value or none and the given counts. -/
def measuring (c : Chan) (v : Option Temp) (good bad : Nat) (faulted : Bool) : State :=
  (State.reset.onSched fun q => { q with conv := some { chan := c, source := .scan, tag := none, left := 0 } }).onChannel c
    fun r => { r with substitute := v, good := good, bad := bad, faulted := faulted }

theorem hypotheses_of_ZonesActOnTheirSensor :
    (∀ c v good bad k, LinkLaw (measuring c v good bad k) ∧ (∃ x, (measuring c v good bad k).sched.conv = some x ∧ x.left = 0 ∧ x.chan = c))
    ∧ (∀ v ∈ [(1500, Band.above), (40, .inside), (-500, .below)],
      (((measuring .freshAir (some v.1) 0 0 false).sched.ch.get .freshAir).reading 0).value = some v)
    ∧ (((measuring .freshAir none 0 2 false).sched.ch.get .freshAir).reading 40).value = none
    ∧ (∀ z st m, let s := (measuring (zoneChan z) none 2 0 true).onZone z fun r => { r with state := st, mode := m }
       LinkLaw s ∧ (s.zones.get z).state = st ∧ (s.zones.get z).mode = m) :=
  ⟨fun _ _ _ _ _ => ⟨test_link_law, _, rfl, rfl, rfl⟩, by decide, by decide,
    fun z _ _ => ⟨test_link_law, by cases z <;> rfl, by cases z <;> rfl⟩⟩

theorem hypotheses_of_UnitsActOnTheirSensors :
    (∀ c ∈ [Chan.freshEvap, .freezerEvap, .ambient, .discharge], ∀ v ∈ [1500, 45, -500],
      (((measuring c (some v) 2 0 true).sched.ch.get c).reading 0).value.isSome = true)
    ∧ (∀ v ∈ [(1500, Band.above), (-500, .below)],
      (((measuring .discharge (some v.1) 0 0 false).sched.ch.get .discharge).reading 0).value.isSome = true)
    ∧ (let s := (measuring .freezerEvap (some 1500) 0 0 false).onDefrost fun d => { d with phase := .heat, heater := .on }
       LinkLaw s ∧ s.defrost.phase = .heat ∧ s.defrost.heater = .on ∧ s.defrost.probeLost = false)
    ∧ (let s := (measuring .freezerEvap (some (-500)) 0 0 false).onDefrost fun d => { d with phase := .recover }
       LinkLaw s ∧ s.defrost.phase = .recover ∧ s.defrost.probeFaulted = false)
    ∧ (let s := (measuring .freezerEvap (some 201) 0 0 false).onDefrost fun d => { d with heater := .on, use := some .service }
       LinkLaw s ∧ s.defrost.phase = .idle ∧ s.defrost.heater = .on ∧ s.defrost.use = some .service ∧ s.arb.hold = false
        ∧ ∃ x ∈ ((s.sched.ch.get .freezerEvap).reading 0).value, 200 < x.1)
    ∧ (let s := (comp .running 1).onArb fun a => { a with grant := some (granted .active) }
       LoadLaw s ∧ s.arb.comp.state.turning = true ∧ s.arb.dischargeHigh = false ∧ (granted .active).phase = .active) :=
  ⟨by decide, by decide, ⟨test_link_law, by decide⟩, ⟨test_link_law, by decide⟩,
    ⟨test_link_law, by decide, by decide, by decide, by decide, _, rfl, by decide⟩, test_load_law_running, by decide⟩

/-! ### Doors, air paths, faults -/

theorem hypotheses_of_DoorsOpenAndClose : ∀ d,
    (let s := door d fun r => { r with window := some 0, input := true }
     LinkLaw s ∧ (s.doors.get d).window = some 0 ∧ (s.doors.get d).input = true ∧ (s.doors.get d).state = .closed)
    ∧ (let s := door d fun r => { r with window := some 0, input := false, state := .ajar, openedAt := some 0 }
       LinkLaw s ∧ (s.doors.get d).input = false ∧ (s.doors.get d).state ≠ .closed
        ∧ ∀ e, e ≠ d → doorZone e = doorZone d → (s.doors.get e).state = .closed)
    ∧ (let s := door d fun r => { r with window := some 0 }
       LinkLaw s ∧ (s.doors.get d).window = some 0 ∧ (s.doors.get d).input = (s.doors.get d).state.isOpen)
    ∧ (LinkLaw State.reset ∧ (State.reset.doors.get d).window ≠ some 0)
    ∧ (let s := door d fun r => { r with state := .opened, openedAt := some (-120) }
       LinkLaw s ∧ (s.doors.get d).state = .opened ∧ s.doors.ajarTime ≤ elapsed s.uptime (-120)) :=
  fun d => ⟨⟨test_link_law, by cases d <;> decide⟩,
    ⟨test_link_law, by cases d <;> rfl, by cases d <;> decide, fun e => by cases d <;> cases e <;> decide⟩,
    ⟨test_link_law, by cases d <;> decide⟩, ⟨test_link_law, by cases d <;> decide⟩, test_link_law, by cases d <;> decide⟩

theorem hypotheses_of_DoorsOpenAndClose_with_open_seconds : ∀ d, d = .drawer ∨ d = .freezer →
    let s := door d fun r => { r with window := some 0, input := false, state := .opened, openedAt := some (-90), delivered := 60 }
    LinkLaw s ∧ (s.doors.get d).input = false ∧ (s.doors.get d).state ≠ .closed ∧ s.defrost.phase = .idle
    ∧ (((s.doors.get d).openedAt.map (elapsed s.uptime)).getD 0) - (s.doors.get d).delivered = 30 := by
  rintro d (rfl | rfl) <;> exact ⟨test_link_law, by decide⟩

theorem hypotheses_of_AirPathEvents :
    (∀ d, LinkLaw (damper d) ∧ (damper d).air.damper = d)
    ∧ (∀ x, LinkLaw (State.reset.onAir fun a => { a with runOn := some x })
        ∧ (State.reset.onAir fun a => { a with runOn := some x }).air.runOn = some x)
    ∧ 480 ≤ elapsed 0 (-480) ∧ elapsed 0 (-479) < 480
    ∧ (let s := (damper (.travelling .opened .second 0)).onZone .drawer fun r => { r with state := .cooling }
       s.zones.drawer.state ≠ .disabled ∧ s.zones.drawer.state ≠ .paused) :=
  ⟨fun _ => ⟨test_link_law, rfl⟩, fun _ => ⟨test_link_law, rfl⟩, by decide, by decide, by decide⟩

theorem hypotheses_of_FaultsAreRecorded :
    let e : FaultEntry := { code := .valveTravel, object := .valve, detail := none, first := { count := 0, at_ := 0 }
                            last := { count := 0, at_ := 0 }, occurrences := 255, active := true }
    let k : Capture := { code := .valveTravel, object := .valve, detail := none, time := { count := 0, at_ := 0 }, more := false }
    let s := State.reset.onFault fun f => { f with table := [e], capture := some k }
    (∀ x ∈ State.reset.fault.table, ¬ (x.code = e.code ∧ x.object = e.object)) ∧ State.reset.fault.capture = none
    ∧ s.fault.table = [] ++ e :: [] ∧ s.fault.capture = some k ∧ priority .compLockout < priority k.code
    ∧ priority k.code ≤ priority .valveTravel := by
  decide

end Sys2Proof.Tests
end

namespace Sys2Proof.Machine

/-! ### The substitute value of a channel (R78) -/

/-- What SUBSTITUTE takes as its value: "none", or a temperature of the part's range (R78). -/
def SubstituteTaken (v : Half) : Prop := v = 0x8000 ∨ (-500 ≤ v.toInt ∧ v.toInt ≤ 1500)

theorem tempInRange_iff (t lo hi : Temp) : tempInRange t lo hi = true ↔ lo ≤ t ∧ t ≤ hi := by
  unfold tempInRange
  rw [Bool.and_eq_true, decide_eq_true_iff, decide_eq_true_iff]

/-- The model's check of a substitute value is the range of R78. -/
theorem substituteOf_inRange_iff (v : Half) :
    (substituteOf v).all (fun t => tempInRange t Config.tempMin Config.tempMax) = true ↔ SubstituteTaken v := by
  unfold substituteOf SubstituteTaken absentTemp
  by_cases h : v = 0x8000
  · rw [if_pos h]
    simp [h]
  · rw [if_neg h, or_iff_right h, Option.all_some]
    exact tempInRange_iff v.toInt (-500) 1500

theorem not_substituteTaken {v : Half} (h : v ≠ 0x8000 ∧ (v.toInt < -500 ∨ 1500 < v.toInt)) : ¬ SubstituteTaken v := by
  obtain ⟨hn, hr⟩ := h
  rintro (hv | hv)
  · exact hn hv
  · omega

section
variable (s : State) {b : Byte} {v : Half} {c : Chan}

theorem doSubstitute_badValue (h : chanOf b = none ∨ ¬ SubstituteTaken v) :
    doSubstitute s b v = refuse s .badValue := by
  unfold doSubstitute
  split
  · rfl
  · rename_i hc
    exact if_neg fun hv => h.elim (by simp [hc]) fun hn => hn ((substituteOf_inRange_iff v).1 hv)

theorem doSubstitute_denied (hc : chanOf b = some c) (hv : SubstituteTaken v) (hp : c = .freezerEvap ∨ c = .discharge) :
    doSubstitute s b v = refuse s .denied := by
  unfold doSubstitute
  rw [hc]
  exact (if_pos ((substituteOf_inRange_iff v).2 hv)).trans (if_pos hp)

theorem doSubstitute_taken (hc : chanOf b = some c) (hv : SubstituteTaken v) (hp : ¬ (c = .freezerEvap ∨ c = .discharge)) :
    doSubstitute s b v = done (s.onChannel c fun r => { r with substitute := substituteOf v }) := by
  unfold doSubstitute
  rw [hc]
  exact (if_pos ((substituteOf_inRange_iff v).2 hv)).trans (if_neg hp)

end

/-- A SUBSTITUTE frame reaches its owner with the channel and the value that the host sent. -/
theorem handle_substitute (s : State) (tag b : Byte) (v : Half) :
    handle s (request 0x14 tag ([b] ++ be16 v)) = doSubstitute s b v := by
  show doSubstitute s b (half (hiByte v) (loByte v)) = _
  rw [half_bytes]

section
variable {s : State} {tag b : Byte} {v : Half}

theorem substitute_refused {x : Status} (hr : Ready s) (hd : ∀ u, doSubstitute u b v = refuse u x) :
    Refused (.substitute tag b v) s 0x14 tag x :=
  refused_known hr (exec_frame rfl s) rfl rfl (by decide) (ls := [3]) (by decide) rfl
    ((handle_substitute _ tag b v).trans (hd _))

theorem substitute_answered {c : Chan} {f : Channel → Channel} (hr : Ready s)
    (hd : ∀ u, doSubstitute u b v = done (u.onChannel c f)) :
    Answers (.substitute tag b v) s 0x14 tag [0] (OnlyLink ((restartIdle s).onChannel c f)) :=
  answers_known hr (exec_frame rfl s) rfl rfl (by decide) (ls := [3]) (by decide) rfl _
    ((handle_substitute _ tag b v).trans (hd _)) (moved_arb (by simp)) fun _ h => h

end

/-- Settles O27: the request by the three outcomes of its owner's checks, the resets by what they leave of a channel's
settings. -/
theorem substituteIsTaken : Obligations.SubstituteIsTaken := by
  intro s tag b v hr
  refine ⟨fun h => ?badValue, fun hv => ⟨fun h => ?denied, fun c hc h4 h6 => ?taken⟩, fun x c => ?resets⟩
  case badValue =>
    exact substitute_refused hr fun u => doSubstitute_badValue u (h.imp_right not_substituteTaken)
  case denied =>
    exact substitute_refused hr fun u =>
      h.elim (fun hc => doSubstitute_denied u hc hv (.inl rfl)) fun hc => doSubstitute_denied u hc hv (.inr rfl)
  case taken =>
    exact substitute_answered hr fun u => doSubstitute_taken u hc hv (not_or.2 ⟨h4, h6⟩)
  case resets =>
    obtain ⟨hp, hc⟩ := sub_none x c
    exact ⟨hp, hc, rfl⟩

/-! ### Raw codes and readings (R75, R77, R80) -/

theorem classify_short {code : BitVec 12} (h : code.toNat ≤ 40) : classify code = .short := if_pos h

theorem classify_opened {code : BitVec 12} (h : 4055 ≤ code.toNat) : classify code = .opened := by
  unfold classify
  rw [if_neg (by omega), if_pos h]

theorem classify_ok {code : BitVec 12} (hl : 41 ≤ code.toNat) (hh : code.toNat ≤ 4054) : classify code = .ok := by
  unfold classify
  rw [if_neg (by omega), if_neg (by omega)]

section
variable {r : Channel} {code : BitVec 12}

theorem reading_substituted {x : Temp} (h : r.substitute = some x) :
    r.reading code = { sensor := .ok, value := some (x, bandOf x r.low r.high) } := by
  simp [Channel.reading, h]

theorem reading_ok (h : r.substitute = none) (hc : classify code = .ok) :
    r.reading code = { sensor := .ok, value := some (measuredTemp code r.offset,
      bandOf (measuredTemp code r.offset) r.low r.high) } := by
  simp [Channel.reading, h, hc]

theorem reading_faulty (h : r.substitute = none) (hc : classify code = .short ∨ classify code = .opened) :
    r.reading code = { sensor := classify code, value := none } := by
  rcases hc with hc | hc <;> simp [Channel.reading, h, hc]

/-- A reading is OK with a value and that value's band position, or SHORT or OPEN with neither (R75, R77, R80). -/
theorem reading_cases (r : Channel) (code : BitVec 12) :
    (∃ v, r.reading code = { sensor := .ok, value := some (v, bandOf v r.low r.high) })
    ∨ (r.reading code).value = none ∧ (r.reading code).sensor ≠ .ok := by
  cases hs : r.substitute with
  | some x => exact .inl ⟨x, reading_substituted hs⟩
  | none =>
    cases hc : classify code with
    | ok => exact .inl ⟨_, reading_ok hs hc⟩
    | short => exact .inr (by simp [reading_faulty hs (.inl hc), hc])
    | opened => exact .inr (by simp [reading_faulty hs (.inr hc), hc])

theorem reading_value {v : Temp} {b : Band} (h : (r.reading code).value = some (v, b)) :
    (r.reading code).sensor = .ok ∧ b = bandOf v r.low r.high := by
  rcases reading_cases r code with ⟨x, e⟩ | ⟨hn, _⟩
  · rw [e] at h ⊢
    cases h
    exact ⟨rfl, rfl⟩
  · simp [hn] at h

end

/-- Settles O52, by the cases of a reading. -/
theorem readingsAreJudged : Obligations.ReadingsAreJudged := by
  intro r code
  refine ⟨classify_short, classify_opened, classify_ok, reading_faulty, fun hs hc => ?measured, fun v b h => ?judged,
    fun h => ?valueless⟩
  case measured => simp [reading_ok hs hc]
  case judged =>
    obtain ⟨hk, rfl⟩ := reading_value h
    exact ⟨hk, band_iff v r.low r.high⟩
  case valueless =>
    rcases reading_cases r code with ⟨x, e⟩ | ⟨hn, _⟩
    · exact absurd (by rw [e]) h
    · exact hn

/-! ### The thermistor curve (R76) -/

/-- A code at or above the first breakpoint has that breakpoint's temperature. -/
theorem curveTemp_above {code c1 c2 : Nat} {t1 t2 : Temp} {rest : List (Nat × Temp)} (h : c1 ≤ code) :
    curveTemp code ((c1, t1) :: (c2, t2) :: rest) = t1 := by
  unfold curveTemp
  exact if_pos h

/-- At the lower breakpoint of a segment the curve has that breakpoint's temperature. -/
theorem curveTemp_lower {l : List (Nat × Temp)} (hl : l.Pairwise fun x y => y.1 < x.1) {k c1 c2 : Nat} {t1 t2 : Temp}
    (h1 : l[k]? = some (c1, t1)) (h2 : l[k + 1]? = some (c2, t2)) (hc : c2 < c1) : curveTemp c2 l = t2 := by
  obtain ⟨hlow, hhigh⟩ := curve_seg c2 l hl k c1 t1 c2 t2 h1 h2 (le_refl _) (le_of_lt hc)
  have hd : (0 : Int) < c1 - c2 := by omega
  generalize (c1 : Int) - c2 = d at *
  have hle : curveTemp c2 l < t2 + 1 := by nlinarith
  have hge : t2 < curveTemp c2 l + 1 := by nlinarith
  exact le_antisymm (Int.lt_add_one_iff.1 hle) (Int.lt_add_one_iff.1 hge)

/-- A code of 100 or less is at the curve's warm end. -/
theorem curveTemp_warm_end {code : Nat} (h : code ≤ 100) : curveTemp code Config.curve = 1500 := by
  rcases Nat.lt_or_eq_of_le h with hlt | rfl
  · exact curve_end code 100 1500 _ curve_desc rfl hlt
  · exact curveTemp_lower (k := 14) (c1 := 150) (t1 := 1300) curve_desc rfl rfl (by decide)

/-- Settles O53: the ends of the curve, a segment by `curve_seg`, and the clamp. -/
theorem thermistorCurve : Obligations.ThermistorCurve := by
  intro code x
  refine ⟨curveTemp_above, curveTemp_warm_end, fun k _ c1 t1 c2 t2 => ?segment, clamp_eq _⟩
  exact curve_seg code.toNat _ curve_desc k c1 t1 c2 t2

end Sys2Proof.Machine

namespace Sys2Proof.Machine

/-! ### The frame check (R186) -/

/-- Each covered byte costs the register the eight shifts of R186. -/
theorem crcByte_eq_iterate (r : Half) (b : Byte) : crcByte r b = crcShift^[8] (r ^^^ (b.setWidth 16 <<< 8)) := rfl

/-- The check ends a frame on the line, its high byte first. -/
theorem wire_eq (f : Frame) :
    f.wire = 0xA5 :: BitVec.ofNat 8 f.payload.length :: f.kind :: f.tag :: f.payload
      ++ [(crc f.covered >>> 8).setWidth 8, (crc f.covered).setWidth 8] := rfl

/-- The check value that R186 gives for testing an implementation: the register after each of the nine bytes. -/
theorem crc_check_value : crc [0x31, 0x32, 0x33, 0x34, 0x35, 0x36, 0x37, 0x38, 0x39] = 0x29B1 := by
  have byte1 : crcByte 0xFFFF 0x31 = 0xC782 := by decide
  have byte2 : crcByte 0xC782 0x32 = 0x3DBA := by decide
  have byte3 : crcByte 0x3DBA 0x33 = 0x5BCE := by decide
  have byte4 : crcByte 0x5BCE 0x34 = 0x5349 := by decide
  have byte5 : crcByte 0x5349 0x35 = 0x4560 := by decide
  have byte6 : crcByte 0x4560 0x36 = 0x2EF4 := by decide
  have byte7 : crcByte 0x2EF4 0x37 = 0x7718 := by decide
  have byte8 : crcByte 0x7718 0x38 = 0xA12B := by decide
  have byte9 : crcByte 0xA12B 0x39 = 0x29B1 := by decide
  unfold crc
  simp only [List.foldl_cons, List.foldl_nil, byte1, byte2, byte3, byte4, byte5, byte6, byte7, byte8, byte9]

/-- Settles O36: the register by `crc_snoc`, the two check bytes by `wire_eq`, the judgement by `judge_wire`. -/
theorem frameCheck : Obligations.FrameCheck := by
  unfold Obligations.FrameCheck
  refine ⟨?start, fun bs b => ?register, crc_check_value, wire_eq, judge_wire⟩
  case start => rfl
  case register => exact (crc_snoc bs b).trans (crcByte_eq_iterate (crc bs) b)

end Sys2Proof.Machine

namespace Sys2Proof.Machine

/-! ### Reading requests (R200) -/

/-- A request whose owner only answers changes no state but the link and the service idle timer (R174, R200). -/
theorem reading_answered {c : Instr} {s : State} {f : Frame} {kind tag : Byte} {ls : List Nat} {p : List Byte}
    (hr : Ready s) (hc : frameOf c = some f) (hf : f.kind = kind) (ht : f.tag = tag) (hk : kind < 0x80)
    (hl : takenLengths kind = some ls) (hn : ls.contains f.payload.length = true)
    (hj : handle (placed (restartIdle s) f) f = answer (placed (restartIdle s) f) p) :
    Answers c s kind tag p (OnlyLink (restartIdle s)) :=
  answers_known hr (exec_frame hc s) hf ht hk hl hn _ hj (moved_restart s f) fun _ h => h

/-! ### The reply to GET_BUDGET (R205) -/

/-- A GET_BUDGET frame is answered by the Load Budget Unit. -/
theorem handle_getBudget (s : State) (tag : Byte) : handle s (request 0x0D tag []) = answer s (replyBudget s.budget) := rfl

/-- Byte 7 of the reply (R205). -/
theorem claimCode_eq (c : Claim) : claimCode c = match c with | .none_ => 0 | .waiting => 1 | .granted => 2 := by
  cases c <;> rfl

/-- Byte 12 of the reply; an absent force reads 0xFF (R198, R205). -/
theorem encOpt_mullionForceCode (f : Option Bool) :
    encOpt mullionForceCode f = match f with | some true => 0 | some false => 1 | none => 0xFF := by
  match f with
  | none => rfl
  | some true => rfl
  | some false => rfl

/-- Byte 13 of the reply (R205). -/
theorem mullionCode_eq (m : Mullion) : mullionCode m = match m with | .off => 0 | .on => 1 | .shed => 2 := by
  cases m <;> rfl

/-- The reply is formed from the budget record as it stands when the request is taken (R200). -/
theorem getBudget_answered {s : State} {tag : Byte} (hr : Ready s) :
    Answers (.getBudget tag) s 0x0D tag (replyBudget s.budget) (OnlyLink (restartIdle s)) :=
  reading_answered hr rfl rfl rfl (by decide) (ls := [0]) (by decide) rfl
    (by rw [handle_getBudget, placed_budget, restartIdle_budget])

/-- Settles O12: the reply by `getBudget_answered`, the coded bytes 7, 12 and 13 by their own lemmas. -/
theorem getBudgetReply : Obligations.GetBudgetReply := by
  intro s tag hr
  have reply := getBudget_answered (tag := tag) hr
  unfold replyBudget at reply
  rw [claimCode_eq, encOpt_mullionForceCode, mullionCode_eq] at reply
  exact reply

end Sys2Proof.Machine

namespace Sys2Proof.Machine

/-! ### What every command keeps -/

/-- What the moves of commands keep, the end of a command included, every command keeps. -/
theorem exec_keeps {P : State → Prop} (hm : ∀ {w s t}, Moves w s t → P s → P t) {c : Instr} {s u : State}
    (e : exec c s = .next u) (h : P s) : P u := by
  obtain ⟨t, ht, rfl⟩ := exec_moves e
  exact hm (moves_finish s ht) h

/-! ### What the laws mean at the outputs -/

/-- A running fresh fan finds both its doors CLOSED and the part not in HOLD (R95, R107). -/
theorem freshOn_imp {a : AirPath} (h : a.freshOn = true) :
    a.leftDoor.isOpen = false ∧ a.rightDoor.isOpen = false ∧ a.mode ≠ .hold := by
  unfold AirPath.freshOn at h
  cases hm : a.mode <;> simp_all

/-- A running freezer fan finds its door CLOSED, the heater not ON and the part not in HOLD (R98, R107). -/
theorem freezerOn_imp {a : AirPath} (h : a.freezerOn = true) :
    a.freezerDoor.isOpen = false ∧ a.heaterOn = false ∧ a.mode ≠ .hold := by
  unfold AirPath.freezerOn at h
  cases hm : a.mode <;> simp_all

/-- An open damper target finds the drawer's door CLOSED (R100). -/
theorem targetOf_imp {a : AirPath} (h : a.targetOf = .opened) : a.drawerDoor.isOpen = false := by
  unfold AirPath.targetOf at h
  cases hd : a.drawerDoor.isOpen with
  | false => rfl
  | true => simp [hd] at h

/-- A door that is not open is CLOSED (R88). -/
theorem closed_of_isOpen {d : DoorState} (h : d.isOpen = false) : d = .closed := by
  cases d <;> first | rfl | cases h

/-- What the law of the air paths means at the outputs (R94, R95, R98, R100). -/
theorem airLaw_outputs {s : State} (h : AirLaw s) :
    (s.air.freshFan = true → s.doors.left.state = .closed ∧ s.doors.right.state = .closed ∧ s.ctl.mode ≠ .hold)
    ∧ (s.air.freezerFan = true → s.doors.freezer.state = .closed ∧ s.heaterOutput = false ∧ s.ctl.mode ≠ .hold)
    ∧ (s.air.target = .opened → s.doors.drawer.state = .closed) := by
  obtain ⟨⟨⟨fresh, freezer, _, target⟩, heater⟩, ⟨left, right, drawer, door⟩, mode⟩ := h
  refine ⟨fun k => ?_, fun k => ?_, fun k => ?_⟩
  · obtain ⟨hl, hr, hm⟩ := freshOn_imp (fresh ▸ k)
    exact ⟨closed_of_isOpen (left ▸ hl), closed_of_isOpen (right ▸ hr), mode ▸ hm⟩
  · obtain ⟨hd, hh, hm⟩ := freezerOn_imp (freezer ▸ k)
    exact ⟨closed_of_isOpen (door ▸ hd), heater.symm.trans hh, mode ▸ hm⟩
  · exact closed_of_isOpen (drawer ▸ targetOf_imp (target ▸ k))

/-- A heater that is ON finds FREEZE not fed and serves a defrost in HEAT or SERVICE (R116, R130). -/
theorem heaterLaw_outputs {s : State} (h : HeaterLaw s) (on : s.heaterOutput = true) :
    ¬ (s.arb.comp.state.turning = true ∧ s.arb.valve.toward .freeze = true) ∧ s.ctl.mode ≠ .hold
    ∧ ((s.defrost.phase = .heat ∧ s.arb.hold = true ∧ s.ctl.mode = .run) ∨ s.ctl.mode = .service) := by
  obtain ⟨serves, _, outside, _, _⟩ := h
  have hon : s.defrost.heater = .on := by simpa [State.heaterOutput] using on
  obtain ⟨unfed, use⟩ := serves (by rw [hon]; decide)
  have place : (s.defrost.phase = .heat ∧ s.arb.hold = true ∧ s.ctl.mode = .run) ∨ s.ctl.mode = .service := by
    rcases use with ⟨_, phase, hold⟩ | ⟨_, mode⟩
    · refine Or.inl ⟨phase, hold, Decidable.byContradiction fun k => ?_⟩
      have idle := (outside k).1
      rw [phase] at idle
      exact absurd idle (by decide)
    · exact Or.inr mode
  refine ⟨?_, ?_, place⟩
  · rintro ⟨turns, toward⟩
    simp [Arbiter.feedsFreeze, turns, toward] at unfed
  · rcases place with ⟨_, _, mode⟩ | mode <;> rw [mode] <;> decide

/-- The queue holds its LINK entries, each with a tag, and its DEFROST entries, each with none. -/
theorem queue_length (k : Scheduler) :
    k.queue.length = k.linkTags.length + (k.queue.filter fun q => q.tag.isNone).length := by
  unfold Scheduler.linkTags
  induction k.queue with
  | nil => rfl
  | cons q l ih =>
    cases hq : q.tag <;> simp [hq, ih] <;> omega

/-- Seven outstanding tags and one DEFROST entry: the queue never holds more than 8 entries (R69, R70). -/
theorem queueLaw_length {s : State} (h : QueueLaw s) : s.sched.queue.length ≤ 8 := by
  obtain ⟨one, _, tags, _, seven⟩ := h
  have total := tags.length_eq
  rw [List.length_append] at total
  rw [queue_length]
  omega

/-! ### The laws along every step -/

/-- Settles O4: `Moves.airLaw` for the commands, `tick_air` for a millisecond. -/
theorem everyStepKeepsTheAirLaw : Obligations.EveryStepKeepsTheAirLaw := by
  refine ⟨fun s t h e => ?_, fun s h => airLaw_outputs h⟩
  exact step_keeps (P := AirLaw) (fun _ _ k => k) (exec_keeps Moves.airLaw) tick_air e h

/-- Settles O5: `Moves.loadLaw` for the commands, `tick_load` for a millisecond. -/
theorem everyStepKeepsTheLoadLaw : Obligations.EveryStepKeepsTheLoadLaw := fun _ _ h e =>
  step_keeps (P := LoadLaw) (fun _ _ k => k) (exec_keeps Moves.loadLaw) tick_load e h

/-- The end of a command restores from the link's records their law between events. -/
theorem exec_linkLaw {c : Instr} {s u : State} (e : exec c s = .next u) (h : LinkLaw s) : LinkLaw u := by
  obtain ⟨t, ht, rfl⟩ := exec_moves e
  exact finish_link s (ht.linkIn h.inner)

/-- Settles O6: `exec_linkLaw` for the commands, `tick_link` for a millisecond. -/
theorem everyStepKeepsTheLinkLaw : Obligations.EveryStepKeepsTheLinkLaw := fun _ _ h e =>
  step_keeps (P := LinkLaw) (fun _ _ k => k) exec_linkLaw tick_link e h

/-- Settles O7: `Moves.heaterLaw` carries both laws over the commands, `tick_arbLaw` this one over a millisecond. -/
theorem everyStepKeepsTheArbiterLaw : Obligations.EveryStepKeepsTheArbiterLaw := fun _ _ h e =>
  step_keeps (P := fun s => ArbLaw s.arb) (fun _ _ k => k)
    (exec_keeps (P := fun s => ArbLaw s.arb) fun m k => (m.heaterLaw k).1) tick_arbLaw e h

/-- Settles O8: the law rides on the arbiter's, which every step keeps too; its outputs by `heaterLaw_outputs`. -/
theorem everyStepKeepsTheHeaterLaw : Obligations.EveryStepKeepsTheHeaterLaw := by
  constructor
  · intro s t arb heater e
    have both : ArbLaw t.arb ∧ HeaterLaw t :=
      step_keeps (P := fun s => ArbLaw s.arb ∧ HeaterLaw s) (fun _ _ k => k)
        (exec_keeps (P := fun s => ArbLaw s.arb ∧ HeaterLaw s) fun m k => ⟨(m.heaterLaw k.1).1, (m.heaterLaw k.1).2 k.2⟩)
        (fun s k => ⟨tick_arbLaw s k.1, tick_heaterLaw s k.2⟩) e ⟨arb, heater⟩
    exact both.2
  · intro s h on
    obtain ⟨unfed, mode, serves⟩ := heaterLaw_outputs h on
    refine ⟨unfed, mode, serves, fun air => ?_⟩
    by_contra fan
    have off := ((airLaw_outputs air).2.1 (by simpa using fan)).2.1
    rw [on] at off
    cases off

/-- Settles O9: `Moves.queueLaw` for the commands, `tick_queueLaw` for a millisecond, the bound by `queueLaw_length`. -/
theorem everyStepKeepsTheQueueLaw : Obligations.EveryStepKeepsTheQueueLaw :=
  ⟨fun _ _ h e => step_keeps (P := QueueLaw) (fun _ _ k => k) (exec_keeps Moves.queueLaw) tick_queueLaw e h,
    fun _ h => queueLaw_length h⟩

/-! ### The minimum off time -/

/-- The commands that can end OFF_LOCKED: the timer's expiry, the resets, and the end of a frame. -/
theorem unlocks_cases {c : Instr} (h : unlocks c = true) :
    c = .minOffExpiry ∨ c = .powerOnReset ∨ c = .commandedReset ∨ c = .frameTransmitted := by
  cases c <;> simp_all [unlocks]

/-- No command but a reset frees a compressor in OFF_LOCKED with time left on its timer: neither does the timer's own expiry,
which is not due (R38). -/
theorem exec_locked_moves {c : Instr} {s u : State} (left : 0 < s.arb.comp.minOffLeft) (power : c ≠ .powerOnReset)
    (reset : (∃ x ∈ s.link.tx, x.what = .reply .reset) → c ≠ .commandedReset ∧ c ≠ .frameTransmitted)
    (e : exec c s = .next u) : ∃ t, Moves false s t ∧ u = finish s t := by
  cases hu : unlocks c with
  | false => exact hu ▸ exec_moves e
  | true =>
    rcases unlocks_cases hu with rfl | rfl | rfl | rfl
    · have early : minOffDue s = false := by simp [minOffDue]; omega
      exact runWhen_moves (fun due => absurd due (by simp [early])) e
    · exact absurd rfl power
    · refine runWhen_moves (fun sent => absurd rfl (reset ?_).1) e
      simpa [Option.any_eq_true] using sent
    · exact outcome_moves (moves_frameSent_false (fun sent => (reset sent).2 rfl) .refl) e

/-- The speed line of a compressor in OFF_LOCKED is off (section 2.4). -/
theorem speedLine_offLocked {s : State} (h : s.arb.comp.state = .offLocked) : s.speedLine = 0 := by
  unfold State.speedLine
  rw [h]

/-- Settles O10: `exec_locked_moves`, and such moves keep OFF_LOCKED and its timer (`Moves.staysLocked`). -/
theorem minimumOffTimeHolds : Obligations.MinimumOffTimeHolds := by
  intro c s t locked left power reset e
  obtain ⟨x, hx, rfl⟩ := exec_locked_moves left power reset e
  obtain ⟨state, timer⟩ := (moves_finish s hx).staysLocked locked
  exact ⟨state, timer, speedLine_offLocked state⟩

/-! ### The front command, the millisecond and the reset state -/

/-- Settles O1. -/
theorem stepTakesFrontCommand : Obligations.StepTakesFrontCommand := fun _ _ => rfl

/-- The clock after a millisecond (00 "Time"). -/
theorem tick_clock (s : State) :
    if s.ms + 1 = 1000 then (tick s).ms = 0 ∧ (tick s).uptime = s.uptime + 1
    else (tick s).ms = s.ms + 1 ∧ (tick s).uptime = s.uptime := by
  unfold tick msTick
  dsimp only
  split
  · exact ⟨rfl, rfl⟩
  · exact ⟨rfl, rfl⟩

/-- A millisecond leaves the fault table, the pins and the load's record as they are. -/
theorem tick_frame (s : State) : (tick s).fault = s.fault ∧ (tick s).pins = s.pins ∧ (tick s).budget = s.budget := by
  unfold tick msTick
  dsimp only
  split <;> exact ⟨rfl, rfl, rfl⟩

/-- Settles O2: with the queue empty the step is `tick`; the queue's order is an arrangement of the due commands. -/
theorem emptyQueuePassesAMillisecond : Obligations.EmptyQueuePassesAMillisecond := by
  intro s empty
  obtain ⟨fault, pins, budget⟩ := tick_frame s
  refine ⟨tick s, ?_, tick_clock s, arrange_perm _ _, (tick_mode s).1, fault, pins, budget, tickSettings s⟩
  unfold step
  rw [empty]

/-- The state after reset is that of a power-on reset with the pins of the first start, but for the link. -/
theorem reset_link : State.reset = { freshState State.reset with link := State.reset.link } := rfl

/-- Settles O3: the laws of the blocks are those of `freshState`; the link carries its STATUS notice alone. -/
theorem resetObeysTheLaws : Obligations.ResetObeysTheLaws := by
  have air : AirLaw State.reset := freshState_air State.reset
  have load : LoadLaw State.reset := freshState_load State.reset
  have heater : HeaterLaw State.reset := fresh_heaterLaw State.reset
  have link : LinkLaw State.reset := by
    refine ⟨List.nodup_nil, by decide, by decide, fun _ => rfl, rfl, ?_, ?_⟩
    · intro idle; cases idle
    · intro p taken; cases taken
  have queue : QueueLaw State.reset := fresh_queueLaw State.reset
  exact ⟨air, load, link, fresh_arbLaw State.reset, heater, queue, rfl, rfl⟩

end Sys2Proof.Machine

namespace Sys2Proof.Machine

/-! ### A request and its owner (R191, R197) -/

/-- The command is the arrival of a frame of this kind and tag, of a length its kind takes, which its owner answers by
`own`. -/
def Reaches (c : Instr) (kind tag : Byte) (own : State → Answer) : Prop :=
  ∃ f ls, frameOf c = some f ∧ f.kind = kind ∧ f.tag = tag ∧ takenLengths kind = some ls
    ∧ ls.contains f.payload.length = true ∧ ∀ u, handle u f = own u

section
variable {c : Instr} {s : State} {kind tag : Byte} {own : State → Answer} {p : List Byte} {Q : State → Prop}

/-- An owner whose act needs no feeding check, or leaves no hold, changes nothing more than its act and the link. -/
theorem Reaches.answers (h : Reaches c kind tag own) (hr : Ready s) (u : Frame → State)
    (hj : ∀ f, own (placed (restartIdle s) f) = (u f, p))
    (hq : ∀ f, feedingMoved s (u f) = false ∨ (u f).arb.hold = false) (hQ : ∀ f t, OnlyLink (u f) t → Q t) :
    Answers c s kind tag p Q := by
  obtain ⟨f, ls, hc, hf, ht, hl, hn, own_eq⟩ := h
  exact answers_known_when hr (exec_frame hc s) hf ht (known_kind hl) hl hn (u f) ((own_eq _).trans (hj f)) (hq f) (hQ f)

/-- Whatever an owner does, acts of the blocks alone follow it (R55, R192). -/
theorem Reaches.answers_acts (h : Reaches c kind tag own) (hr : Ready s) (u : Frame → State)
    (hj : ∀ f, own (placed (restartIdle s) f) = (u f, p))
    (hQ : ∀ f l z, Acts 0 { u f with link := l } z → Q (settleLink z)) : Answers c s kind tag p Q := by
  obtain ⟨f, ls, hc, hf, ht, hl, hn, own_eq⟩ := h
  exact Machine.answers_acts hr (exec_frame hc s) hf ht (known_kind hl) hl hn (u f) ((own_eq _).trans (hj f)) (hQ f)

/-- An owner that answers from the state as it stands changes nothing but the link and the service idle timer (R174). -/
theorem Reaches.reads (h : Reaches c kind tag own) (hr : Ready s)
    (hj : ∀ f, own (placed (restartIdle s) f) = (placed (restartIdle s) f, p)) :
    Answers c s kind tag p (OnlyLink (restartIdle s)) :=
  h.answers hr _ hj (fun f => Or.inl (moved_restart s f)) fun _ _ only => only

/-- A request that its owner refuses (R196). -/
theorem Reaches.refused {x : Status} (h : Reaches c kind tag own) (hr : Ready s)
    (hj : ∀ f, own (placed (restartIdle s) f) = refuse (placed (restartIdle s) f) x) : Refused c s kind tag x :=
  h.reads hr hj

end

section
variable (tag b v : Byte)

theorem reaches_getState : Reaches (.getState tag) 0x01 tag fun s => answer s (replyState s) :=
  ⟨_, [0], rfl, rfl, rfl, by decide, rfl, fun _ => rfl⟩

theorem reaches_start : Reaches (.start tag) 0x02 tag doStart :=
  ⟨_, [0], rfl, rfl, rfl, by decide, rfl, fun _ => rfl⟩

theorem reaches_stop : Reaches (.stop tag) 0x03 tag doStop :=
  ⟨_, [0], rfl, rfl, rfl, by decide, rfl, fun _ => rfl⟩

theorem reaches_reset : Reaches (.reset tag) 0x04 tag doReset :=
  ⟨_, [0], rfl, rfl, rfl, by decide, rfl, fun _ => rfl⟩

theorem reaches_setZone (carried enabled nl rl prof : Byte) (sp hb on off : Half) :
    Reaches (.setZone tag b carried enabled sp hb nl rl on off prof) 0x08 tag fun s => doSetZone s b
      { carried := carried, enabled := enabled, setpoint := sp, halfBand := hb, normalLevel := nl, recoveryLevel := rl
        onTime := on, offTime := off, profile := prof } := by
  refine ⟨_, [14], rfl, rfl, rfl, by decide, rfl, fun u => ?_⟩
  show doSetZone u b { carried := carried, enabled := enabled, setpoint := half (hiByte sp) (loByte sp)
                       halfBand := half (hiByte hb) (loByte hb), normalLevel := nl, recoveryLevel := rl
                       onTime := half (hiByte on) (loByte on), offTime := half (hiByte off) (loByte off), profile := prof } = _
  simp only [half_bytes]

theorem reaches_getZone : Reaches (.getZone tag b) 0x09 tag fun s => doGetZone s b :=
  ⟨_, [1], rfl, rfl, rfl, by decide, rfl, fun _ => rfl⟩

theorem reaches_setTiming (carried : Byte) (w x y z t : Half) :
    Reaches (.setTiming tag carried w x y z t) 0x0A tag fun s => doSetTiming s
      { carried := carried, minOff := w, minOn := x, minDwell := y, maxWait := z, maxRun := t } := by
  refine ⟨_, [11], rfl, rfl, rfl, by decide, rfl, fun u => ?_⟩
  show doSetTiming u { carried := carried, minOff := half (hiByte w) (loByte w), minOn := half (hiByte x) (loByte x)
                       minDwell := half (hiByte y) (loByte y), maxWait := half (hiByte z) (loByte z)
                       maxRun := half (hiByte t) (loByte t) } = _
  simp only [half_bytes]

theorem reaches_getArbiter : Reaches (.getArbiter tag b) 0x0B tag fun s => doGetArbiter s b :=
  ⟨_, [1], rfl, rfl, rfl, by decide, rfl, fun _ => rfl⟩

theorem reaches_setBudget (carried n m : Byte) :
    Reaches (.setBudget tag carried n m) 0x0C tag fun s => doSetBudget s { carried := carried, budget := n, mode := m } :=
  ⟨_, [3], rfl, rfl, rfl, by decide, rfl, fun _ => rfl⟩

theorem reaches_setChannel (carried p q : Byte) (x : Half) :
    Reaches (.setChannel tag b carried p q x) 0x10 tag fun s =>
      doSetChannel s b { carried := carried, period := p, policy := q, offset := x } := by
  refine ⟨_, [6], rfl, rfl, rfl, by decide, rfl, fun u => ?_⟩
  show doSetChannel u b { carried := carried, period := p, policy := q, offset := half (hiByte x) (loByte x) } = _
  rw [half_bytes]

theorem reaches_readChannel : Reaches (.readChannel tag b) 0x11 tag fun s => doReadChannel s b :=
  ⟨_, [1], rfl, rfl, rfl, by decide, rfl, fun _ => rfl⟩

theorem reaches_measure : Reaches (.measure tag b) 0x12 tag fun s => doMeasure s tag b :=
  ⟨_, [1], rfl, rfl, rfl, by decide, rfl, fun _ => rfl⟩

theorem reaches_clearQueue : Reaches (.clearQueue tag) 0x13 tag doClearQueue :=
  ⟨_, [0], rfl, rfl, rfl, by decide, rfl, fun _ => rfl⟩

theorem reaches_substitute (x : Half) : Reaches (.substitute tag b x) 0x14 tag fun s => doSubstitute s b x :=
  ⟨_, [3], rfl, rfl, rfl, by decide, rfl, fun u => handle_substitute u tag b x⟩

theorem reaches_setDefrost (carried n : Byte) (x : Half) :
    Reaches (.setDefrost tag carried n x) 0x18 tag fun s =>
      doSetDefrost s { carried := carried, interval := n, terminate := x } := by
  refine ⟨_, [4], rfl, rfl, rfl, by decide, rfl, fun u => ?_⟩
  show doSetDefrost u { carried := carried, interval := n, terminate := half (hiByte x) (loByte x) } = _
  rw [half_bytes]

theorem reaches_getDefrost : Reaches (.getDefrost tag) 0x19 tag fun s => answer s (replyDefrost s.defrost) :=
  ⟨_, [0], rfl, rfl, rfl, by decide, rfl, fun _ => rfl⟩

theorem reaches_defrostStart : Reaches (.defrostStart tag) 0x1A tag doDefrostStart :=
  ⟨_, [1], rfl, rfl, rfl, by decide, rfl, fun _ => rfl⟩

theorem reaches_defrostAbort : Reaches (.defrostAbort tag) 0x1A tag doDefrostAbort :=
  ⟨_, [1], rfl, rfl, rfl, by decide, rfl, fun _ => rfl⟩

theorem reaches_getFault (i : Option Byte) : Reaches (.getFault tag i) 0x20 tag fun s => doGetFault s i := by
  cases i <;> exact ⟨_, [0, 1], rfl, rfl, rfl, by decide, rfl, fun _ => rfl⟩

theorem reaches_clearFault : Reaches (.clearFault tag b) 0x21 tag fun s => doClearFault s b :=
  ⟨_, [1], rfl, rfl, rfl, by decide, rfl, fun _ => rfl⟩

theorem reaches_setNotice (carried ms mz md mf mm mb q uw rw : Byte) (sp pe aj : Half) :
    Reaches (.setNotice tag carried ms mz md mf mm mb q uw rw sp pe aj) 0x24 tag fun s => doSetNotice s
      { carried := carried, mapStatus := ms, mapZone := mz, mapDoor := md, mapDefrost := mf, mapMeasure := mm
        mapBudget := mb, quiet := q, urgentWeight := uw, routineWeight := rw, spacing := sp, period := pe, ajar := aj } := by
  refine ⟨_, [16], rfl, rfl, rfl, by decide, rfl, fun u => ?_⟩
  show doSetNotice u
    { carried := carried, mapStatus := ms, mapZone := mz, mapDoor := md, mapDefrost := mf, mapMeasure := mm, mapBudget := mb
      quiet := q, urgentWeight := uw, routineWeight := rw, spacing := half (hiByte sp) (loByte sp)
      period := half (hiByte pe) (loByte pe), ajar := half (hiByte aj) (loByte aj) } = _
  simp only [half_bytes]

theorem reaches_serviceEnter : Reaches (.serviceEnter tag) 0x28 tag doServiceEnter :=
  ⟨_, [0], rfl, rfl, rfl, by decide, rfl, fun _ => rfl⟩

theorem reaches_serviceExit : Reaches (.serviceExit tag) 0x29 tag doServiceExit :=
  ⟨_, [0], rfl, rfl, rfl, by decide, rfl, fun _ => rfl⟩

theorem reaches_freshFan : Reaches (.forceFreshFan tag v) 0x2A tag fun s => doForceFreshFan s v :=
  ⟨_, [2], rfl, rfl, rfl, by decide, rfl, fun _ => rfl⟩

theorem reaches_freezerFan : Reaches (.forceFreezerFan tag v) 0x2A tag fun s => doForceFreezerFan s v :=
  ⟨_, [2], rfl, rfl, rfl, by decide, rfl, fun _ => rfl⟩

theorem reaches_condenserFan : Reaches (.forceCondenserFan tag v) 0x2A tag fun s => doForceCondenserFan s v :=
  ⟨_, [2], rfl, rfl, rfl, by decide, rfl, fun _ => rfl⟩

theorem reaches_damper : Reaches (.forceDamperTarget tag v) 0x2A tag fun s => doForceDamper s v :=
  ⟨_, [2], rfl, rfl, rfl, by decide, rfl, fun _ => rfl⟩

theorem reaches_valve : Reaches (.forceValveTarget tag v) 0x2A tag fun s => doForceValve s v :=
  ⟨_, [2], rfl, rfl, rfl, by decide, rfl, fun _ => rfl⟩

theorem reaches_level : Reaches (.forceCompressorLevel tag v) 0x2A tag fun s => doForceLevel s v :=
  ⟨_, [2], rfl, rfl, rfl, by decide, rfl, fun _ => rfl⟩

theorem reaches_heater : Reaches (.forceDefrostHeater tag v) 0x2A tag fun s => doForceHeater s v :=
  ⟨_, [2], rfl, rfl, rfl, by decide, rfl, fun _ => rfl⟩

theorem reaches_mullion : Reaches (.forceMullionHeater tag v) 0x2A tag fun s => doForceMullion s v :=
  ⟨_, [2], rfl, rfl, rfl, by decide, rfl, fun _ => rfl⟩

end

/-! ### The reading requests (R200 to R207) -/

@[simp] theorem placed_pins (s : State) (f : Frame) : (placed s f).pins = s.pins := rfl

/-- Settles O11: each request's owner answers from the state that it finds; the link is in none of the replies. -/
theorem readingRequestsAreAnswered : Obligations.ReadingRequestsAreAnswered := by
  intro s tag hr
  refine ⟨(reaches_getState tag).reads hr fun _ => rfl, fun b z hz => ?zone, ?machines, ?list, ?grant, ?defrost, fun b c hc => ?channel⟩
  case zone =>
    exact (reaches_getZone tag b).reads hr fun f => by simp [doGetZone, hz, answer]
  case machines =>
    exact (reaches_getArbiter tag 0).reads hr fun f => by simp [doGetArbiter, answer, replyMachines]
  case list =>
    exact (reaches_getArbiter tag 1).reads hr fun f => by simp [doGetArbiter, answer]
  case grant =>
    exact (reaches_getArbiter tag 2).reads hr fun f => by simp [doGetArbiter, answer]
  case defrost =>
    exact (reaches_getDefrost tag).reads hr fun f => by simp [answer]
  case channel =>
    exact (reaches_readChannel tag b).answers hr
      (fun f => (placed (restartIdle s) f).onChannel c fun r => { r with overrun := false })
      (fun f => by simp [doReadChannel, hc, answer]) (fun f => Or.inl (moved_arb (by simp))) fun _ _ only => only

/-- Settles O13: the reply is formed from the record; an empty one uses up a free value (log 7). -/
theorem getFaultReadsAPage : Obligations.GetFaultReadsAPage := by
  intro s tag i hr hi
  have start : ¬ 15 < (i.map BitVec.toNat).getD 0 := by
    cases i with
    | none => decide
    | some n => exact Nat.not_lt.2 (hi n rfl)
  refine (reaches_getFault tag i).answers hr
    (fun f => if s.fault.capture.isNone then takeFree (placed (restartIdle s) f) else placed (restartIdle s) f)
    (fun f => ?reply) (fun f => Or.inl (moved_arb ?arb)) fun f t only => ?frame
  case reply =>
    unfold doGetFault
    dsimp only
    rw [if_neg start]
    simp [answer]
  case arb => split <;> simp [takeFree]
  case frame =>
    unfold OnlyLink at only
    rw [only]
    split <;> simp [takeFree, placed]

/-! ### Values out of range (R197) -/

theorem zoneOf_none {b : Byte} (h : 2 < b.toNat) : zoneOf b = none := by
  obtain ⟨n, hn⟩ : ∃ n, b.toNat = n + 3 := ⟨b.toNat - 3, by omega⟩
  simp [zoneOf, hn]

theorem chanOf_none {b : Byte} (h : 7 < b.toNat) : chanOf b = none := by
  obtain ⟨n, hn⟩ : ∃ n, b.toNat = n + 8 := ⟨b.toNat - 8, by omega⟩
  simp [chanOf, hn]

/-- A byte that names no channel and none of the four units names no object (R159). -/
theorem clearObject_none {b : Byte} (h : 7 < b.toNat) (hu : b.toNat < 0x10 ∨ 0x13 < b.toNat) (ha : b ≠ 0xFF) :
    clearObject b = none := by
  unfold clearObject faultObjectOf
  rw [if_neg ha]
  split <;> first | omega | simp [chanOf_none h]

theorem force_badValue {α : Type} {s : State} {o : Option α} {l : α → Option Interlock} {t : α → State} (h : o = none) :
    doForce s o l t = refuse s .badValue := by
  subst h; rfl

theorem levelOf_none {v : Byte} (h : 5 < v.toNat) : levelOf v = none := if_neg (Nat.not_le.2 h)

/-- Settles O14: each owner checks what it names before its mode and before anything it does. -/
theorem valuesOutOfRangeAreRefused : Obligations.ValuesOutOfRangeAreRefused := by
  intro s tag b v h hr
  refine ⟨fun hb => ⟨?getZone, ?getArbiter, fun carried enabled nl rl prof sp hb on off => ?setZone⟩,
    fun hb => ⟨?read, ?measure, ?substitute, fun carried p q x => ?setChannel⟩, fun hb => ?getFault,
    fun hb hu ha => ?clearFault, fun hv => ?forces, fun hv => ?level⟩
  case getZone => exact (reaches_getZone tag b).refused hr fun f => by simp [doGetZone, zoneOf_none hb]
  case getArbiter =>
    refine (reaches_getArbiter tag b).refused hr fun f => ?_
    obtain ⟨n, hn⟩ : ∃ n, b.toNat = n + 3 := ⟨b.toNat - 3, by omega⟩
    simp [doGetArbiter, hn]
  case setZone =>
    rename_i hz
    exact (reaches_setZone tag b carried enabled nl rl prof sp hb on off).refused hr fun f => by
      simp [doSetZone, zoneOf_none hz]
  case read => exact (reaches_readChannel tag b).refused hr fun f => by simp [doReadChannel, chanOf_none hb]
  case measure => exact (reaches_measure tag b).refused hr fun f => by simp [doMeasure, chanOf_none hb]
  case substitute => exact substitute_refused hr fun u => doSubstitute_badValue u (.inl (chanOf_none hb))
  case setChannel =>
    exact (reaches_setChannel tag b carried p q x).refused hr fun f => by simp [doSetChannel, chanOf_none hb]
  case getFault =>
    exact (reaches_getFault tag (some b)).refused hr fun f => if_pos hb
  case clearFault =>
    exact (reaches_clearFault tag b).refused hr fun f => by simp [doClearFault, clearObject_none hb hu ha]
  case forces =>
    obtain ⟨onOff, evap, damper⟩ := ge_two hv
    exact ⟨(reaches_freshFan tag v).refused hr fun _ => force_badValue onOff,
      (reaches_freezerFan tag v).refused hr fun _ => force_badValue onOff,
      (reaches_condenserFan tag v).refused hr fun _ => force_badValue onOff,
      (reaches_damper tag v).refused hr fun _ => force_badValue damper,
      (reaches_valve tag v).refused hr fun _ => force_badValue evap,
      (reaches_heater tag v).refused hr fun _ => force_badValue onOff,
      (reaches_mullion tag v).refused hr fun _ => force_badValue onOff⟩
  case level => exact (reaches_level tag v).refused hr fun _ => force_badValue (levelOf_none hv)

/-! ### Requests out of their mode or phase (R171 to R178, R125, R126) -/

theorem forced_values {v : Byte} (h : v.toNat ≤ 1) : boolOf v ≠ none ∧ evapOf v ≠ none ∧ damperEndOf v ≠ none := by
  rcases of_le_one h with rfl | rfl <;> decide

/-- Settles O15: the owner's first check after the value is the mode, or the phase. -/
theorem requestsOutOfPlaceAreRefused : Obligations.RequestsOutOfPlaceAreRefused := by
  intro s tag v hr
  have mode : ∀ f, (placed (restartIdle s) f).ctl.mode = s.ctl.mode := fun f => by simp
  refine ⟨fun hm => ⟨?start, ?enter⟩, fun hm => ?stop, fun hm => ?exit, fun hp => ?defrostStart, fun hp => ?defrostAbort,
    fun hm hv => ?forces, fun hm hv => ?level⟩
  case start => exact (reaches_start tag).refused hr fun f => if_neg (mode f ▸ hm)
  case enter => exact (reaches_serviceEnter tag).refused hr fun f => if_neg (mode f ▸ hm)
  case stop => exact (reaches_stop tag).refused hr fun f => by simp [doStop, hm]
  case exit => exact (reaches_serviceExit tag).refused hr fun f => if_neg (mode f ▸ hm)
  case defrostStart => exact (reaches_defrostStart tag).refused hr fun f => by simp [doDefrostStart, hp]
  case defrostAbort =>
    refine (reaches_defrostAbort tag).refused hr fun f => ?_
    rcases hp with hp | hp | hp <;> simp [doDefrostAbort, hp]
  case forces =>
    obtain ⟨onOff, evap, damper⟩ := forced_values hv
    have wrong : ∀ f, (placed (restartIdle s) f).ctl.mode ≠ .service := fun f => mode f ▸ hm
    exact ⟨(reaches_freshFan tag v).refused hr fun f => force_wrong (wrong f) onOff,
      (reaches_freezerFan tag v).refused hr fun f => force_wrong (wrong f) onOff,
      (reaches_condenserFan tag v).refused hr fun f => force_wrong (wrong f) onOff,
      (reaches_damper tag v).refused hr fun f => force_wrong (wrong f) damper,
      (reaches_valve tag v).refused hr fun f => force_wrong (wrong f) evap,
      (reaches_heater tag v).refused hr fun f => force_wrong (wrong f) onOff,
      (reaches_mullion tag v).refused hr fun f => force_wrong (wrong f) onOff⟩
  case level =>
    exact (reaches_level tag v).refused hr fun f => force_wrong (mode f ▸ hm) (by rw [of_le_five hv]; simp)

/-! ### Frames of an unknown kind or a wrong length (R197) -/

/-- A frame that the interface itself refuses is answered under its own kind, and changes nothing but the link: the service
idle timer runs on. -/
theorem frame_refused {c : Instr} {s : State} {f : Frame} {x : Status} (hr : Ready s) (hc : frameOf c = some f)
    (hj : ∀ u, judge u f = refuse u x) :
    ∃ t, exec c s = .next t ∧ OnlyLink s t ∧ Carries t (replyFrame f [statusCode x]) := by
  obtain ⟨t, runs, only, carries, _⟩ := request_quiet hr f (Or.inl (by rw [hj]; exact moved_arb rfl))
  rw [hj] at only carries
  exact ⟨t, (exec_frame hc s).trans runs, only, carries⟩

/-- The interface's check of the kind. -/
theorem judge_unknown {s : State} {f : Frame} (h : takenLengths f.kind = none) : judge s f = refuse s .badKind := by
  unfold judge
  rw [h]

/-- The interface's check of the length. -/
theorem judge_length {s : State} {f : Frame} {ls : List Nat} (h : takenLengths f.kind = some ls)
    (hl : ls.contains f.payload.length = false) : judge s f = refuse s .badLength := by
  unfold judge
  rw [h]
  exact if_neg (by rw [hl]; decide)

/-- Settles O16: a well-formed BAD_KIND fails the interface's check of the kind, a BAD_LENGTH that of the length. -/
theorem unknownFramesAreAnswered : Obligations.UnknownFramesAreAnswered := by
  intro s tag kind payload hr
  refine ⟨fun wf => ?unknown, fun wf => ?length⟩
  case unknown =>
    simp only [WellFormed, Bool.and_eq_true, Option.isNone_iff_eq_none] at wf
    exact frame_refused (c := .badKind tag kind payload) hr rfl fun u => judge_unknown wf.1
  case length =>
    cases hl : takenLengths kind with
    | none => simp [WellFormed, hl] at wf
    | some ls =>
      simp only [WellFormed, hl, Bool.and_eq_true, Bool.not_eq_true'] at wf
      obtain ⟨t, runs, only, carries⟩ := frame_refused (c := .badLength tag kind payload) hr rfl
        fun u => judge_length hl wf.1
      refine ⟨t, runs, only, ?_⟩
      rwa [replyFrame_eq rfl rfl (known_kind hl)] at carries

end Sys2Proof.Machine

namespace Sys2Proof.Machine

/-! ### A request that finds the execution place occupied (R190) -/

/-- Once a RESET has been taken no request is received (R176). -/
theorem handFrame_taken {s : State} (h : s.link.resetTaken = true) (f : Frame) : handFrame s f = s := if_pos h

/-- Beside an occupied execution place a frame waits while there is room, else is answered BUSY (R190). -/
theorem handFrame_occupied {s : State} (hp : s.link.place ≠ none) (h : s.link.resetTaken = false) (f : Frame) :
    handFrame s f = if s.link.waiting.length < 2 then s.onLink fun l => { l with waiting := l.waiting ++ [f] }
      else busyReply s f := by
  unfold handFrame
  rw [h]
  cases hq : s.link.place with
  | none => exact absurd hq hp
  | some p => rfl

/-- A BUSY reply is on its way, and beside the link's transmitter nothing has changed (R190). -/
theorem busy_outcome {s : State} {f : Frame} (hl : LinkLaw s) (hr : s.link.replies.length < 4) :
    ∃ t, outcome s (busyReply s f) = .next t ∧ OnlyLink s t ∧ t.link.waiting = s.link.waiting
      ∧ t.link.place = s.link.place ∧ Carries t (replyFrame f [statusCode .busy]) := by
  have e : busyReply s f = appendReply s (replyFrame f [statusCode .busy]) .busy := if_pos hr
  have carries : Carries (appendReply s (replyFrame f [statusCode .busy]) .busy) (replyFrame f [statusCode .busy]) :=
    Or.inl ⟨_, List.mem_append_right _ (List.mem_singleton.2 rfl), rfl⟩
  have settle := settleLink_reply (s := appendReply s (replyFrame f [statusCode .busy]) .busy) (by simp [appendReply])
  have ends : outcome s (busyReply s f) = .next (settleLink (appendReply s (replyFrame f [statusCode .busy]) .busy)) := by
    have still : recheck s (appendReply s (replyFrame f [statusCode .busy]) .busy) = _ :=
      recheck_still (Or.inl (moved_arb (by simp)))
    rw [e]
    unfold outcome
    rw [finish_ready]
    · rw [still]
    · rw [still]
      refine executeReady_not fun p hp ha => ?_
      rw [settleLink_place] at hp
      exact absurd (hl.settled.2 p hp ha) (Nat.not_le.2 hr)
  refine ⟨_, ends, ?_, ?_, ?_, carries_settle carries⟩
  · rw [settle]; rfl
  · rw [settleLink_waiting]; rfl
  · rw [settleLink_place]; rfl

/-- Settles O17: `handFrame_occupied`, by the room of the waiting places and of the reply list. -/
theorem fullListsTurnRequestsAway : Obligations.FullListsTurnRequestsAway := by
  intro s c f hl hp ht hc
  have hand := handFrame_occupied hp ht f
  have ends : exec c s = outcome s (handFrame s f) := exec_frame hc s
  refine ⟨fun room => ?waits, fun full room => ?busy, fun full none => ?discarded⟩
  case waits =>
    rw [ends, hand, if_pos room]
    have settled : Settled (s.onLink fun l => { l with waiting := l.waiting ++ [f] }) := hl.settled
    show Host.Outcome.next (finish s _) = _
    rw [finish_quiet (moved_arb (State.onLink_arb _ _)) settled]
    rfl
  case busy =>
    rw [ends, hand, if_neg (by omega)]
    exact busy_outcome hl room
  case discarded =>
    have stays : busyReply s f = s := if_neg (by rw [none]; decide)
    rw [ends, hand, if_neg (by omega), stays]
    exact idle_event hl

/-! ### The transmit choice beside a reply (R192) -/

/-- The transmission of a reply. -/
def sendingOf (r : Reply) : Sending := { frame := r.frame, what := .reply r.kind, left := r.frame.lineTime }

/-- The oldest reply is chosen before any notice (R192). -/
theorem choice_reply {s : State} {r : Reply} {rest : List Reply} (h : s.link.replies = r :: rest) :
    transmitChoice s = { s with link := { s.link with boundary := false, replies := rest, tx := some (sendingOf r) } } := by
  unfold transmitChoice
  simp only [State.onLink_link, h]
  rfl

/-- A frame in transmission, or no boundary, leaves the link as it is. -/
theorem settleLink_sending {s : State} (h : s.link.tx ≠ none) : settleLink s = s := by
  unfold settleLink
  rw [if_neg]
  simp [h]

/-- With a reply on its way, the end of a command changes the link alone. -/
theorem settleLink_carries {s : State} {f : Frame} (h : Carries s f) :
    settleLink s = { s with link := (settleLink s).link } := by
  by_cases ht : s.link.tx = none
  · refine settleLink_reply fun empty => ?_
    rcases h with ⟨r, hr, _⟩ | ⟨x, hx, _⟩
    · rw [empty] at hr; cases hr
    · rw [ht] at hx; cases hx
  · rw [settleLink_sending ht]

/-! ### The execution of a request while a frame is in transmission (R191) -/

/-- What the execution of a request leaves of the link: the waiting requests, unless it is a RESET. -/
theorem judge_waiting {x : State} {f : Frame} (h : (judge x f).1.link.resetTaken = false) :
    (judge x f).1.link.waiting = x.link.waiting := by
  rcases judge_acts (x := x) f with k | k
  · exact k.same.2.2.2.2.2.1
  · rw [k] at h; cases h

/-- Beside a frame in transmission the execution of a request makes no transmit choice. -/
theorem judge_busy {x : State} (f : Frame) (h : x.link.tx ≠ none) :
    (judge x f).1.link.tx = x.link.tx ∧ (judge x f).1.link.replies = x.link.replies
      ∧ (judge x f).1.link.boundary = x.link.boundary := by
  rcases judge_acts (x := x) f with k | k
  · exact k.busy h
  · rw [k]
    refine ⟨?_, ?_, ?_⟩ <;> simp [doReset, done]

/-- The state in which a request has been executed beside a frame in transmission (R191, R192): the owner's acts on `u`, the
request ANSWERED, and the replies of `l` but for the oldest, which is in transmission. -/
structure Raised (u : State) (f : Frame) (l : List Reply) (y : State) : Prop where
  acts : y = { (judge u f).1 with link := y.link }
  place : y.link.place = some { frame := f, answered := true }
  waiting : y.link.waiting = (judge u f).1.link.waiting
  reset : y.link.resetTaken = (judge u f).1.link.resetTaken
  boundary : y.link.boundary = false
  replies : y.link.replies = l.tail
  tx : y.link.tx = l.head?.map sendingOf

/-- The reply that the execution of a request at `u` appends (R191, R196). -/
def replyOf (u : State) (f : Frame) : Reply := { frame := replyFrame f (judge u f).2, kind := replyKindOf (judge u f).1 }

/-- The execution of a request is its owner's acts, and of the rest the link alone. -/
theorem execute_link (u : State) (f : Frame) : execute u f = { (judge u f).1 with link := (execute u f).link } := by
  unfold execute
  generalize judge u f = a
  rfl

/-- Where the reply list has room: the request is executed before the transmit choice, its reply joins the list, and the
choice takes the oldest. -/
theorem raised_first {u : State} {f : Frame} (hu : u.link.tx ≠ none) :
    Raised u f (u.link.replies ++ [replyOf u f]) (transmitChoice ((execute u f).onLink fun k => { k with tx := none })) := by
  obtain ⟨_, replies, _⟩ := judge_busy f hu
  have appended : ((execute u f).onLink fun k => { k with tx := none }).link.replies = u.link.replies ++ [replyOf u f] := by
    simp [execute, appendReply, replyOf, replies]
  cases hh : u.link.replies ++ [replyOf u f] with
  | nil => simp at hh
  | cons r rest =>
    rw [hh] at appended
    rw [choice_reply appended]
    constructor
    all_goals (unfold execute; generalize judge u f = a; rfl)

/-- Where the reply list was full: the choice has taken the oldest reply before the request is executed. -/
theorem raised_second {u : State} {f : Frame} {r : Reply} (ht : u.link.tx = some (sendingOf r)) (hb : u.link.boundary = false) :
    Raised u f (r :: u.link.replies ++ [replyOf u f]) (execute u f) := by
  obtain ⟨tx, replies, boundary⟩ := judge_busy f (x := u) (by rw [ht]; simp)
  constructor
  case boundary => simp [execute, appendReply, tx, boundary, ht, hb]
  case replies => simp [execute, appendReply, replies, replyOf]
  case tx => simp [execute, appendReply, tx, ht]
  case acts => exact execute_link u f
  all_goals (unfold execute; generalize judge u f = a; rfl)

/-- The feeding check that such a request brings leaves the link's choice as it is (R55). -/
theorem Raised.recheck {s u y : State} {f : Frame} {l : List Reply} (h : Raised u f l y) (hl : l ≠ []) :
    let t := recheck s y
    settleLink t = t ∧ executeReady t = t ∧ Executed s u f t ∧ t.link.place = some { frame := f, answered := true }
      ∧ t.link.waiting = (judge u f).1.link.waiting ∧ t.link.resetTaken = (judge u f).1.link.resetTaken
      ∧ t.link.replies = l.tail ∧ t.link.tx = l.head?.map sendingOf := by
  have k : Acts 0 y (Machine.recheck s y) := acts_recheck s .refl
  have sends : y.link.tx ≠ none := by rw [h.tx]; cases l <;> simp_all
  obtain ⟨tx, replies, _⟩ := k.busy sends
  obtain ⟨_, _, _, _, place, waiting, reset, _⟩ := k.same
  refine ⟨settleLink_sending (by rw [tx]; exact sends), executeReady_not fun p hp ha => ?_, ⟨y.link, ?_⟩, place.trans h.place,
    waiting.trans h.waiting, reset.trans h.reset, replies.trans h.replies, tx.trans h.tx⟩
  · rw [place, h.place] at hp
    cases hp
    cases ha
  · rw [← h.acts]

/-! ### The end of a frame (R191, R192, R194) -/

/-- The oldest waiting request moves up into the execution place (R191). -/
def movedUp (l : Link) (f : Frame) (rest : List Frame) : Link :=
  { l with place := some { frame := f, answered := false }, waiting := rest }

/-- The oldest reply is in transmission and has left the list (R192). -/
def chosenReply (l : Link) : Link := { l with replies := l.replies.tail, tx := l.replies.head?.map sendingOf }

/-- What the end of an answer brings with a request waiting: the request is executed at `u`, in the place it has moved up to,
after the oldest reply has left a full reply list (R191, R192). -/
theorem answer_followed {s : State} {x : Sending} {f : Frame} {rest : List Frame} (hl : LinkLaw s) (hx : s.link.tx = some x)
    (ha : x.what = .reply .answer) (hw : s.link.waiting = f :: rest) :
    let p := movedUp s.link f rest
    let u := { s with link := if s.link.replies.length < 4 then p else chosenReply p }
    ∃ y, Raised u f (s.link.replies ++ [replyOf u f]) y ∧ exec .frameTransmitted s = .next (recheck s y) := by
  intro p u
  have sent : frameSent s = transmitChoice ((moveUp s).onLink fun l => { l with tx := none }) := by
    unfold frameSent
    rw [hx]
    simp [ha, frameEnd]
  have moved : moveUp s = executeReady { s with link := p } := by
    unfold moveUp
    rw [hw]
    rfl
  by_cases room : s.link.replies.length < 4
  · have hu : u = { s with link := p } := by simp only [u, if_pos room]
    have ready : executeReady { s with link := p } = execute { s with link := p } f := if_pos ⟨rfl, room⟩
    have raised := raised_first (u := u) (f := f) (by rw [hu]; simp [p, movedUp, hx])
    rw [hu] at raised ⊢
    refine ⟨_, raised, ?_⟩
    obtain ⟨settle, still, _⟩ := raised.recheck (s := s) (by simp)
    show Host.Outcome.next (finish s (frameSent s)) = _
    rw [sent, moved, ready, finish_ready (by rw [settle, still]), settle]
  · have hu : u = { s with link := chosenReply p } := by simp only [u, if_neg room]
    cases hr : s.link.replies with
    | nil => rw [hr] at room; exact absurd (Nat.zero_lt_succ 3) room
    | cons r others =>
      have waits : executeReady { s with link := p } = { s with link := p } := if_neg fun q => room q.2
      have chosen : transmitChoice (({ s with link := p } : State).onLink fun l => { l with tx := none }) = u := by
        rw [choice_reply (r := r) (rest := others) (by simp [p, movedUp, hr]), hu]
        simp [chosenReply, p, movedUp, hr, hl.settled.1]
      have tx : u.link.tx = some (sendingOf r) := by rw [hu]; simp [chosenReply, p, movedUp, hr]
      have replies : u.link.replies = others := by rw [hu]; simp [chosenReply, p, movedUp, hr]
      have boundary : u.link.boundary = false := by rw [hu]; exact hl.settled.1
      have arb : u.arb = s.arb := by rw [hu]
      have raised := raised_second (f := f) tx boundary
      rw [replies] at raised
      refine ⟨_, raised, ?_⟩
      obtain ⟨settle, _⟩ := raised.recheck (s := s) (by simp)
      have full : s.link.replies.length = 4 := by have := linkMid_of hl; omega
      have ready : executeReady u = execute u f := by
        unfold executeReady
        have place : u.link.place = some { frame := f, answered := false } := by rw [hu]; rfl
        rw [place]
        refine if_pos ⟨rfl, ?_⟩
        rw [replies]
        rw [hr] at full
        simp only [List.length_cons] at full
        simp only [Config.maxReplies]
        omega
      have first : settleLink (recheck s u) = u := by
        rw [recheck_still (Or.inl (moved_arb arb)), settleLink_sending (by rw [tx]; simp)]
      have second : recheck u (execute u f) = recheck s (execute u f) := by
        unfold recheck feedingMoved
        rw [arb]
      show Host.Outcome.next (finish s (frameSent s)) = _
      rw [sent, moved, waits, chosen]
      unfold finish
      dsimp only
      rw [first, ready, second, settle]

/-- The end of a frame with the execution place settled ends with the transmit choice of the link as that frame leaves it. -/
theorem frame_followed {s y : State} {x : Sending} (hx : s.link.tx = some x) (hr : x.what ≠ .reply .reset)
    (he : frameEnd s x.what = y) (ha : y.arb = s.arb) (hp : ∀ p ∈ y.link.place, p.answered = true) :
    exec .frameTransmitted s = .next (transmitChoice (y.onLink fun l => { l with tx := none })) := by
  have sent : frameSent s = transmitChoice (y.onLink fun l => { l with tx := none }) := by
    unfold frameSent
    rw [hx]
    simp [hr, he]
  show Host.Outcome.next (finish s (frameSent s)) = _
  rw [sent, finish_placed (moved_arb (by simp [ha])) (by simp) (by simpa using hp)]

/-- After an ended frame the oldest reply is the next to be sent, and leaves the list (R192). -/
theorem choice_chosen {y : State} {r : Reply} {rest : List Reply} (h : y.link.replies = r :: rest) :
    let t := transmitChoice (y.onLink fun l => { l with tx := none })
    t.notice = y.notice ∧ t.link.replies = rest ∧ t.link.tx = some (sendingOf r) := by
  intro t
  have e : t = _ := choice_reply (s := y.onLink fun l => { l with tx := none }) h
  rw [e]
  exact ⟨rfl, rfl, rfl⟩

@[simp] theorem rotate_spacing (s : State) : (rotate s).link.spacing = s.link.spacing := by
  unfold rotate
  dsimp only
  split <;> rfl

@[simp] theorem transmitChoice_spacing (s : State) : (transmitChoice s).link.spacing = s.link.spacing := by
  rcases transmitChoice_cases s with ⟨r, l, _, h⟩ | ⟨_, h⟩ <;> rw [h]
  · rfl
  · simp

/-- A sent notice reported (R194, R214). -/
theorem noticeSent_eq (s : State) (k : NoticeKey) (q : Queue) :
    noticeSent s k q = { s with
      sched := { s.sched with tags := match k with | .measure tag => s.sched.tags.filter (· != tag) | _ => s.sched.tags }
      link := { s.link with spacing := if q = .routine ∧ s.notice.spacing ≠ 0 then some 0 else s.link.spacing } } := by
  cases k <;> rfl

/-- A request executed at once (R191). -/
theorem ready_executed {c : Instr} {f : Frame} {s : State} (hr : Ready s) (hc : frameOf c = some f) :
    Leads c s fun t => Carries t (replyFrame f (judge (placed s f) f).2) ∧ Executed s (placed s f) f t := by
  obtain ⟨z, t, runs, ht, hz, k, carries⟩ := request_runs hr f
  have arrives : Carries (execute (placed s f) f) (replyFrame f (judge (placed s f) f).2) :=
    Or.inl ⟨_, List.mem_append_right _ (List.mem_singleton.2 rfl), rfl⟩
  refine ⟨t, (exec_frame hc s).trans runs, carries, (execute (placed s f) f).link, ?_⟩
  rw [← execute_link, ← hz, ht]
  exact settleLink_carries (k.carries arrives)

/-- Settles O38: a READY request by `ready_executed`, a moved up one by `answer_followed`, the other ends of a frame by
`frame_followed`. -/
theorem sentFrameIsFollowed : Obligations.SentFrameIsFollowed := by
  refine ⟨fun c f s hr hc => ready_executed hr hc, fun s x hl hx => ?_⟩
  refine ⟨fun ha hw => ?free, fun f rest ha hw => ?up, fun hb hp => ?busy, fun k q hn hp => ?notice, fun hr => ?reset⟩
  case free =>
    have ends := frame_followed (y := { s with link := { s.link with place := none } }) hx (by rw [ha]; decide)
      (by rw [ha]; simp [frameEnd, moveUp, hw, State.onLink]) rfl (by simp)
    exact ⟨_, ends, choice_only _, by simp, fun r others h => choice_chosen h⟩
  case up =>
    obtain ⟨y, raised, ends⟩ := answer_followed hl hx ha hw
    obtain ⟨_, _, executed, place, waiting, taken, replies, tx⟩ := raised.recheck (s := s) (by simp)
    refine ⟨_, ends, place, fun h => ?_, ?_, ?_, executed⟩
    · rw [waiting, judge_waiting (taken ▸ h)]
      split <;> rfl
    · rw [taken]; exact replies
    · rw [taken]; exact tx
  case busy =>
    have ends := frame_followed hx (by rw [hb]; decide) (by rw [hb]; rfl) rfl hp
    exact ⟨_, ends, choice_only _, by simp, by simp, fun r others h => choice_chosen h⟩
  case notice =>
    have ends := frame_followed (y := noticeSent s k q) hx (by rw [hn]; simp) (by rw [hn]; rfl)
      (by rw [noticeSent_eq]) (by rw [noticeSent_eq]; exact hp)
    rw [noticeSent_eq] at ends
    refine ⟨_, ends, ?_, (transmitChoice_sched _).trans rfl, by simp, fun r others h => choice_chosen h⟩
    rw [transmitChoice_sched]
    exact transmitChoice_eq _
  case reset =>
    have sent : frameSent s = commanded s := by
      unfold frameSent
      rw [hx]
      exact if_pos hr
    show outcome s (frameSent s) = outcome s _
    rw [sent, if_pos (by simp [hx, hr])]

/-! ### RESET (R176) -/

/-- The reply that the moved up request appends is in transmission or waits behind others. -/
theorem raised_carries {t : State} {l : List Reply} {r : Reply} (hr : r ∈ l) (replies : t.link.replies = l.tail)
    (tx : t.link.tx = l.head?.map sendingOf) : Carries t r.frame := by
  cases l with
  | nil => cases hr
  | cons q rest =>
    rcases List.mem_cons.1 hr with rfl | h
    · exact Or.inr ⟨sendingOf r, tx, rfl⟩
    · exact Or.inl ⟨r, by rw [replies]; exact h, rfl⟩

/-- The service idle timer is restarted whatever the link holds. -/
theorem restartIdle_withLink (s : State) (l : Link) :
    restartIdle { s with link := l } = { restartIdle s with link := l } := by
  unfold restartIdle
  split <;> rfl

/-- A RESET at its execution (R176). -/
theorem judge_reset (s : State) (tag : Byte) :
    judge s (request 0x04 tag []) = doReset (restartIdle s) := rfl

theorem replyFrame_reset (tag : Byte) (p : List Byte) : replyFrame (request 0x04 tag []) p = replyTo 0x04 tag p :=
  replyFrame_eq (kind := 0x04) rfl rfl (by decide) p

/-- Settles O18: an arriving RESET by `request_quiet`, a waiting one by `answer_followed`; after it no request is received. -/
theorem resetRequestIsTaken : Obligations.ResetRequestIsTaken := by
  intro s tag taken
  refine ⟨fun hr => ?arrives, fun x rest hl hx ha ht hw => ?waited, fun c f hl ht hc => ?after⟩
  case arrives =>
    obtain ⟨t, runs, only, carries, waiting, reset⟩ := request_quiet hr (request 0x04 tag [])
      (Or.inl (moved_arb (restartIdle_arb _)))
    rw [judge_reset] at only carries waiting reset
    rw [replyFrame_reset] at carries
    refine ⟨t, (exec_frame (c := .reset tag) rfl s).trans runs, carries, ?_, reset.trans rfl, waiting.trans rfl⟩
    rw [restartIdle_placed] at only
    exact only
  case waited =>
    obtain ⟨y, raised, ends⟩ := answer_followed hl hx ha hw
    generalize hl' : (if s.link.replies.length < 4 then _ else _) = l at raised
    have still : recheck s y = y := by
      refine recheck_still (Or.inl (moved_arb ?_))
      rw [raised.acts]
      exact restartIdle_arb _
    obtain ⟨_, _, _, _, waiting, reset, replies, tx⟩ := raised.recheck (s := s) (by simp)
    rw [still] at ends waiting reset replies tx
    refine ⟨y, ends, ?_, ?_, reset.trans rfl, waiting.trans rfl⟩
    · have carries := raised_carries (List.mem_append_right _ (List.mem_singleton.2 rfl)) replies tx
      exact replyFrame_reset tag [0] ▸ carries
    · have acts := raised.acts
      rw [show judge _ { kind := 0x04, tag := tag, payload := [] } = _ from judge_reset _ tag, restartIdle_withLink] at acts
      exact acts
  case after =>
    show exec c s = _
    rw [exec_frame hc s]
    show outcome s (handFrame s f) = _
    rw [handFrame_taken ht]
    exact idle_event hl

/-! ### The end of the ROUTINE spacing (R193, R194) -/

/-- With no spacing running a queue is eligible when it holds a notice (R193). -/
theorem eligibleQueue_idle {s : State} (h : s.link.spacing = none) (q : Queue) :
    eligibleQueue s q = !(s.notice.get q).isEmpty := by
  simp [eligibleQueue, h]

/-- The queue whose turn it is sends while it has a notice and frames left (R193). -/
theorem rotate_turn {s : State} {n : Notice} {rest : List Notice} (hs : s.link.spacing = none)
    (hq : s.notice.get s.link.turn = n :: rest) (hn : 0 < s.link.turnLeft) :
    turnNow s = (s.link.turn, s.link.turnLeft) := by
  unfold turnNow
  rw [if_pos]
  simp [eligibleQueue_idle hs, hq]
  omega

/-- A queue with no notice or no frames left forfeits its turn, and the other has a full count (R193). -/
theorem rotate_forfeit {s : State} (hs : s.link.spacing = none)
    (h : s.notice.get s.link.turn = [] ∨ s.link.turnLeft = 0) :
    turnNow s = (s.link.turn.other, s.notice.weight s.link.turn.other) := by
  unfold turnNow
  rw [if_neg]
  rw [eligibleQueue_idle hs]
  rcases h with h | h <;> simp [h]

/-- The choice among the notices once the turn is settled (R193). -/
theorem rotate_sends {s : State} {p : Queue} {k : Nat} {n : Notice} {rest : List Notice} (hs : s.link.spacing = none)
    (ht : turnNow s = (p, k)) (hq : s.notice.get p = n :: rest) :
    rotate s = { s with notice := s.notice.put p rest
                        link := { s.link with turn := p, turnLeft := k - 1 }.send
                          { kind := n.key.kind, tag := 0, payload := n.payload } (.notice n.key p) } := by
  unfold rotate
  simp [ht, eligibleQueue_idle hs, hq]

/-- With the queue whose turn it is empty too, nothing is sent (log 14). -/
theorem rotate_nothing {s : State} {p : Queue} {k : Nat} (hs : s.link.spacing = none) (ht : turnNow s = (p, k))
    (hq : s.notice.get p = []) : rotate s = { s with link := { s.link with turn := p, turnLeft := k } } := by
  unfold rotate
  simp [ht, eligibleQueue_idle hs, hq]

/-- Settles O39: the end of the spacing is `spacing_over_choice`, or `spacing_busy` beside a frame in transmission. -/
theorem noticesLeaveByRotation : Obligations.NoticesLeaveByRotation := by
  intro s hl ended q u sends
  refine ⟨fun busy => spacing_busy hl ended busy, fun idle => ?_⟩
  have ends := spacing_over_choice hl idle ended
  have sent : ∀ p n rest k, turnNow u = (p, k) → u.notice.get p = n :: rest → sends p n rest (k - 1) :=
    fun p n rest k ht hq => ⟨_, ends.trans (congrArg _ (rotate_sends rfl ht hq)), rfl, rfl, rfl, rfl, rfl, rfl⟩
  refine ⟨fun n rest hq hn => ?own, fun n rest hf hq => ?other, fun hf hq => ?none⟩
  case own => exact sent _ n rest _ (rotate_turn (s := u) rfl hq hn) hq
  case other => exact sent _ n rest _ (rotate_forfeit (s := u) rfl hf) hq
  case none => exact ends.trans (congrArg _ (rotate_nothing (s := u) rfl (rotate_forfeit (s := u) rfl hf) hq))

end Sys2Proof.Machine

namespace Sys2Proof.Machine

/-! ### The receiver (R185 to R189) -/

/-- Settles O34: each event leaves the receiver in HUNT, a gap only when it is due; no event of the receiver moves anything
else (`rx_quiet`). -/
theorem lineEventsResetTheReceiver : Obligations.LineEventsResetTheReceiver := by
  intro s hl t
  have drops : outcome s (dropPartial s) = .next t := congrArg _ (rx_quiet hl Receiver.hunting)
  refine ⟨drops, drops, fun within long => ?_, fun early => ?_⟩
  · have due : gapDue s = true := Bool.and_eq_true_iff.2 ⟨bne_iff_ne.2 within, decide_eq_true long⟩
    exact (when_true due).trans drops
  · refine when_false hl ?_
    rcases early with hunt | short
    · simp [gapDue, hunt]
    · have : ¬ Config.gapMs ≤ s.link.rx.gap := Nat.not_le.2 short
      simp [gapDue, this]

/-- A character that completes no frame changes the receiver alone. -/
theorem receive_goes {s : State} {c : Byte} {x : Receiver} (hl : LinkLaw s) (h : s.link.rx.take c = (x, none)) :
    exec (.receiveCharacter c) s = .next { s with link := { s.link with rx := x } } :=
  take_goes hl h rfl

section
variable {r : Receiver} {c : Byte}

theorem take_hunt (h : r.phase = .hunt) :
    r.take c = (if c = 0xA5 then { phase := .header, bytes := [], toCome := 0, gap := 0 } else Receiver.hunting, none) := by
  simp [Receiver.take, h]

/-- A length above the greatest payload is no header (R187). -/
theorem take_length_bad (h : r.phase = .header) (hb : r.bytes = []) (hc : 56 < c.toNat) :
    r.take c = (Receiver.hunting, none) := by
  simp [Receiver.take, h, hb, Config.maxPayload, hc]

theorem take_length (h : r.phase = .header) (hb : r.bytes = []) (hc : c.toNat ≤ 56) :
    r.take c = ({ r with bytes := [c], gap := 0 }, none) := by
  simp [Receiver.take, h, hb, Config.maxPayload, Nat.not_lt.2 hc]

theorem take_kind {n : Byte} (h : r.phase = .header) (hb : r.bytes = [n]) :
    r.take c = ({ r with bytes := [n, c], gap := 0 }, none) := by
  simp [Receiver.take, h, hb]

theorem take_tag {n k : Byte} (h : r.phase = .header) (hb : r.bytes = [n, k]) :
    r.take c = ({ phase := if n.toNat = 0 then .check else .body, bytes := [n, k, c], toCome := n.toNat, gap := 0 }, none) := by
  simp only [Receiver.take, h, hb]
  by_cases hn : n.toNat = 0 <;> simp [afterTag, hn]

theorem take_body (h : r.phase = .body) :
    r.take c = ({ phase := if r.toCome ≤ 1 then .check else .body, bytes := r.bytes ++ [c], toCome := r.toCome - 1, gap := 0 },
      none) := by
  simp [Receiver.take, h]

theorem take_check {n : Byte} {bs : List Byte} (h : r.phase = .check) (hb : r.bytes = n :: bs) (hl : bs.length = n.toNat + 2) :
    r.take c = ({ r with bytes := r.bytes ++ [c], gap := 0 }, none) := by
  simp [Receiver.take, h, hb, hl]

/-- The second byte of the check completes the frame (R187). -/
theorem take_last {n : Byte} {bs : List Byte} (h : r.phase = .check) (hb : r.bytes = n :: bs) (hl : bs.length = n.toNat + 3) :
    r.take c = (Receiver.hunting, some (r.bytes ++ [c])) := by
  simp [Receiver.take, h, hb, hl]

end

/-- Settles O35: the receiver's phases one by one; a whole frame by its judgement. -/
theorem receiverTakesCharacters : Obligations.ReceiverTakesCharacters := by
  intro s c hl r hunt into goes
  have take : ∀ {x}, r.take c = (x, none) → goes x := fun h => receive_goes hl h
  refine ⟨fun h hc => ?_, fun h hc => ?_, fun h hb hc => take (take_length_bad h hb hc), fun h hb hc => take (take_length h hb hc),
    fun n h hb => take (take_kind h hb), fun n k h hb => take (take_tag h hb), fun h hn => ?_, fun h hn => ?_,
    fun n bs h hb hn => take (take_check h hb hn), fun n bs h hb hn => ⟨fun bad => ?_, fun k f good row => ?_⟩⟩
  · exact take ((take_hunt h).trans (by rw [if_neg hc]; rfl))
  · exact take ((take_hunt h).trans (by rw [if_pos hc]))
  · exact take ((take_body h).trans (by rw [if_neg (by omega)]; simp [h]))
  · exact take ((take_body h).trans (by simp [hn]))
  · exact take_goes hl (take_last h hb hn) bad
  · exact (take_frame (take_last h hb hn) good).trans (exec_frame row _).symm

/-! ### A frame read back (R186, R187) -/

/-- After the start character and `m` more the receiver is midway in the frame. -/
theorem after_start (f : Frame) (h : f.payload.length ≤ 56) {m : Nat} (hm : m ≤ f.payload.length + 4) :
    (f.wire.take (m + 1)).foldl (fun (r : Receiver) c => (r.take c).1) Receiver.hunting = midway f m := by
  rw [← mid_fold f h m hm]
  unfold Frame.wire
  rw [List.cons_append, List.take_succ_cons, List.foldl_cons, take_hunt rfl]
  rfl

/-- The last character completes the frame. -/
theorem midway_last (f : Frame) (h : f.payload.length ≤ 56) (c : Byte)
    (hc : (f.covered ++ be16 (crc f.covered))[f.payload.length + 4]? = some c) :
    (midway f (f.payload.length + 4)).take c = (Receiver.hunting, some (f.covered ++ be16 (crc f.covered))) := by
  have whole : (f.covered ++ be16 (crc f.covered)).take (f.payload.length + 4) ++ [c] = f.covered ++ be16 (crc f.covered) := by
    have all := List.take_of_length_le (l := f.covered ++ be16 (crc f.covered)) (i := f.payload.length + 4 + 1)
      (by rw [wire_len])
    rw [List.take_add_one, hc] at all
    exact all
  have bytes : (midway f (f.payload.length + 4)).bytes = encNum f.payload.length ::
      (f.kind :: f.tag :: f.payload ++ be16 (crc f.covered)).take (f.payload.length + 3) := rfl
  have phase : (midway f (f.payload.length + 4)).phase = .check := by simp [midway]
  have length : (encNum f.payload.length).toNat = f.payload.length := by simp [encNum]; omega
  rw [take_last phase bytes (by simp [length, be16])]
  exact congrArg (fun l => (Receiver.hunting, some l)) whole

/-- Settles O37: `after_start` and `mid_step` before the last character, `midway_last` and `judge_wire` at it. -/
theorem receiverReadsBackEveryFrame : Obligations.ReceiverReadsBackEveryFrame := by
  intro f h hunt after
  have wire : f.wire.length = f.payload.length + 6 := congrArg (· + 1) (wire_len f)
  refine ⟨fun n hn c hc => ?before, ?last⟩
  case before =>
    cases n with
    | zero => exact congrArg Prod.snd (take_hunt (r := hunt) rfl)
    | succ m =>
      have body : (f.covered ++ be16 (crc f.covered))[m]? = some c := hc
      show ((after (m + 1)).take c).2 = none
      have midway : after (m + 1) = midway f m := after_start f h (by omega)
      rw [midway, mid_step f h m (by omega) c body]
  case last =>
    have inside : f.payload.length + 4 < (f.covered ++ be16 (crc f.covered)).length := by rw [wire_len]; omega
    obtain ⟨c, body⟩ : ∃ c, (f.covered ++ be16 (crc f.covered))[f.payload.length + 4]? = some c :=
      ⟨_, List.getElem?_eq_getElem inside⟩
    have midway : after (f.wire.length - 1) = midway f (f.payload.length + 4) := by
      rw [wire]
      exact after_start f h (le_refl _)
    refine ⟨c, ?_, ?_, ?_⟩
    · rw [List.getLast?_eq_getElem?, wire]
      exact body
    · rw [midway, midway_last f h _ body]
      rfl
    · rw [midway, midway_last f h _ body]
      exact (judge_wire f _ h).trans (if_pos rfl)

end Sys2Proof.Machine

namespace Sys2Proof.Machine

/-! ### What the end of a command leaves of the forces -/

/-- Acts of the lowest level leave the forces with their units. -/
theorem Acts.forces {s t : State} (k : Acts 0 s t) :
    t.arb.forcedLevel = s.arb.forcedLevel ∧ t.arb.forcedValve = s.arb.forcedValve ∧ t.air.freshForce = s.air.freshForce
      ∧ t.air.freezerForce = s.air.freezerForce ∧ t.air.condenserForce = s.air.condenserForce
      ∧ t.air.damperForce = s.air.damperForce ∧ t.budget.force = s.budget.force := by
  obtain ⟨_, arb, budget, air⟩ := k.below1 (by omega)
  simp only [Arbiter.core, Budget.core, AirPath.core, Prod.mk.injEq] at arb budget air
  obtain ⟨_, _, _, _, _, _, level, valve⟩ := arb
  obtain ⟨_, _, fresh, freezer, condenser, damper⟩ := air
  obtain ⟨_, _, _, _, mullion, _⟩ := budget
  exact ⟨level, valve, fresh, freezer, condenser, damper, mullion⟩

/-- No force stands (R184). -/
def Unforced (t : State) : Prop :=
  t.arb.forcedLevel = none ∧ t.arb.forcedValve = none ∧ t.air.freshForce = none ∧ t.air.freezerForce = none
    ∧ t.air.condenserForce = none ∧ t.air.damperForce = none ∧ t.budget.force = none

/-- Leaving SERVICE removes every force (R184). -/
theorem setMode_unforced {s : State} (hm : s.ctl.mode = .service) : Unforced (setMode s .hold) := by
  obtain ⟨level, valve⟩ := setMode_service_forces .hold hm (by decide)
  obtain ⟨_, _, _, rest⟩ := setMode_blocks s .hold
  obtain ⟨mullion, fresh, freezer, condenser, damper⟩ := rest (by decide)
  exact ⟨level, valve, fresh, freezer, condenser, damper, mullion⟩

theorem Unforced.withLink {s : State} (h : Unforced s) (l : Link) : Unforced { s with link := l } := h

theorem Unforced.ends {s z : State} (h : Unforced s) (k : Acts 0 s z) : Unforced (settleLink z) := by
  obtain ⟨level, valve, fresh, freezer, condenser, damper, mullion⟩ := h
  obtain ⟨k1, k2, k3, k4, k5, k6, k7⟩ := k.forces
  simp only [Unforced, settleLink_arb, settleLink_air, settleLink_budget]
  exact ⟨k1.trans level, k2.trans valve, k3.trans fresh, k4.trans freezer, k5.trans condenser, k6.trans damper, k7.trans mullion⟩

/-- A compressor turned off stays so to the end of the command. -/
theorem Off3.ends {s z : State} (h : Off3 s) (k : Acts 0 s z) : OffFull (settleLink z) := ((h.acts k (by omega)).settle).full

/-! ### The requests of modes (R171 to R174) -/

/-- The state in which an owner finds a request keeps the law of the load. -/
theorem loadLaw_placed {s : State} (h : LoadLaw s) (f : Frame) : LoadLaw (placed (restartIdle s) f) :=
  loadLaw_of_arb h (by simp) (by simp)

/-- Outside SERVICE no timer is restarted. -/
theorem restartIdle_not {s : State} (h : s.ctl.mode ≠ .service) : restartIdle s = s := if_neg h

/-- An owner whose act brings the feeding check (R55). -/
theorem Reaches.answers_recheck {c : Instr} {s : State} {kind tag : Byte} {own : State → Answer} {p : List Byte}
    {Q : State → Prop} (h : Reaches c kind tag own) (hr : Ready s) (u : Frame → State)
    (hj : ∀ f, own (placed (restartIdle s) f) = (u f, p))
    (hQ : ∀ f l, Q (settleLink (recheck s { u f with link := l }))) : Answers c s kind tag p Q := by
  obtain ⟨f, ls, hc, hf, ht, hl, hn, own_eq⟩ := h
  exact Machine.answers_recheck hr (exec_frame hc s) hf ht (known_kind hl) hl hn (u f) ((own_eq _).trans (hj f)) (hQ f)

theorem doStop_run {s : State} (h : s.ctl.mode = .run) : doStop s = done (setMode s .hold) := by
  unfold doStop
  rw [h]

theorem doStop_hold {s : State} (h : s.ctl.mode = .hold) : doStop s = done (s.onCtl fun c => { c with selfStart := none }) := by
  unfold doStop
  rw [h]

/-- Settles O19: each request is `setMode`, whose parts are `entered_placed`, `setMode_run`, `setMode_left`,
`setMode_unforced` and `setMode_hold_off`. -/
theorem modeRequestsMakeTheirMode : Obligations.ModeRequestsMakeTheirMode := by
  intro s tag hr
  have mode : ∀ f, (placed (restartIdle s) f).ctl.mode = s.ctl.mode := fun f => by simp
  refine ⟨fun hm => ?start, fun hm => ?stop, fun hm => ?still, fun hm => ?enter, fun hm => ?exit⟩
  case start =>
    refine (reaches_start tag).answers_acts hr (fun f => setMode (placed (restartIdle s) f) .run)
      (fun f => if_pos ((mode f).trans hm)) fun f l z k => ⟨entered_placed rfl k, enteredRun_of (fun y => ?_) k⟩
    have run := setMode_run ((mode f).trans hm) y
    rwa [placed_zones, placed_uptime, restartIdle_zones, restartIdle_uptime] at run
  case stop =>
    have idle := restartIdle_not (s := s) (by rw [hm]; decide)
    refine (reaches_stop tag).answers_recheck hr (fun f => setMode (placed (restartIdle s) f) .hold)
      (fun f => doStop_run ((mode f).trans hm)) fun f l => ⟨entered_placed rfl (acts_recheck s .refl), fun a h => ?_, fun load turns => ?_⟩
    · rw [idle]
      exact leftRun_settle (setMode_left (s := placed s f) a h hm) l
    · exact ((setMode_hold_off (loadLaw_placed load f) (by simpa using turns) (by simp [hm])).link).ends (acts_recheck s .refl)
  case still =>
    have idle := restartIdle_not (s := s) (by rw [hm]; decide)
    refine (reaches_stop tag).answers hr (fun f => (placed s f).onCtl fun c => { c with selfStart := none })
      (fun f => by rw [idle]; exact doStop_hold hm) (fun f => Or.inl (moved_arb rfl)) fun f t only => only
  case enter =>
    exact (reaches_serviceEnter tag).answers_acts hr (fun f => setMode (placed (restartIdle s) f) .service)
      (fun f => if_pos ((mode f).trans hm)) fun f l z k => entered_placed rfl k
  case exit =>
    refine (reaches_serviceExit tag).answers_acts hr (fun f => setMode (placed (restartIdle s) f) .hold)
      (fun f => if_pos ((mode f).trans hm)) fun f l z k => ⟨entered_placed rfl k, ?_⟩
    obtain ⟨level, valve, fresh, freezer, condenser, damper, mullion⟩ :=
      ((setMode_unforced ((mode f).trans hm)).withLink l).ends k
    refine ⟨level, valve, fresh, freezer, condenser, damper, mullion, fun load turns => ?_⟩
    exact ((setMode_hold_off (loadLaw_placed load f) (by simpa using turns) (by simp [hm])).link).ends k

/-! ### The timers of Mode Control and the status timer (R171, R174, R213) -/

/-- A STATUS notice changes the notices alone. -/
theorem onlyNotices_postStatus (s : State) (c : StatusCause) : OnlyNotices s (postStatus s c) :=
  OnlyNotices.trans (b := s.onNotice fun n => { n with statusLeft := loadStatus n.period }) ⟨rfl, rfl⟩ (onlyNotices_post rfl)

/-- Every posting of a STATUS notice starts the status timer again (R213). -/
theorem postStatus_statusLeft (s : State) (c : StatusCause) :
    (postStatus s c).notice.statusLeft = if s.notice.period = 0 then none else some s.notice.period :=
  postNotice_statusLeft _ _ _

theorem settleLink_statusLeft (s : State) : (settleLink s).notice.statusLeft = s.notice.statusLeft := by
  unfold settleLink
  split
  · exact transmitChoice_statusLeft s
  · rfl

/-- QUIET discards a STATUS notice, but not the restart of its timer (R212, R213). -/
theorem postStatus_quiet {s : State} (h : s.notice.quiet = true) (c : StatusCause) :
    postStatus s c = { s with notice := { s.notice with statusLeft := if s.notice.period = 0 then none else some s.notice.period } } := by
  unfold postStatus postNotice
  rw [if_pos (by simp [h, NoticeKey.quieted])]
  rfl

/-- A STATUS notice as its own event. -/
theorem statusTimer_ends {s : State} (hl : LinkLaw s) (h : s.notice.statusLeft = some 0) :
    exec .statusTimerExpiry s = .next (settleLink (postStatus s .period)) := by
  have runs : exec .statusTimerExpiry s = outcome s (postStatus s .period) := when_true (by simp [h])
  rw [runs]
  have k : Acts 3 s (postStatus s .period) := acts_postStatus .period .refl
  exact congrArg _ (finish_nohold hl k (Or.inl (moved_arb (by simp))))

/-- Entering RUN by an event. -/
theorem enteredRun_ends {s u z : State} (e : ∀ z, (u.zones.get z).core =
    (if (s.zones.get z).state = .paused then tookUpWork z s.uptime (s.zones.get z) else s.zones.get z).core)
    (k : Acts 0 u z) : EnteredRun s (settleLink z) :=
  enteredRun_of (l := u.link) e k

/-- Settles O42: the two timers of Mode Control by `setMode`, the status timer by `statusTimer_ends`. -/
theorem timersOfThePartExpire : Obligations.TimersOfThePartExpire := by
  intro s hl
  refine ⟨fun hm ht => ?selfStart, fun hm ht => ?serviceIdle, fun ht => when_false hl (by simp [ht]),
    fun ht => when_false hl (by simp [ht]), fun ht => when_false hl (by simp [ht]), fun ht => ?status, fun ht hq => ?quiet⟩
  case selfStart =>
    have runs : exec .selfStartExpiry s = outcome s (setMode s .run) := when_true (by simp [hm, ht])
    obtain ⟨z, k, ends⟩ := event_acts hl (acts_setMode .run (le_refl 5) (Acts.refl (s := s)))
    exact ⟨_, runs.trans ends, entered_ev k, enteredRun_ends (setMode_run hm) k⟩
  case serviceIdle =>
    have runs : exec .serviceIdleExpiry s = outcome s (setMode s .hold) := when_true (by simp [hm, ht])
    obtain ⟨z, k, ends⟩ := event_acts hl (acts_setMode .hold (le_refl 5) (Acts.refl (s := s)))
    obtain ⟨level, valve, fresh, freezer, condenser, damper, mullion⟩ := (setMode_unforced hm).ends k
    exact ⟨_, runs.trans ends, entered_ev k, level, valve, fresh, freezer, condenser, damper, mullion,
      fun load turns => (setMode_hold_off load turns (by rw [hm]; decide)).ends k⟩
  case status =>
    refine ⟨_, statusTimer_ends hl ht, (onlyNotices_postStatus s .period).trans (onlyNotices_settle _), ?_, fun hq => ?_⟩
    · rw [settleLink_statusLeft, postStatus_statusLeft]
    · exact settle_has (n := { key := .status, payload := statusPayload s .period }) _
        (post_has _ .status _ (by simp [hq]))
  case quiet =>
    rw [statusTimer_ends hl ht, postStatus_quiet hq]
    exact congrArg _ (settleLink_quiet hl rfl)

/-! ### Resets (R132, R168, R175, R176) -/

/-- A state whose link is that of a reset ends, without a hold, as the link settles it. -/
theorem clean_ends {s x : State} (clean : Clean x) (hold : x.arb.hold = false) : outcome s x = .next (settleLink x) :=
  congrArg _ (finish_clean clean hold)

/-- What a power-on reset leads to. -/
theorem powerOn_ends (s : State) : exec .powerOnReset s = .next (settleLink (powerOn s)) :=
  clean_ends ((clean_fresh s).acts (powerOn_acts s)) (by simp [powerOn, freshState, State.base, Arbiter.reset])

/-- Settles O40: `freshState` holds the power-on values; the STATUS notice that follows changes the notices alone. -/
theorem powerOnResetClearsThePart : Obligations.PowerOnResetClearsThePart := by
  intro s
  have only : OnlyNotices (freshState s) (settleLink (powerOn s)) :=
    (onlyNotices_postStatus _ .reset).trans (onlyNotices_settle _)
  obtain ⟨place, waiting, rx, _⟩ : Clean (settleLink (powerOn s)) := ((clean_fresh s).acts (powerOn_acts s)).settle
  obtain ⟨uptime, ctl, zones, arb, sched, doors, air, defrost, budget, fault, _⟩ := reset_view only
  refine ⟨_, powerOn_ends s, only, uptime, ctl, ?_⟩
  simp only [State.speedLine, State.heaterOutput, State.mullionOutput]
  rw [zones, arb, sched, doors, air, defrost, budget, fault, place, waiting, rx]
  refine ⟨rfl, rfl, rfl, rfl, rfl, rfl, rfl, rfl, rfl, rfl, rfl, rfl, rfl, rfl, rfl, rfl, rfl, rfl, rfl, ?_, ?_, ?_⟩
  · intro c; cases c <;> exact ⟨rfl, rfl⟩
  · intro z; cases z <;> rfl
  · intro d; cases d <;> rfl

/-! ### The commanded reset (R58, R105, R132, R168) -/

/-- Outside RUN no start conditions hold: a credit at its target makes the phase DUE and no more (R109, R110). -/
theorem dueTest_notRun {x : State} (h : x.defrost.mode ≠ .run) :
    OnlyNotices { x with defrost := if x.defrost.phase = .idle ∧ x.defrost.target ≤ x.defrost.credit then
      { x.defrost with phase := .due, deferral := 0 } else x.defrost } (dueTest x) := by
  unfold dueTest
  split
  · have waits : ∀ y : State, y.defrost.mode ≠ .run → evaluate y = y := fun y hy =>
      if_neg fun ⟨_, ok⟩ => hy (by simp only [Defrost.startOk, Bool.and_eq_true, beq_iff_eq] at ok; exact ok.1.1.1)
    rw [waits _ (by simpa [postDefrost] using h)]
    exact onlyNotices_post (u := x.onDefrost fun d => { d with phase := .due, deferral := 0 }) rfl
  · exact ⟨rfl, rfl⟩

/-- The blocks of a commanded reset before its notices and the owners' ends. -/
def commandedBase (s : State) : State :=
  { freshState s with ctl := Control.reset .commanded, defrost := s.defrost.kept, fault := s.fault.kept }

/-- A commanded reset up to the owners' ends: the values of `commandedBase` but for entries latched and notices. -/
theorem commanded_eq (s : State) : ∃ y, EndsOnly (commandedBase s) (ownersEnds y) ∧ y.fault = s.fault.kept
    ∧ y.arb = Arbiter.reset s.pins.endSwitch ∧ y.air = AirPath.reset s.pins.damperSwitch
    ∧ commanded s = dueTest (ownersEnds y) := by
  have status := onlyNotices_postStatus (commandedBase s) .reset
  have both : ∀ (c : Prop) [Decidable c], OnlyNotices (commandedBase s)
      (if c then postFault (postStatus (commandedBase s) .reset) .reset none else postStatus (commandedBase s) .reset) := by
    intro c _
    split
    · exact status.trans (onlyNotices_postFault _ _ _)
    · exact status
  have all := both ((postStatus (commandedBase s) .reset).fault.table ≠ []
    ∨ (postStatus (commandedBase s) .reset).fault.capture.isSome = true)
  obtain ⟨_, _, _, arb, _, _, air, _, _, fault, _⟩ := reset_view all
  exact ⟨_, (endsOnly_notices all).trans (ownersEnds_ends _), fault, arb, air, rfl⟩

/-- The valve that its end switch shows after a reset is at its evaporator (R58). -/
theorem valve_reset_at (x : Option Evap) : (Valve.reset x).at.isSome = true ↔ x ≠ none := by
  cases x <;> simp [Valve.reset, Valve.at]

/-- The damper that its switch shows CLOSED after a reset rests there (R105). -/
theorem damper_reset_closed (x : Option DamperEnd) : Damper.reset x = .resting .closed ↔ x = some .closed := by
  match x with
  | some .closed => simp [Damper.reset]
  | some .opened => simp [Damper.reset]
  | none => simp [Damper.reset]

/-- The Defrost Unit after a commanded reset: what it keeps, with a defrost that was cut short or whose credit is at its
target due again (R132, R109). -/
theorem kept_due (d : Defrost) :
    let cut := d.phase = .prechill ∨ d.phase = .heat ∨ d.phase = .drip ∨ d.phase = .recover
    (if d.kept.phase = .idle ∧ d.kept.target ≤ d.kept.credit then { d.kept with phase := .due, deferral := 0 } else d.kept)
      = { Defrost.reset with
          phase := if cut ∨ d.current * 3600 ≤ d.credit then .due else .idle
          credit := if cut then d.current * 3600 else d.credit
          current := d.current, next := d.next, lastDuration := d.lastDuration, lastCause := d.lastCause
          interrupted := cut } := by
  intro cut
  have working : d.phase.working = decide cut := by simp only [cut]; cases d.phase <;> rfl
  by_cases hc : cut
  · simp [Defrost.kept, Defrost.target, Defrost.reset, working, hc]
  · by_cases ht : d.current * 3600 ≤ d.credit
    · simp [Defrost.kept, Defrost.target, Defrost.reset, working, hc, ht]
    · simp [Defrost.kept, Defrost.target, Defrost.reset, working, hc, ht]

/-- Settles O41: `commanded_eq` for the blocks, `ownersEnds_table` for the table, `dueTest_notRun` for the defrost. -/
theorem commandedResetKeepsHistory : Obligations.CommandedResetKeepsHistory := by
  intro s x hx hr
  have sent : frameSent s = commanded s := by
    unfold frameSent
    rw [hx]
    exact if_pos hr
  have same : exec .commandedReset s = outcome s (commanded s) := when_true (by simp [hx, hr])
  refine ⟨(congrArg (outcome s) sent).trans same.symm, ?_⟩
  have base : Clean (commandedBase s) := clean_fresh s
  have clean : Clean (commanded s) := base.acts (commanded_acts s)
  obtain ⟨place, waiting, _, taken⟩ := clean.settle
  obtain ⟨y, ends, fault, yarb, yair, due⟩ := commanded_eq s
  obtain ⟨uptime, ctl, zones, arb, sched, _, air, defrost, budget, _, pins, pending, _⟩ := reset_view ends.1
  have mode : (ownersEnds y).defrost.mode ≠ .run := by rw [defrost]; exact (by decide : Mode.hold ≠ .run)
  have rest := (dueTest_notRun mode).trans (onlyNotices_settle _)
  rw [← due] at rest
  obtain ⟨uptime', ctl', zones', arb', sched', _, air', defrost', budget', fault', pins', pending', _⟩ := reset_view rest
  have hold : (commanded s).arb.hold = false := by
    rw [← settleLink_arb, arb', arb]
    rfl
  refine ⟨settleLink (commanded s), same.trans (clean_ends clean hold), uptime'.trans uptime, ctl'.trans ctl,
    pins'.trans pins, pending'.trans pending, ?defrost, ?table, ?capture, ?count, arb'.trans arb, air'.trans air,
    budget'.trans budget, fun z => ?zones, sched'.trans sched, place, waiting, taken⟩
  case defrost =>
    rw [defrost']
    simp only [defrost]
    exact kept_due s.defrost
  case table =>
    rw [fault', ownersEnds_table, fault, yarb, yair]
    simp only [Arbiter.reset, AirPath.reset, valve_reset_at, damper_reset_closed]
    rfl
  case capture => rw [fault', ends.2.1]; rfl
  case count => rw [fault', ends.2.2]; rfl
  case zones => rw [zones', zones]; cases z <;> rfl

end Sys2Proof.Machine

namespace Sys2Proof.Machine

/-! ### The interlocks (R178 to R183, R209) -/

/-- The first interlock that holds, one by one. -/
theorem firstLock_cons (b : Bool) (i : Interlock) (l : List (Bool × Interlock)) :
    firstLock ((b, i) :: l) = if b = true then some i else firstLock l := by
  cases b <;> rfl

theorem firstLock_nil : firstLock [] = none := rfl

/-- A door that is not CLOSED is open (R88). -/
theorem isOpen_iff (d : DoorState) : d.isOpen = true ↔ d ≠ .closed := by
  cases d <;> simp [DoorState.isOpen]

/-- The compressor keeps the valve from moving while it turns, unless it runs at level 1 with no step in flight (R50). -/
theorem letsMove_false_iff (c : Compressor) :
    c.letsMove = false ↔ c.state.turning = true ∧ ¬ (c.state ≠ .starting ∧ c.level = 1 ∧ c.step = none) := by
  unfold Compressor.letsMove
  cases hs : c.state <;> cases ht : c.step <;> simp [CompState.turning]

theorem lockValve_eq (s : State) (e : Evap) : lockValve s e =
    if s.arb.valve.isStuck = true then some .stuck
    else if s.arb.comp.state.turning = true ∧ ¬ (s.arb.comp.state ≠ .starting ∧ s.arb.comp.level = 1 ∧ s.arb.comp.step = none)
      then some .valveSpeed
    else if e = .freeze ∧ s.defrost.heater ≠ .off then some .heatComp else none := by
  unfold lockValve
  simp only [firstLock_cons, firstLock_nil, Bool.not_eq_true', letsMove_false_iff, Bool.and_eq_true, beq_iff_eq, bne_iff_ne]

theorem lockLevel_eq (s : State) (l : Nat) : lockLevel s l =
    if l = 0 then none
    else if s.arb.comp.state = .lockout then some .lockout
    else if s.arb.valve.isStuck = true then some .stuck
    else if s.arb.comp.state = .offLocked then some .minOff
    else if s.arb.valve.isMoving = true ∧ (2 ≤ l ∨ s.arb.comp.state = .offReady) then some .valveSpeed
    else if s.defrost.heater ≠ .off ∧ s.arb.valve.toward .freeze = true then some .heatComp
    else if s.arb.budgetCap < l then some .budget else none := by
  unfold lockLevel
  simp only [firstLock_cons, firstLock_nil, Bool.and_eq_true, Bool.or_eq_true, beq_iff_eq, bne_iff_ne, decide_eq_true_eq]

/-- A heater claim that does not fit the available units (R134, R182). -/
theorem heaterFits_false_iff (b : Budget) : b.heaterFits = false ↔ b.available < b.sumBare + 10 :=
  decide_eq_false_iff_not.trans Nat.not_le

/-- A mullion claim that does not fit the available units (R134, R183). -/
theorem mullionFits_false_iff (b : Budget) : b.mullionFits = false ↔ b.available < b.sum + 2 :=
  decide_eq_false_iff_not.trans Nat.not_le

theorem lockHeater_eq (s : State) (on : Bool) : lockHeater s on =
    if on = false then none
    else if (s.arb.comp.state.turning = true ∧ s.arb.valve.toward .freeze = true) ∨ s.air.freezerFan = true then some .heatComp
    else if (s.sched.ch.get .freezerEvap).faulted = true
      ∨ ((s.sched.ch.get .freezerEvap).lastValue.all fun x => 200 ≤ x) = true then some .heatTemp
    else if s.defrost.heater = .off ∧ s.budget.available < s.budget.sumBare + 10 then some .budget else none := by
  unfold lockHeater
  cases on with
  | false => rfl
  | true =>
    simp only [firstLock_cons, firstLock_nil, Arbiter.feedsFreeze, heaterFits_false_iff, Bool.and_eq_true, Bool.or_eq_true,
      Bool.not_eq_true', beq_iff_eq, if_true, Bool.true_eq_false, if_false]
    rfl

theorem lockMullion_eq (s : State) (on : Bool) : lockMullion s on =
    if on = true ∧ s.budget.mullion ≠ .on ∧ s.budget.available < s.budget.sum + 2 then some .budget else none := by
  unfold lockMullion
  simp only [firstLock_cons, firstLock_nil, mullionFits_false_iff, Bool.and_eq_true, Bool.not_eq_true', bne_iff_ne, and_assoc]

theorem lockFreshFan_eq (s : State) (on : Bool) : lockFreshFan s on =
    if on = true ∧ (s.doors.left.state ≠ .closed ∨ s.doors.right.state ≠ .closed) then some .door else none := by
  unfold lockFreshFan
  simp only [firstLock_cons, firstLock_nil, zoneDoorOpen, Bool.and_eq_true, Bool.or_eq_true, isOpen_iff]

theorem lockFreezerFan_eq (s : State) (on : Bool) : lockFreezerFan s on =
    if on = true ∧ s.doors.freezer.state ≠ .closed then some .door
    else if on = true ∧ s.defrost.heater ≠ .off then some .heatComp else none := by
  unfold lockFreezerFan
  simp only [firstLock_cons, firstLock_nil, zoneDoorOpen, Bool.and_eq_true, isOpen_iff, bne_iff_ne]

theorem lockDamper_eq (s : State) (e : DamperEnd) : lockDamper s e =
    if e = .opened ∧ s.doors.drawer.state ≠ .closed then some .door else none := by
  unfold lockDamper
  simp only [firstLock_cons, firstLock_nil, zoneDoorOpen, Bool.and_eq_true, isOpen_iff, beq_iff_eq]

section
variable {α : Type} {c : Instr} {s : State} {tag : Byte} {value : Option α} {v : α} {lock : State → α → Option Interlock}
  {take : State → α → State}

/-- A force whose interlock holds is DENIED with its code, and changes nothing (R178). -/
theorem Reaches.denied {i : Interlock} (h : Reaches c 0x2A tag fun s => doForce s value (lock s) (take s)) (hr : Ready s)
    (hm : s.ctl.mode = .service) (hv : value = some v) (hl : ∀ f, lock (placed (restartIdle s) f) v = some i) :
    Answers c s 0x2A tag [8, interlockCode i] (OnlyLink (restartIdle s)) :=
  h.reads hr fun f => force_denied (by simpa using hm) hv (hl f)

/-- An admitted force that moves neither compressor state, valve nor grant (R178). -/
theorem Reaches.forced (h : Reaches c 0x2A tag fun s => doForce s value (lock s) (take s)) (hr : Ready s)
    (hm : s.ctl.mode = .service) (hv : value = some v) (hl : ∀ f, lock (placed (restartIdle s) f) v = none) {Q : State → Prop}
    (hq : ∀ f, feedingMoved s (take (placed (restartIdle s) f) v) = false)
    (hQ : ∀ f t, OnlyLink (take (placed (restartIdle s) f) v) t → Q t) : Answers c s 0x2A tag [0] Q :=
  h.answers hr (fun f => take (placed (restartIdle s) f) v) (fun f => force_taken (by simpa using hm) hv (hl f))
    (fun f => Or.inl (hq f)) hQ

/-- An admitted force, with the acts of the blocks that follow it (R178). -/
theorem Reaches.forced_acts (h : Reaches c 0x2A tag fun s => doForce s value (lock s) (take s)) (hr : Ready s)
    (hm : s.ctl.mode = .service) (hv : value = some v) (hl : ∀ f, lock (placed (restartIdle s) f) v = none) {Q : State → Prop}
    (hQ : ∀ f l z, Acts 0 { take (placed (restartIdle s) f) v with link := l } z → Q (settleLink z)) :
    Answers c s 0x2A tag [0] Q :=
  h.answers_acts hr (fun f => take (placed (restartIdle s) f) v) (fun f => force_taken (by simpa using hm) hv (hl f)) hQ

end

/-- Settles O33: the denials by `Reaches.denied`, the conditions by the equations of the locks. -/
theorem interlocksDenyForces : Obligations.InterlocksDenyForces := by
  refine ⟨fun s tag v hr hm => ?denials, rfl, fun s => ⟨lockValve_eq s, lockLevel_eq s, lockHeater_eq s, lockMullion_eq s⟩⟩
  intro denied
  refine ⟨fun h => ?_, fun h => ?_, fun hd h => ?_, fun h => ?_, fun e i he h => ?_, fun i hv h => ?_, fun i h => ?_, fun i h => ?_⟩
  · exact (reaches_freshFan tag 1).denied (i := .door) hr hm rfl fun f => by simp [lockFreshFan_eq, h]
  · exact (reaches_freezerFan tag 1).denied (i := .door) hr hm rfl fun f => by simp [lockFreezerFan_eq, h]
  · exact (reaches_freezerFan tag 1).denied (i := .heatComp) hr hm rfl fun f => by simp [lockFreezerFan_eq, hd, h]
  · exact (reaches_damper tag 1).denied (i := .door) hr hm rfl fun f => by simp [lockDamper_eq, h]
  · exact (reaches_valve tag v).denied hr hm he fun f => (lockValve_r s f e).trans h
  · exact (reaches_level tag v).denied hr hm (of_le_five hv) fun f => (lockLevel_r s f v.toNat).trans h
  · exact (reaches_heater tag 1).denied hr hm rfl fun f => (lockHeater_r s f true).trans h
  · exact (reaches_mullion tag 1).denied hr hm rfl fun f => (lockMullion_r s f true).trans h

/-! ### Admitted fan and damper forces (R107, R179) -/

theorem damperEnd_val {v : Byte} (hv : v.toNat ≤ 1) : damperEndOf v = some (if v = 1 then .opened else .closed) := by
  rcases of_le_one hv with rfl | rfl <;> decide

/-- Settles O30: the locks are open by their equations, and the act is a change of the Air Path Unit alone. -/
theorem fanAndDamperForcesAreTaken : Obligations.FanAndDamperForcesAreTaken := by
  intro s tag v hr hm hv u
  have off : ∀ {p : Prop}, v = 0 ∨ p → (v == 1) = true → p := by
    rintro p (rfl | h) k
    · cases k
    · exact h
  have still : ∀ (g : AirPath → AirPath) f, feedingMoved s (airInput (placed (restartIdle s) f) g) = false :=
    fun g f => moved_arb (restartIdle_arb s)
  refine ⟨fun h => ?fresh, fun h => ?freezer, ?condenser, fun h => ?damper⟩
  case fresh =>
    refine (reaches_freshFan tag v).forced hr hm (bool_val hv) (fun f => ?_) (still _) fun f t => onlyLink_air
    rw [lockFreshFan_eq, if_neg]
    rintro ⟨on, opened⟩
    obtain ⟨left, right⟩ := off h on
    simp [left, right] at opened
  case freezer =>
    refine (reaches_freezerFan tag v).forced hr hm (bool_val hv) (fun f => ?_) (still _) fun f t => onlyLink_air
    rw [lockFreezerFan_eq, if_neg, if_neg]
    · rintro ⟨on, heats⟩
      exact heats (by simpa using (off h on).2)
    · rintro ⟨on, opened⟩
      exact opened (by simpa using (off h on).1)
  case condenser =>
    exact (reaches_condenserFan tag v).forced (lock := fun _ _ => none) hr hm (bool_val hv) (fun f => rfl) (still _)
      fun f t => onlyLink_air
  case damper =>
    refine (reaches_damper tag v).forced hr hm (damperEnd_val hv) (fun f => ?_) (still _) fun f t => onlyLink_air
    rw [lockDamper_eq, if_neg]
    rintro ⟨ends, opened⟩
    have on : v = 1 := by
      by_contra k
      rw [if_neg k] at ends
      cases ends
    exact opened (by simpa using off h (by rw [on]; rfl))

end Sys2Proof.Machine

namespace Sys2Proof.Machine

/-! ### Valve and compressor forces (R180, R181) -/

/-- Acts of the blocks below the settings, between the place and the tail of a request, keep what a request keeps. -/
theorem kept_request {s u z : State} {f : Frame} {l : Link} {w : Nat} (hw : w < 3) (own : Acts w (placed (restartIdle s) f) u)
    (k : Acts 0 { u with link := l } z) : Kept (restartIdle s) (settleLink z) :=
  kept_restart_placed.trans ((own.kept hw).trans (kept_tail k))

section
variable {α : Type} {c : Instr} {s : State} {tag : Byte} {value : Option α} {v : α} {lock : State → α → Option Interlock}
  {take : State → α → State}

/-- An admitted force, with the acts that follow it; without a hold the feeding check does nothing (R55, R178). -/
theorem Reaches.forced_settles (h : Reaches c 0x2A tag fun s => doForce s value (lock s) (take s)) (hr : Ready s)
    (hm : s.ctl.mode = .service) (hv : value = some v) (hl : ∀ f, lock (placed (restartIdle s) f) v = none) {Q : State → Prop}
    (hQ : ∀ f l z, Acts 0 { take (placed (restartIdle s) f) v with link := l } z →
      ((take (placed (restartIdle s) f) v).arb.hold = false → z = { take (placed (restartIdle s) f) v with link := l }) →
      Q (settleLink z)) : Answers c s 0x2A tag [0] Q :=
  h.answers_recheck hr (fun f => take (placed (restartIdle s) f) v) (fun f => force_taken (by simpa using hm) hv (hl f))
    fun f l => hQ f l _ (acts_recheck s .refl) fun off => recheck_still (Or.inr off)

end

/-- Outside RUN neither hold nor grant stands (R59, R129). -/
theorem HeaterLaw.atRest {s : State} (h : HeaterLaw s) (hm : s.ctl.mode ≠ .run) : s.arb.hold = false ∧ s.arb.grant = none := by
  obtain ⟨_, held, idle, _⟩ := h
  obtain ⟨resting, _, ungranted⟩ := idle hm
  refine ⟨?_, ungranted⟩
  by_contra hold
  obtain ⟨_, phase, _⟩ := held (by simpa using hold)
  rcases phase with q | q <;> simp [q, Phase.working] at resting

/-- Without a grant the arbiter has only its forces to act on (R180, R181). -/
theorem advance_ungranted {x : State} (hg : x.arb.grant = none) : advance x = evalAim (tryStart (tryMove x)) := by
  have runout : leaveRunout x = x := if_neg (by simp [hg])
  have active : tryActivate x = x := by unfold tryActivate; rw [hg]
  unfold advance
  rw [runout, active]

/-- A start leaves the valve, the forces and the hold as they are. -/
theorem tryStart_valve (x : State) : (tryStart x).arb.valve = x.arb.valve := by
  rcases tryStart_arb x with ⟨same, _⟩ | ⟨_, starts⟩
  · rw [same]
  · rw [starts, compStart_arb]

/-- Without a grant, the valve moves as a forced move begins (R181). -/
theorem advance_ungranted_valve {x : State} (hg : x.arb.grant = none) : (advance x).arb.valve = (tryMove x).arb.valve := by
  obtain ⟨⟨_, valve, _⟩, _⟩ := still_evalAim (tryStart (tryMove x))
  rw [advance_ungranted hg, valve, tryStart_valve]

/-- A valve force finds the valve at rest or moving, the compressor letting it move, and the heater clear of a move toward
FREEZE (R181). -/
theorem lockValve_none {s : State} {e : Evap} (h : lockValve s e = none) :
    s.arb.valve.isStuck = false ∧ s.arb.comp.letsMove = true ∧ (e = .freeze → s.defrost.heater = .off) := by
  have locks := firstLock_none h
  simp only [List.forall_mem_cons, Bool.not_eq_false', Bool.and_eq_false_iff, beq_eq_false_iff_ne, bne_eq_false_iff_eq] at locks
  obtain ⟨stuck, moves, heat, _⟩ := locks
  exact ⟨stuck, moves, fun k => heat.resolve_left fun n => n k⟩

/-- The valve after an admitted valve force without a grant: as it is where it moves or rests at the target, else in a move
(R50, R181). -/
theorem takeValve_valve {x : State} {e : Evap} (hg : x.arb.grant = none) (hm : x.ctl.mode = .service) (hl : lockValve x e = none) :
    (takeValve x e).arb.valve =
      if x.arb.valve.isMoving = true ∨ x.arb.valve = .resting e then x.arb.valve else .moving e .first 8 := by
  obtain ⟨stuck, lets, heat⟩ := lockValve_none hl
  have clear : moveClear x e = true := by
    cases e with
    | fresh => simp [moveClear, heatClear]
    | freeze => simp [moveClear, heatClear, heat rfl]
  let y := x.onArb fun a => { a with forcedValve := some e }
  have wanted : valveWanted y = some e := by
    have : valveWanted y = (some e).filter (moveClear x) := by
      unfold valveWanted
      simp only [y, State.onArb_arb, State.onArb_ctl, hg, hm, if_true]
      rfl
    simpa [Option.filter, clear] using this
  have after : (takeValve x e).arb.valve = (tryMove y).arb.valve := advance_ungranted_valve hg
  rw [after]
  unfold tryMove
  rw [wanted]
  cases hv : x.arb.valve with
  | resting r =>
    by_cases same : r = e
    · simp [y, hv, Valve.at, same]
    · simp [y, hv, Valve.at, Valve.isMoving, same, lets, beginMove]
      rfl
  | moving r t n => simp [y, hv, Valve.at, Valve.isMoving]
  | stuck n => simp [hv, Valve.isStuck] at stuck

/-- A compressor force finds no lockout, no STUCK valve, and a start or a rise beside no moving valve and, with the heater in
use, none toward FREEZE (R180). -/
theorem lockLevel_none {s : State} {n : Nat} (hn : 1 ≤ n) (h : lockLevel s n = none) :
    s.arb.valve.isStuck = false ∧ (s.arb.comp.state = .offReady → s.arb.valve.isMoving = false)
      ∧ (s.defrost.heater = .off ∨ s.arb.valve.toward .freeze = false) := by
  unfold lockLevel at h
  rw [if_neg (by omega)] at h
  have locks := firstLock_none h
  simp only [List.forall_mem_cons, Bool.and_eq_false_iff, Bool.or_eq_false_iff, beq_eq_false_iff_ne, bne_eq_false_iff_eq] at locks
  obtain ⟨_, stuck, _, moves, heat, _⟩ := locks
  exact ⟨stuck, fun k => moves.resolve_right fun n => n.2 k, heat⟩

/-- With no forced target the valve is not at, no forced move begins (R181). -/
theorem tryMove_forced {x : State} (hg : x.arb.grant = none) (h : ∀ e ∈ x.arb.forcedValve, x.arb.valve = .resting e) :
    tryMove x = x := by
  cases wanted : valveWanted x with
  | none => exact tryMove_none wanted
  | some e =>
    have forced : x.arb.forcedValve = some e := by
      unfold valveWanted at wanted
      rw [hg] at wanted
      dsimp only at wanted
      split at wanted
      · exact (Option.eq_some_of_filter_eq_some wanted)
      · cases wanted
    exact tryMove_there wanted (by rw [h e forced]; rfl)

/-- The state of an admitted compressor force before the arbiter acts on it (R180). -/
def withLevel (s : State) (n : Nat) : State := s.onArb fun a => { a with forcedLevel := some n }

theorem takeLevel_pos (s : State) {n : Nat} (hn : 1 ≤ n) : takeLevel s n = advance (withLevel s n) := by
  show advance (if n = 0 then compStop (withLevel s n) else withLevel s n) = _
  rw [if_neg (by omega)]

theorem takeLevel_zero (s : State) : takeLevel s 0 = advance (compStop (withLevel s 0)) := rfl

/-- The compressor is in its start window at level 1, which the load accounts (R39). -/
def Started (t : State) : Prop :=
  t.arb.comp.state = .starting ∧ t.arb.comp.level = 1 ∧ t.arb.comp.startLeft = 10 ∧ t.speedLine = 1 ∧ t.budget.level = 1

theorem compStart_started (s : State) : Started (compStart s) := by
  have arb := compStart_arb s
  have load : (compStart s).budget.level = 1 := by
    simp [compStart, claimLevel, setComp, airComp, airInput]
  unfold Started State.speedLine
  rw [arb]
  exact ⟨rfl, rfl, rfl, rfl, load⟩

theorem Started.of_eq {t u : State} (h : Started t) (ha : u.arb = t.arb) (hb : u.budget = t.budget) : Started u := by
  unfold Started State.speedLine at *
  rw [ha, hb]
  exact h

/-- A forced level starts a compressor at OFF_READY (R39, R180). -/
theorem takeLevel_starts {x : State} {n : Nat} (hn : 1 ≤ n) (hg : x.arb.grant = none) (hm : x.ctl.mode = .service)
    (hl : lockLevel x n = none) (hs : x.arb.comp.state = .offReady) (hd : x.arb.dischargePos ≠ some .above)
    (hv : ∀ e ∈ x.arb.forcedValve, x.arb.valve = .resting e) : takeLevel x n = compStart (withLevel x n) := by
  obtain ⟨stuck, still, heat⟩ := lockLevel_none hn hl
  have wanted : startWanted (withLevel x n) = true := by
    unfold startWanted
    simp only [withLevel, State.onArb_arb, State.onArb_ctl, hg, hm]
    cases at_ : x.arb.valve with
    | resting e =>
      have clear : heatClear x e = true := by
        cases e with
        | fresh => simp [heatClear]
        | freeze => simpa [heatClear, at_, Valve.toward] using heat
      have : heatClear (withLevel x n) e = true := clear
      simpa [Valve.at, hn, withLevel] using this
    | moving e t k => simp [at_, Valve.isMoving] at still; exact absurd hs still
    | stuck k => simp [at_, Valve.isStuck] at stuck
  have starts : tryStart (withLevel x n) = compStart (withLevel x n) := if_pos ⟨wanted, hs, hd⟩
  have runs : (compStart (withLevel x n)).arb.comp.state = .starting := by rw [compStart_arb]
  rw [takeLevel_pos x hn, advance_ungranted (x := withLevel x n) hg, tryMove_forced (x := withLevel x n) hg hv, starts, evalAim_off (by rw [runs]; rfl)]

/-- Of a running compressor with no step in flight, the arbiter acts on the forced level (R34, R180). -/
theorem takeLevel_steps {x : State} {n : Nat} (hn : 1 ≤ n) (hg : x.arb.grant = none) (hm : x.ctl.mode = .service)
    (hs : x.arb.comp.state = .running) (hf : x.arb.comp.step = none) :
    Stepped x.arb.comp.level x.budget (max 1 (min n (min x.arb.budgetCap (x.arb.dischargeCap.getD 5)))) (takeLevel x n) := by
  let y := tryMove (withLevel x n)
  have moved : y.arb.comp = x.arb.comp ∧ y.arb.aim y.ctl.mode = x.arb.capped n ∧ y.budget = x.budget := by
    have same : y.ctl = x.ctl ∧ y.budget = x.budget := by
      simp only [y]
      unfold tryMove beginMove
      (repeat' split) <;> exact ⟨rfl, rfl⟩
    rw [same.1, hm, same.2]
    rcases tryMove_arb (withLevel x n) with arb | ⟨_, _, _, _, _, _, arb⟩ <;>
      exact ⟨by simp only [y, arb]; rfl, by simp only [y, arb]; rfl, rfl⟩
  obtain ⟨comp, aim, budget⟩ := moved
  have waits : tryStart y = y := if_neg fun h => by rw [comp, hs] at h; exact absurd h.2.1 (by decide)
  have steps := evalAim_stepped (s := y) (by unfold Arbiter.stepFree; rw [comp, hs, hf]; rfl)
  rw [takeLevel_pos x hn, advance_ungranted (x := withLevel x n) hg]
  change Stepped _ _ _ (evalAim (tryStart y))
  rw [waits]
  rw [comp, aim, budget] at steps
  exact steps

theorem takeValve_forces (s : State) (e : Evap) :
    (takeValve s e).arb.forcedValve = some e ∧ (takeValve s e).arb.forcedLevel = s.arb.forcedLevel
      ∧ (takeValve s e).arb.hold = s.arb.hold := by
  obtain ⟨level, valve, _⟩ := (acts_advance (w := 0) (.refl (s := s.onArb fun a => { a with forcedValve := some e }))).forces
  obtain ⟨_, hold, _⟩ := advance_grant (s.onArb fun a => { a with forcedValve := some e })
  exact ⟨valve, level, hold⟩

theorem takeLevel_forces (s : State) (n : Nat) :
    (takeLevel s n).arb.forcedLevel = some n ∧ (takeLevel s n).arb.forcedValve = s.arb.forcedValve
      ∧ (takeLevel s n).arb.hold = s.arb.hold := by
  have own : Acts 0 (withLevel s n) (takeLevel s n) :=
    acts_advance (acts_ite _ (acts_compStop .refl) .refl)
  obtain ⟨level, valve, _⟩ := own.forces
  refine ⟨level, valve, ?_⟩
  obtain ⟨_, hold, _⟩ := advance_grant (if n = 0 then compStop (withLevel s n) else withLevel s n)
  refine hold.trans ?_
  split
  · exact (compStop_arb (withLevel s n)).1
  · rfl

/-- Settles O31: the acts of `takeValve` and `takeLevel` for what is kept, and what the arbiter does on each force for the rest. -/
theorem valveAndLevelForcesAreTaken : Obligations.ValveAndLevelForcesAreTaken := by
  intro s tag v hr hm
  have mode : ∀ f, (placed (restartIdle s) f).ctl.mode = .service := fun f => by simpa using hm
  have arb : ∀ f, (placed (restartIdle s) f).arb = s.arb := fun f => by simp
  have rest : HeaterLaw s → s.arb.hold = false ∧ s.arb.grant = none := fun h => h.atRest (by rw [hm]; decide)
  refine ⟨fun e he hl => ?valve, fun hv hl => ?level⟩
  case valve =>
    have lock : ∀ f, lockValve (placed (restartIdle s) f) e = none := fun f => (lockValve_r s f e).trans hl
    refine (reaches_valve tag v).forced_settles hr hm he lock fun f l z k still => ?_
    obtain ⟨target, level, hold⟩ := takeValve_forces (placed (restartIdle s) f) e
    rw [arb f] at level hold
    obtain ⟨level', target', _⟩ := k.forces
    refine ⟨kept_request (by omega) (acts_takeValve (w := 1) e (le_refl 1) .refl) k, ?_, ?_, fun law => ?_⟩
    · rw [settleLink_arb]; exact target'.trans target
    · rw [settleLink_arb]; exact level'.trans level
    · obtain ⟨unheld, ungranted⟩ := rest law
      rw [settleLink_arb, still (hold.trans unheld), ← arb f]
      exact takeValve_valve (by rw [arb f]; exact ungranted) (mode f) (lock f)
  case level =>
    have lock : ∀ f, lockLevel (placed (restartIdle s) f) v.toNat = none := fun f => (lockLevel_r s f _).trans hl
    refine (reaches_level tag v).forced_settles hr hm (of_le_five hv) lock fun f l z k still => ?_
    have own := acts_takeLevel (w := 1) v.toNat (le_refl 1) (.refl (s := placed (restartIdle s) f))
    obtain ⟨level, target, hold⟩ := takeLevel_forces (placed (restartIdle s) f) v.toNat
    rw [arb f] at target hold
    obtain ⟨level', target', _⟩ := k.forces
    refine ⟨kept_request (by omega) own k, ?_, ?_, fun zero load turns => ?_, fun pos law ready low at_ => ?_,
      fun pos law runs free => ?_⟩
    · rw [settleLink_arb]; exact level'.trans level
    · rw [settleLink_arb]; exact target'.trans target
    · have stopped : Off3 (compStop (withLevel (placed (restartIdle s) f) 0)) :=
        compStop_off3 (loadLaw_of_arb (loadLaw_placed load f) rfl rfl) (by rw [← arb f] at turns; exact turns)
      rw [zero] at k
      exact ((stopped.acts (acts_advance (w := 0) .refl) (by omega)).link).ends k
    · obtain ⟨unheld, ungranted⟩ := rest law
      have starts := takeLevel_starts pos (by rw [arb f]; exact ungranted) (mode f) (lock f) (by rw [arb f]; exact ready)
        (by rw [arb f]; exact low) (by rw [arb f]; exact at_)
      rw [still (hold.trans unheld)]
      exact (Started.of_eq (starts ▸ compStart_started _) (by simp) (by simp))
    · obtain ⟨unheld, ungranted⟩ := rest law
      have steps := takeLevel_steps (x := placed (restartIdle s) f) pos (by rw [arb f]; exact ungranted) (mode f)
        (by rw [arb f]; exact runs) (by rw [arb f]; exact free)
      rw [still (hold.trans unheld)]
      have same : (placed (restartIdle s) f).budget = s.budget := by simp
      rw [arb f, same] at steps
      exact steps.of_eq (by simp) (by simp)

end Sys2Proof.Machine

namespace Sys2Proof.Machine

/-! ### Heater forces (R178, R182, R183) -/

/-- An admitted heater force ON finds FREEZE not fed, and room for a claim (R182). -/
theorem lockHeater_none {s : State} (h : lockHeater s true = none) :
    s.arb.feedsFreeze = false ∧ (s.defrost.heater = .off → s.budget.heaterFits = true) := by
  have locks := firstLock_none (l := _) h
  simp only [List.forall_mem_cons, Bool.and_eq_false_iff, Bool.or_eq_false_iff, beq_eq_false_iff_ne, Bool.not_eq_false'] at locks
  obtain ⟨⟨feeds, _⟩, _, fits, _⟩ := locks
  exact ⟨feeds, fun k => fits.resolve_left fun n => n k⟩

/-- What settling makes of a record holds the same units available (R146). -/
theorem Budget.SettlesTo.units_eq {b u : Budget} (h : b.SettlesTo u) : u.units = b.units := by
  obtain ⟨_, none_, fits, waits, _⟩ := h
  unfold Budget.units
  cases hp : b.pending with
  | none =>
    obtain ⟨inForce, pending⟩ := none_ hp
    rw [inForce, pending]
  | some p =>
    by_cases room : b.weighs ≤ p - 5
    · obtain ⟨inForce, pending⟩ := fits p hp room
      rw [inForce, pending]; rfl
    · obtain ⟨inForce, pending⟩ := waits p hp (by omega)
      rw [inForce, pending]

/-- A heater not WAITING is left as it is (R135). -/
theorem Budget.SettlesTo.heater_eq {b u : Budget} (h : b.SettlesTo u) (hw : b.heater ≠ .waiting) : u.heater = b.heater := by
  obtain ⟨_, _, _, _, heater, _⟩ := h
  rw [heater, if_neg fun k => hw k.1]

theorem Budget.SettlesTo.weighs_eq {b u : Budget} (h : b.SettlesTo u) (hw : b.heater ≠ .waiting) : u.weighs = b.weighs := by
  have heater := h.heater_eq hw
  obtain ⟨record, _⟩ := h
  have level : u.level = b.level := by rw [record]
  unfold Budget.weighs
  rw [level, heater]

/-- The cap is determined by the units and by whether the heater is claimed (R134). -/
theorem Budget.SettlesTo.cap_eq {b u c v : Budget} (h : b.SettlesTo u) (k : c.SettlesTo v) (hu : u.units = v.units)
    (hh : u.heater = v.heater) : u.cap = v.cap := by
  obtain ⟨_, _, _, _, _, _, _, low, high, fits⟩ := h
  obtain ⟨_, _, _, _, _, _, _, low', high', fits'⟩ := k
  rw [hu, hh] at fits
  apply le_antisymm
  · rcases Nat.lt_or_ge u.cap 2 with one | two
    · omega
    · exact (fits' _ two high).2 ((fits _ two high).1 (le_refl _))
  · rcases Nat.lt_or_ge v.cap 2 with one | two
    · omega
    · exact (fits _ two high').2 ((fits' _ two high').1 (le_refl _))

/-- Of a settled load an admitted mullion force ON finds room (R134, R183). -/
theorem lockMullion_fits {s : State} (hl : lockMullion s true = none) (hs : s.budget.settle = s.budget)
    (hw : s.budget.heater ≠ .waiting) : s.budget.weighs + 2 ≤ s.budget.units := by
  have settled := settle_settles s.budget
  rw [hs] at settled
  obtain ⟨_, _, _, _, _, wished, unwished, _⟩ := settled
  rw [lockMullion_eq] at hl
  by_cases on : s.budget.mullion = .on
  · by_cases wish : s.budget.wished = true
    · by_contra full
      have := wished wish hw
      rw [if_neg full, on] at this
      cases this
    · by_contra full
      have := unwished (Or.inl (by simpa using wish))
      rw [if_pos ⟨on, by omega⟩, on] at this
      cases this
  · have room : ¬ s.budget.available < s.budget.sum + 2 := fun full => by
      rw [if_pos ⟨rfl, on, full⟩] at hl
      cases hl
    rw [sum_weighs, if_neg on, available_units] at room
    omega

/-- An aim that is reached, or that nothing runs toward, brings no step (R34). -/
theorem evalAim_reached {s : State} (h : s.arb.comp.level = s.arb.aim s.ctl.mode ∨ s.arb.comp.state.running_ = false) :
    evalAim s = s := by
  rcases h with level | off
  · unfold evalAim stepDown
    rw [if_neg (by omega), if_neg (by omega)]
  · exact evalAim_off off

/-- An admitted mullion force ON of a settled load with no step due ends with the mullion heater ON (R141, R143, R183). -/
theorem takeMullion_on {s : State} (hm : s.ctl.mode = .service) (hb : s.budget.mode = .service)
    (hs : s.budget.settle = s.budget) (hw : s.budget.heater ≠ .waiting) (hl : lockMullion s true = none)
    (ha : s.arb.comp.level = s.arb.aim .service ∨ s.arb.comp.state.running_ = false) :
    (takeMullion s true).budget.mullion = .on := by
  have room := lockMullion_fits hl hs hw
  let c : Budget := { s.budget with force := some true }
  have wished : c.wished = true := by
    simp [c, Budget.wished, hb]
  have settled := settle_settles s.budget
  rw [hs] at settled
  unfold takeMullion wishChange
  split
  · rename_i same
    obtain ⟨_, _, _, _, _, on, _⟩ := settled
    have := on (same.symm.trans wished) hw
    rw [if_pos room] at this
    exact this
  · have forced : c.unwish = c := if_pos wished
    have settles := settle_settles c
    have heater : c.settle.heater = s.budget.heater := settles.heater_eq hw
    have weighs : c.settle.weighs = s.budget.weighs := settles.weighs_eq hw
    have units : c.settle.units = s.budget.units := settles.units_eq
    have cap : c.settle.cap = s.budget.cap := settles.cap_eq settled units heater
    obtain ⟨y, ends, budget, ctl, arb, _⟩ := settleFrom_after (s.onBudget fun b => ({ b with force := some true } : Budget).unwish) s.budget
    simp only [State.onBudget_budget, State.onBudget_arb, State.onBudget_ctl] at budget ctl arb
    change y.budget = c.unwish.settle at budget
    change y.arb = { s.arb with budgetCap := if c.unwish.settle.cap = s.budget.cap then s.arb.budgetCap else c.unwish.settle.cap } at arb
    rw [forced] at budget arb
    rw [if_pos cap] at arb
    unfold budgetChange
    rw [ends, evalAim_reached (by rw [arb, ctl, hm]; exact ha), budget]
    obtain ⟨_, _, _, _, _, on, _⟩ := settles
    have := on wished (by rw [heater]; exact hw)
    rwa [weighs, units, if_pos room] at this

theorem takeMullion_force (s : State) (on : Bool) :
    (takeMullion s on).budget.force = some on ∧ (takeMullion s on).arb.hold = s.arb.hold := by
  unfold takeMullion wishChange
  split
  · exact ⟨rfl, rfl⟩
  · let x := s.onBudget fun b => ({ b with force := some on } : Budget).unwish
    obtain ⟨_, _, _, _, _, _, force⟩ := (acts_settleFrom (w := 0) s.budget (.refl (s := x))).forces
    obtain ⟨_, _, hold, _⟩ := settleFrom_arb x s.budget
    refine ⟨force.trans ?_, hold⟩
    simp only [x, State.onBudget_budget, Budget.unwish]
    split <;> rfl

theorem takeHeater_claims {s : State} (h : s.defrost.heater = .off) : takeHeater s true = claimFor s .service := if_pos h

theorem takeHeater_stands {s : State} (h : s.defrost.heater ≠ .off) : takeHeater s true = s := if_neg h

theorem takeHeater_ends {s : State} (h : s.defrost.use = some .service) :
    takeHeater s false = advance (postDefrost (heaterOff s)) := if_pos h

theorem takeHeater_other {s : State} (h : s.defrost.use ≠ some .service) : takeHeater s false = s := if_neg h

/-- The end of a SERVICE heater leaves it OFF and the hold as it was (R130). -/
theorem heaterEnds_off (s : State) : let t := advance (postDefrost (heaterOff s))
    t.defrost.heater = .off ∧ t.defrost.use = none ∧ t.arb.hold = s.arb.hold := by
  intro t
  obtain ⟨heater, use⟩ := advance_heater (postDefrost (heaterOff s))
  obtain ⟨off, unused⟩ := heaterOff_off s
  obtain ⟨_, hold, _⟩ := advance_grant (postDefrost (heaterOff s))
  obtain ⟨_, _, _, held⟩ := still_heaterOff s
  refine ⟨heater.trans ?_, use.trans ?_, hold.trans ?_⟩ <;> simpa [postDefrost]

/-- Settles O32: `claimFor_on` and `rises_recheck` for ON, `heaterEnds_off` for OFF, `takeMullion_on` for the mullion heater. -/
theorem heaterForcesAreTaken : Obligations.HeaterForcesAreTaken := by
  intro s tag hr hm
  have mode : ∀ f, (placed (restartIdle s) f).ctl.mode = .service := fun f => by simpa using hm
  have arb : ∀ f, (placed (restartIdle s) f).arb = s.arb := fun f => by simp
  have defrost : ∀ f, (placed (restartIdle s) f).defrost = s.defrost := fun f => by simp
  have budget : ∀ f, (placed (restartIdle s) f).budget = s.budget := fun f => by simp
  have lock : ∀ b, lockHeater s b = none → ∀ f, lockHeater (placed (restartIdle s) f) b = none :=
    fun b h f => (lockHeater_r s f b).trans h
  refine ⟨fun hl off => ?on, fun hl used => ?stands, fun use => ?ends, fun other => ?nothing, fun on hl => ?mullion⟩
  case on =>
    refine (reaches_heater tag 1).answers_recheck hr (fun f => takeHeater (placed (restartIdle s) f) true)
      (fun f => force_taken (mode f) (v := true) rfl (lock true hl f)) fun f l => ?_
    obtain ⟨feeds, fits⟩ := lockHeater_none (lock true hl f)
    have none_ : (placed (restartIdle s) f).defrost.heater = .off := by rw [defrost f]; exact off
    have own := acts_takeHeater (w := 0) true (fun _ => ⟨mode f, feeds⟩) (.refl (s := placed (restartIdle s) f))
    refine ⟨kept_request (by omega) own (acts_recheck s .refl), ?_⟩
    rw [takeHeater_claims none_]
    obtain ⟨_, _, _, use, claimed⟩ := still_claimFor (placed (restartIdle s) f) .service
    have rises : Rises (claimFor (placed (restartIdle s) f) .service) (recheck s { claimFor (placed (restartIdle s) f) .service with link := l }) :=
      rises_recheck s { claimFor (placed (restartIdle s) f) .service with link := l }
    obtain ⟨stays, used⟩ := rises.use ⟨claimed, use⟩
    simp only [settleLink_defrost, State.heaterOutput]
    refine ⟨used, stays, fun law => ?_⟩
    have free : (placed (restartIdle s) f).budget.heater = .none_ := by
      obtain ⟨_, _, _, _, claim⟩ := law
      rw [budget f, claim, off]; rfl
    have room := fits none_
    have isOn := rises.on (claimFor_on .service free (by
      unfold Budget.heaterFits at room
      rw [sumBare_weighs] at room
      exact of_decide_eq_true room))
    exact ⟨isOn, by rw [isOn]; rfl⟩
  case stands =>
    have stands : ∀ f, takeHeater (placed (restartIdle s) f) true = placed (restartIdle s) f :=
      fun f => takeHeater_stands (by rw [defrost f]; exact used)
    refine (reaches_heater tag 1).forced hr hm (v := true) rfl (lock true hl) (fun f => by rw [stands f]; exact moved_restart s f) fun f t only => ?_
    rw [stands f] at only
    exact only
  case ends =>
    refine (reaches_heater tag 0).forced_settles hr hm (v := false) rfl (lock false rfl) fun f l z k still => ?_
    have own := acts_takeHeater (w := 0) false nofun (.refl (s := placed (restartIdle s) f))
    refine ⟨kept_request (by omega) own k, fun unheld => ?_⟩
    rw [takeHeater_ends (by rw [defrost f]; exact use)] at still
    obtain ⟨off, unused, hold⟩ := heaterEnds_off (placed (restartIdle s) f)
    rw [still (hold.trans (by rw [arb f]; exact unheld)), settleLink_defrost]
    exact ⟨off, unused⟩
  case nothing =>
    have stands : ∀ f, takeHeater (placed (restartIdle s) f) false = placed (restartIdle s) f :=
      fun f => takeHeater_other (by rw [defrost f]; exact other)
    refine (reaches_heater tag 0).forced hr hm (v := false) rfl (lock false rfl) (fun f => by rw [stands f]; exact moved_restart s f) fun f t only => ?_
    rw [stands f] at only
    exact only
  case mullion =>
    refine (reaches_mullion tag _).forced_settles hr hm (v := on) (by cases on <;> rfl)
      (fun f => (lockMullion_r s f on).trans hl) fun f l z k still => ?_
    have own := acts_takeMullion (w := 1) on (le_refl 1) (.refl (s := placed (restartIdle s) f))
    obtain ⟨force, hold⟩ := takeMullion_force (placed (restartIdle s) f) on
    obtain ⟨_, _, _, _, _, _, force'⟩ := k.forces
    refine ⟨kept_request (by omega) own k, ?_, fun isOn _ law service settled free reached => ?_⟩
    · rw [settleLink_budget]; exact force'.trans force
    · subst isOn
      obtain ⟨unheld, _⟩ := law.atRest (by rw [hm]; decide)
      have ends := takeMullion_on (mode f) (by rw [budget f]; exact service) (by rw [budget f]; exact settled)
        (by rw [budget f]; exact free) ((lockMullion_r s f true).trans hl) (by rw [arb f]; exact reached)
      rw [still (hold.trans (by rw [arb f]; exact unheld))]
      simp only [settleLink_budget, State.mullionOutput]
      exact ⟨ends, by rw [ends]; rfl⟩

end Sys2Proof.Machine

namespace Sys2Proof.Machine

/-! ### Carried settings and their ranges (R199) -/

/-- A setting is checked only where it is carried. -/
theorem checkCarried_iff (set : Byte) (i : Nat) (ok : Bool) : checkCarried set i ok = true ↔ (carries set i = true → ok = true) := by
  unfold checkCarried
  cases carries set i <;> simp

theorem inRange_iff (n lo hi : Nat) : inRange n lo hi = true ↔ lo ≤ n ∧ n ≤ hi := by simp [inRange]

theorem carriesOnly_iff (set : Byte) (n : Nat) : carriesOnly set n = true ↔ set.toNat < 2 ^ n := by simp [carriesOnly]

theorem policy_ok (b : Byte) : (policyOf b).isSome = true ↔ b.toNat ≤ 1 := by
  unfold policyOf
  split <;> simp_all
  omega

theorem queue_ok (b : Byte) : (queueOf b).isSome = true ↔ b.toNat ≤ 1 := by
  unfold queueOf
  split <;> simp_all
  omega

theorem mullionMode_ok (b : Byte) : (mullionModeOf b).isSome = true ↔ b.toNat ≤ 2 := by
  unfold mullionModeOf
  split <;> simp_all
  omega

/-- A request that carries nothing carries no single setting. -/
theorem carries_zero (i : Nat) : carries 0 i = false := by simp [carries]

/-! ### SET_TIMING (R57) -/

/-- When the carried times are in their ranges. -/
theorem timing_ok_iff (f : TimingFields) : f.ok = true ↔ f.carried.toNat < 32
    ∧ (carries f.carried 0 = true → 180 ≤ f.minOff.toNat ∧ f.minOff.toNat ≤ 900)
    ∧ (carries f.carried 1 = true → 60 ≤ f.minOn.toNat ∧ f.minOn.toNat ≤ 600)
    ∧ (carries f.carried 2 = true → 60 ≤ f.minDwell.toNat ∧ f.minDwell.toNat ≤ 1200)
    ∧ (carries f.carried 3 = true → 300 ≤ f.maxWait.toNat ∧ f.maxWait.toNat ≤ 3600)
    ∧ (carries f.carried 4 = true → 600 ≤ f.maxRun.toNat ∧ f.maxRun.toNat ≤ 7200) := by
  unfold TimingFields.ok
  simp only [Bool.and_eq_true, checkCarried_iff, inRange_iff, carriesOnly_iff, and_assoc]
  exact Iff.rfl

/-- The state with the carried times taken. -/
def withTiming (s : State) (f : TimingFields) : State := s.onArb fun a => { a with timing := f.apply a.timing }

theorem doSetTiming_ok {s : State} {f : TimingFields} (h : f.ok = true) : doSetTiming s f =
    done (if expiryPast (withTiming s f).arb s.uptime f.carried then switchCheck (withTiming s f) else withTiming s f) := if_pos h

/-- A carried time that is already past, of the times taken (R57). -/
theorem expiryPast_iff (a : Arbiter) (now : Time) (f : TimingFields) :
    expiryPast { a with timing := f.apply a.timing } now f.carried = true ↔
      (carries f.carried 2 = true ∧ ∃ g ∈ a.grant, ∃ x ∈ g.dwellStart, f.minDwell.toNat ≤ elapsed now x)
      ∨ (carries f.carried 3 = true ∧ ∃ x ∈ a.list, f.maxWait.toNat ≤ elapsed now x.postedAt)
      ∨ (carries f.carried 4 = true ∧ ∃ g ∈ a.grant, ∃ x ∈ g.activation, f.maxRun.toNat ≤ elapsed now x) := by
  unfold expiryPast TimingFields.apply
  cases h2 : carries f.carried 2 <;> cases h3 : carries f.carried 3 <;> cases h4 : carries f.carried 4 <;>
    cases a.grant <;> simp [Option.any_eq_true, or_assoc]

theorem switchCheck_decided {s : State} {g : Grant} (hg : s.arb.grant = some g) (h : s.arb.Decides g s.uptime) :
    switchCheck s = doSwitch s g := by
  unfold switchCheck
  rw [hg]
  exact if_pos ((switches_iff hg).2 h)

theorem switchCheck_undecided {s : State} (h : ¬ ∃ g ∈ s.arb.grant, s.arb.Decides g s.uptime) : switchCheck s = s := by
  unfold switchCheck
  cases hg : s.arb.grant with
  | none => rfl
  | some g => exact if_neg fun k => h ⟨g, by simp [hg], (switches_iff hg).1 k⟩

/-- A switch stands through the feeding check and the end of the command. -/
theorem Switched.ends {s : State} {g : Grant} {t : State} {l : Link} (a : State) (h : Switched s g t) :
    Switched s g (settleLink (recheck a { t with link := l })) := by
  obtain ⟨_, g', grant, _⟩ := id h
  obtain ⟨list_, grant_⟩ := recheck_granted a { t with link := l } (by simp [grant])
  exact GrantFormed.of_arb h ((congrArg Arbiter.list (settleLink_arb _)).trans list_)
    ((congrArg Arbiter.grant (settleLink_arb _)).trans grant_)

theorem Switched.of_arb {v u : State} {g : Grant} {t : State} (h : Switched v g t) (ha : v.arb = u.arb)
    (hu : v.uptime = u.uptime) : Switched u g t := by
  unfold Switched GrantFormed at *
  rw [← ha, ← hu]
  exact h

/-- Settles O21: `expiryPast_iff` says when the switch check comes, and `doSwitch_switched` what it does. -/
theorem setTimingTakesItsSettings : Obligations.SetTimingTakesItsSettings := by
  intro s tag carried a b c d e hr f i has taken u past
  have times : u = (restartIdle s).onArb fun x => { x with timing := f.apply x.timing } := rfl
  have comes : ∀ fr, expiryPast (withTiming (placed (restartIdle s) fr) f).arb (placed (restartIdle s) fr).uptime carried = true ↔ past := by
    intro fr
    have arb : (withTiming (placed (restartIdle s) fr) f).arb = { s.arb with timing := f.apply s.arb.timing } := by simp [withTiming]
    have uptime : (placed (restartIdle s) fr).uptime = s.uptime := by simp
    rw [arb, uptime]
    exact expiryPast_iff s.arb s.uptime f
  have same : ∀ fr, (withTiming (placed (restartIdle s) fr) f).arb = u.arb := fun fr => by rw [times]; simp [withTiming]
  have decides : ∀ fr g, (withTiming (placed (restartIdle s) fr) f).arb.Decides g (withTiming (placed (restartIdle s) fr) f).uptime ↔
      u.arb.Decides g s.uptime := fun fr g => by rw [same fr]; simp [withTiming]
  have kept : ∀ fr, Kept u (withTiming (placed (restartIdle s) fr) f) := fun fr => kept_link u _
  have reach := reaches_setTiming tag carried a b c d e
  refine ⟨timing_ok_iff f, fun bad => ?bad, fun ok => ?kept, fun ok none_ => ?quiet, fun g ok now hg dec => ?switch⟩
  case bad => exact reach.refused hr fun fr => if_neg (by simpa using bad)
  case kept =>
    refine reach.answers_acts hr _ (fun fr => doSetTiming_ok ok) fun fr l z k => ?_
    have all : Kept u (settleLink z) :=
      (kept fr).trans (((acts_ite (w := 0) _ (acts_switchCheck .refl) .refl).kept (by omega)).trans (kept_tail k))
    obtain ⟨_, _, _, _, _, _, ⟨_, _, timing, _⟩, _⟩ := id all
    exact ⟨all, timing⟩
  case quiet =>
    have stays : ∀ fr, (if expiryPast (withTiming (placed (restartIdle s) fr) f).arb (placed (restartIdle s) fr).uptime carried
        then switchCheck (withTiming (placed (restartIdle s) fr) f) else withTiming (placed (restartIdle s) fr) f)
        = withTiming (placed (restartIdle s) fr) f := by
      intro fr
      split
      · rename_i h
        refine switchCheck_undecided ?_
        rintro ⟨g, hg, dec⟩
        refine none_ ⟨(comes fr).1 h, g, ?_, (decides fr g).1 dec⟩
        rw [same fr] at hg
        simpa [times] using hg
      · rfl
    refine reach.answers hr (fun fr => withTiming (placed (restartIdle s) fr) f)
      (fun fr => (doSetTiming_ok ok).trans (congrArg done (stays fr))) (fun fr => Or.inl ?_) fun fr t only => only
    simp [feedingMoved, withTiming]
  case switch =>
    refine reach.answers_recheck hr (fun fr => doSwitch (withTiming (placed (restartIdle s) fr) f) g) (fun fr => ?_) fun fr l => ⟨?_, ?_⟩
    · have grant : (withTiming (placed (restartIdle s) fr) f).arb.grant = some g := by rw [same fr]; simpa [times] using hg
      refine (doSetTiming_ok ok).trans (congrArg done ?_)
      exact (if_pos ((comes fr).2 now)).trans (switchCheck_decided grant ((decides fr g).2 dec))
    · have grant : (withTiming (placed (restartIdle s) fr) f).arb.grant = some g := by rw [same fr]; simpa [times] using hg
      have own := acts_switchCheck (w := 0) (.refl (s := withTiming (placed (restartIdle s) fr) f))
      rw [switchCheck_decided grant ((decides fr g).2 dec)] at own
      exact (kept fr).trans ((own.kept (by omega)).trans (kept_tail (acts_recheck s .refl)))
    · exact ((doSwitch_switched _ g).1.of_arb (same fr) (by rw [times]; simp [withTiming])).ends s

end Sys2Proof.Machine

namespace Sys2Proof.Machine

/-! ### SET_BUDGET (R145, R146) -/

theorem budget_ok_iff (f : BudgetFields) : f.ok = true ↔ f.carried.toNat < 4
    ∧ (carries f.carried 0 = true → 20 ≤ f.budget.toNat ∧ f.budget.toNat ≤ 40)
    ∧ (carries f.carried 1 = true → f.mode.toNat ≤ 2) := by
  unfold BudgetFields.ok
  simp only [Bool.and_eq_true, checkCarried_iff, inRange_iff, carriesOnly_iff, mullionMode_ok, and_assoc]
  exact Iff.rfl

theorem mullionMode_value {m : Byte} (h : m.toNat ≤ 2) (d : MullionMode) :
    (mullionModeOf m).getD d = if m.toNat = 0 then .auto else if m.toNat = 1 then .on else .off := by
  unfold mullionModeOf
  split <;> simp_all
  omega

/-- The mullion mode and the budget asked for after a SET_BUDGET. -/
theorem apply_settings (f : BudgetFields) (b : Budget) :
    (f.apply b).mullionMode = (if carries f.carried 1 then (mullionModeOf f.mode).getD b.mullionMode else b.mullionMode)
      ∧ (f.apply b).asked = if carries f.carried 0 then f.budget.toNat else b.asked := by
  let c := if carries f.carried 0 then b.takeBudget f.budget.toNat else b
  let d : Budget := { c with mullionMode := if carries f.carried 1 then (mullionModeOf f.mode).getD c.mullionMode else c.mullionMode }
  obtain ⟨mode, asked⟩ := Budget.settings_of_core (Budget.unwish_core d)
  have mode_ : c.mullionMode = b.mullionMode := by
    simp only [c]
    split
    · exact takeBudget_mm b _
    · rfl
  have asked_ : c.asked = if carries f.carried 0 then f.budget.toNat else b.asked := by
    simp only [c]
    split
    · exact Budget.takeBudget_asked b _
    · rfl
  refine ⟨mode.trans ?_, asked.trans asked_⟩
  simp only [d, mode_]

/-- A budget is in force at once where the sum fits it, else pending (R145, R146). -/
theorem takeBudget_force (b : Budget) (n : Nat) : ((b.takeBudget n).inForce, (b.takeBudget n).pending) =
    if b.sum ≤ n - 5 then (n, none) else (b.inForce, some n) := by
  unfold Budget.takeBudget
  split
  · exact (if_pos (by assumption)).symm
  · exact (if_neg (by assumption)).symm

theorem unwish_force (b : Budget) : (b.unwish.inForce, b.unwish.pending) = (b.inForce, b.pending) := by
  unfold Budget.unwish
  split <;> rfl

theorem apply_force (f : BudgetFields) (b : Budget) (h : carries f.carried 0 = true) :
    ((f.apply b).inForce, (f.apply b).pending) = if b.sum ≤ f.budget.toNat - 5 then (f.budget.toNat, none) else (b.inForce, some f.budget.toNat) := by
  unfold BudgetFields.apply
  rw [unwish_force, ← takeBudget_force, if_pos h]

theorem apply_weighs (f : BudgetFields) (b : Budget) : (f.apply b).weighs = b.weighs := by
  unfold Budget.weighs
  rw [apply_level, apply_claim]

/-- Settling brings a carried budget into force where the sum without the mullion heater fits it (R146). -/
theorem settled_force (f : BudgetFields) (b : Budget) (h : carries f.carried 0 = true) :
    ((f.apply b).settle.inForce, (f.apply b).settle.pending) =
      if b.weighs ≤ f.budget.toNat - 5 then (f.budget.toNat, none) else (b.inForce, some f.budget.toNat) := by
  obtain ⟨_, settled, fits, waits, _⟩ := settle_settles (f.apply b)
  have taken := apply_force f b h
  have weighs : b.weighs ≤ b.sum := by
    rw [sum_weighs]
    omega
  rw [apply_weighs] at fits waits
  by_cases all : b.sum ≤ f.budget.toNat - 5
  · rw [if_pos all, Prod.mk.injEq] at taken
    obtain ⟨inForce, pending⟩ := taken
    obtain ⟨inForce', pending'⟩ := settled pending
    rw [if_pos (by omega), inForce', pending', inForce]
  · rw [if_neg all, Prod.mk.injEq] at taken
    obtain ⟨inForce, pending⟩ := taken
    by_cases room : b.weighs ≤ f.budget.toNat - 5
    · obtain ⟨inForce', pending'⟩ := fits _ pending room
      rw [if_pos room, inForce', pending']
    · obtain ⟨inForce', pending'⟩ := waits _ pending (by omega)
      rw [if_neg room, inForce', pending', inForce]

/-- Where a settling is asked for, the record is the settled one but for an upward step that begins, and the arbiter has its cap
(R34, R134, R135). -/
theorem budgetChange_settled (x : State) (g : Budget → Budget) : let t := budgetChange x g; let u := (g x.budget).settle
    t.budget = { u with level := t.budget.level, mullion := t.budget.mullion }
      ∧ (t.arb.comp.step = x.arb.comp.step → t.budget = u)
      ∧ (x.arb.budgetCap = x.budget.cap → t.arb.budgetCap = t.budget.cap) := by
  intro t u
  obtain ⟨y, ends, budget, _, arb, _⟩ := settleFrom_after (x.onBudget g) x.budget
  obtain ⟨cap, record, same⟩ := evalAim_record y
  have after : t = evalAim y := ends
  have step : y.arb.comp.step = x.arb.comp.step := by rw [arb]; rfl
  have settled : y.budget = u := budget
  have handed : y.arb.budgetCap = if u.cap = x.budget.cap then x.arb.budgetCap else u.cap := by rw [arb]; rfl
  rw [after, ← settled]
  rw [← settled] at handed
  refine ⟨record, fun h => same (h.trans step.symm), fun h => ?_⟩
  have settledCap : (evalAim y).budget.cap = y.budget.cap := by rw [record]
  rw [settledCap]
  rcases cap with q | q
  · rw [q, handed, h]
    split
    · rename_i e; exact e.symm
    · rfl
  · exact q

theorem budgetChange_force (x : State) (g : Budget → Budget) : ((budgetChange x g).budget.inForce, (budgetChange x g).budget.pending) =
    ((g x.budget).settle.inForce, (g x.budget).settle.pending) := by
  obtain ⟨record, _⟩ := budgetChange_settled x g
  rw [record]

/-- A change of the load's record that keeps its settings keeps every setting. -/
theorem kept_onBudget {s : State} {g : Budget → Budget} (mode : (g s.budget).mullionMode = s.budget.mullionMode)
    (asked : (g s.budget).asked = s.budget.asked) : Kept (s.onBudget g) s :=
  ⟨rfl, rfl, rfl, rfl, rfl, rfl, ⟨fun _ => rfl, fun _ => rfl, rfl, mode.symm, asked.symm, rfl, rfl, rfl⟩, faultsStay_rfl _⟩

theorem doSetBudget_empty {s : State} {f : BudgetFields} (h : f.carried = 0) : doSetBudget s f = done s := by
  have none_ : ∀ k, carries f.carried k ≠ true := fun k => by rw [h, carries_zero]; decide
  have ok : f.ok = true := (budget_ok_iff f).2 ⟨by rw [h]; decide, fun k => absurd k (none_ 0), fun k => absurd k (none_ 1)⟩
  unfold doSetBudget
  rw [if_pos ok, if_pos h]

theorem doSetBudget_change {s : State} {f : BudgetFields} (ok : f.ok = true) (h : f.carried ≠ 0) :
    doSetBudget s f = done (budgetChange s f.apply) := by
  unfold doSetBudget
  rw [if_pos ok, if_neg h]

theorem OnlyLink.load {u t : State} (h : OnlyLink u t) : t.arb = u.arb ∧ t.budget = u.budget := by
  unfold OnlyLink at h
  exact ⟨by rw [h], by rw [h]⟩

/-- Settles O22: `settle_settles` for any record; the request is one `budgetChange`, which moves nothing that brings a feeding
check. -/
theorem setBudgetTakesItsSettings : Obligations.SetBudgetTakesItsSettings := by
  refine ⟨settle_settles, fun s tag carried n m hr law => ?_⟩
  intro f i
  have reach := reaches_setBudget tag carried n m
  have budget : ∀ fr, (placed (restartIdle s) fr).budget = s.budget := fun fr => by simp
  have arb : ∀ fr, (placed (restartIdle s) fr).arb = s.arb := fun fr => by simp
  have still : ∀ fr, feedingMoved s (budgetChange (placed (restartIdle s) fr) f.apply) = false := by
    intro fr
    obtain ⟨⟨comp, valve, grant, _⟩, _⟩ := still_settleFrom ((placed (restartIdle s) fr).onBudget f.apply) (placed (restartIdle s) fr).budget
    unfold feedingMoved budgetChange
    rw [comp, valve, grant]
    simp
  have changed : ∀ Q : State → Prop, f.ok = true → carried ≠ 0 →
      (∀ fr t, OnlyLink (budgetChange (placed (restartIdle s) fr) f.apply) t → Q t) → Answers i s 0x0C tag [0] Q :=
    fun Q ok some_ hQ => reach.answers hr (fun fr => budgetChange (placed (restartIdle s) fr) f.apply)
      (fun fr => doSetBudget_change ok some_) (fun fr => Or.inl (still fr)) hQ
  have carriesSome : ∀ k, carries carried k = true → carried ≠ 0 := by
    rintro k h rfl
    rw [carries_zero] at h
    cases h
  have keeps : ∀ fr t, OnlyLink (budgetChange (placed (restartIdle s) fr) f.apply) t → Kept ((restartIdle s).onBudget f.apply) t := by
    intro fr t only
    have own := acts_settleFrom (w := 0) (placed (restartIdle s) fr).budget (.refl (s := (placed (restartIdle s) fr).onBudget f.apply))
    refine Kept.trans (kept_link _ _) ((own.kept (by omega)).trans ?_)
    exact (onlyNotices_of_link only).kept
  refine ⟨budget_ok_iff f, fun bad => ?bad, fun empty => ?empty, fun ok => ?kept, fun ok has => ?asked, fun ok has => ?mode,
    fun ok has => ?force, fun ok some_ => ?settled⟩
  case bad => exact reach.refused hr fun fr => if_neg (by simpa using bad)
  case empty => exact reach.answers hr _ (fun fr => doSetBudget_empty empty) (fun fr => Or.inl (moved_restart s fr)) fun fr t only => only
  case kept =>
    by_cases empty : carried = 0
    · refine reach.answers hr _ (fun fr => doSetBudget_empty empty) (fun fr => Or.inl (moved_restart s fr)) fun fr t only => ⟨?_, ?_⟩
      · obtain ⟨load, budget_⟩ := only.load
        exact loadLaw_of_arb (loadLaw_placed law fr) (congrArg Arbiter.comp load) budget_
      · obtain ⟨mode, asked⟩ := apply_settings f (restartIdle s).budget
        have none_ : ∀ k, carries f.carried k = false := fun k => (congrArg (carries · k) empty).trans (carries_zero k)
        rw [none_] at mode asked
        exact (kept_onBudget mode asked).trans (onlyNotices_of_link (u := restartIdle s) only).kept
    · refine changed _ ok empty fun fr t only => ⟨?_, keeps fr t only⟩
      have own := acts_doSetBudget (w := 3) f (le_refl 3) (.refl (s := placed (restartIdle s) fr))
      rw [doSetBudget_change ok empty] at own
      obtain ⟨load, budget_⟩ := only.load
      exact loadLaw_of_arb (own.loadLaw (loadLaw_placed law fr)) (congrArg Arbiter.comp load) budget_
  case asked =>
    refine changed _ ok (carriesSome 0 has) fun fr t only => ?_
    obtain ⟨_, _, _, _, _, _, ⟨_, _, _, _, asked, _⟩, _⟩ := keeps fr t only
    exact asked.trans ((apply_settings f _).2.trans (if_pos has))
  case mode =>
    refine changed _ ok (carriesSome 1 has) fun fr t only => ?_
    obtain ⟨_, _, _, _, _, _, ⟨_, _, _, mode, _⟩, _⟩ := keeps fr t only
    obtain ⟨_, _, small⟩ := (budget_ok_iff f).1 ok
    exact mode.trans ((apply_settings f _).1.trans ((if_pos has).trans (mullionMode_value (small has) _)))
  case force =>
    refine changed _ ok (carriesSome 0 has) fun fr t only => ?_
    obtain ⟨_, same⟩ := only.load
    have taken := settled_force f (placed (restartIdle s) fr).budget has
    rw [same, budgetChange_force, taken, budget fr]
  case settled =>
    refine changed _ ok some_ fun fr t only => ?_
    obtain ⟨record, step, cap⟩ := budgetChange_settled (placed (restartIdle s) fr) f.apply
    obtain ⟨arb_, load⟩ := only.load
    rw [← load, budget fr] at record step cap
    rw [← arb_, arb fr] at step cap
    exact ⟨record, step, cap⟩

end Sys2Proof.Machine

namespace Sys2Proof.Machine

/-! ### SET_CHANNEL (R62, R68) -/

theorem channel_ok_iff (f : ChannelFields) : f.ok = true ↔ f.carried.toNat < 8
    ∧ (carries f.carried 1 = true → f.policy.toNat ≤ 1)
    ∧ (carries f.carried 2 = true → -50 ≤ f.offset.toInt ∧ f.offset.toInt ≤ 50) := by
  unfold ChannelFields.ok
  simp only [Bool.and_eq_true, checkCarried_iff, tempInRange_iff, carriesOnly_iff, policy_ok, and_assoc]
  exact Iff.rfl

theorem policy_value {q : Byte} (h : q.toNat ≤ 1) (d : ClearPolicy) : (policyOf q).getD d = if q = 0 then .single else .joint := by
  rcases of_le_one h with rfl | rfl <;> rfl

/-- The channel's record with the carried settings. -/
theorem channel_apply_eq {f : ChannelFields} (h : f.ok = true) (r : Channel) : f.apply r =
    { r with period := if carries f.carried 0 then f.period.toNat else r.period
             countdown := if carries f.carried 0 then f.period.toNat else r.countdown
             policy := if carries f.carried 1 then (if f.policy = 0 then .single else .joint) else r.policy
             offset := if carries f.carried 2 then f.offset.toInt else r.offset } := by
  obtain ⟨_, small, _⟩ := (channel_ok_iff f).1 h
  unfold ChannelFields.apply
  by_cases has : carries f.carried 1 = true
  · rw [policy_value (small has)]
    rfl
  · rw [if_neg has, if_neg has]
    rfl

/-- Settles O23: the owner's act is one change of the channel's record. -/
theorem setChannelTakesItsSettings : Obligations.SetChannelTakesItsSettings := by
  intro s tag b carried p q x c hr hc f has
  have reach := reaches_setChannel tag b carried p q x
  have owner : ∀ u, doSetChannel u b f = if f.ok then done (u.onChannel c f.apply) else refuse u .badValue := fun u => by
    unfold doSetChannel
    rw [hc]
  refine ⟨channel_ok_iff f, fun bad => reach.refused hr fun fr => (owner _).trans (if_neg (by simpa using bad)), fun ok => ?_⟩
  refine reach.answers hr (fun fr => (placed (restartIdle s) fr).onChannel c f.apply) (fun fr => (owner _).trans (if_pos ok))
    (fun fr => Or.inl (moved_restart s fr)) fun fr t only => ?_
  rw [show f.apply = _ from funext (channel_apply_eq ok)] at only
  exact only

/-! ### SET_DEFROST (R127) -/

theorem defrost_ok_iff (f : DefrostFields) : f.ok = true ↔ f.carried.toNat < 4
    ∧ (carries f.carried 0 = true → 4 ≤ f.interval.toNat ∧ f.interval.toNat ≤ 96)
    ∧ (carries f.carried 1 = true → 40 ≤ f.terminate.toInt ∧ f.terminate.toInt ≤ 150) := by
  unfold DefrostFields.ok
  simp only [Bool.and_eq_true, checkCarried_iff, inRange_iff, tempInRange_iff, carriesOnly_iff, and_assoc]
  exact Iff.rfl

/-- The settings taken, with the boundaries that they hand over in HEAT and DRIP. -/
def withDefrost (s : State) (f : DefrostFields) : State :=
  if carries f.carried 1 ∧ (s.defrost.phase = .heat ∨ s.defrost.phase = .drip) then defrostBounds (s.onDefrost f.apply)
  else s.onDefrost f.apply

theorem doSetDefrost_ok {s : State} {f : DefrostFields} (h : f.ok = true) : doSetDefrost s f =
    done (if (withDefrost s f).defrost.next = s.defrost.next ∧ (withDefrost s f).defrost.terminate = s.defrost.terminate
      then withDefrost s f else postDefrost (withDefrost s f)) := if_pos h

/-- A DEFROST notice or none: the notices alone change. -/
theorem onlyNotices_reported (c : Prop) [Decidable c] (x : State) : OnlyNotices x (if c then x else postDefrost x) := by
  split
  · exact ⟨rfl, rfl⟩
  · exact onlyNotices_post (k := .defrost) rfl

/-- The boundaries that a carried terminate temperature hands over in HEAT and DRIP (R127). -/
theorem withDefrost_eq (s : State) (f : DefrostFields) : withDefrost s f =
    if carries f.carried 1 ∧ (s.defrost.phase = .heat ∨ s.defrost.phase = .drip)
      then setBounds (s.onDefrost f.apply) .freezerEvap (f.terminate.toInt, 200) else s.onDefrost f.apply := by
  unfold withDefrost
  split
  · rename_i h
    obtain ⟨has, phase⟩ := h
    have bounds : (s.onDefrost f.apply).defrost.bounds = (f.terminate.toInt, 200) := by
      rcases phase with q | q <;>
      · unfold Defrost.bounds DefrostFields.apply
        simp only [State.onDefrost_defrost, q, if_pos has]
        rfl
    unfold defrostBounds
    rw [bounds]
  · rfl

theorem OnlyNotices.ofLink {b u t : State} (h : OnlyNotices b u) (k : OnlyLink u t) : OnlyNotices b t :=
  h.trans (onlyNotices_of_link k)

/-- Settles O24: `withDefrost_eq` for the boundaries, then at most a DEFROST notice. -/
theorem setDefrostTakesItsSettings : Obligations.SetDefrostTakesItsSettings := by
  intro s tag carried n x hr f has u
  have reach := reaches_setDefrost tag carried n x
  refine ⟨defrost_ok_iff f, fun bad => reach.refused hr fun fr => if_neg (by simpa using bad), fun ok => ?_⟩
  have arb : ∀ fr, (withDefrost (placed (restartIdle s) fr) f).arb = s.arb := fun fr => by
    rw [withDefrost_eq]
    split <;> simp [setBounds]
  refine reach.answers hr _ (fun fr => doSetDefrost_ok ok) (fun fr => Or.inl (moved_arb ?_)) fun fr t only => ?_
  · obtain ⟨same, _⟩ := onlyNotices_reported ((withDefrost (placed (restartIdle s) fr) f).defrost.next = (placed (restartIdle s) fr).defrost.next
      ∧ (withDefrost (placed (restartIdle s) fr) f).defrost.terminate = (placed (restartIdle s) fr).defrost.terminate)
      (withDefrost (placed (restartIdle s) fr) f)
    rw [same]
    exact arb fr
  · have ends := (onlyNotices_reported _ _).ofLink only
    rw [withDefrost_eq, placed_defrost, restartIdle_defrost] at ends
    split at ends
    · rename_i h
      rw [if_pos h]
      exact ends
    · rename_i h
      rw [if_neg h]
      exact ends

end Sys2Proof.Machine

namespace Sys2Proof.Machine

/-! ### SET_NOTICE (R208, R89) -/

theorem map_ok_iff (f : NoticeFields) : f.map.isSome = true ↔ f.mapStatus.toNat ≤ 1 ∧ f.mapZone.toNat ≤ 1 ∧ f.mapDoor.toNat ≤ 1
    ∧ f.mapDefrost.toNat ≤ 1 ∧ f.mapMeasure.toNat ≤ 1 ∧ f.mapBudget.toNat ≤ 1 := by
  simp only [← queue_ok]
  unfold NoticeFields.map
  cases queueOf f.mapStatus <;> cases queueOf f.mapZone <;> cases queueOf f.mapDoor <;> cases queueOf f.mapDefrost <;>
    cases queueOf f.mapMeasure <;> cases queueOf f.mapBudget <;> simp

theorem queue_value {b : Byte} (h : b.toNat ≤ 1) : queueOf b = some (if b = 0 then Queue.urgent else .routine) := by
  rcases of_le_one h with rfl | rfl <;> rfl

theorem map_value {f : NoticeFields} (h : f.map.isSome = true) (d : NoticeMap) : f.map.getD d =
    { status := if f.mapStatus = 0 then Queue.urgent else .routine, zone := if f.mapZone = 0 then Queue.urgent else .routine
      door := if f.mapDoor = 0 then Queue.urgent else .routine, defrost := if f.mapDefrost = 0 then Queue.urgent else .routine
      measure := if f.mapMeasure = 0 then Queue.urgent else .routine
      budget := if f.mapBudget = 0 then Queue.urgent else .routine } := by
  obtain ⟨status, zone, door, defrost, measure, budget⟩ := (map_ok_iff f).1 h
  unfold NoticeFields.map
  rw [queue_value status, queue_value zone, queue_value door, queue_value defrost, queue_value measure, queue_value budget]
  rfl

theorem notice_ok_iff (f : NoticeFields) : f.ok = true ↔ f.carried.toNat < 128
    ∧ (carries f.carried 0 = true → f.mapStatus.toNat ≤ 1 ∧ f.mapZone.toNat ≤ 1 ∧ f.mapDoor.toNat ≤ 1
        ∧ f.mapDefrost.toNat ≤ 1 ∧ f.mapMeasure.toNat ≤ 1 ∧ f.mapBudget.toNat ≤ 1)
    ∧ (carries f.carried 1 = true → f.quiet.toNat ≤ 1)
    ∧ (carries f.carried 2 = true → 1 ≤ f.urgentWeight.toNat ∧ f.urgentWeight.toNat ≤ 8)
    ∧ (carries f.carried 3 = true → 1 ≤ f.routineWeight.toNat ∧ f.routineWeight.toNat ≤ 8)
    ∧ (carries f.carried 4 = true → f.spacing.toNat ≤ 1000)
    ∧ (carries f.carried 5 = true → f.period.toNat ≤ 3600)
    ∧ (carries f.carried 6 = true → 30 ≤ f.ajar.toNat ∧ f.ajar.toNat ≤ 600) := by
  unfold NoticeFields.ok
  simp only [Bool.and_eq_true, checkCarried_iff, inRange_iff, carriesOnly_iff, map_ok_iff, bool_ok, and_assoc, Nat.zero_le, true_and]
  exact Iff.rfl

theorem bool_getD {b : Byte} (h : b.toNat ≤ 1) (d : Bool) : (boolOf b).getD d = (b == 1) := by rw [bool_val h]; rfl

/-- The Notice Unit's settings after a SET_NOTICE. -/
theorem notice_apply_settings {f : NoticeFields} (h : f.ok = true) (n : NoticeUnit) : (f.apply n).settings =
    (if carries f.carried 0 then
        { status := if f.mapStatus = 0 then Queue.urgent else .routine, zone := if f.mapZone = 0 then Queue.urgent else .routine
          door := if f.mapDoor = 0 then Queue.urgent else .routine, defrost := if f.mapDefrost = 0 then Queue.urgent else .routine
          measure := if f.mapMeasure = 0 then Queue.urgent else .routine
          budget := if f.mapBudget = 0 then Queue.urgent else .routine } else n.settings.1,
      if carries f.carried 1 then f.quiet == 1 else n.settings.2.1,
      if carries f.carried 2 then f.urgentWeight.toNat else n.settings.2.2.1,
      if carries f.carried 3 then f.routineWeight.toNat else n.settings.2.2.2.1,
      if carries f.carried 4 then f.spacing.toNat else n.settings.2.2.2.2.1,
      if carries f.carried 5 then f.period.toNat else n.settings.2.2.2.2.2) := by
  obtain ⟨_, maps, quiet, _⟩ := (notice_ok_iff f).1 h
  have map_ : (if carries f.carried 0 then f.map.getD n.map else n.map) = if carries f.carried 0 then
        { status := if f.mapStatus = 0 then Queue.urgent else .routine, zone := if f.mapZone = 0 then Queue.urgent else .routine
          door := if f.mapDoor = 0 then Queue.urgent else .routine, defrost := if f.mapDefrost = 0 then Queue.urgent else .routine
          measure := if f.mapMeasure = 0 then Queue.urgent else .routine
          budget := if f.mapBudget = 0 then Queue.urgent else .routine } else n.map := by
    split
    · rename_i has
      exact map_value ((map_ok_iff f).2 (maps has)) n.map
    · rfl
  have quiet_ : (if carries f.carried 1 then (boolOf f.quiet).getD n.quiet else n.quiet) = if carries f.carried 1 then f.quiet == 1 else n.quiet := by
    split
    · rename_i has
      exact bool_getD (quiet has) n.quiet
    · rfl
  show ((if carries f.carried 0 then f.map.getD n.map else n.map), (if carries f.carried 1 then (boolOf f.quiet).getD n.quiet else n.quiet), _) = _
  rw [map_, quiet_]
  rfl

/-- The settings taken; a spacing that has run out ends (R194, R208). -/
def withNotice (s : State) (f : NoticeFields) : State :=
  if carries f.carried 4 ∧ spacingOver (s.onNotice f.apply) then endSpacing (s.onNotice f.apply) else s.onNotice f.apply

theorem doSetNotice_ok {s : State} {f : NoticeFields} (h : f.ok = true) : doSetNotice s f =
    done (if carries f.carried 6 then setAjar (withNotice s f) f.ajar.toNat else withNotice s f) := if_pos h

/-- The settings alone and the link change before the ajar time is taken. -/
theorem withNotice_onlyLink (s : State) (f : NoticeFields) : OnlyLink (s.onNotice f.apply) (withNotice s f) := by
  unfold withNotice
  split <;> rfl

theorem OnlyLink.trans {a b c : State} (h : OnlyLink a b) (k : OnlyLink b c) : OnlyLink a c := by
  unfold OnlyLink at *
  rw [k, h]

/-- `t` is `u` but for the doors, the link, the notices and the index of the next free value. -/
def OnlyDoors (u t : State) : Prop := t = { u with doors := t.doors, link := t.link, notice := t.notice, free := t.free }

theorem OnlyDoors.trans {a b c : State} (h : OnlyDoors a b) (k : OnlyDoors b c) : OnlyDoors a c := by
  unfold OnlyDoors at *
  rw [k, h]

theorem onlyDoors_of_link {u t : State} (h : OnlyLink u t) : OnlyDoors u t := by
  unfold OnlyLink at h
  unfold OnlyDoors
  rw [h]

theorem OnlyLink.views {u t : State} (h : OnlyLink u t) : t.doors = u.doors ∧ t.notice = u.notice ∧ t.uptime = u.uptime := by
  unfold OnlyLink at h
  exact ⟨by rw [h], by rw [h], by rw [h]⟩

/-- Settles O25: the settings by `notice_apply_settings`, the doors by `setAjar_doors`. -/
theorem setNoticeTakesItsSettings : Obligations.SetNoticeTakesItsSettings := by
  intro s tag carried a b c d e g q uw rw_ sp per aj hr f i has queue m settings
  have reach := reaches_setNotice tag carried a b c d e g q uw rw_ sp per aj
  have taken : f.ok = true → (f.apply s.notice).settings = settings := fun ok => notice_apply_settings ok s.notice
  have only_ : ∀ fr, OnlyLink ((restartIdle s).onNotice f.apply) (withNotice (placed (restartIdle s) fr) f) :=
    fun fr => OnlyLink.trans (b := (placed (restartIdle s) fr).onNotice f.apply) rfl (withNotice_onlyLink (placed (restartIdle s) fr) f)
  refine ⟨notice_ok_iff f, taken, fun bad => reach.refused hr fun fr => if_neg (by simpa using bad), fun ok none_ => ?_,
    fun ok some_ => ?_⟩
  · refine reach.answers hr (fun fr => withNotice (placed (restartIdle s) fr) f)
      (fun fr => (doSetNotice_ok ok).trans (congrArg done (if_neg none_))) (fun fr => Or.inl (moved_arb ?_)) fun fr t only =>
        (only_ fr).trans only
    obtain ⟨arb, _⟩ := (only_ fr).load
    exact arb.trans (restartIdle_arb s)
  · have ajar : ∀ fr, let x := withNotice (placed (restartIdle s) fr) f; let y := setAjar x aj.toNat
        y = { x with doors := y.doors, link := y.link, notice := y.notice, free := y.free } ∧ y.doors.ajarTime = aj.toNat
          ∧ y.notice.settings = x.notice.settings
          ∧ ∀ d, y.doors.get d = (if (x.doors.get d).state = .opened ∧ aj.toNat ≤ (x.doors.get d).openFor x.uptime
              then { x.doors.get d with state := .ajar } else x.doors.get d) :=
      fun fr => setAjar_doors (withNotice (placed (restartIdle s) fr) f) aj.toNat
    refine reach.answers hr (fun fr => setAjar (withNotice (placed (restartIdle s) fr) f) aj.toNat)
      (fun fr => (doSetNotice_ok ok).trans (congrArg done (if_pos some_))) (fun fr => Or.inl (moved_arb ?_)) fun fr t only => ?_
    · obtain ⟨same, _⟩ := ajar fr
      rw [same]
      exact (only_ fr).load.1.trans (restartIdle_arb s)
    · obtain ⟨same, time, kept, doors⟩ := ajar fr
      obtain ⟨doors_, notice_, uptime_⟩ := (only_ fr).views
      obtain ⟨tdoors, tnotice, _⟩ := only.views
      have base : OnlyDoors (restartIdle s) ((restartIdle s).onNotice f.apply) := rfl
      refine ⟨((base.trans (onlyDoors_of_link (only_ fr))).trans same).trans (onlyDoors_of_link only), ?_, ?_, fun y => ?_⟩
      · rw [tnotice, kept, notice_, State.onNotice_notice, restartIdle_notice]
        exact taken ok
      · rw [tdoors]
        exact time
      · rw [tdoors, doors y, doors_, uptime_]
        simp

end Sys2Proof.Machine

namespace Sys2Proof.Machine

/-! ### SET_ZONE: the check and the record (R1 to R3) -/

theorem profile_ok (b : Byte) : (profileOf b).isSome = true ↔ b.toNat ≤ 2 := by
  unfold profileOf
  split <;> simp_all
  omega

theorem halfBand_ok (z : ZoneId) (t : Temp) :
    halfBandOk z t = true ↔ if z = .freezer then 5 ≤ t ∧ t ≤ 30 else 3 ≤ t ∧ t ≤ 25 := by
  cases z <;> simp [halfBandOk, tempInRange_iff]

/-- The setpoint of a carried profile where no setpoint is carried (R3). -/
def profileSetpoint (p : Option Profile) : Temp := if p = some .chill then 10 else if p = some .cold then -15 else -60

/-- The setpoint after a request whose carried profile is one (R2, R3). -/
theorem setpointAfter_eq {f : ZoneFields} {r : Zone} (h : carries f.carried 7 = true → (profileOf f.profile).isSome = true) :
    f.setpointAfter r = if carries f.carried 1 then f.setpoint.toInt
      else if carries f.carried 7 then profileSetpoint (f.profileAfter r) else r.setpoint := by
  unfold ZoneFields.setpointAfter ZoneFields.profileAfter
  by_cases has : carries f.carried 7 = true
  · rw [if_pos has, if_pos has, if_pos has]
    obtain ⟨p, hp⟩ := Option.isSome_iff_exists.1 (h has)
    rw [hp]
    cases p <;> rfl
  · rw [if_neg has, if_neg has]
    rfl

theorem profile_inRange (p : Option Profile) (t : Temp) :
    (p.any fun q => q.inRange t) = true ↔
      (p = some .chill ∧ -10 ≤ t ∧ t ≤ 30) ∨ (p = some .cold ∧ -30 ≤ t ∧ t ≤ 0) ∨ (p = some .soft ∧ -80 ≤ t ∧ t ≤ -40) := by
  cases p with
  | none => simp
  | some q => cases q <;> simp [Profile.inRange, tempInRange_iff]

theorem drawer_setpointOk (f : ZoneFields) (r : Zone) :
    f.setpointOk .drawer r = (f.profileAfter r).any fun p => p.inRange (f.setpointAfter r) := by
  unfold ZoneFields.setpointOk
  cases f.profileAfter r <;> rfl

theorem setpoint_ok (f : ZoneFields) (z : ZoneId) (r : Zone) : f.setpointOk z r = true ↔
    (z = .fresh → carries f.carried 1 = true → 10 ≤ f.setpoint.toInt ∧ f.setpoint.toInt ≤ 70)
    ∧ (z = .freezer → carries f.carried 1 = true → -240 ≤ f.setpoint.toInt ∧ f.setpoint.toInt ≤ -140)
    ∧ (z = .drawer → (f.profileAfter r = some .chill ∧ -10 ≤ f.setpointAfter r ∧ f.setpointAfter r ≤ 30)
        ∨ (f.profileAfter r = some .cold ∧ -30 ≤ f.setpointAfter r ∧ f.setpointAfter r ≤ 0)
        ∨ (f.profileAfter r = some .soft ∧ -80 ≤ f.setpointAfter r ∧ f.setpointAfter r ≤ -40)) := by
  cases z with
  | fresh => simp [ZoneFields.setpointOk, checkCarried_iff, tempInRange_iff, decTemp]
  | freezer => simp [ZoneFields.setpointOk, checkCarried_iff, tempInRange_iff, decTemp]
  | drawer =>
    rw [drawer_setpointOk, profile_inRange]
    simp

/-- The whole check of a SET_ZONE (R2). -/
theorem zone_ok_iff (f : ZoneFields) (z : ZoneId) (r : Zone) : f.ok z r = true ↔
    (carries f.carried 0 = true → f.enabled.toNat ≤ 1) ∧ f.setpointOk z r = true
      ∧ (carries f.carried 2 = true → if z = .freezer then 5 ≤ f.halfBand.toInt ∧ f.halfBand.toInt ≤ 30
          else 3 ≤ f.halfBand.toInt ∧ f.halfBand.toInt ≤ 25)
      ∧ (carries f.carried 3 = true → 1 ≤ f.normalLevel.toNat ∧ f.normalLevel.toNat ≤ 5)
      ∧ (carries f.carried 4 = true → 1 ≤ f.recoveryLevel.toNat ∧ f.recoveryLevel.toNat ≤ 5)
      ∧ (carries f.carried 5 = true → 60 ≤ f.onTime.toNat ∧ f.onTime.toNat ≤ 7200)
      ∧ (carries f.carried 6 = true → 60 ≤ f.offTime.toNat ∧ f.offTime.toNat ≤ 7200)
      ∧ (carries f.carried 7 = true → z = .drawer ∧ f.profile.toNat ≤ 2) := by
  unfold ZoneFields.ok
  simp only [Bool.and_eq_true, checkCarried_iff, inRange_iff, bool_ok, halfBand_ok, profile_ok, beq_iff_eq, and_assoc]
  exact Iff.rfl

/-- The check and the record, with the setpoint and the profile in force after the request written out. -/
theorem zone_check_record (f : ZoneFields) (z : ZoneId) (r : Zone) :
    let has := fun n => carries f.carried n = true
    let profile := if has 7 then profileOf f.profile else r.profile
    let setpoint : Temp := if has 1 then f.setpoint.toInt
      else if has 7 then (if profile = some .chill then 10 else if profile = some .cold then -15 else -60) else r.setpoint
    (f.ok z r = true ↔ (has 0 → f.enabled.toNat ≤ 1)
      ∧ (z = .fresh → has 1 → 10 ≤ f.setpoint.toInt ∧ f.setpoint.toInt ≤ 70)
      ∧ (z = .freezer → has 1 → -240 ≤ f.setpoint.toInt ∧ f.setpoint.toInt ≤ -140)
      ∧ (z = .drawer → (profile = some .chill ∧ -10 ≤ setpoint ∧ setpoint ≤ 30)
          ∨ (profile = some .cold ∧ -30 ≤ setpoint ∧ setpoint ≤ 0) ∨ (profile = some .soft ∧ -80 ≤ setpoint ∧ setpoint ≤ -40))
      ∧ (has 2 → if z = .freezer then 5 ≤ f.halfBand.toInt ∧ f.halfBand.toInt ≤ 30
          else 3 ≤ f.halfBand.toInt ∧ f.halfBand.toInt ≤ 25)
      ∧ (has 3 → 1 ≤ f.normalLevel.toNat ∧ f.normalLevel.toNat ≤ 5)
      ∧ (has 4 → 1 ≤ f.recoveryLevel.toNat ∧ f.recoveryLevel.toNat ≤ 5)
      ∧ (has 5 → 60 ≤ f.onTime.toNat ∧ f.onTime.toNat ≤ 7200)
      ∧ (has 6 → 60 ≤ f.offTime.toNat ∧ f.offTime.toNat ≤ 7200)
      ∧ (has 7 → z = .drawer ∧ f.profile.toNat ≤ 2))
    ∧ (f.ok z r = true → f.apply r = { r with
        enabled := if has 0 then f.enabled == 1 else r.enabled
        setpoint := setpoint, profile := profile
        halfBand := if has 2 then f.halfBand.toInt else r.halfBand
        normalLevel := if has 3 then f.normalLevel.toNat else r.normalLevel
        recoveryLevel := if has 4 then f.recoveryLevel.toNat else r.recoveryLevel
        onTime := if has 5 then f.onTime.toNat else r.onTime
        offTime := if has 6 then f.offTime.toNat else r.offTime }) := by
  intro has profile setpoint
  have after : (has 7 → f.profile.toNat ≤ 2) → f.setpointAfter r = setpoint := fun h => setpointAfter_eq fun k => (profile_ok _).2 (h k)
  constructor
  · rw [zone_ok_iff]
    by_cases ends : has 7 → z = .drawer ∧ f.profile.toNat ≤ 2
    · rw [setpoint_ok, after fun k => (ends k).2]
      simp only [and_assoc]
      exact Iff.rfl
    · constructor
      · rintro ⟨_, _, _, _, _, _, _, k⟩
        exact absurd k ends
      · rintro ⟨_, _, _, _, _, _, _, _, _, k⟩
        exact absurd k ends
  · intro ok
    obtain ⟨enabled, _, _, _, _, _, _, profiles⟩ := (zone_ok_iff f z r).1 ok
    have enabled_ : (if carries f.carried 0 then (boolOf f.enabled).getD r.enabled else r.enabled) = if has 0 then f.enabled == 1 else r.enabled := by
      split
      · rename_i k
        exact bool_getD (enabled k) r.enabled
      · rfl
    unfold ZoneFields.apply
    rw [after fun k => (profiles k).2, enabled_]
    rfl

end Sys2Proof.Machine

namespace Sys2Proof.Machine

/-! ### SET_ZONE: the request (R1, R3, R23, R24) -/

/-- The settings taken, with the boundaries they hand over (R1). -/
def withZone (s : State) (z : ZoneId) (f : ZoneFields) : State := zoneBounds (s.onZone z f.apply) z f.carried

theorem zoneBounds_bounds (s : State) (z : ZoneId) (c : Byte) : zoneBounds s z c = { s with sched := (zoneBounds s z c).sched } := by
  unfold zoneBounds
  split <;> rfl

@[simp] theorem withZone_arb (s : State) (z : ZoneId) (f : ZoneFields) : (withZone s z f).arb = s.arb := by
  unfold withZone
  rw [zoneBounds_bounds]
  rfl

@[simp] theorem withZone_ctl (s : State) (z : ZoneId) (f : ZoneFields) : (withZone s z f).ctl = s.ctl := by
  unfold withZone
  rw [zoneBounds_bounds]
  rfl

@[simp] theorem withZone_uptime (s : State) (z : ZoneId) (f : ZoneFields) : (withZone s z f).uptime = s.uptime := by
  unfold withZone
  rw [zoneBounds_bounds]
  rfl

@[simp] theorem withZone_get (s : State) (z : ZoneId) (f : ZoneFields) : (withZone s z f).zones.get z = f.apply (s.zones.get z) := by
  unfold withZone
  rw [zoneBounds_bounds]
  simp

/-- The place of a request changes the link alone of what its settings leave. -/
theorem withZone_placed (s : State) (fr : Frame) (z : ZoneId) (f : ZoneFields) :
    OnlyLink (withZone s z f) (withZone (placed s fr) z f) := by
  unfold OnlyLink withZone zoneBounds
  split <;> rfl

theorem doSetZone_ok {s : State} {b : Byte} {z : ZoneId} {f : ZoneFields} (hz : zoneOf b = some z) (h : f.ok z (s.zones.get z) = true) :
    doSetZone s b f = done (zoneRepost (zoneEnabled (withZone s z f) z f) z (s.zones.get z)) := by
  unfold doSetZone
  rw [hz]
  exact if_pos h

theorem doSetZone_bad {s : State} {b : Byte} {z : ZoneId} {f : ZoneFields} (hz : zoneOf b = some z) (h : f.ok z (s.zones.get z) = false) :
    doSetZone s b f = refuse s .badValue := by
  unfold doSetZone
  rw [hz]
  exact if_neg (by simpa using h)

/-- A carried set without `enabled` takes no zone out of service, and returns none. -/
theorem zoneEnabled_none {s : State} {z : ZoneId} {f : ZoneFields} (h : carries f.carried 0 = false) : zoneEnabled s z f = s :=
  if_neg (by simp [h])

theorem zoneEnabled_yes {s : State} {z : ZoneId} {f : ZoneFields} (h : carries f.carried 0 = true) (he : f.enabled = 1) :
    zoneEnabled s z f = zoneEnable s z := by
  unfold zoneEnabled
  rw [if_pos h, he]
  rfl

theorem zoneEnabled_no {s : State} {z : ZoneId} {f : ZoneFields} (h : carries f.carried 0 = true) (he : f.enabled = 0) :
    zoneEnabled s z f = zoneDisable s z := by
  unfold zoneEnabled
  rw [if_pos h, he]
  rfl

/-- The settings change neither the state nor the class with which a zone posts. -/
theorem apply_state (f : ZoneFields) (r : Zone) : (f.apply r).state = r.state ∧ (f.apply r).postClass = r.postClass := ⟨rfl, rfl⟩

/-- No level is carried, so no wish changes. -/
theorem apply_wish {f : ZoneFields} (h : carries f.carried 3 = false) (k : carries f.carried 4 = false) (r : Zone) (c : Cls) :
    (f.apply r).wish c = r.wish c := by
  unfold ZoneFields.apply
  rw [h, k]
  cases c <;> rfl

/-- A zone that is not waiting for the compressor, or whose wish stands, does not post again (R3). -/
theorem zoneRepost_not {s : State} {z : ZoneId} {r : Zone} (h : ((s.zones.get z).state ≠ .calling ∧ (s.zones.get z).state ≠ .cooling)
    ∨ (s.zones.get z).wish (s.zones.get z).postClass = r.wish (s.zones.get z).postClass) : zoneRepost s z r = s := by
  refine if_neg ?_
  rintro ⟨state, wish⟩
  rcases h with ⟨a, b⟩ | same
  · exact state.elim a b
  · exact wish same

theorem zoneRepost_posts {s : State} {z : ZoneId} {r : Zone} (h : (s.zones.get z).state = .calling ∨ (s.zones.get z).state = .cooling)
    (k : (s.zones.get z).wish (s.zones.get z).postClass ≠ r.wish (s.zones.get z).postClass) :
    zoneRepost s z r = zonePost s z (s.zones.get z).postClass := if_pos ⟨h, k⟩

theorem zoneEnable_not {s : State} {z : ZoneId} (h : (s.zones.get z).state ≠ .disabled) : zoneEnable s z = s := if_neg h

theorem zoneDisable_not {s : State} {z : ZoneId} (h : (s.zones.get z).state = .disabled) : zoneDisable s z = s := if_pos h

/-- A zone returned to service: in RUN at work, else PAUSED (R24). -/
theorem zoneEnable_get {s : State} {z : ZoneId} (h : (s.zones.get z).state = .disabled) : (zoneEnable s z).zones.get z =
    if s.ctl.mode = .run then tookUpWork z s.uptime (s.zones.get z)
    else { s.zones.get z with state := .paused, enteredAt := s.uptime } := by
  unfold zoneEnable
  rw [if_pos h]
  split
  · exact takeUpWork_get s z .enable
  · exact enterState_get s z .paused .enable

/-- What the Defrost Unit does with a new class leaves every zone but for grants and returns (R110). -/
theorem handClass_zones (s : State) (z : ZoneId) : ((handClass s).zones.get z).core = (s.zones.get z).core := by
  unfold handClass
  split
  · rfl
  · exact evaluate_zones (noteClass s) z

/-- A zone taken out of service (R23). -/
theorem zoneDisable_get {s : State} {z : ZoneId} (h : (s.zones.get z).state ≠ .disabled) :
    (zoneDisable s z).zones.get z = leftWork .disabled s.uptime (s.zones.get z) := by
  have down := acts_standDown (w := 0) z (.refl (s := s))
  have record : ((standDown s z).zones.get z).core = (s.zones.get z).core := (down.below1 (by omega)).1 z
  obtain ⟨uptime, _⟩ := down.same
  let x := enterState ((standDown s z).onZone z Zone.cleared) z .disabled .disable
  have entered : x.zones.get z = leftWork .disabled s.uptime (s.zones.get z) := by
    simp only [x]
    rw [enterState_get, State.onZone_zones, Zones.get_set, State.onZone_uptime, uptime]
    exact leftWork_of record .disabled s.uptime
  have out : (zoneDisable s z) = handClass x := if_neg h
  rw [out]
  refine (core_eq (handClass_zones x z) ?_).trans entered
  rw [entered]
  exact (by decide : ZoneState.disabled.served ≠ .calling)

/-- A zone that called or cooled leaves the list and the grant with its work (R23, R28). -/
theorem zoneDisable_unlisted {s : State} {z : ZoneId} (h : (s.zones.get z).state = .calling ∨ (s.zones.get z).state = .cooling) :
    Unlisted (zoneDisable s z) (zoneRequester z) := by
  have working : (s.zones.get z).state ≠ .disabled := by rcases h with q | q <;> rw [q] <;> decide
  let x := enterState ((standDown s z).onZone z Zone.cleared) z .disabled .disable
  have out : zoneDisable s z = handClass x := if_neg working
  have down : standDown s z = withdraw s (zoneRequester z) := if_pos h
  have gone : Unlisted (standDown s z) (zoneRequester z) := by
    rw [down]
    exact (withdraw_fewer (l := []) s (zoneRequester z)).2
  have same : Fewer [] (standDown s z) x := fewer_arb (by simp [x])
  rw [out]
  exact unlisted_of (fewer_handClass x) (by cases z <;> decide) (unlisted_of same (by simp) gone)

/-- A post of a listed requester with no higher class changes its wish alone (R26, log 31). -/
theorem post_listed_wish {s : State} {r : Requester} {c : Cls} {n : Nat} (hm : s.ctl.mode = .run)
    (h : ∃ e ∈ s.arb.list, e.requester = r) (hc : ∀ e ∈ s.arb.list, e.requester = r → clsRank c ≤ clsRank e.cls) :
    post s r c n = s.onArb fun a => { a with list := a.list.map fun e => if e.requester = r then { e with wish := n } else e } := by
  obtain ⟨e, found⟩ : ∃ e, s.arb.list.find? (fun e => e.requester == r) = some e := by
    obtain ⟨e, he, hr⟩ := h
    exact Option.isSome_iff_exists.1 (List.find?_isSome.2 ⟨e, he, by simp [hr]⟩)
  have mem := List.mem_of_find?_eq_some found
  have own : e.requester = r := by simpa using List.find?_some found
  have posts : post s r c n = postListed s e c n := by
    unfold post
    rw [if_neg (by simp [hm]), found]
  have list : (s.arb.list.map fun x => if x.requester = e.requester then x.update c n else x) =
      s.arb.list.map fun x => if x.requester = r then { x with wish := n } else x := by
    refine List.map_congr_left fun x hx => ?_
    rw [own]
    split
    · rename_i hr
      have stands : raiseCls x.cls c = x.cls := if_neg (by have := hc x hx hr; omega)
      unfold Entry.update
      rw [stands]
    · rfl
  rw [posts]
  unfold postListed
  rw [if_neg (by have := hc e mem own; omega)]
  exact congrArg (fun l => { s with arb := { s.arb with list := l } }) list

/-- A post of a member of the grant updates its place there (R27). -/
theorem post_member {s : State} {r : Requester} {c : Cls} {n : Nat} {g : Grant} (hm : s.ctl.mode = .run)
    (h : ∀ e ∈ s.arb.list, e.requester ≠ r) (hg : s.arb.grant = some g) (hr : ∃ m ∈ g.selected ++ g.holders, m.requester = r) :
    post s r c n = evalAim (s.onArb fun a => { a with grant := some { g with selected := updateMembers g.selected r c n
                                                                             holders := updateMembers g.holders r c n } }) := by
  have off : s.arb.list.find? (fun e => e.requester == r) = none := List.find?_eq_none.2 fun e he => by simpa using h e he
  have has : g.has r = true := by
    obtain ⟨m, hm, own⟩ := hr
    unfold Grant.has
    simp only [Bool.or_eq_true, List.any_eq_true, beq_iff_eq]
    rcases List.mem_append.1 hm with k | k
    · exact Or.inl ⟨m, k, own⟩
    · exact Or.inr ⟨m, k, own⟩
  unfold post
  rw [if_neg (by simp [hm]), off, hg]
  exact if_pos has

/-- The record of a zone that stands through the end of the command. -/
theorem zone_ends {u z : State} {l : Link} (k : Acts 0 { u with link := l } z) (y : ZoneId)
    (h : (u.zones.get y).state.served ≠ .calling) : (settleLink z).zones.get y = u.zones.get y := by
  rw [settleLink_zones]
  exact zone_acts k y h

/-- A request that carries `enabled` alone changes nothing else of the zone's record. -/
theorem enabled_alone {s : State} {z : ZoneId} {f : ZoneFields} (hc : f.carried = 1) (hb : f.enabled.toNat ≤ 1) :
    withZone s z f = s.onZone z fun r => { r with enabled := f.enabled == 1 } := by
  have has : carries f.carried 0 = true := by rw [hc]; decide
  have not : ∀ i, 1 ≤ i → i ≤ 7 → carries f.carried i = false := by
    rw [hc]
    intro i low high
    interval_cases i <;> decide
  have record : ∀ r : Zone, f.apply r = { r with enabled := f.enabled == 1 } := by
    intro r
    unfold ZoneFields.apply ZoneFields.setpointAfter ZoneFields.profileAfter
    rw [has, not 1 (by omega) (by omega), not 2 (by omega) (by omega), not 3 (by omega) (by omega), not 4 (by omega) (by omega),
      not 5 (by omega) (by omega), not 6 (by omega) (by omega), not 7 (by omega) (by omega), if_pos rfl, bool_getD hb]
    rfl
  unfold withZone zoneBounds
  rw [if_neg (by simp [not 1 (by omega) (by omega), not 2 (by omega) (by omega), not 7 (by omega) (by omega)]),
    show f.apply = _ from funext record]

theorem OnlyLink.onArb {u t : State} (h : OnlyLink u t) (g : Arbiter → Arbiter) : OnlyLink (u.onArb g) (t.onArb g) := by
  unfold OnlyLink at *
  rw [h]
  rfl

/-- The owner's act on the settings `f` for a zone whose record was `r`. -/
def setZone (s : State) (z : ZoneId) (f : ZoneFields) (r : Zone) : State := zoneRepost (zoneEnabled (withZone s z f) z f) z r

/-- The owner's act where `enabled` brings nothing and no wish changes. -/
theorem setZone_quiet {s : State} {z : ZoneId} {f : ZoneFields} {r : Zone} (hr : s.zones.get z = r)
    (he : zoneEnabled (withZone s z f) z f = withZone s z f)
    (h : (r.state ≠ .calling ∧ r.state ≠ .cooling) ∨ (f.apply r).wish r.postClass = r.wish r.postClass) :
    setZone s z f r = withZone s z f := by
  unfold setZone
  rw [he]
  exact zoneRepost_not (by rw [withZone_get, hr]; exact h)

/-- The owner's act where `enabled` brings nothing and a wish changes: the zone posts again (R3). -/
theorem setZone_posts {s : State} {z : ZoneId} {f : ZoneFields} {r : Zone} (hr : s.zones.get z = r)
    (he : zoneEnabled (withZone s z f) z f = withZone s z f) (h : r.state = .calling ∨ r.state = .cooling)
    (k : (f.apply r).wish r.postClass ≠ r.wish r.postClass) :
    setZone s z f r = post (withZone s z f) (zoneRequester z) r.postClass ((f.apply r).wish r.postClass) := by
  unfold setZone
  rw [he, zoneRepost_posts (by rw [withZone_get, hr]; exact h) (by rw [withZone_get, hr]; exact k)]
  unfold zonePost
  rw [withZone_get, hr]
  rfl

/-- The owner's act that leaves the zone out of CALLING and COOLING posts nothing. -/
theorem setZone_rests {s : State} {z : ZoneId} {f : ZoneFields} {r : Zone}
    (h : ((zoneEnabled (withZone s z f) z f).zones.get z).state.served ≠ .calling) :
    setZone s z f r = zoneEnabled (withZone s z f) z f := by
  refine zoneRepost_not (Or.inl ⟨fun k => ?_, fun k => ?_⟩) <;> exact h (by rw [k]; rfl)

/-- Settles O20: the check and the record by `zone_check_record`; the request by `setZone_quiet` and `setZone_posts`, and by
`zoneDisable_get` and `zoneEnable_get` where it carries `enabled`. -/
theorem setZoneTakesItsSettings : Obligations.SetZoneTakesItsSettings := by
  refine ⟨?_, zone_check_record⟩
  intro s tag b carried enabled nl rl prof sp hb on off z hr hz f c r taken cls wish zr
  have reach := reaches_setZone tag b carried enabled nl rl prof sp hb on off
  have record : ∀ fr, (placed (restartIdle s) fr).zones.get z = r := fun fr => by simp [r]
  have arb : ∀ fr, (withZone (placed (restartIdle s) fr) z f).arb = s.arb := fun fr => by simp
  have only_ : ∀ fr, OnlyLink taken (withZone (placed (restartIdle s) fr) z f) := fun fr => withZone_placed (restartIdle s) fr z f
  have ctl : ∀ fr, (withZone (placed (restartIdle s) fr) z f).ctl.mode = s.ctl.mode := fun fr => by simp
  have owner : f.ok z r = true → ∀ fr, doSetZone (placed (restartIdle s) fr) b f = (setZone (placed (restartIdle s) fr) z f r, [0]) := by
    intro ok fr
    rw [doSetZone_ok hz (by rw [record fr]; exact ok), record fr]
    rfl
  have quiet : ∀ u : Frame → State, f.ok z r = true → (∀ fr, setZone (placed (restartIdle s) fr) z f r = u fr) →
      (∀ fr, feedingMoved s (u fr) = false) → ∀ Q : State → Prop, (∀ fr t, OnlyLink (u fr) t → Q t) → Answers c s 0x08 tag [0] Q :=
    fun u ok hu still Q hQ => reach.answers hr u (fun fr => (owner ok fr).trans (by rw [hu fr])) (fun fr => Or.inl (still fr)) hQ
  have working : (carries carried 0 = true → enabled = 1) → r.state ≠ .disabled → ∀ fr,
      zoneEnabled (withZone (placed (restartIdle s) fr) z f) z f = withZone (placed (restartIdle s) fr) z f := by
    intro yes in_ fr
    by_cases has : carries f.carried 0 = true
    · rw [zoneEnabled_yes has (yes has), zoneEnable_not]
      rw [withZone_get, record fr]
      exact in_
    · exact zoneEnabled_none (by simpa using has)
  have alone : carried = 1 → f.ok z r = true → ∀ fr, withZone (placed (restartIdle s) fr) z f =
      (placed (restartIdle s) fr).onZone z fun r => { r with enabled := enabled == 1 } := by
    intro one ok fr
    obtain ⟨small, _⟩ := (zone_ok_iff f z r).1 ok
    exact enabled_alone one (small (by rw [show f.carried = 1 from one]; decide))
  refine ⟨fun bad => ?bad, fun ok => ?kept, fun ok none_ still => ?still, fun ok yes works changes run => ⟨fun listed low => ?listed, ?member⟩,
    fun one same ok => ?same, fun one no work ok => ?disable, fun one yes out ok => ?enable⟩
  case bad => exact reach.refused hr fun fr => doSetZone_bad hz (by rw [record fr]; exact bad)
  case kept =>
    refine reach.answers_acts hr (fun fr => setZone (placed (restartIdle s) fr) z f r) (owner ok) fun fr l x k => ?_
    have own : Acts 2 ((placed (restartIdle s) fr).onZone z f.apply) (setZone (placed (restartIdle s) fr) z f r) :=
      acts_zoneRepost z r (acts_zoneEnabled z f (le_refl 2) (acts_zoneBounds z f.carried .refl))
    exact Kept.trans (kept_link _ _) ((own.kept (by omega)).trans (kept_tail k))
  case still =>
    refine quiet (fun fr => withZone (placed (restartIdle s) fr) z f) ok (fun fr => ?_) (fun fr => moved_arb (arb fr)) _ fun fr t only => (only_ fr).trans only
    refine setZone_quiet (record fr) (zoneEnabled_none none_) ?_
    rcases still with ⟨normal, recovery⟩ | rest | wish_
    · exact Or.inr (apply_wish normal recovery r _)
    · exact Or.inl rest
    · exact Or.inr wish_
  case listed =>
    have in_ : r.state ≠ .disabled := by rcases works with q | q <;> rw [q] <;> decide
    let g : Arbiter → Arbiter := fun a => { a with list := a.list.map fun e => if e.requester = zr then { e with wish := wish } else e }
    refine quiet (fun fr => (withZone (placed (restartIdle s) fr) z f).onArb g) ok (fun fr => ?_) (fun fr => ?_) _ fun fr t only => ?_
    · rw [setZone_posts (record fr) (working yes in_ fr) works changes]
      exact post_listed_wish ((ctl fr).trans run) (by rw [arb fr]; exact listed) (by rw [arb fr]; exact low)
    · unfold feedingMoved
      simp [g]
    · have same : taken.onArb g = { taken with arb := g s.arb } := by
        have : taken.arb = s.arb := (withZone_arb (restartIdle s) z f).trans (restartIdle_arb s)
        rw [← this]
        rfl
      rw [← same]
      exact ((only_ fr).onArb g).trans only
  case member =>
    intro g away hg here again
    have in_ : r.state ≠ .disabled := by rcases works with q | q <;> rw [q] <;> decide
    let x := fun fr => (withZone (placed (restartIdle s) fr) z f).onArb fun a =>
      { a with grant := some { g with selected := g.selected.map again, holders := g.holders.map again } }
    refine reach.answers_recheck hr (fun fr => evalAim (x fr)) (fun fr => (owner ok fr).trans ?_) fun fr l => ?_
    · rw [setZone_posts (record fr) (working yes in_ fr) works changes,
        post_member ((ctl fr).trans run) (by rw [arb fr]; exact away) (by rw [arb fr]; exact hg) here]
      rfl
    · obtain ⟨list, grant⟩ := evalAim_rolls (x fr)
      have xgrant : (x fr).arb.grant = some { g with selected := g.selected.map again, holders := g.holders.map again } := rfl
      obtain ⟨list', grant'⟩ := recheck_granted s { evalAim (x fr) with link := l } (by simp [grant, xgrant])
      rw [settleLink_arb]
      refine ⟨list'.trans (list.trans ?_), grant'.trans (grant.trans xgrant)⟩
      simp [x]
  case same =>
    have no_op : ∀ fr, zoneEnabled (withZone (placed (restartIdle s) fr) z f) z f = withZone (placed (restartIdle s) fr) z f := by
      intro fr
      rcases same with ⟨no, out⟩ | ⟨yes, in_⟩
      · rw [zoneEnabled_no (by rw [show f.carried = 1 from one]; decide) no, zoneDisable_not]
        rw [withZone_get, record fr]
        exact out
      · exact working (fun _ => yes) in_ fr
    refine quiet (fun fr => withZone (placed (restartIdle s) fr) z f) ok (fun fr => ?_) (fun fr => moved_arb (arb fr)) _ fun fr t only => ?_
    · refine setZone_quiet (record fr) (no_op fr) (Or.inr (apply_wish ?_ ?_ r _)) <;>
      · rw [show f.carried = 1 from one]; decide
    · rw [alone one ok fr] at only
      exact only
  case disable =>
    have set_ : ∀ fr, zoneEnabled (withZone (placed (restartIdle s) fr) z f) z f = zoneDisable (withZone (placed (restartIdle s) fr) z f) z :=
      fun fr => zoneEnabled_no (by rw [show f.carried = 1 from one]; decide) no
    have before : ∀ fr, (withZone (placed (restartIdle s) fr) z f).zones.get z = { r with enabled := false } := by
      intro fr
      rw [alone one ok fr, State.onZone_zones, Zones.get_set, record fr, no]
      rfl
    have out : ∀ fr, (zoneDisable (withZone (placed (restartIdle s) fr) z f) z).zones.get z =
        leftWork .disabled s.uptime { r with enabled := false } := by
      intro fr
      rw [zoneDisable_get (by rw [before fr]; exact work), before fr, withZone_uptime]
      simp
    have rests : ∀ fr, setZone (placed (restartIdle s) fr) z f r = zoneDisable (withZone (placed (restartIdle s) fr) z f) z := by
      intro fr
      rw [setZone_rests (by rw [set_ fr, out fr]; exact (by decide : ZoneState.disabled.served ≠ .calling)), set_ fr]
    refine reach.answers_recheck hr (fun fr => zoneDisable (withZone (placed (restartIdle s) fr) z f) z)
      (fun fr => (owner ok fr).trans (by rw [rests fr])) fun fr l => ⟨?_, fun called => ?_⟩
    · rw [zone_ends (acts_recheck s .refl) z (by rw [out fr]; exact (by decide : ZoneState.disabled.served ≠ .calling))]
      exact out fr
    · have gone := zoneDisable_unlisted (s := withZone (placed (restartIdle s) fr) z f) (z := z) (by rw [before fr]; exact called)
      refine unlisted_of (fewer_settle (l := []) _) (by simp) (unlisted_of (fewer_recheck (l := []) s _) (by simp) ?_)
      exact gone
  case enable =>
    have set_ : ∀ fr, zoneEnabled (withZone (placed (restartIdle s) fr) z f) z f = zoneEnable (withZone (placed (restartIdle s) fr) z f) z :=
      fun fr => zoneEnabled_yes (by rw [show f.carried = 1 from one]; decide) yes
    have before : ∀ fr, (withZone (placed (restartIdle s) fr) z f).zones.get z = { r with enabled := true } := by
      intro fr
      rw [alone one ok fr, State.onZone_zones, Zones.get_set, record fr, yes]
      rfl
    have back : ∀ fr, (zoneEnable (withZone (placed (restartIdle s) fr) z f) z).zones.get z =
        if s.ctl.mode = .run then tookUpWork z s.uptime { r with enabled := true }
        else { r with enabled := true, state := .paused, enteredAt := s.uptime } := by
      intro fr
      rw [zoneEnable_get (by rw [before fr]; exact out), before fr, withZone_uptime, ctl fr]
      simp
    have served : ∀ fr, ((zoneEnable (withZone (placed (restartIdle s) fr) z f) z).zones.get z).state.served ≠ .calling := by
      intro fr
      rw [back fr]
      split
      · exact workState_served z _
      · exact (by decide : ZoneState.paused.served ≠ .calling)
    have rests : ∀ fr, setZone (placed (restartIdle s) fr) z f r = zoneEnable (withZone (placed (restartIdle s) fr) z f) z := by
      intro fr
      rw [setZone_rests (by rw [set_ fr]; exact served fr), set_ fr]
    refine reach.answers_acts hr (fun fr => zoneEnable (withZone (placed (restartIdle s) fr) z f) z)
      (fun fr => (owner ok fr).trans (by rw [rests fr])) fun fr l x k => ?_
    rw [zone_ends k z (served fr)]
    exact back fr

end Sys2Proof.Machine

namespace Sys2Proof.Machine

/-! ### MEASURE and CLEAR_QUEUE (R70, R73) -/

/-- A command that changes the scheduler alone. -/
theorem onlySched {u t : State} {k : Scheduler} (h : OnlyLink { u with sched := k } t) :
    OnlyLink { u with sched := t.sched } t ∧ t.sched = k := by
  unfold OnlyLink at *
  have same : t.sched = k := by rw [h]
  exact ⟨by rw [same]; exact h, same⟩

/-- The scheduler's record after a MEASURE, before a new conversion starts (R70). -/
def Scheduler.measured (k : Scheduler) (c : Chan) (tag : Byte) : Scheduler :=
  { k with queue := k.queue ++ [{ chan := c, tag := some tag }], tags := k.tags ++ [tag] }

theorem queueLink_sched (s : State) (c : Chan) (tag : Byte) :
    queueLink s c tag = { s with sched := (s.sched.measured c tag).startNext } := rfl

/-- The scheduler's record after a CLEAR_QUEUE, before a new conversion starts (R73). -/
def Scheduler.cleared (k : Scheduler) : Scheduler :=
  { k with
    queue := k.queue.filter fun q => q.tag.isNone
    tags := k.tags.filter fun t => !(k.links.any fun q => q.tag == some t)
    conv := match k.conv with
      | some v => if v.source = .link then none else some v
      | none => none }

theorem clearLinks_sched (s : State) : clearLinks s = { s with sched := s.sched.cleared.startNext } := rfl

theorem startNext_busy {k : Scheduler} (h : k.conv ≠ none) : k.startNext = k := by
  unfold Scheduler.startNext
  split
  · rfl
  · exact absurd (by assumption) h

theorem startNext_free {k : Scheduler} (h : k.conv = none) : k.startNext.conv = k.winner := by
  unfold Scheduler.startNext
  rw [h]

/-- A queue without LINK entries gives no LINK conversion (R64). -/
theorem winner_notLink {k : Scheduler} (h : ∀ q ∈ k.queue, q.tag = none) : ∀ v, k.winner = some v → v.source ≠ .link := by
  intro v hv
  unfold Scheduler.winner at hv
  split at hv
  · cases hv
    nofun
  · split at hv
    · rename_i q _ hq
      have untagged := h q (by simp [hq])
      cases hv
      simp [QEntry.source, untagged]
    · obtain ⟨c, _, rfl⟩ := Option.map_eq_some_iff.1 hv
      nofun

theorem cleared_conv (k : Scheduler) : (∀ v, k.conv = some v → v.source ≠ .link → k.cleared.conv = some v)
    ∧ ∀ v, k.cleared.conv = some v → v.source ≠ .link := by
  unfold Scheduler.cleared
  refine ⟨fun v hv hs => ?_, fun v hv => ?_⟩
  · simp [hv, hs]
  · cases hc : k.conv with
    | none => simp [hc] at hv
    | some x =>
      by_cases hx : x.source = .link
      · simp [hc, hx] at hv
      · simp only [hc, if_neg hx, Option.some.injEq] at hv
        rwa [← hv]

/-- Settles O26: each request is one change of the scheduler's record, from which `Scheduler.startNext` goes on. -/
theorem queueRequestsAct : Obligations.QueueRequestsAct := by
  intro s tag hr only
  have sched : ∀ f, (placed (restartIdle s) f).sched = s.sched := fun f => by simp
  have alone : ∀ k : Scheduler, k.ch = s.sched.ch → ∀ f t, OnlyLink { placed (restartIdle s) f with sched := k } t → only t ∧ t.sched = k := by
    intro k hk f t h
    obtain ⟨link, same⟩ := onlySched (u := placed (restartIdle s) f) h
    exact ⟨⟨link, (congrArg Scheduler.ch same).trans hk⟩, same⟩
  refine ⟨fun b c hc => ⟨fun used => ?used, fun free full => ?full, fun free room => ?taken⟩, ?clear⟩
  case used =>
    refine (reaches_measure tag b).refused hr fun f => ?_
    unfold doMeasure
    rw [hc]
    exact if_pos (by rw [sched f]; simpa using used)
  case full =>
    refine (reaches_measure tag b).refused hr fun f => ?_
    unfold doMeasure
    rw [hc, sched f]
    exact (if_neg (by simpa using free)).trans (if_pos full)
  case taken =>
    refine (reaches_measure tag b).answers hr (fun f => queueLink (placed (restartIdle s) f) c tag) (fun f => ?_)
      (fun f => Or.inl (moved_arb (restartIdle_arb s))) fun f t h => ?_
    · unfold doMeasure
      rw [hc, sched f]
      exact (if_neg (by simpa using free)).trans (if_neg (by simp only [Config.maxLinkTags]; omega))
    · rw [queueLink_sched, sched f] at h
      obtain ⟨only_, same⟩ := alone _ (startNext_ch (s.sched.measured c tag)) f t h
      rw [same]
      refine ⟨only_, startNext_queue _, startNext_tags _, fun busy => ?_, fun idle empty none_ => ?_⟩
      · exact (congrArg Scheduler.conv (startNext_busy (k := s.sched.measured c tag) busy) :)
      · rw [startNext_free (k := s.sched.measured c tag) idle]
        have noInject := firstInject_none (k := s.sched.measured c tag) none_
        unfold Scheduler.winner
        rw [noInject]
        simp only [Scheduler.measured, empty]
        rfl
  case clear =>
    refine (reaches_clearQueue tag).answers hr (fun f => clearLinks (placed (restartIdle s) f)) (fun f => ?_)
      (fun f => Or.inl (moved_arb (restartIdle_arb s))) fun f t h => ?_
    · unfold doClearQueue
      rw [sched f]
      rfl
    · rw [clearLinks_sched, sched f] at h
      obtain ⟨only_, same⟩ := alone _ (startNext_ch s.sched.cleared) f t h
      rw [same]
      obtain ⟨stays, notLink⟩ := cleared_conv s.sched
      refine ⟨only_, startNext_queue _, fun x => ?_, fun v hv hs => ?_, fun v hv => ?_⟩
      · rw [startNext_tags]
        simp only [Scheduler.cleared, Scheduler.links, List.mem_filter, Bool.not_eq_true', List.any_eq_false, beq_iff_eq]
        refine and_congr Iff.rfl ⟨fun k q hq tagged => k q ⟨hq, by simp [tagged]⟩ tagged, fun k q hq => k q hq.1⟩
      · have conv := stays v hv hs
        rw [startNext_busy (by simp [conv]), conv]
      · by_cases free : s.sched.cleared.conv = none
        · rw [startNext_free free] at hv
          refine winner_notLink (fun q hq => ?_) v hv
          simpa using (List.mem_filter.1 hq).2
        · rw [startNext_busy free] at hv
          exact notLink v hv

/-! ### DEFROST_START and DEFROST_ABORT (R125, R126) -/

/-- Whatever an owner does, acts of the blocks follow it, which do nothing where it leaves no hold (R55). -/
theorem Reaches.answers_still {c : Instr} {s : State} {kind tag : Byte} {own : State → Answer} {p : List Byte}
    {Q : State → Prop} (h : Reaches c kind tag own) (hr : Ready s) (u : Frame → State)
    (hj : ∀ f, own (placed (restartIdle s) f) = (u f, p))
    (hQ : ∀ f l z, Acts 0 { u f with link := l } z → ((u f).arb.hold = false → z = { u f with link := l }) → Q (settleLink z)) :
    Answers c s kind tag p Q :=
  h.answers_recheck hr u hj fun f l => hQ f l _ (acts_recheck s .refl) fun off => recheck_still (Or.inr off)

/-- The Defrost Unit's record at the end of the command, but for its heater, its grant and the class it is handed. -/
theorem defrost_ends {u z : State} {l : Link} (k : Acts 0 { u with link := l } z) : (settleLink z).defrost.core = u.defrost.core := by
  rw [settleLink_defrost]
  exact k.below2 (by omega)

theorem doDefrostStart_idle {s : State} (h : s.defrost.phase = .idle) :
    doDefrostStart s = done (dueTest (s.onDefrost fun d => { d with credit := d.target })) := if_pos h

theorem doDefrostAbort_due {s : State} (h : s.defrost.phase = .due) :
    doDefrostAbort s = done (becomeIdle (s.onDefrost fun d => { d with credit := 0 })) := by
  unfold doDefrostAbort
  rw [h]

theorem doDefrostAbort_prechill {s : State} (h : s.defrost.phase = .prechill) : doDefrostAbort s =
    done (becomeIdle ((defrostWithdraw s).onDefrost fun d => { d with credit := 0, prechill := 0, waitLimit := none })) := by
  unfold doDefrostAbort
  rw [h]

theorem doDefrostAbort_heat {s : State} (h : s.defrost.phase = .heat) : doDefrostAbort s = done (heatEnd s .abort) := by
  unfold doDefrostAbort
  rw [h]

/-- IDLE entered with no credit: the notices and the fault table alone change with the phase (R109, R124). -/
theorem becomeIdle_empty {x : State} (hc : x.defrost.credit = 0) (h1 : 1 ≤ x.defrost.current) :
    (becomeIdle x).defrost = { x.defrost with phase := .idle } ∧ (becomeIdle x).arb = x.arb := by
  rw [becomeIdle_below (by omega)]
  simp [postDefrost]

/-- What the abort of a PRECHILL leaves: DEFROST off the arbiter, its counts and its credit cleared (R126). -/
def prechillEnd (s : State) : State :=
  (defrostWithdraw s).onDefrost fun d => { d with credit := 0, prechill := 0, waitLimit := none }

theorem prechillEnd_core (s : State) : (prechillEnd s).defrost.core = ({ s.defrost with credit := 0, prechill := 0 } : Defrost).core := by
  have k := (acts_defrostWithdraw (w := 0) (.refl (s := s))).below2 (by omega)
  exact congrArg (fun d : Defrost => ({ d with credit := 0, prechill := 0 } : Defrost)) k

theorem prechillEnd_arb (s : State) : Unlisted (prechillEnd s) .defrost ∧ (prechillEnd s).arb.hold = s.arb.hold := by
  refine ⟨(withdraw_fewer (l := []) (s.onDefrost fun d => { d with served := false }) .defrost).2, ?_⟩
  have k := (acts_defrostWithdraw (w := 0) (.refl (s := s))).below1 (by omega)
  exact (congrArg (fun c => c.2.2.2.2.1) k.2.1 :)

/-- Settles O28: `dueTest_full` for a start; `becomeIdle_empty` and `heatEnd` for an abort. -/
theorem defrostRequestsAct : Obligations.DefrostRequestsAct := by
  intro s tag hr
  have defrost : ∀ f, (placed (restartIdle s) f).defrost = s.defrost := fun f => by simp
  have arb : ∀ f, (placed (restartIdle s) f).arb = s.arb := fun f => by simp
  refine ⟨fun idle => ?start, fun pos cut => ?abort, fun heat => ?heat⟩
  case start =>
    let y := fun f => (placed (restartIdle s) f).onDefrost fun d => { d with credit := d.target }
    refine (reaches_defrostStart tag).answers_acts hr (fun f => dueTest (y f))
      (fun f => doDefrostStart_idle (by rw [defrost f]; exact idle)) fun f l z k => ?_
    have own : Acts 2 (placed (restartIdle s) f) (dueTest (y f)) :=
      acts_dueTest (le_refl 2) (acts_onDefrost _ (fun _ => rfl) (fun _ => rfl) (le_refl 2) .refl)
    have core := defrost_ends k
    have target : (y f).defrost = { s.defrost with credit := s.defrost.current * 3600 } := by
      simp only [y, State.onDefrost_defrost, defrost f]
      rfl
    obtain ⟨credit, deferral, phase⟩ := dueTest_full (y := y f) (by rw [target]; exact idle) (by rw [target])
    rw [target] at credit phase
    exact ⟨kept_request (by omega) own k, (congrArg Defrost.credit core :).trans credit,
      (congrArg Defrost.deferral core :).trans deferral, (congrArg Defrost.phase core :).trans phase⟩
  case abort =>
    rcases cut with due | prechill
    · let x := fun f => (placed (restartIdle s) f).onDefrost fun d => { d with credit := 0 }
      refine (reaches_defrostAbort tag).answers_acts hr (fun f => becomeIdle (x f))
        (fun f => doDefrostAbort_due (by rw [defrost f]; exact due)) fun f l z k => ?_
      have own := acts_doDefrostAbort (le_refl 2) (.refl (s := placed (restartIdle s) f))
      rw [doDefrostAbort_due (by rw [defrost f]; exact due)] at own
      have core := defrost_ends k
      have cleared : (x f).defrost = { s.defrost with credit := 0 } := by
        simp only [x, State.onDefrost_defrost, defrost f]
      obtain ⟨ends, _⟩ := becomeIdle_empty (x := x f) (by rw [cleared]) (by rw [cleared]; exact pos)
      rw [ends, cleared] at core
      refine ⟨kept_request (by omega) own k, (congrArg Defrost.phase core :), (congrArg Defrost.credit core :),
        (congrArg Defrost.next core :), (congrArg Defrost.current core :), fun h => ?_⟩
      rw [due] at h
      cases h
    · let x := fun f => prechillEnd (placed (restartIdle s) f)
      refine (reaches_defrostAbort tag).answers_still hr (fun f => becomeIdle (x f))
        (fun f => doDefrostAbort_prechill (by rw [defrost f]; exact prechill)) fun f l z k still => ?_
      have own := acts_doDefrostAbort (le_refl 2) (.refl (s := placed (restartIdle s) f))
      rw [doDefrostAbort_prechill (by rw [defrost f]; exact prechill)] at own
      have core := defrost_ends k
      have cleared := prechillEnd_core (placed (restartIdle s) f)
      rw [defrost f] at cleared
      obtain ⟨ends, same⟩ := becomeIdle_empty (x := x f) (congrArg Defrost.credit cleared :)
        (le_of_le_of_eq pos (congrArg Defrost.current cleared).symm)
      rw [ends] at core
      have record := core.trans (congrArg (fun d : Defrost => ({ d with phase := .idle } : Defrost)) cleared)
      refine ⟨kept_request (by omega) own k, (congrArg Defrost.phase record :), (congrArg Defrost.credit record :),
        (congrArg Defrost.next record :), (congrArg Defrost.current record :), fun _ law => ?_⟩
      obtain ⟨unheld, _⟩ := law.before (Or.inr prechill)
      obtain ⟨gone, hold⟩ := prechillEnd_arb (placed (restartIdle s) f)
      have rest : z = { becomeIdle (x f) with link := l } := still (by rw [same]; exact hold.trans (by rw [arb f]; exact unheld))
      refine ⟨?_, (congrArg Defrost.prechill record :), ?_⟩
      · rw [rest]
        refine unlisted_of (fewer_settle (l := []) _) (by simp) ?_
        show Sys2Proof.Requester.defrost ∉ (becomeIdle (x f)).arb.requesters
        rw [same]
        exact gone
      · rw [rest, settleLink_defrost]
        show (becomeIdle (x f)).defrost.waitLimit = none
        rw [ends]
        rfl
  case heat =>
    refine (reaches_defrostAbort tag).answers hr (fun f => heatEnd (placed (restartIdle s) f) .abort)
      (fun f => doDefrostAbort_heat (by rw [defrost f]; exact heat)) (fun f => Or.inl ?_) fun f t only => ?_
    · obtain ⟨comp, valve, grant, _⟩ := still_heaterOff (placed (restartIdle s) f)
      have same : (heatEnd (placed (restartIdle s) f) .abort).arb = (heaterOff (placed (restartIdle s) f)).arb := by simp [heatEnd, postDefrost]
      unfold feedingMoved
      rw [same, comp, valve, grant]
      simp
    · have own := acts_heatEnd .abort (by rw [defrost f]; exact heat) (le_refl 2) (.refl (s := placed (restartIdle s) f))
      have keeps : Kept (restartIdle s) t :=
        kept_restart_placed.trans ((own.kept (by omega)).trans (onlyNotices_of_link only).kept)
      have ended : t.defrost = (heaterOff (placed (restartIdle s) f)).defrost.endHeat .abort s.uptime := by
        have : t.defrost = (heatEnd (placed (restartIdle s) f) .abort).defrost := by
          unfold OnlyLink at only
          rw [only]
        rw [this]
        simp [heatEnd, postDefrost]
      have core := (acts_heaterOff (w := 0) (.refl (s := placed (restartIdle s) f))).below2 (by omega)
      rw [defrost f] at core
      obtain ⟨off, unused⟩ := heaterOff_off (placed (restartIdle s) f)
      rw [ended]
      refine ⟨keeps, rfl, rfl, (congrArg Defrost.next core :), (congrArg Defrost.current core :), ?_, rfl, rfl, off, unused⟩
      exact (congrArg (fun d : Defrost => some (d.heatClock.getD 0)) core :)

end Sys2Proof.Machine

namespace Sys2Proof.Machine

/-! ### CLEAR_FAULT (R159 to R162, R47, R53, R104) -/

/-- The valve after a CLEAR_FAULT (R53). -/
def Valve.recovers (v : Valve) : Valve := if v.isStuck then .moving .freeze .recovery 8 else v

theorem valveRecover_eq (s : State) : valveRecover s = s.onArb fun a => { a with valve := s.arb.valve.recovers } := by
  unfold valveRecover Valve.recovers
  split <;> rfl

/-- The damper after a CLEAR_FAULT (R104). -/
def Damper.recovers (d : Damper) : Damper := if d = .failed then .travelling .closed .recovery 6 else d

theorem damperRecover_eq (s : State) : damperRecover s = s.onAir fun a => { a with damper := s.air.damper.recovers } := by
  unfold damperRecover Damper.recovers
  split
  · rename_i failed
    rw [if_pos failed]
    rfl
  · rename_i works
    rw [if_neg works]
    rfl

/-- The count of failures stands through acts of the blocks below the settings (R46). -/
theorem Acts.failures {w : Nat} {s t : State} (k : Acts w s t) (hw : w < 3) : t.arb.comp.failures = s.arb.comp.failures := by
  obtain ⟨_, high | ⟨_, failures⟩⟩ := k.staysDown
  · omega
  · exact failures

/-- The two recovery attempts of a CLEAR_FAULT. -/
theorem recovers_eq (s : State) : damperRecover (valveRecover s) =
    { s with arb := { s.arb with valve := s.arb.valve.recovers }, air := { s.air with damper := s.air.damper.recovers } } := by
  rw [damperRecover_eq, valveRecover_eq]
  rfl

theorem OnlyNotices.recovers {a b : State} (h : OnlyNotices a b) :
    OnlyNotices (damperRecover (valveRecover a)) (damperRecover (valveRecover b)) := by
  obtain ⟨same, settings⟩ := h
  rw [recovers_eq, recovers_eq]
  refine ⟨?_, settings⟩
  rw [same]

theorem clearOwners_working {s : State} (h : s.arb.comp.state ≠ .lockout) : clearOwners s = damperRecover (valveRecover s) := by
  unfold clearOwners
  rw [if_neg h]

theorem clearOwners_lockout {s : State} (h : s.arb.comp.state = .lockout) :
    clearOwners s = damperRecover (valveRecover (lockoutEnd s)) := by
  unfold clearOwners
  rw [if_pos h]

/-- The end of LOCKOUT: OFF_LOCKED with a full minimum off timer and no failure counted (R47). -/
theorem leaveLockout_off {s : State} (hs : s.arb.comp.state = .lockout) (hl : LoadLaw s) :
    Off3 (leaveLockout s) ∧ (leaveLockout s).arb.comp.failures = 0 := by
  have own := (acts_leaveLockout hs (le_refl 3) (.refl (s := s))).loadLaw hl
  have arb : (leaveLockout s).arb = { s.arb with comp := { s.arb.comp with
      state := .offLocked, failures := 0, lockoutLeft := 0, minOffLeft := s.arb.timing.minOff } } := by
    unfold leaveLockout setComp airComp airInput
    simp
  unfold Off3
  rw [arb]
  exact ⟨⟨rfl, rfl, own⟩, rfl⟩

theorem leaveLockout_failed {s : State} (h : s.air.damper = .failed) : (leaveLockout s).air.damper = .failed := by
  unfold leaveLockout setComp airComp airInput
  simp only [State.onAir_air, State.onComp_air, endFault_air]
  exact AirPath.settle_failed _ h

/-- The rest of LOCKOUT's end: the Defrost Unit is told, and a selection is made (R30, R37). -/
theorem lockoutEnd_acts (s : State) : Acts 2 (leaveLockout s) (lockoutEnd s) :=
  acts_select (acts_defrostUnlocked (le_refl 2) .refl)

theorem lockoutEnd_fault (s : State) : (lockoutEnd s).fault = { s.fault with table := s.fault.table.map fun e =>
    if e.code = .compLockout ∧ e.object = .compressor then { e with active := false } else e } := by
  unfold lockoutEnd defrostUnlocked leaveLockout setComp airComp airInput
  simp only [select_fault, evaluate_fault, State.onDefrost_fault, State.onAir_fault, State.onComp_fault, endFault_fault_eq]

/-- A stop that has been made stands through a recovery attempt of valve and damper. -/
theorem Off3.recovers {s : State} (h : Off3 s) : Off3 (damperRecover (valveRecover s)) := by
  rw [recovers_eq]
  exact h

/-- What CLEAR_FAULT leaves of the fault record (R159 to R162). -/
theorem clearRecord_fault (s : State) (o : Option FaultObject) :
    (clearRecord s o).fault = { s.fault with table := s.fault.table.filter fun e => !clears o e, capture := none } := by
  obtain ⟨_, _, _, _, _, _, _, _, _, fault, _⟩ := reset_view (clearRecord_eq s o)
  exact fault

theorem doClearFault_eq {s : State} {b : Byte} {o : Option FaultObject} (h : clearObject b = some o) : doClearFault s b =
    (clearOwners (clearRecord s o), [0, encNum (s.fault.table.filter (clears o)).length,
      encNum (s.fault.table.filter fun e => !clears o e).length]) := by
  unfold doClearFault
  rw [h]
  dsimp only
  rw [count_left, List.countP_eq_length_filter]
  rfl

/-- A valve that has left STUCK under the law of the arbiter finds the compressor off (R52). -/
theorem ArbLaw.stuckOff {a : Arbiter} (h : ArbLaw a) (k : a.valve.isStuck = true) : a.comp.state.turning = false := by
  obtain ⟨_, _, _, _, stuck⟩ := h
  cases hv : a.valve with
  | stuck n => exact stuck n hv
  | resting e => simp [hv, Valve.isStuck] at k
  | moving e t n => simp [hv, Valve.isStuck] at k

/-- The feeding check after a recovery attempt changes neither the valve nor a damper that travels. -/
theorem recheck_recovers {s u x : State} {l : Link} (hu : u.arb = s.arb) (ha : ArbLaw s.arb)
    (hx : x = { damperRecover (valveRecover u) with link := l }) : (recheck s x).arb.valve = s.arb.valve.recovers
      ∧ (u.air.damper = .failed → (recheck s x).air.damper = .travelling .closed .recovery 6) := by
  have arb : x.arb = { s.arb with valve := s.arb.valve.recovers } := by rw [hx, recovers_eq, hu]
  have damper : x.air.damper = u.air.damper.recovers := by rw [hx, recovers_eq]
  by_cases stuck : s.arb.valve.isStuck = true
  · obtain ⟨valve, travels⟩ := recheck_off (s := x) s (by rw [arb]; exact ha.stuckOff stuck)
    refine ⟨valve.trans (by rw [arb]), fun failed => travels _ _ _ (damper.trans (if_pos failed))⟩
  · have same : s.arb.valve.recovers = s.arb.valve := if_neg stuck
    have still : recheck s x = x := recheck_still (Or.inl (moved_arb (by rw [arb, same])))
    rw [still, arb]
    exact ⟨rfl, fun failed => damper.trans (if_pos failed)⟩

/-- Settles O29: `clearRecord_eq` for the record, `recovers_eq` for the two attempts, `leaveLockout_off` for the end of a
LOCKOUT. -/
theorem clearFaultClearsTheRecord : Obligations.ClearFaultClearsTheRecord := by
  intro s tag b o hr ho gone left answers valve
  have fault : ∀ f, (placed (restartIdle s) f).fault = s.fault := fun f => by simp
  have arb : ∀ f, (placed (restartIdle s) f).arb = s.arb := fun f => by simp
  have reach := reaches_clearFault tag b
  have goneIs : gone = s.fault.table.filter (clears o) := by rw [clears_iff]
  have leftIs : left = s.fault.table.filter fun e => !clears o e := by rw [clears_iff]
  let x := fun f => clearRecord (placed (restartIdle s) f) o
  have own : ∀ f, doClearFault (placed (restartIdle s) f) b = (clearOwners (x f), [0, encNum gone.length, encNum left.length]) := by
    intro f
    rw [doClearFault_eq ho, fault f, goneIs, leftIs]
  have record : ∀ f, OnlyNotices { restartIdle s with fault := { s.fault with table := left, capture := none } } (x f) := by
    intro f
    have := clearRecord_eq (placed (restartIdle s) f) o
    rw [fault f, ← leftIs] at this
    exact this
  have xarb : ∀ f, (x f).arb = s.arb := fun f => by
    obtain ⟨_, _, _, same, _⟩ := reset_view (record f)
    exact same.trans (restartIdle_arb s)
  have xair : ∀ f, (x f).air = s.air := fun f => by
    obtain ⟨_, _, _, _, _, _, same, _⟩ := reset_view (record f)
    exact same.trans (restartIdle_air s)
  have xfault : ∀ f, (x f).fault = { s.fault with table := left, capture := none } := fun f => by
    obtain ⟨_, _, _, _, _, _, _, _, _, same, _⟩ := reset_view (record f)
    exact same
  refine ⟨fun works unheld => ?notices, fun works law => ?works, fun out law => ?lockout⟩
  case notices =>
    refine reach.answers hr (fun f => damperRecover (valveRecover (x f)))
      (fun f => (own f).trans (by rw [clearOwners_working (by rw [xarb f]; exact works)])) (fun f => Or.inr ?_) fun f t only => ?_
    · rw [recovers_eq, xarb f]
      exact unheld
    · have ends := (record f).recovers.ofLink only
      rw [recovers_eq] at ends
      simp only [restartIdle_arb, restartIdle_air] at ends
      exact ends
  case works =>
    refine reach.answers_recheck hr (fun f => damperRecover (valveRecover (x f)))
      (fun f => (own f).trans (by rw [clearOwners_working (by rw [xarb f]; exact works)])) fun f l => ?_
    obtain ⟨valve_, damper⟩ := recheck_recovers (l := l) (xarb f) law rfl
    rw [settleLink_fault, settleLink_arb, settleLink_air, recheck_fault]
    refine ⟨?_, valve_, fun failed => damper (by rw [xair f]; exact failed)⟩
    show (damperRecover (valveRecover (x f))).fault = _
    rw [damperRecover_fault, valveRecover_fault, xfault f]
  case lockout =>
    have xlaw : ∀ f, LoadLaw (x f) := fun f => by
      obtain ⟨_, _, _, _, _, _, _, _, same, _⟩ := reset_view (record f)
      exact loadLaw_of_arb law (congrArg Arbiter.comp (xarb f)) (same.trans (restartIdle_budget s))
    refine reach.answers_recheck hr (fun f => damperRecover (valveRecover (lockoutEnd (x f))))
      (fun f => (own f).trans (by rw [clearOwners_lockout (by rw [xarb f]; exact out)])) fun f l => ?_
    obtain ⟨left_, count⟩ := leaveLockout_off (s := x f) (by rw [xarb f]; exact out) (xlaw f)
    have k := lockoutEnd_acts (x f)
    have off : Off3 (damperRecover (valveRecover (lockoutEnd (x f)))) := (left_.acts k (by omega)).recovers
    have k' := acts_recheck s (w := 0) (.refl (s := { damperRecover (valveRecover (lockoutEnd (x f))) with link := l }))
    have down : (damperRecover (valveRecover (lockoutEnd (x f)))).arb.comp.state.turning = false := by rw [off.1]; rfl
    obtain ⟨valve_, travels⟩ := recheck_off (s := { damperRecover (valveRecover (lockoutEnd (x f))) with link := l }) s down
    refine ⟨off.link.ends k', ?_, ?_, fun stuck => ?_, fun failed => ?_⟩
    · rw [settleLink_arb, k'.failures (by omega)]
      show (damperRecover (valveRecover (lockoutEnd (x f)))).arb.comp.failures = 0
      rw [recovers_eq]
      exact (k.failures (by omega)).trans count
    · rw [settleLink_fault, recheck_fault]
      show (damperRecover (valveRecover (lockoutEnd (x f)))).fault = _
      rw [damperRecover_fault, valveRecover_fault, lockoutEnd_fault, xfault f]
    · rw [settleLink_arb, valve_]
      show (damperRecover (valveRecover (lockoutEnd (x f)))).arb.valve = _
      rw [recovers_eq]
      show (lockoutEnd (x f)).arb.valve.recovers = _
      rw [lockoutEnd_stuck (by rw [xarb f]; exact stuck), xarb f]
      rfl
    · rw [settleLink_air]
      refine travels _ _ _ ?_
      show (damperRecover (valveRecover (lockoutEnd (x f)))).air.damper = _
      rw [recovers_eq]
      have stays : (lockoutEnd (x f)).air.damper = .failed :=
        k.failed (by omega) (leaveLockout_failed (by rw [xair f]; exact failed))
      show (lockoutEnd (x f)).air.damper.recovers = _
      rw [stays]
      rfl

end Sys2Proof.Machine

namespace Sys2Proof.Machine

/-! ### Events of the blocks -/

/-- An event that acts on the blocks: acts of the lowest level follow it, which do nothing where it leaves no hold (R55). -/
theorem leads_acts {c : Instr} {s x : State} {w : Nat} {Q : State → Prop} (hl : LinkLaw s) (runs : exec c s = outcome s x)
    (own : Acts w s x) (hQ : ∀ z, Acts 0 x z → (x.arb.hold = false → z = x) → Q (settleLink z)) : Leads c s Q := by
  obtain ⟨z, hz, k, ends⟩ := event_recheck hl own
  exact ⟨_, runs.trans ends, hQ z k fun off => hz.trans (recheck_still (Or.inr off))⟩

/-! ### The phases of TIMED mode (R19) -/

/-- A zone's record at the end of an event, but for a grant or a return. -/
theorem zone_core_ends {x z : State} (k : Acts 0 x z) (y : ZoneId) : ((settleLink z).zones.get y).core = (x.zones.get y).core := by
  rw [settleLink_zones]
  exact (k.below1 (by omega)).1 y

theorem served_calling {st : ZoneState} (h : st.served = .calling) : st = .calling ∨ st = .cooling := by
  cases st <;> simp_all [ZoneState.served]

/-- The record of a zone whose OFF phase has ended (R19). -/
theorem offPhaseEnd_core (s : State) (z : ZoneId) : ((offPhaseEnd s z).zones.get z).core =
    ({ s.zones.get z with postDefrost := false, timer := (s.zones.get z).onPhase, state := .calling, enteredAt := s.uptime } : Zone).core := by
  let t := enterState (s.onZone z fun r => { r with postDefrost := false, timer := r.onPhase }) z .calling .call
  have posts : Acts 0 t (offPhaseEnd s z) := acts_zonePost z .normal .refl
  refine ((posts.below1 (by omega)).1 z).trans (congrArg Zone.core ?_)
  simp only [t]
  rw [enterState_get, State.onZone_zones, Zones.get_set, State.onZone_uptime]

/-- The record of a zone whose ON phase has ended (R19). -/
theorem onPhaseEnd_get (s : State) (z : ZoneId) : (onPhaseEnd s z).zones.get z =
    { (standDown s z).zones.get z with timer := ((standDown s z).zones.get z).offPhase, state := .idle, enteredAt := s.uptime } := by
  obtain ⟨uptime, _⟩ := (acts_standDown (w := 0) z (.refl (s := s))).same
  unfold onPhaseEnd
  rw [enterState_get, State.onZone_zones, Zones.get_set, State.onZone_uptime, uptime]

/-- Settles O43: the records by `offPhaseEnd_core` and `onPhaseEnd_get`. -/
theorem timedPhasesEnd : Obligations.TimedPhasesEnd := by
  intro s z hl timed
  refine ⟨fun idle timer => ?off, fun cooling timer => ?on⟩
  case off =>
    have runs : exec (.offPhaseExpiry z) s = outcome s (offPhaseEnd s z) := when_true (by simp [phaseDue, timed, idle, timer])
    have own : Acts 1 s (offPhaseEnd s z) := acts_offPhaseEnd z (le_refl 1) .refl
    refine leads_acts hl runs own fun x k _ => ?_
    have core := (zone_core_ends k z).trans (offPhaseEnd_core s z)
    have phase : (s.zones.get z).onPhase = some { kind := .on, left := (s.zones.get z).onTime } := by simp [Zone.onPhase]
    rw [phase] at core
    have rest := core_rest core
    exact ⟨kept_event own (by omega) k, served_calling (core_state core), (congrArg Zone.cls rest :),
      (congrArg Zone.postDefrost rest :), (congrArg Zone.timer rest :)⟩
  case on =>
    have runs : exec (.onPhaseExpiry z) s = outcome s (onPhaseEnd s z) := when_true (by simp [phaseDue, timed, cooling, timer])
    have own : Acts 1 s (onPhaseEnd s z) := acts_onPhaseEnd z (le_refl 1) .refl
    refine leads_acts hl runs own fun x k _ => ?_
    have record := onPhaseEnd_get s z
    have ends : (settleLink x).zones.get z = (onPhaseEnd s z).zones.get z := by
      rw [settleLink_zones]
      exact zone_acts k z (by rw [record]; exact (by decide : ZoneState.idle.served ≠ .calling))
    have rest := core_rest (((acts_standDown (w := 0) z (.refl (s := s))).below1 (by omega)).1 z)
    have time : ((standDown s z).zones.get z).offTime = (s.zones.get z).offTime := (congrArg Zone.offTime rest :)
    rw [ends, record]
    exact ⟨kept_event own (by omega) k, rfl, rfl, (congrArg Zone.cls rest :), by simp [Zone.offPhase, time]⟩

end Sys2Proof.Machine

namespace Sys2Proof.Machine

/-! ### Switching (R35, R36) -/

theorem doSwitch_hold (s : State) (g : Grant) : (doSwitch s g).arb.hold = s.arb.hold := (doSwitch_switched s g).2

/-- A check that finds a switch decided, or not. -/
theorem check_ends {c : Instr} {s : State} {g : Grant} (hl : LinkLaw s) (hg : s.arb.grant = some g)
    (runs : exec c s = outcome s (switchCheck s)) : (¬ s.arb.Decides g s.uptime → exec c s = .next s)
      ∧ (s.arb.Decides g s.uptime → s.arb.hold = false → Leads c s (fun t => Kept s t ∧ Switched s g t)) := by
  refine ⟨fun no => ?_, fun yes unheld => ?_⟩
  · have stays : switchCheck s = s := switchCheck_undecided fun ⟨x, hx, dec⟩ => by
      rw [hg] at hx
      cases hx
      exact no dec
    rw [runs, stays]
    exact idle_event hl
  · have made := switchCheck_decided hg yes
    have own : Acts 0 s (doSwitch s g) := made ▸ acts_switchCheck .refl
    refine leads_acts hl (runs.trans (congrArg _ made)) own fun z k still => ?_
    rw [still ((doSwitch_hold s g).trans unheld)]
    exact ⟨(own.kept (by omega)).trans (kept_settle _),
      GrantFormed.of_arb (doSwitch_switched s g).1 (by rw [settleLink_arb]) (by rw [settleLink_arb])⟩

/-- Settles O44: each of the three expiries brings the switch check. -/
theorem switchIsDecided : Obligations.SwitchIsDecided := by
  rintro s g c hl hg (⟨rfl, active, d, start, due⟩ | ⟨e, he, rfl, due⟩ | ⟨rfl, d, start, due⟩)
  · exact check_ends hl hg (when_true (by simp [dwellDue, hg, active, start, due]))
  · refine check_ends hl hg (when_true ?_)
    unfold waitDue
    exact List.any_eq_true.2 ⟨e, he, by simp [due]⟩
  · exact check_ends hl hg (when_true (by simp [runDue, hg, start, due]))

/-! ### The start of the compressor (R32, R38, R39) -/

/-- A compressor at OFF_READY with nothing to do stays there (R38). -/
theorem advance_idle {s : State} (hg : s.arb.grant = none) (hm : s.ctl.mode ≠ .service) (hs : s.arb.comp.state = .offReady) :
    advance s = s := by
  have wanted : valveWanted s = none := by
    unfold valveWanted
    rw [hg]
    exact if_neg hm
  have start : startWanted s = false := by
    unfold startWanted
    rw [hg]
    simp [hm]
  rw [advance_ungranted hg, tryMove_none wanted, tryStart_not start]
  exact evalAim_off (by rw [hs]; rfl)

/-- A PREPARING grant whose evaporator the valve is at starts a compressor at OFF_READY (R39). -/
theorem advance_starts {s : State} {g : Grant} (hg : s.arb.grant = some g) (hp : g.phase = .preparing)
    (hv : s.arb.valve = .resting g.evap) (hs : s.arb.comp.state = .offReady) (hd : s.arb.dischargePos ≠ some .above) :
    advance s = compStart s := by
  have wanted : valveWanted s = some g.evap := by
    unfold valveWanted
    rw [hg]
    exact if_pos hp
  have start : startWanted s = true := by
    unfold startWanted
    rw [hg]
    simp [hp, hv, Valve.at]
  have begins : tryStart s = compStart s := if_pos ⟨start, hs, hd⟩
  have runs : (compStart s).arb.comp.state = .starting := by rw [compStart_arb]
  unfold advance
  rw [leaveRunout_not (by rw [hs]; decide), tryActivate_not (by rw [hs]; decide), tryMove_there wanted (by rw [hv]; rfl), begins,
    evalAim_off (by rw [runs]; rfl)]

/-- The evaluation runs the condenser fan by its condition (R99). -/
theorem settle_condenserFan (a : AirPath) : a.settle.condenserFan = a.condenserOn := by
  unfold AirPath.settle
  dsimp only
  split
  · split <;> rfl
  · rfl

/-- A compressor that starts runs the condenser fan (R99). -/
theorem compStart_fan (s : State) : (compStart s).air.condenserFan = true :=
  (settle_condenserFan _).trans rfl

/-- A PREPARING grant activates with the compressor RUNNING and the valve at its evaporator, and only the aim is acted on
further (R32, R34). -/
theorem advance_activates {s : State} {g : Grant} (hg : s.arb.grant = some g) (hp : g.phase = .preparing)
    (hv : s.arb.valve = .resting g.evap) (hs : s.arb.comp.state = .running) :
    (advance s).arb.grant = some (g.activate s.uptime) ∧ ∃ x, (advance s).arb.comp = { s.arb.comp with step := x } := by
  let y := activate s g
  have arb : y.arb = { s.arb with grant := some (g.activate s.uptime) } := by
    simp only [y]
    unfold activate
    rw [grants_arb]
    rfl
  have active : tryActivate s = y := by
    unfold tryActivate
    rw [hg]
    exact if_pos ⟨hp, by rw [hv]; rfl, hs⟩
  have aims : advance y = evalAim y := advance_active (g := g.activate s.uptime) (by rw [arb]; exact hs) (by rw [arb]) rfl
  have same : advance s = advance y := by
    unfold advance
    rw [leaveRunout_not (by rw [hs]; decide), active, leaveRunout_not (by rw [arb]; exact hs ▸ by decide)]
    have again : tryActivate y = y := by
      unfold tryActivate
      rw [arb]
      exact if_neg fun h => by cases h.1
    rw [again]
  obtain ⟨x, comp⟩ := evalAim_comp y
  obtain ⟨⟨_, _, grant, _⟩, _⟩ := still_evalAim y
  rw [same, aims]
  refine ⟨grant.trans (by rw [arb]), x, comp.trans (by rw [arb])⟩

/-- The state of a successful start before the arbiter goes on with it (R39). -/
def startedRun (s : State) : State :=
  inject (endFault (endFault (setComp (s.onComp fun c => { c with runStart := s.uptime, startLeft := 0 }) .running)
    .compStart .compressor) .compTrip .compressor) .discharge

theorem startSuccess_eq (s : State) : startSuccess s = afterArrival (startedRun s) := rfl

theorem startedRun_arb (s : State) : (startedRun s).arb =
    { s.arb with comp := { s.arb.comp with runStart := s.uptime, startLeft := 0, state := .running } }
      ∧ (startedRun s).uptime = s.uptime := by
  simp [startedRun, inject, startNext, setComp, airComp, airInput]

/-- A successful start asks for a DISCHARGE reading (R39). -/
theorem startedRun_inject (s : State) : ((startedRun s).sched.ch.get .discharge).injectFlag = true := by
  simp [startedRun, inject, startNext]

/-- A successful start with a PREPARING grant where the valve is activates it (R32, R39). -/
theorem startSuccess_activates {s : State} {g : Grant} (hg : s.arb.grant = some g) (hp : g.phase = .preparing)
    (hv : s.arb.valve = .resting g.evap) : let t := startSuccess s
    t.arb.grant = some (g.activate s.uptime) ∧ (∃ x, t.arb.comp =
      { s.arb.comp with runStart := s.uptime, startLeft := 0, state := .running, step := x }) ∧ t.arb.hold = s.arb.hold
      ∧ t.sched = (startedRun s).sched := by
  obtain ⟨arb, uptime⟩ := startedRun_arb s
  have goes : startSuccess s = advance (startedRun s) := by
    rw [startSuccess_eq]
    exact if_neg fun h => by rw [arb] at h; simp [hg] at h
  obtain ⟨grant, x, comp⟩ := advance_activates (s := startedRun s) (by rw [arb]; exact hg) hp (by rw [arb]; exact hv) (by rw [arb])
  obtain ⟨_, hold, _⟩ := advance_grant (startedRun s)
  intro t
  have same : t = advance (startedRun s) := goes
  rw [same]
  refine ⟨grant.trans (by rw [uptime]), ⟨x, comp.trans (by rw [arb])⟩, hold.trans (by rw [arb]), advance_sched _⟩

/-- Run feedback is read whatever the state (R45). -/
theorem feedback_quiet {s : State} (hl : LinkLaw s) (b : Bool) :
    outcome s (feedback s b) = .next { s with pins := { s.pins with feedback := b } } :=
  tame_quiet hl rfl (Or.inl (moved_arb rfl))

/-- An event that also reads a pin: acts of the lowest level follow what it does, and none where it leaves no hold (R55). -/
theorem leads_tame {c : Instr} {s y x : State} {w : Nat} {Q : State → Prop} (hl : LinkLaw s) (runs : exec c s = outcome s x)
    (hy : y.link = s.link) (own : Acts w y x) (hQ : ∀ z, Acts 0 x z → (x.arb.hold = false → z = x) → Q (settleLink z)) :
    Leads c s Q := by
  have tame : Tame s x := (tame_link hy).trans own.tame
  exact ⟨_, runs.trans (congrArg Host.Outcome.next (finish_tame hl tame)), hQ _ (acts_recheck s .refl) fun off => recheck_still (Or.inr off)⟩

/-- Settles O45: `advance_idle`, `advance_starts` and `startSuccess_activates`. -/
theorem compressorStarts : Obligations.CompressorStarts := by
  intro s hl unheld
  have ready : s.arb.comp.state = .offLocked → s.arb.comp.minOffLeft = 0 →
      exec .minOffExpiry s = outcome s (advance (setComp s .offReady)) :=
    fun locked ended => when_true (by simp [minOffDue, locked, ended])
  refine ⟨fun locked ended ungranted mode => ?idle, fun g locked ended hg prep rest low => ?starts, fun g starting hg prep rest => ?success,
    fun other => ?disregarded⟩
  case idle =>
    rw [ready locked ended, advance_idle (s := setComp s .offReady) ungranted mode rfl]
    exact tame_quiet hl rfl (Or.inr unheld)
  case starts =>
    have starts := advance_starts (s := setComp s .offReady) hg prep rest rfl low
    have runs := (ready locked ended).trans (congrArg _ starts)
    have own : Acts 0 (setComp s .offReady) (compStart (setComp s .offReady)) := starts ▸ acts_advance .refl
    have arb := compStart_arb (setComp s .offReady)
    refine leads_tame (y := setComp s .offReady) hl runs rfl own fun z k still => ?_
    rw [still (by rw [arb]; exact unheld)]
    obtain ⟨state, level, left, line, load⟩ := (compStart_started (setComp s .offReady)).of_eq
      (u := settleLink (compStart (setComp s .offReady))) (by simp) (by simp)
    refine ⟨(own.kept (by omega)).trans (kept_settle _), state, level, left, line, ?_, load, ?_⟩
    · rw [settleLink_arb, arb]
      exact hg
    · rw [settleLink_air]
      exact compStart_fan _
  case success =>
    have runs : exec .runFeedback s = outcome s (startSuccess (feedback s true)) := congrArg (outcome s) (if_pos starting)
    have own : Acts 0 (feedback s true) (startSuccess (feedback s true)) := acts_startSuccess starting .refl
    obtain ⟨grant, ⟨x, comp⟩, hold, sched⟩ := startSuccess_activates (s := feedback s true) hg prep rest
    refine leads_tame (y := feedback s true) hl runs rfl own fun z k still => ?_
    rw [still (hold.trans unheld)]
    simp only [settleLink_arb, settleLink_sched]
    refine ⟨(own.kept (by omega)).trans (kept_settle _), ?_, ?_, ?_, grant, ?_⟩
    · rw [comp]
    · rw [comp]
      rfl
    · rw [comp]
      rfl
    · rw [sched]
      exact startedRun_inject _
  case disregarded =>
    have runs : exec .runFeedback s = outcome s (feedback s true) := congrArg (outcome s) (if_neg other)
    exact runs.trans (feedback_quiet hl true)

end Sys2Proof.Machine

namespace Sys2Proof.Machine

/-! ### Failures of the compressor (R40, R45, R46) -/

/-- An event that may also read a pin, with the feeding check that follows it named (R55). -/
theorem leads_checked {c : Instr} {s y x : State} {w : Nat} {Q : State → Prop} (hl : LinkLaw s) (runs : exec c s = outcome s x)
    (hy : y.link = s.link) (own : Acts w y x) (hQ : ∀ z, z = recheck s x → Acts 0 x z → Q (settleLink z)) : Leads c s Q := by
  have tame : Tame s x := (tame_link hy).trans own.tame
  exact ⟨_, runs.trans (congrArg Host.Outcome.next (finish_tame hl tame)), hQ _ rfl (acts_recheck s .refl)⟩

/-- What a failure leaves to the end of the command, but for the grant (R40, R45, R46). -/
theorem failure_ends {s z : State} (c : FaultCode) (hl : LoadLaw s) (hn : s.arb.comp.state.turning = true)
    (k : Acts 0 (fail s c) z) : let t := settleLink z
    Kept s t ∧ Recorded t c .compressor ∧ t.speedLine = 0 ∧ t.arb.forcedLevel = none
      ∧ t.arb.comp.failures = s.arb.comp.failures + 1 ∧ (s.arb.comp.failures < 2 → OffFull t)
      ∧ (2 ≤ s.arb.comp.failures → t.arb.comp.state = .lockout ∧ t.arb.comp.lockoutLeft = 1800
          ∧ Recorded t .compLockout .compressor) := by
  obtain ⟨kept, recorded, line, forced, count, low, high⟩ := fail_tail c hl hn k
  intro t
  have arb : t.arb = z.arb := settleLink_arb z
  refine ⟨kept.trans (kept_settle z), recorded_settle recorded, ?_, by rw [arb]; exact forced, by rw [arb]; exact count,
    fun few => (low few).settle.full, fun many => ?_⟩
  · unfold State.speedLine at line ⊢
    rw [arb]
    exact line
  · obtain ⟨out, left, lock⟩ := high many
    exact ⟨by rw [arb]; exact out, by rw [arb]; exact left, recorded_settle lock⟩

/-- A loss of run feedback in RUNNING or RUNOUT is a failure, and an ACTIVE grant returns to PREPARING (R45). -/
theorem trip_runs {s : State} (h : s.arb.comp.state = .running ∨ s.arb.comp.state = .runout) :
    exec .trip s = outcome s (unserve (fail (feedback s false) .compTrip)) :=
  congrArg (outcome s) (if_pos (by rcases h with h | h <;> rw [h] <;> rfl))

/-- Settles O46: `failure_ends` for what both failures leave, `fail_granted` and `unserve_arb` for the grant. -/
theorem compressorFails : Obligations.CompressorFails := by
  intro s hl load
  refine ⟨fun starting ended => ?window, fun runs => ?trip, fun not_running not_runout => ?disregarded, fun runs some_ long => ?cleared⟩
  case window =>
    have turning : s.arb.comp.state.turning = true := by rw [starting]; rfl
    refine leads_checked hl (when_true (by simp [windowEndDue, starting, ended])) rfl (acts_fail _ turning (le_refl 3) .refl)
      fun z made k => ?_
    obtain ⟨kept, recorded, line, forced, count, low, high⟩ := failure_ends .compStart load turning k
    refine ⟨kept, recorded, line, forced, count, fun few => ⟨low few, fun g hg => ?_⟩, high⟩
    have stands := fail_granted .compStart load turning hg few
    rw [settleLink_arb, made, (recheck_granted _ _ (by rw [stands]; simp)).2]
    exact stands
  case trip =>
    have turning : (feedback s false).arb.comp.state.turning = true := by
      rcases runs with h | h <;> exact h ▸ rfl
    have back : Acts 0 (fail (feedback s false) .compTrip) (unserve (fail (feedback s false) .compTrip)) := acts_unserve .refl
    refine leads_checked (y := feedback s false) hl (trip_runs runs) rfl (acts_unserve (acts_fail _ turning (le_refl 3) .refl))
      fun z made k => ?_
    obtain ⟨kept, recorded, line, forced, count, low, high⟩ := failure_ends .compTrip (s := feedback s false) load turning (back.trans k)
    refine ⟨kept, recorded, line, forced, count, fun few => ⟨low few, fun g hg => ?_⟩, high⟩
    have stands := fail_granted (s := feedback s false) .compTrip load turning hg few
    have returned := congrArg Arbiter.grant (unserve_arb stands)
    rw [settleLink_arb, made, (recheck_granted _ _ (by rw [returned]; simp)).2]
    exact returned
  case disregarded =>
    have stands : s.arb.comp.state.running_ = false := by
      cases h : s.arb.comp.state <;> simp_all [CompState.running_]
    have runs : exec .trip s = outcome s (feedback s false) :=
      congrArg (outcome s) (if_neg (by rw [stands]; decide))
    exact runs.trans (feedback_quiet hl false)
  case cleared =>
    have due : clearCountDue s = true := by
      unfold clearCountDue
      simp only [Bool.and_eq_true, bne_iff_ne, decide_eq_true_eq]
      exact ⟨⟨by rcases runs with h | h <;> rw [h] <;> rfl, some_⟩, long⟩
    exact (when_true due).trans (tame_quiet hl rfl (Or.inl (by simp [feedingMoved])))

end Sys2Proof.Machine

namespace Sys2Proof.Machine

/-! ### Steps and stops of the compressor (R41, R44, R47) -/

/-- A step in flight runs on a compressor that turns (section 2.4). -/
theorem LoadLaw.turning {s : State} {t : Step} (h : LoadLaw s) (hs : s.arb.comp.step = some t) : s.arb.comp.state.turning = true := by
  obtain ⟨_, sound, _⟩ := h
  refine sound.resolve_right fun off => ?_
  rw [off.2] at hs
  cases hs

theorem loadLaw_settle {s : State} (h : LoadLaw s) : LoadLaw (settleLink s) := loadLaw_of_arb h (by simp) (by simp)

theorem stepDone_hold (s : State) (n : Nat) : (stepDone s n).arb.hold = s.arb.hold := by
  unfold stepDone
  dsimp only
  rw [(advance_grant _).2.1]
  split
  · exact (reportLevel_comp _ _).2.1
  · rfl

/-- A step's end on a compressor that turns makes the level, and it goes on turning (R41). -/
theorem stepDone_level {s : State} (n : Nat) (hn : s.arb.comp.state.turning = true) :
    (stepDone s n).arb.comp.level = n ∧ (stepDone s n).arb.comp.state.turning = true := by
  let t := s.onComp fun c => { c with level := n, step := none }
  let u := if n < s.arb.comp.level then reportLevel t n else t
  have made : stepDone s n = advance u := rfl
  have reached : u.arb.comp.level = n ∧ u.arb.comp.state = s.arb.comp.state := by
    by_cases down : n < s.arb.comp.level
    · obtain ⟨x, comp⟩ := (reportLevel_comp t n).1
      have same : u = reportLevel t n := if_pos down
      rw [same, comp]
      exact ⟨rfl, rfl⟩
    · have same : u = t := if_neg down
      rw [same]
      exact ⟨rfl, rfl⟩
  obtain ⟨level, state⟩ := reached
  have ready : u.arb.comp.state ≠ .offReady := fun off => by
    rw [state] at off
    rw [off] at hn
    cases hn
  obtain ⟨keeps, stays | ⟨_, leaves⟩⟩ := advance_comp ready
  · exact ⟨by rw [made, keeps, level], by rw [made, stays, state]; exact hn⟩
  · exact ⟨by rw [made, keeps, level], by rw [made, leaves]; rfl⟩

theorem acts_stepEnd {s : State} {n : Nat} (load : LoadLaw s) (hs : s.arb.comp.step = some { goal := n, left := 0 }) :
    Acts 0 s (stepDone s n) :=
  acts_stepDone n (fun _ => load.turning hs) (by unfold Compressor.top; rw [hs]; exact le_max_right _ _) (by rw [hs]; simp) .refl

theorem stepEnd_runs {s : State} {n : Nat} (hs : s.arb.comp.step = some { goal := n, left := 0 }) :
    exec .stepEnd s = outcome s (stepDone s n) := by
  have goal : (s.arb.comp.step.map (·.goal)).getD s.arb.comp.level = n := by rw [hs]; rfl
  exact (when_true (by simp [stepDue, hs])).trans (by rw [goal])

/-- The end of LOCKOUT changes no setting and no entry but the state of its own (R47). -/
theorem kept_leaveLockout (s : State) : Kept s (leaveLockout s) := by
  let t := s.onComp fun c => { c with failures := 0, lockoutLeft := 0, minOffLeft := s.arb.timing.minOff }
  let u := endFault t .compLockout .compressor
  let v := u.onComp fun c => { c with state := .offLocked }
  have comp : ∀ (x : State) f, Kept x (x.onComp f) := fun x _ =>
    ⟨rfl, rfl, rfl, rfl, rfl, rfl, ⟨fun _ => rfl, fun _ => rfl, rfl, rfl, rfl, rfl, rfl, rfl⟩, faultsStay_rfl _⟩
  have ends : Kept t u := (acts_endFault (w := 0) .compLockout .compressor .refl).kept (by omega)
  exact (comp s _).trans (ends.trans ((comp u _).trans (kept_onAir v _)))

/-- Settles O47: `stepDone_level` and `stepDone_active` for a step's end, `compStop_off3` and `leaveLockout_off` for the stops. -/
theorem compressorStepsAndStops : Obligations.CompressorStepsAndStops := by
  intro s hl load
  refine ⟨fun n step unheld => ?made, fun n g top step unheld running mode hg active bound reached => ?goes_on,
    fun runout long => ?stops, fun locked ended => ?unlocks⟩
  case made =>
    have own := acts_stepEnd load step
    refine leads_acts hl (stepEnd_runs step) own fun z k still => ?_
    rw [still ((stepDone_hold s n).trans unheld)]
    obtain ⟨level, turning⟩ := stepDone_level n (load.turning step)
    refine ⟨(own.kept (by omega)).trans (kept_settle _), loadLaw_settle (own.loadLaw load), ?_, ?_⟩
    · rw [settleLink_arb]
      exact level
    · rw [settleLink_arb]
      exact turning
  case goes_on =>
    refine leads_acts hl (stepEnd_runs step) (acts_stepEnd load step) fun z k still => ?_
    rw [still ((stepDone_hold s n).trans unheld)]
    obtain ⟨y, made, budget, ctl, arb⟩ := stepDone_active (n := n) running hg active
    have free : y.arb.stepFree = true := by
      unfold Arbiter.stepFree
      rw [arb]
      simp [running, CompState.running_]
    have stepped := evalAim_stepped free
    have aim : y.arb.aim y.ctl.mode = y.arb.capped top := by
      unfold Arbiter.aim
      rw [ctl, if_neg mode, arb]
      dsimp only
      rw [hg]
      simp only [active, running, and_self, if_true, target_top active bound reached]
    rw [aim, budget, ← made] at stepped
    refine Stepped.of_eq (t := stepDone s n) ?_ (by simp) (by simp)
    simpa only [arb, Arbiter.capped] using stepped
  case stops =>
    have stopped := compStop_off3 load (by rw [runout]; rfl)
    have own : Acts 0 s (compStop s) := acts_compStop .refl
    have due : runoutDue s = true := by
      unfold runoutDue
      simp only [runout, beq_self_eq_true, Bool.true_and, decide_eq_true_eq]
      exact long
    exact leads_acts hl (when_true due) own fun z k _ => ⟨kept_event own (by omega) k, stopped.ends k⟩
  case unlocks =>
    have own : Acts 3 s (lockoutEnd s) := acts_lockoutEnd locked (le_refl 3) .refl
    refine leads_acts hl (when_true (by simp [lockoutDue, locked, ended])) own fun z k _ => ?_
    have rest := lockoutEnd_acts s
    have told : (defrostUnlocked (leaveLockout s)).defrost.lockout = false := lock_evaluate rfl
    have chosen : Acts 1 (defrostUnlocked (leaveLockout s)) (lockoutEnd s) := acts_select .refl
    refine ⟨(kept_leaveLockout s).trans (kept_event rest (by omega) k),
      ((leaveLockout_off locked load).1.acts rest (by omega)).ends k, ?_⟩
    rw [settleLink_defrost]
    exact lock_acts (k.widen (by omega)) (lock_acts chosen told)

end Sys2Proof.Machine

namespace Sys2Proof.Machine

/-! ### What follows a grant's end and a valve's arrival (R30, R33, R39) -/

/-- A compressor slow enough for a moving valve lets a move begin (R50). -/
theorem letsMove_of_slow {c : Compressor} (h : c.slow) : c.letsMove = true := by
  by_contra no
  obtain ⟨turns, not_slow⟩ := (letsMove_false_iff c).1 (by simpa using no)
  rcases h with off | ⟨runs, level, step⟩
  · rw [off] at turns
    cases turns
  · refine not_slow ⟨fun starting => ?_, level, step⟩
    rw [starting] at runs
    cases runs

/-- The after-grant decision serves the best of the eligible entries (R30, R33). -/
theorem afterGrant_selects {s : State} (hg : s.arb.grant = none) (hv : s.arb.valve.isMoving = false)
    (hs : s.arb.comp.state ≠ .starting) (h : ∃ x ∈ s.arb.list, s.arb.eligible x = true) :
    ∃ x, FirstOfHighest (s.arb.list.filter s.arb.eligible) x ∧ afterGrant s = advance (formGrant s x.evap) := by
  obtain ⟨y, listed, eligible⟩ := h
  obtain ⟨x, best⟩ := bestEntry_some (l := s.arb.list.filter s.arb.eligible)
    (List.ne_nil_of_mem (List.mem_filter.2 ⟨listed, eligible⟩))
  have clear : s.arb.comp.state ≠ .lockout ∧ s.arb.valve.isStuck = false := by
    unfold Arbiter.eligible at eligible
    simp only [Bool.and_eq_true, Bool.not_eq_true', bne_iff_ne] at eligible
    exact ⟨eligible.2, eligible.1.2⟩
  have chosen : selectable s = some x := by
    unfold selectable
    rw [if_pos ⟨by rw [hg]; rfl, by rw [hv]; decide, clear.1, by rw [clear.2]; decide⟩]
    exact best
  refine ⟨x, bestEntry_first best, ?_⟩
  unfold afterGrant
  rw [if_neg (by rw [hv]; simpa using hs), if_pos (by rw [chosen]; rfl)]
  unfold select
  rw [chosen]

/-- No entry to serve: the selection finds none (R30). -/
theorem selectable_none {s : State} (h : ∀ x ∈ s.arb.list, s.arb.eligible x = false) : selectable s = none := by
  have empty : s.arb.list.filter s.arb.eligible = [] := List.filter_eq_nil_iff.2 fun x hx => by rw [h x hx]; decide
  unfold selectable
  rw [empty]
  split <;> rfl

/-- The after-grant decision without an entry to serve: a compressor that runs stops after its minimum on time, or goes on
in RUNOUT (R33, R43). -/
theorem afterGrant_unserved {s : State} (hv : s.arb.valve.isMoving = false) (unheld : s.arb.hold = false)
    (h : ∀ x ∈ s.arb.list, s.arb.eligible x = false) :
    (s.arb.comp.state.running_ = true → s.arb.timing.minOn ≤ elapsed s.uptime s.arb.comp.runStart → afterGrant s = compStop s)
      ∧ (s.arb.comp.state.running_ = true → ¬ s.arb.timing.minOn ≤ elapsed s.uptime s.arb.comp.runStart →
        afterGrant s = evalAim (if s.arb.comp.state = .running then setComp s .runout else s))
      ∧ (s.arb.comp.state.running_ = false → afterGrant s = s) := by
  have rest : afterGrant s = if s.arb.comp.state.running_ = true then
      if s.arb.timing.minOn ≤ elapsed s.uptime s.arb.comp.runStart then compStop s
      else evalAim (if s.arb.comp.state = .running then setComp s .runout else s) else s := by
    unfold afterGrant
    by_cases starting : s.arb.comp.state = .starting
    · simp [starting, CompState.running_]
    · rw [if_neg (by rw [hv]; simpa using starting), if_neg (by rw [selectable_none h]; decide)]
      simp [unheld, timeRun]
  rw [rest]
  exact ⟨fun runs long => by rw [if_pos runs, if_pos long], fun runs short => by rw [if_pos runs, if_neg short],
    fun off => if_neg (by rw [off]; decide)⟩

/-- A decision that leaves the compressor running leaves it in RUNOUT (R33). -/
theorem runout_state {s : State} (h : s.arb.comp.state.running_ = true) :
    (evalAim (if s.arb.comp.state = .running then setComp s .runout else s)).arb.comp.state = .runout := by
  rw [(still_evalAim _).1.1]
  cases hs : s.arb.comp.state with
  | running => rfl
  | runout => exact hs
  | _ => rw [hs] at h; cases h

/-- The after-grant decision without an entry to serve leaves the valve, the grant and the hold. -/
theorem afterGrant_rest {s : State} (hv : s.arb.valve.isMoving = false) (unheld : s.arb.hold = false)
    (h : ∀ x ∈ s.arb.list, s.arb.eligible x = false) : (afterGrant s).arb.valve = s.arb.valve
      ∧ (afterGrant s).arb.grant = s.arb.grant ∧ (afterGrant s).arb.hold = s.arb.hold := by
  obtain ⟨stops, goes, stays⟩ := afterGrant_unserved hv unheld h
  cases runs : s.arb.comp.state.running_ with
  | false =>
    rw [stays runs]
    exact ⟨rfl, rfl, rfl⟩
  | true =>
    by_cases long : s.arb.timing.minOn ≤ elapsed s.uptime s.arb.comp.runStart
    · rw [stops runs long]
      obtain ⟨hold, grant, valve⟩ := compStop_arb s
      exact ⟨valve, grant, hold⟩
    · rw [goes runs long]
      obtain ⟨⟨_, valve, grant, hold, _⟩, _⟩ := still_evalAim (if s.arb.comp.state = .running then setComp s .runout else s)
      rw [valve, grant, hold]
      split <;> exact ⟨rfl, rfl, rfl⟩

/-- A PREPARING grant for the other evaporator moves the valve (R39, R50). -/
theorem advance_moves {s : State} {g : Grant} {e : Evap} (hg : s.arb.grant = some g) (hp : g.phase = .preparing)
    (hv : s.arb.valve = .resting e) (other : g.evap ≠ e) (lets : s.arb.comp.letsMove = true) :
    (advance s).arb.valve = .moving g.evap .first 8 := by
  have left : (leaveRunout s).arb.grant = some g ∧ (leaveRunout s).arb.valve = .resting e
      ∧ (leaveRunout s).arb.comp.letsMove = true := by
    rw [leaveRunout_arb]
    split
    · next runout =>
      refine ⟨hg, hv, ?_⟩
      simpa [Compressor.letsMove, runout.2] using lets
    · exact ⟨hg, hv, lets⟩
  unfold advance
  generalize leaveRunout s = y at left
  obtain ⟨grant, valve, moves⟩ := left
  have apart : e ≠ g.evap := fun same => other same.symm
  have waits : tryActivate y = y := by
    unfold tryActivate
    rw [grant]
    refine if_neg fun h => ?_
    rw [valve] at h
    exact apart (Option.some.inj h.2.1)
  have begins : tryMove y = beginMove y g.evap .first := by
    have wanted : valveWanted y = some g.evap := by
      unfold valveWanted
      rw [grant]
      exact if_pos hp
    unfold tryMove
    rw [wanted, valve]
    exact if_pos ⟨apart, moves⟩
  rw [waits, begins, (still_evalAim _).1.2.1, tryStart_valve]
  rfl

/-! ### The valve (R50 to R53) -/

/-- A move confirmed at an evaporator, before what it allows (R50, R53). -/
def arrived (s : State) (e : Evap) : State := endFault (s.onArb fun a => { a with valve := .resting e }) .valveTravel .valve

theorem valveArrive_eq (s : State) (e : Evap) : valveArrive s e = afterArrival (arrived s e) := rfl

theorem arrived_eq (s : State) (e : Evap) : (arrived s e).arb = { s.arb with valve := .resting e }
    ∧ (arrived s e).ctl = s.ctl ∧ (arrived s e).budget = s.budget ∧ (arrived s e).defrost = s.defrost
    ∧ (arrived s e).uptime = s.uptime := by
  simp [arrived]

theorem afterArrival_granted {s : State} (h : s.arb.grant ≠ none) : afterArrival s = advance s :=
  if_neg fun q => h (by simpa using q.2)

/-- What follows an arrival leaves the hold as it was, while none stands. -/
theorem afterArrival_hold {s : State} (hv : s.arb.valve.isMoving = false) (unheld : s.arb.hold = false) :
    (afterArrival s).arb.hold = false := by
  by_cases decides : s.ctl.mode = .run ∧ s.arb.grant.isNone = true
  · have goes : afterArrival s = afterGrant s := if_pos decides
    have hg : s.arb.grant = none := by simpa using decides.2
    rw [goes]
    by_cases serves : ∃ x ∈ s.arb.list, s.arb.eligible x = true
    · by_cases starting : s.arb.comp.state = .starting
      · have waits : afterGrant s = s := if_pos (Or.inr starting)
        rw [waits, unheld]
      · obtain ⟨x, _, made⟩ := afterGrant_selects hg hv starting serves
        rw [made, (advance_grant _).2.1]
        exact unheld
    · have none_ : ∀ x ∈ s.arb.list, s.arb.eligible x = false := fun x hx => by
        by_contra yes
        exact serves ⟨x, hx, by simpa using yes⟩
      rw [(afterGrant_rest hv unheld none_).2.2, unheld]
  · have goes : afterArrival s = advance s := if_neg decides
    rw [goes, (advance_grant _).2.1, unheld]

/-- The end switch shows the target of a move (R50). -/
theorem confirm_runs {s : State} {e : Evap} {t : Attempt} {n : Nat} (hv : s.arb.valve = .moving e t n) :
    exec (.endSwitchConfirm (some e)) s = outcome s (valveArrive (s.onPins fun p => { p with endSwitch := some e }) e) := by
  have shown : confirmed s (some e) = some e := by
    unfold confirmed
    rw [hv]
    exact if_pos rfl
  show execEndSwitchConfirm (some e) s = _
  unfold execEndSwitchConfirm
  rw [shown]

/-- The end switch shows nothing that confirms a move (R50). -/
theorem confirm_disregards {s : State} {x : Option Evap} (h : ∀ e t n, s.arb.valve = .moving e t n → x ≠ some e) :
    exec (.endSwitchConfirm x) s = outcome s (s.onPins fun p => { p with endSwitch := x }) := by
  have shown : confirmed s x = none := by
    unfold confirmed
    cases hv : s.arb.valve with
    | moving e t n => exact if_neg (h e t n hv)
    | resting e => rfl
    | stuck n => rfl
  show execEndSwitchConfirm x s = _
  unfold execEndSwitchConfirm
  rw [shown]

/-- A travel check that has ended (R51). -/
theorem checkEnd_runs {s : State} {e : Evap} {t : Attempt} (hv : s.arb.valve = .moving e t 0) :
    exec .valveCheckEnd s = outcome s (valveMiss s e t) := by
  have due : valveCheckDue s = some (e, t) := by
    simp only [valveCheckDue, hv]
  show execValveCheckEnd s = _
  unfold execValveCheckEnd
  rw [due]

/-- The valve after a forced target is acted on at an arrival outside RUN (R181). -/
theorem advance_forces {s : State} {e : Evap} (hg : s.arb.grant = none) (hv : s.arb.valve = .resting e)
    (lets : s.arb.comp.letsMove = true) : (advance s).arb.valve =
      (if s.ctl.mode = .service ∧ s.arb.forcedValve = some (otherEvap e)
          ∧ (s.defrost.heater = .off ∨ e = .freeze ∨ s.arb.comp.state.turning = false)
        then .moving (otherEvap e) .first 8 else .resting e) := by
  have apart : e ≠ otherEvap e := by cases e <;> decide
  have clear : moveClear s (otherEvap e) = true
      ↔ (s.defrost.heater = .off ∨ e = .freeze ∨ s.arb.comp.state.turning = false) := by
    unfold moveClear heatClear
    cases e <;> simp [otherEvap]
  rw [advance_ungranted_valve hg]
  split
  · next forced =>
    obtain ⟨mode, target, free⟩ := forced
    have wanted : valveWanted s = some (otherEvap e) := by
      unfold valveWanted
      rw [hg]
      simp [mode, target, Option.filter, clear.2 free]
    unfold tryMove
    rw [wanted, hv]
    dsimp only [Valve.at]
    rw [if_pos ⟨apart, lets⟩]
    rfl
  · next not_forced =>
    cases wanted : valveWanted s with
    | none => rw [tryMove_none wanted, hv]
    | some y =>
      have same : y = e := by
        by_contra other
        refine not_forced ?_
        have target : y = otherEvap e := by cases y <;> cases e <;> simp_all [otherEvap]
        unfold valveWanted at wanted
        rw [hg] at wanted
        dsimp only at wanted
        split at wanted
        · next mode =>
          obtain ⟨forced, free⟩ := Option.filter_eq_some_iff.1 wanted
          rw [target] at forced free
          exact ⟨mode, forced, clear.1 free⟩
        · cases wanted
      rw [tryMove_there wanted (by rw [hv, same]; rfl), hv]

/-- The valve becomes STUCK: the grant dissolved, the forces ended, the fault recorded, the compressor off (R52, R180, R181). -/
theorem valveStuck_ends (s : State) : let t := valveStuck s
    t.arb.valve = .stuck 1800 ∧ t.arb.grant = none ∧ t.arb.hold = s.arb.hold ∧ t.arb.forcedLevel = none ∧ t.arb.forcedValve = none
      ∧ Recorded t .valveTravel .valve ∧ (LoadLaw s → s.arb.comp.state.turning = true → Off3 t) := by
  let x := declareFault (s.onArb fun a => { a with forcedLevel := none, forcedValve := none }) .valveTravel .valve none
  let y := (compStop x).onArb fun a => { a with valve := .stuck Config.stuckTime }
  have made : valveStuck s = dissolve y := rfl
  have xarb : x.arb = { s.arb with forcedLevel := none, forcedValve := none } := by simp [x]
  have stops : Acts 0 x (compStop x) := acts_compStop .refl
  have ends : Acts 0 y (dissolve y) := acts_dissolve .refl
  obtain ⟨hold, grant, valve⟩ := dissolve_arb y
  have level : (compStop x).arb.forcedLevel = none := forced_acts stops (by rw [xarb])
  have target : (compStop x).arb.forcedValve = none := valve_acts stops (by rw [xarb])
  have recorded : Recorded (compStop x) .valveTravel .valve := recorded_acts (declare_recorded _ _ _ _) stops (by omega)
  intro t
  have same : t = dissolve y := made
  rw [same]
  refine ⟨valve, grant, ?_, forced_acts (s := y) ends level, valve_acts (s := y) ends target,
    recorded_acts (s := y) recorded ends (by omega), fun load turning => ?_⟩
  · rw [hold]
    exact (compStop_arb x).1.trans (by rw [xarb])
  · have law : LoadLaw x := loadLaw_of_arb load (by rw [xarb]) (by simp [x])
    have off : Off3 (compStop x) := compStop_off3 law (by rw [xarb]; exact turning)
    exact Off3.acts (s := y) off ends (by omega)

section
variable {s a : State} {e : Evap} {t : Attempt} {n : Nat}

/-- Eligibility does not look at where a valve that is not STUCK stands (R29). -/
theorem eligible_arrived (moving : s.arb.valve = .moving e t n) (arb : a.arb = { s.arb with valve := .resting e }) (x : Entry) :
    a.arb.eligible x = s.arb.eligible x := by
  rw [arb]
  simp [Arbiter.eligible, Valve.isStuck, moving]

/-- An arrival in RUN without a grant serves the best of the eligible entries (R30, R33). -/
theorem arrival_serves (moving : s.arb.valve = .moving e t n) (arb : a.arb = { s.arb with valve := .resting e })
    (ctl : a.ctl = s.ctl) (hg : s.arb.grant = none) (mode : s.ctl.mode = .run) (ready : s.arb.comp.state ≠ .starting)
    (serves : ∃ x ∈ s.arb.list, s.arb.eligible x = true) : ∃ x, FirstOfHighest (s.arb.list.filter s.arb.eligible) x
      ∧ GrantFormed s s.arb.list x.evap (afterArrival a) := by
  have eligible := eligible_arrived moving arb
  have list : a.arb.list = s.arb.list := by rw [arb]
  have ungranted : a.arb.grant = none := by rw [arb]; exact hg
  have decides : afterArrival a = afterGrant a := if_pos ⟨by rw [ctl]; exact mode, by rw [ungranted]; rfl⟩
  obtain ⟨y, listed, yes⟩ := serves
  obtain ⟨x, best, made⟩ := afterGrant_selects ungranted (by rw [arb]; rfl) (by rw [arb]; exact ready)
    ⟨y, list ▸ listed, (eligible y).trans yes⟩
  have formed := (formGrant_formed a x.evap).of_eligible eligible
  rw [funext eligible, list] at best
  rw [list] at formed
  exact ⟨x, best, by rw [decides, made]; exact formed⟩

/-- An arrival in RUN with nothing to serve: the valve rests, and a compressor that runs stops or goes on in RUNOUT (R33). -/
theorem arrival_unserved (moving : s.arb.valve = .moving e t n) (arb : a.arb = { s.arb with valve := .resting e })
    (ctl : a.ctl = s.ctl) (budget : a.budget = s.budget) (uptime : a.uptime = s.uptime) (unheld : s.arb.hold = false)
    (hg : s.arb.grant = none) (mode : s.ctl.mode = .run) (none_ : ∀ x ∈ s.arb.list, s.arb.eligible x = false) :
    (afterArrival a).arb.valve = .resting e ∧ (afterArrival a).arb.grant = none
      ∧ (s.arb.comp.state.running_ = true → s.arb.timing.minOn ≤ elapsed s.uptime s.arb.comp.runStart →
        LoadLaw s → Off3 (afterArrival a))
      ∧ (s.arb.comp.state.running_ = true → ¬ s.arb.timing.minOn ≤ elapsed s.uptime s.arb.comp.runStart →
        (afterArrival a).arb.comp.state = .runout) := by
  have ungranted : a.arb.grant = none := by rw [arb]; exact hg
  have decides : afterArrival a = afterGrant a := if_pos ⟨by rw [ctl]; exact mode, by rw [ungranted]; rfl⟩
  have rests : a.arb.valve = .resting e := by rw [arb]
  have still : a.arb.valve.isMoving = false := by rw [rests]; rfl
  have free : a.arb.hold = false := by rw [arb]; exact unheld
  have ineligible : ∀ x ∈ a.arb.list, a.arb.eligible x = false := fun x hx =>
    (eligible_arrived moving arb x).trans (none_ x (by rw [arb] at hx; exact hx))
  obtain ⟨valve, grant, _⟩ := afterGrant_rest still free ineligible
  obtain ⟨stops, goes, _⟩ := afterGrant_unserved still free ineligible
  have comp : a.arb.comp = s.arb.comp ∧ a.arb.timing = s.arb.timing := by rw [arb]; exact ⟨rfl, rfl⟩
  rw [comp.1, comp.2, uptime] at stops goes
  rw [decides]
  refine ⟨valve.trans rests, grant.trans ungranted, fun runs long load => ?_, fun runs short => ?_⟩
  · rw [stops runs long]
    exact compStop_off3 (loadLaw_of_arb load comp.1 budget) (by rw [comp.1]; exact running_turning runs)
  · rw [goes runs short, ← comp.1]
    exact runout_state (by rw [comp.1]; exact runs)

end

theorem secondCheck_runs {s : State} {e : Evap} (hv : s.arb.valve = .moving e .second 0) :
    exec .valveCheckEnd s = outcome s (valveStuck s) := by
  rw [checkEnd_runs hv, valveMiss]

/-- Settles O48: one lemma for each thing that an arrival allows, `valveStuck_ends` for a second check that ends. -/
theorem valveTravels : Obligations.ValveTravels := by
  intro s hl unheld shows valve c
  refine ⟨fun x h => (confirm_disregards h).trans (tame_quiet hl rfl (Or.inr unheld)), fun e t n moving => ?arrives,
    fun e moving => (checkEnd_runs moving).trans (tame_quiet hl rfl (Or.inr unheld)), fun e moving => ?sticks,
    fun e moving => (checkEnd_runs moving).trans (tame_quiet hl rfl (Or.inr unheld)), fun stuck => ?recovers⟩
  case arrives =>
    have own : Acts 0 (shows (some e)) (valveArrive (shows (some e)) e) := acts_valveArrive (t := t) (n := n) moving .refl
    obtain ⟨arb, ctl, budget, defrost, uptime⟩ := arrived_eq (shows (some e)) e
    rw [valveArrive_eq] at own
    have runs : exec (.endSwitchConfirm (some e)) s = outcome s (afterArrival (arrived (shows (some e)) e)) := confirm_runs moving
    generalize arrived (shows (some e)) e = a at own arb ctl budget defrost uptime runs
    have rests : a.arb.valve = .resting e := by rw [arb]
    have lets : ArbLaw s.arb → a.arb.comp.letsMove = true := fun law => by
      obtain ⟨_, _, _, slow, _⟩ := law
      rw [arb]
      exact letsMove_of_slow (slow e t n moving).1
    have still_ : a.arb.valve.isMoving = false := by rw [rests]; rfl
    have free : a.arb.hold = false := by rw [arb]; exact unheld
    refine leads_tame (y := shows (some e)) hl runs rfl own fun z k still => ?_
    rw [still (afterArrival_hold still_ free)]
    refine ⟨(own.kept (by omega)).trans (kept_settle _), fun g hg here => ?there, fun g hg away prep law => ?away,
      fun hg mode ready serves => ?serves, fun hg mode none_ => ?unserved, fun hg mode law => ?forced⟩
    case there =>
      have granted : a.arb.grant = some g := by rw [arb]; exact hg
      have stays := advance_valve granted here rests
      rw [afterArrival_granted (by rw [granted]; simp)]
      refine ⟨by rw [settleLink_arb]; exact stays, ?_⟩
      unfold State.valveDrive
      rw [settleLink_arb, stays]
    case away =>
      have granted : a.arb.grant = some g := by rw [arb]; exact hg
      have moves := advance_moves granted prep rests away (lets law)
      rw [afterArrival_granted (by rw [granted]; simp)]
      refine ⟨by rw [settleLink_arb]; exact moves, ?_⟩
      unfold State.valveDrive
      rw [settleLink_arb, moves]
    case serves =>
      obtain ⟨x, best, formed⟩ := arrival_serves moving arb ctl hg mode ready serves
      exact ⟨x, best, formed.of_arb (by rw [settleLink_arb]) (by rw [settleLink_arb])⟩
    case unserved =>
      obtain ⟨valve, grant, stops, goes⟩ := arrival_unserved moving arb ctl budget uptime unheld hg mode none_
      refine ⟨by rw [settleLink_arb]; exact valve, by rw [settleLink_arb]; exact grant, fun runs => ?_⟩
      have runs : s.arb.comp.state.running_ = true := by rcases runs with h | h <;> exact h ▸ rfl
      split
      · next long => exact fun load => (stops runs long load).settle.full
      · next short => exact (by rw [settleLink_arb]; exact goes runs short)
    case forced =>
      have ungranted : a.arb.grant = none := by rw [arb]; exact hg
      have goes : afterArrival a = advance a := if_neg fun h => mode (by rw [← h.1, ctl])
      have ends := advance_forces ungranted rests (lets law)
      rw [goes, settleLink_arb, ends, ctl, defrost, arb]
  case sticks =>
    have own : Acts 1 s (valveStuck s) := acts_valveStuck (le_refl 1) .refl
    obtain ⟨stuck, grant, hold, level, target, recorded, off⟩ := valveStuck_ends s
    refine leads_acts hl (secondCheck_runs moving) own fun z k still => ?_
    rw [still (hold.trans unheld)]
    refine ⟨(own.kept (by omega)).trans (kept_settle _), by rw [settleLink_arb]; exact stuck, ?_, recorded_settle recorded,
      by rw [settleLink_arb]; exact grant, by rw [settleLink_arb]; exact level, by rw [settleLink_arb]; exact target,
      fun load turning => (off load turning).settle.full⟩
    unfold State.valveDrive
    rw [settleLink_arb, stuck]
  case recovers =>
    have tries : valveRecover s = valve (.moving .freeze .recovery 8) := if_pos (by rw [stuck]; rfl)
    exact (when_true (by simp [stuckDue, stuck])).trans ((congrArg (outcome s) tries).trans (tame_quiet hl rfl (Or.inr unheld)))

end Sys2Proof.Machine

namespace Sys2Proof.Machine

/-! ### Credit (R108, R109, R123) -/

theorem addCredit_idle {s : State} (n : Nat) (h : s.defrost.phase = .idle) :
    addCredit s n = dueTest (s.onDefrost fun d => { d with credit := d.credit + n }) := if_pos h

/-- An addition that leaves the credit below its target (R108). -/
theorem addCredit_below {s : State} {n : Nat} (h : s.defrost.phase = .idle) (low : s.defrost.credit + n < s.defrost.current * 3600) :
    addCredit s n = s.onDefrost fun d => { d with credit := d.credit + n } := by
  rw [addCredit_idle n h]
  exact dueTest_below low

theorem addCredit_not {s : State} (n : Nat) (h : s.defrost.phase ≠ .idle) : addCredit s n = s := if_neg h

/-- An addition that brings the credit to its target, to the end of the command (R109). -/
theorem addCredit_full {s z : State} {n : Nat} (h : s.defrost.phase = .idle) (full : s.defrost.current * 3600 ≤ s.defrost.credit + n)
    (k : Acts 0 (addCredit s n) z) : let t := settleLink z
    Kept s t ∧ t.defrost.credit = s.defrost.credit + n ∧ t.defrost.deferral = 0
      ∧ t.defrost.phase = (if s.defrost.mode = .run ∧ s.defrost.freezerClass = .normal ∧ s.defrost.freezerDoor = .closed
          ∧ s.defrost.lockout = false then .prechill else .due) := by
  have own : Acts 2 s (addCredit s n) := acts_addCredit n (le_refl 2) .refl
  obtain ⟨credit, deferral, phase⟩ := dueTest_full (y := s.onDefrost fun d => { d with credit := d.credit + n }) h full
  rw [← addCredit_idle n h] at credit deferral phase
  have core := k.below2 (by omega)
  intro t
  have same : t.defrost = z.defrost := settleLink_defrost z
  rw [same]
  exact ⟨kept_event own (by omega) k, (congrArg Defrost.credit core :).trans credit,
    (congrArg Defrost.deferral core :).trans deferral, (congrArg Defrost.phase core :).trans phase⟩

theorem runSecond_adds {s : State} (h : ¬ (s.defrost.phase = .recover ∧ s.defrost.recoveryLimit = none)) :
    runSecond s = addCredit s 1 := if_neg (by simpa using h)

/-- A door's open seconds count in the credit by its weight (R91, R108). -/
theorem deliverSeconds_adds {s : State} {d : DoorId} {w : Nat} (h : (d = .drawer ∧ w = 4) ∨ (d = .freezer ∧ w = 8)) :
    deliverSeconds s d = addCredit (s.onDoor d fun r => { r with delivered := r.delivered + 60 }) (w * 60) := by
  rcases h with ⟨rfl, rfl⟩ | ⟨rfl, rfl⟩ <;> rfl

theorem deliveryDue_of {s : State} {d : DoorId} {w : Nat} (h : (d = .drawer ∧ w = 4) ∨ (d = .freezer ∧ w = 8))
    (opened : (s.doors.get d).state ≠ .closed) (long : (s.doors.get d).delivered + 60 ≤ (s.doors.get d).openFor s.uptime) :
    deliveryDue s d = true := by
  have counted : doorCounted d = true := by rcases h with ⟨rfl, _⟩ | ⟨rfl, _⟩ <;> rfl
  have isOpen : (s.doors.get d).state.isOpen = true := by
    cases state : (s.doors.get d).state with
    | closed => exact absurd state opened
    | _ => rfl
  unfold deliveryDue
  simp only [counted, isOpen, Bool.true_and, decide_eq_true_eq]
  exact long

/-- Settles O49: `addCredit_below`, `addCredit_full` and `addCredit_not` for both sources of credit. -/
theorem creditGrows : Obligations.CreditGrows := by
  intro s hl target full
  refine ⟨fun runs rest => ?seconds, fun d w door opened long => ?deliveries⟩
  case seconds =>
    have due : runSecondDue s = true := by
      unfold runSecondDue
      rw [rest]
      rcases runs with h | h <;> rw [h] <;> rfl
    have event : exec .runSecond s = outcome s (runSecond s) := when_true due
    have apart : s.defrost.phase = .idle → ¬ (s.defrost.phase = .recover ∧ s.defrost.recoveryLimit = none) := fun idle h => by
      rw [idle] at h
      cases h.1
    refine ⟨fun idle low => ?_, fun idle high => ?_, fun recover none_ => ?_, fun busy limited => ?_⟩
    · rw [event, runSecond_adds (apart idle), addCredit_below idle low]
      exact tame_quiet hl rfl (Or.inl (moved_arb rfl))
    · refine leads_acts hl (event.trans (congrArg _ (runSecond_adds (apart idle)))) (acts_addCredit 1 (le_refl 2) .refl)
        fun z k _ => addCredit_full idle high k
    · have starts : runSecond s = s.onDefrost fun d => { d with recoveryLimit := some (s.uptime + 240) } :=
        if_pos ⟨recover, by rw [none_]; rfl⟩
      rw [event, starts]
      exact tame_quiet hl rfl (Or.inl (moved_arb rfl))
    · rw [event, runSecond_adds fun h => limited h.1 h.2, addCredit_not 1 busy]
      exact idle_event hl
  case deliveries =>
    intro u
    have event : exec (.openSecondsDelivery d) s = outcome s (addCredit u (w * 60)) :=
      (when_true (deliveryDue_of door opened long)).trans (congrArg _ (deliverSeconds_adds door))
    have own : Acts 2 u (addCredit u (w * 60)) := acts_addCredit _ (le_refl 2) .refl
    refine ⟨fun idle low => ?_, fun idle high => ?_, fun busy => ?_⟩
    · rw [event, addCredit_below (s := u) idle low]
      exact tame_quiet hl rfl (Or.inl (moved_arb rfl))
    · exact leads_tame (y := u) hl event rfl own fun z k _ => addCredit_full (s := u) idle high k
    · rw [event, addCredit_not (s := u) _ busy]
      exact tame_quiet hl rfl (Or.inl (moved_arb rfl))

end Sys2Proof.Machine

namespace Sys2Proof.Machine

/-! ### The entry to HEAT (R111, R113 to R116) -/

/-- What the entry to HEAT leaves to the end of the command, whatever the heater (R115). -/
theorem heatEntry_ends {s y z : State} (pre : Acts 0 s y)
    (hp : (s.defrost.phase = .due ∧ s.defrost.mode = .run) ∨ s.defrost.phase = .prechill) (k : Acts 0 (heatEntry y) z) :
    let t := settleLink z
    Kept s t ∧ t.defrost.phase = .heat ∧ t.defrost.credit = 0 ∧ t.defrost.hold = true ∧ t.defrost.heatClock = some 0
      ∧ t.defrost.sampleTimer = none ∧ t.defrost.probeLost = s.defrost.probeFaulted ∧ t.arb.hold = true ∧ t.air.permit = false := by
  obtain ⟨phase, _, mode⟩ := pre.phase (by omega)
  have own : Acts 2 s (heatEntry y) := acts_heatEntry (by rw [phase, mode]; exact hp) (le_refl 2) (pre.widen (by omega))
  have core := (k.below2 (by omega)).trans (heatEntry_defrost y)
  have lost : y.defrost.probeFaulted = s.defrost.probeFaulted := (congrArg Defrost.probeFaulted (pre.below2 (by omega)) :)
  obtain ⟨holds, permit⟩ := heatEntry_holds y
  obtain ⟨_, arb, _, air⟩ := k.below1 (by omega)
  intro t
  have defrost : t.defrost = z.defrost := settleLink_defrost z
  have endArb : t.arb = z.arb := settleLink_arb z
  have endAir : t.air = z.air := settleLink_air z
  rw [defrost, endArb, endAir]
  exact ⟨kept_event own (by omega) k, (congrArg Defrost.phase core :), (congrArg Defrost.credit core :), (congrArg Defrost.hold core :),
    (congrArg Defrost.heatClock core :), (congrArg Defrost.sampleTimer core :), (congrArg Defrost.probeLost core :).trans lost,
    (congrArg (fun c => c.2.2.2.2.1) arb :).trans holds, (congrArg (fun c => c.2.1) air :).trans permit⟩

/-- A heater switched on stands so to the end of the command. -/
theorem Rises.output {x z : State} (h : Rises x z) (on : x.defrost.heater = .on) :
    (settleLink z).defrost.heater = .on ∧ (settleLink z).heaterOutput = true := by
  have stands := h.on on
  unfold State.heaterOutput
  rw [settleLink_defrost, stands]
  exact ⟨rfl, rfl⟩

/-- The entry to HEAT with FREEZE not fed, to the end of the command (R55, R116, R138). -/
theorem heatEntry_unfed_ends {s y z : State} (made : z = recheck s (heatEntry y)) (unheld : y.arb.hold = false)
    (off : y.defrost.heater = .off) (unfed : y.arb.feedsFreeze = false) : let t := settleLink z
    t.defrost.use = some .defrost ∧ t.defrost.heater ≠ .off
      ∧ (y.budget.heater = .none_ → y.budget.weighs + 10 ≤ y.budget.units → t.defrost.heater = .on ∧ t.heaterOutput = true) := by
  obtain ⟨claimed, use, granted⟩ := heatEntry_unfed unheld off unfed
  have rises : Rises (heatEntry y) z := made ▸ rises_recheck s _
  obtain ⟨stays, for_⟩ := rises.use ⟨claimed, use⟩
  intro t
  have defrost : t.defrost = z.defrost := settleLink_defrost z
  exact ⟨by rw [defrost]; exact for_, by rw [defrost]; exact stays, fun none_ fits => rises.output (granted none_ fits)⟩

/-- A heater ON for a defrost and the compressor stopped stand to the end of the command. -/
theorem heated_ends {s x z : State} (made : z = recheck s x) (k : Acts 0 x z) (on : x.defrost.heater = .on)
    (use : x.defrost.use = some .defrost) (off : x.arb.comp.state = .offLocked) : let t := settleLink z
    t.defrost.use = some .defrost ∧ t.defrost.heater = .on ∧ t.heaterOutput = true ∧ t.arb.comp.state = .offLocked := by
  have rises : Rises x z := made ▸ rises_recheck s _
  obtain ⟨stands, output⟩ := rises.output on
  have for_ := (rises.use ⟨by rw [on]; decide, use⟩).2
  have down := (k.staysDown.1 off).1
  intro t
  exact ⟨by rw [← for_]; exact congrArg Defrost.use (settleLink_defrost z), stands, output,
    (congrArg (fun a => a.comp.state) (settleLink_arb z)).trans down⟩

/-- A grant for FRESH does not hold DEFROST (section 2.2). -/
theorem ArbLaw.fresh_apart {a : Arbiter} (h : ArbLaw a) {g : Grant} (hg : a.grant = some g) (he : g.evap = .fresh) :
    g.has .defrost = false := by
  obtain ⟨_, _, members, _⟩ := h
  have apart : ∀ m ∈ g.selected ++ g.holders, m.requester ≠ .defrost := fun m hm here => by
    have needs := members g hg m hm
    rw [here, he] at needs
    cases needs
  unfold Grant.has
  simp only [Bool.or_eq_false_iff, List.any_eq_false, beq_iff_eq]
  exact ⟨fun m hm => apart m (List.mem_append_left _ hm), fun m hm => apart m (List.mem_append_right _ hm)⟩

/-- The withdrawal of DEFROST with the compressor off, or a grant for FRESH, feeds FREEZE no more than before and leaves the load
(R28, R33). -/
theorem defrostWithdraw_calm {s : State} (law : ArbLaw s.arb) (unfed : s.arb.feedsFreeze = false)
    (calm : (s.arb.comp.state = .offLocked ∨ s.arb.comp.state = .lockout) ∨ ∃ g ∈ s.arb.grant, g.evap = .fresh) :
    (defrostWithdraw s).budget = s.budget ∧ (defrostWithdraw s).arb.feedsFreeze = false := by
  have pre : Acts 0 s (defrostWithdraw s) := acts_defrostWithdraw .refl
  rcases calm with down | ⟨g, hg, fresh⟩
  · have off : (defrostWithdraw s).arb.comp.state.turning = false := by
      obtain ⟨locked, out⟩ := pre.staysDown
      rcases down with h | h
      · rw [(locked h).1]
        rfl
      · rw [((out.resolve_left (by omega)).1 h).1]
        rfl
    exact ⟨defrostWithdraw_down down, by unfold Arbiter.feedsFreeze; rw [off]; rfl⟩
  · obtain ⟨budget, arb⟩ := defrostWithdraw_apart (s := s) fun k hk => by
      rw [Option.mem_def] at hg hk
      rw [hg] at hk
      cases hk
      exact law.fresh_apart hg fresh
    exact ⟨budget, by rw [arb]; exact unfed⟩

/-- The entry to HEAT from PRECHILL with FREEZE fed and FRESH not asked for: the compressor stops, the heater is ON (R28, R55). -/
theorem heatEntry_withdrawn {s : State} (heater : HeaterLaw s) (law : ArbLaw s.arb) (load : LoadLaw s)
    (phase : s.defrost.phase = .prechill) (fed : s.arb.feedsFreeze = true) (granted : ∀ g ∈ s.arb.grant, g.evap ≠ .fresh)
    (waits : ∀ e ∈ s.arb.list, e.evap ≠ .fresh) : let x := heatEntry (defrostWithdraw s)
    x.defrost.heater = .on ∧ x.defrost.use = some .defrost ∧ x.arb.comp.state = .offLocked := by
  have pre : Acts 0 s (defrostWithdraw s) := acts_defrostWithdraw .refl
  have still : (defrostWithdraw s).defrost.phase = .prechill := (pre.phase (by omega)).1.trans phase
  obtain ⟨unheld, off, none_⟩ := (pre.heaterLaw (by omega) law heater).before (Or.inr still)
  rcases defrostWithdraw_fed fed granted waits with ⟨feeds, noGrant, noEntry⟩ | ⟨v, stopped, budget, turning⟩
  · exact heatEntry_fed (pre.loadLaw load) unheld off none_ feeds noGrant noEntry
  · have before : v.budget.heater = .none_ := by
      rw [budget]
      exact (heater.before (Or.inr phase)).2.2
    obtain ⟨down, level, free, _⟩ := compStop_free turning before
    have units := (pre.loadLaw load).units
    rw [← stopped] at down level free
    have light : (defrostWithdraw s).budget.weighs + 10 ≤ (defrostWithdraw s).budget.units := by
      unfold Budget.weighs
      rw [level, free]
      simp only [if_true, reduceCtorEq, if_false]
      omega
    obtain ⟨_, use, granted⟩ := heatEntry_unfed unheld off (by unfold Arbiter.feedsFreeze; rw [down]; rfl)
    have enters : Acts 2 (defrostWithdraw s) (heatEntry (defrostWithdraw s)) := acts_heatEntry (Or.inr still) (le_refl 2) .refl
    exact ⟨granted none_ light, use, (enters.staysDown.1 down).1⟩

theorem feedsFreeze_iff (a : Arbiter) : a.feedsFreeze = true ↔ a.comp.state.turning = true ∧ a.valve.toward .freeze = true := by
  unfold Arbiter.feedsFreeze
  exact Bool.and_eq_true_iff

/-- A time that lies less than 2 to the 31 seconds back is reached (log 9). -/
theorem reached_of {now x : Time} (h : (now - x).toNat < 2 ^ 31) : reached now x = true := decide_eq_true h

/-- Settles O50: `heatEntry_ends` in every case, `heatEntry_unfed_ends` with FREEZE not fed, `heatEntry_fed` and
`heatEntry_withdrawn` with FREEZE fed. -/
theorem heatBegins : Obligations.HeatBegins := by
  intro s hl a fed off heats calm
  have unfed_ : ¬ fed → a.feedsFreeze = false := fun h => by
    by_contra yes
    exact h ((feedsFreeze_iff a).1 (by simpa using yes))
  have prechill : ∀ c, s.defrost.phase = .prechill → exec c s = outcome s (heatEntry (defrostWithdraw s)) → Leads c s (heats calm) := by
    intro c phase runs
    have pre : Acts 0 s (defrostWithdraw s) := acts_defrostWithdraw .refl
    have still : (defrostWithdraw s).defrost.phase = .prechill := (pre.phase (by omega)).1.trans phase
    have own : Acts 2 s (heatEntry (defrostWithdraw s)) := acts_heatEntry (Or.inr still) (le_refl 2) (pre.widen (by omega))
    refine leads_checked hl runs rfl own fun z made k => ?_
    obtain ⟨kept, heat, credit, hold, clock, timer, lost, held, permit⟩ := heatEntry_ends pre (Or.inr phase) k
    refine ⟨kept, heat, credit, hold, clock, timer, lost, held, permit, fun heater law quiet unfed => ?_,
      fun heater law load feeds granted waits => ?_⟩
    · obtain ⟨unheld, cold, _⟩ := (pre.heaterLaw (by omega) law heater).before (Or.inr still)
      obtain ⟨budget, unfed⟩ := defrostWithdraw_calm law (unfed_ unfed) quiet
      obtain ⟨use, claimed, granted⟩ := heatEntry_unfed_ends made unheld cold unfed
      rw [budget] at granted
      exact ⟨use, claimed, granted (heater.before (Or.inr phase)).2.2⟩
    · obtain ⟨on, use, down⟩ := heatEntry_withdrawn heater law load phase ((feedsFreeze_iff a).2 feeds) granted waits
      exact heated_ends made k on use down
  refine ⟨fun phase mode long => ?_, fun phase long => prechill _ phase (when_true ?_), fun x phase limit passed =>
    prechill _ phase (when_true ?_)⟩
  · have own : Acts 2 s (heatEntry s) := acts_heatEntry (Or.inl ⟨phase, mode⟩) (le_refl 2) .refl
    have due : deferralDue s = true := by
      unfold deferralDue
      simp only [phase, mode, beq_self_eq_true, Bool.true_and, decide_eq_true_eq]
      exact long
    refine leads_checked hl (when_true due) rfl own fun z made k => ?_
    obtain ⟨kept, heat, credit, hold, clock, timer, lost, held, permit⟩ := heatEntry_ends .refl (Or.inl ⟨phase, mode⟩) k
    refine ⟨kept, heat, credit, hold, clock, timer, lost, held, permit, fun heater law _ unfed => ?_,
      fun heater law load feeds granted waits => ?_⟩
    · obtain ⟨unheld, cold, none_⟩ := heater.before (Or.inl ⟨phase, mode⟩)
      obtain ⟨use, claimed, granted⟩ := heatEntry_unfed_ends made unheld cold (unfed_ unfed)
      exact ⟨use, claimed, granted none_⟩
    · obtain ⟨unheld, cold, none_⟩ := heater.before (Or.inl ⟨phase, mode⟩)
      obtain ⟨on, use, down⟩ := heatEntry_fed load unheld cold none_ ((feedsFreeze_iff a).2 feeds) granted waits
      exact heated_ends made k on use down
  · unfold prechillDue
    simp only [phase, beq_self_eq_true, Bool.true_and, decide_eq_true_eq]
    exact long
  · unfold waitLimitDue
    simp only [phase, limit, beq_self_eq_true, Bool.true_and, Option.any_some]
    exact reached_of passed

end Sys2Proof.Machine

namespace Sys2Proof.Machine

/-! ### The end of HEAT, DRIP and RECOVER (R118, R120 to R124) -/

/-- A DEFROST entry changes the scheduler alone (R69). -/
theorem queueDefrost_eq (s : State) : queueDefrost s = { s with sched := (queueDefrost s).sched } := by
  unfold queueDefrost startNext
  split <;> rfl

/-- The end of HEAT: the record is that of `endHeat`, of a heater given up (R120). -/
theorem heatEnd_defrost (s : State) (c : HeatCause) : ∃ d : Defrost, (heatEnd s c).defrost = d.endHeat c s.uptime
    ∧ d.core = s.defrost.core ∧ d.heater = .off := by
  refine ⟨(heaterOff s).defrost, ?_, (acts_heaterOff (w := 0) .refl).below2 (by omega), (heaterOff_off s).1⟩
  unfold heatEnd postDefrost
  rw [postNotice_defrost]
  rfl

/-- The end of HEAT brings no feeding check (R55). -/
theorem heatEnd_unmoved (s : State) (c : HeatCause) : feedingMoved s (heatEnd s c) = false := by
  obtain ⟨state, valve, grant, _⟩ := still_heaterOff s
  have arb : (heatEnd s c).arb = (heaterOff s).arb := by
    unfold heatEnd postDefrost
    rw [postNotice_arb]
    rfl
  unfold feedingMoved
  rw [arb, state, valve, grant]
  simp

/-- The next interval by cause and duration (R121). -/
theorem endHeat_next (d : Defrost) (c : HeatCause) (now : Time) {n : Nat} (h : d.heatClock = some n) :
    (d.endHeat c now).next = nextInterval c n d.current d.next := by
  unfold Defrost.endHeat
  rw [h]
  rfl

/-- The interval table (R121). -/
theorem interval_table (d : Defrost) (c : HeatCause) (now : Time) (n : Nat) (h : d.heatClock = some n) :
    (d.endHeat c now).lastDuration = some n ∧ (d.endHeat c now).current = d.current
    ∧ (c = .abort → (d.endHeat c now).next = d.next)
    ∧ (c = .probe → n < 720 → (d.endHeat c now).next = min (d.current + 4) 96)
    ∧ (c = .time → (d.endHeat c now).next = max (d.current - 4) 4)
    ∧ (c = .probe ∨ c = .overtemp → 1500 < n → (d.endHeat c now).next = max (d.current - 4) 4)
    ∧ (c = .probe ∨ c = .overtemp → 720 ≤ n → n ≤ 1500 → (d.endHeat c now).next = d.current)
    ∧ (c = .overtemp → n < 720 → (d.endHeat c now).next = d.current) := by
  have duration : (d.endHeat c now).lastDuration = some n := by
    unfold Defrost.endHeat
    rw [h]
    rfl
  rw [endHeat_next d c now h]
  refine ⟨duration, rfl, ?_, ?_, ?_, ?_, ?_, ?_⟩
  · rintro rfl
    rfl
  · rintro rfl short
    exact if_pos short
  · rintro rfl
    rfl
  · rintro (rfl | rfl) long
    · exact (if_neg (by omega)).trans (if_pos long)
    · exact if_pos long
  · rintro (rfl | rfl) least most
    · exact (if_neg (by omega)).trans (if_neg (by omega))
    · exact if_neg (by omega)
  · rintro rfl short
    exact if_neg (by omega)

/-- The heat clock's limit is declared, and ended at once (R120, R156). -/
def timedOut (s : State) : State := endFault (declareFault s .defrostTimeout .heater none) .defrostTimeout .heater

theorem timedOut_acts (s : State) : Acts 0 s (timedOut s) := acts_endFault _ _ (acts_declareFault _ _ _ .refl)

theorem timedOut_recorded (s : State) : Recorded (timedOut s) .defrostTimeout .heater :=
  recorded_acts (declare_recorded s .defrostTimeout .heater none)
    (acts_endFault (w := 0) .defrostTimeout .heater .refl) (by omega)

/-- Settles O51: `heatEnd_defrost` for the heat clock's limit, `interval_table` for the next interval. -/
theorem heatEndsInDripAndRecovery : Obligations.HeatEndsInDripAndRecovery := by
  refine ⟨?_, interval_table⟩
  intro s hl passed
  refine ⟨fun x phase timer past => ?sample, fun n phase clock long => ?limit, fun x phase timer past => ?drip,
    fun x phase limit past => ?recover⟩
  case sample =>
    let y := s.onDefrost fun d => { d with sampleTimer := none }
    have due : sampleDue s = true := by
      unfold sampleDue
      simp only [phase, timer, beq_self_eq_true, Bool.true_and, Option.any_some]
      exact reached_of past
    have only := queueDefrost_eq y
    have arb : (queueDefrost y).arb = s.arb := (congrArg State.arb only :)
    have link : (queueDefrost y).link = s.link := (congrArg State.link only :)
    obtain ⟨ch, queue⟩ := queueDefrost_sched y
    exact ⟨queueDefrost y, (when_true due).trans (tame_quiet hl link (Or.inl (moved_arb arb))), only, ch, queue⟩
  case limit =>
    have pre := timedOut_acts s
    have same : (timedOut s).defrost = s.defrost ∧ (timedOut s).uptime = s.uptime ∧ (timedOut s).arb = s.arb := by simp [timedOut]
    obtain ⟨defrost, uptime, arb⟩ := same
    have enters : Acts 2 (timedOut s) (heatEnd (timedOut s) .time) := acts_heatEnd .time (by rw [defrost]; exact phase) (le_refl 2) .refl
    have due : heatDue s = true := by
      unfold heatDue
      simp only [phase, clock, beq_self_eq_true, Bool.true_and, Option.any_some, decide_eq_true_eq]
      exact long
    refine leads_checked hl (when_true due) rfl ((pre.widen (by omega)).trans enters) fun z made k => ?_
    have still : z = heatEnd (timedOut s) .time := made.trans (recheck_still (Or.inl (by
      have unmoved := heatEnd_unmoved (timedOut s) .time
      unfold feedingMoved at unmoved ⊢
      rw [← arb]
      exact unmoved)))
    obtain ⟨d, ended, core, off⟩ := heatEnd_defrost (timedOut s) .time
    rw [defrost] at core
    rw [uptime] at ended
    have clocked : d.heatClock = some n := (congrArg Defrost.heatClock core :).trans clock
    have current : d.current = s.defrost.current := (congrArg Defrost.current core :)
    obtain ⟨duration, _, _, _, next, _⟩ := interval_table d .time s.uptime n clocked
    have final : (settleLink z).defrost = d.endHeat .time s.uptime := by rw [settleLink_defrost, still, ended]
    refine ⟨(pre.kept (by omega)).trans (kept_event enters (by omega) k),
      recorded_settle (recorded_acts (timedOut_recorded s) (enters.trans (k.widen (by omega))) (by omega)), ?_⟩
    unfold State.heaterOutput
    rw [final]
    have cold : (d.endHeat .time s.uptime).heater = .off := off
    exact ⟨rfl, cold, by rw [cold]; rfl, rfl, duration, rfl, by rw [next rfl, current], rfl, rfl⟩
  case drip =>
    have due : dripDue s = true := by
      unfold dripDue
      simp only [phase, timer, beq_self_eq_true, Bool.true_and, Option.any_some]
      exact reached_of past
    have own : Acts 2 s (dripEnd s) := acts_dripEnd phase (le_refl 2) .refl
    let t := holdRelease (s.onDefrost fun d => { d with hold := false })
    have core : t.defrost.core = ({ s.defrost with hold := false } : Defrost).core := holdRelease_core _
    have ended : (dripEnd s).defrost = { t.defrost with phase := .recover, dripTimer := none } ∧ (dripEnd s).arb = t.arb := by
      simp [dripEnd, postDefrost, defrostBounds, setBounds, t]
    have released : (dripEnd s).arb.hold = false := by
      rw [ended.2]
      exact holdRelease_hold _
    refine leads_acts hl (when_true due) own fun z k still => ?_
    rw [still released]
    refine ⟨(own.kept (by omega)).trans (kept_settle _), ?_⟩
    rw [settleLink_defrost, settleLink_arb, ended.1]
    exact ⟨rfl, (congrArg Defrost.hold core :), released, rfl⟩
  case recover =>
    have due : recoverDue s = true := by
      unfold recoverDue
      simp only [phase, limit, beq_self_eq_true, Bool.true_and, Option.any_some]
      exact reached_of past
    have own : Acts 2 s (recoverEnd s) := acts_recoverEnd phase (le_refl 2) .refl
    obtain ⟨rests, current, none_, credit, permit⟩ := recoverEnd_leaves s
    refine leads_acts hl (when_true due) own fun z k _ => ?_
    have core := k.below2 (by omega)
    obtain ⟨_, _, _, air⟩ := k.below1 (by omega)
    refine ⟨kept_event own (by omega) k, ?_⟩
    rw [settleLink_defrost, settleLink_air]
    exact ⟨(congrArg Defrost.phase core :).trans rests, (congrArg Defrost.current core :).trans current,
      (congrArg Defrost.recoveryLimit core :).trans none_, (congrArg Defrost.credit core :).trans credit,
      (congrArg (fun c => c.2.1) air :).trans permit⟩

end Sys2Proof.Machine

namespace Sys2Proof.Machine

/-! ### What a completion records (R77, R79, R82, R83) -/

theorem bump_full (n : Nat) : bump n = 3 ↔ 3 ≤ n + 1 := by
  unfold bump
  omega

/-- The record of a completion with a value (R79, R83). -/
theorem record_value {r : Channel} {code : BitVec 12} {v : Temp} {b : Band} (h : (r.reading code).value = some (v, b)) (src : Source)
    (now : Time) : r.record src code now =
      { r with lastRaw := some code, sensor := some (classify code), lastSource := some src, lastTime := some now
               lastValue := some v, band := some b, substituted := r.substitute.isSome, bad := 0, good := bump r.good
               faulted := if bump r.good = 3 then false else r.faulted } := by
  simp only [Channel.record, h]

/-- The record of a completion without one (R79, R82). -/
theorem record_none {r : Channel} {code : BitVec 12} (h : (r.reading code).value = none) (src : Source) (now : Time) :
    r.record src code now =
      { r with lastRaw := some code, sensor := some (classify code), lastSource := some src, lastTime := some now
               good := 0, bad := bump r.bad, faulted := if bump r.bad = 3 then true else r.faulted } := by
  simp only [Channel.record, h]

/-- A substitute value stands for the reading (R77). -/
theorem reading_substitute {r : Channel} {x : Temp} (code : BitVec 12) (h : r.substitute = some x) :
    (r.reading code).value = some (x, bandOf x r.low r.high) := by
  simp only [Channel.reading, h]

/-- Settles O54: `record_value` and `record_none`. -/
theorem resultsAreRecorded : Obligations.ResultsAreRecorded := by
  intro r src code now q
  have seen : q.lastRaw = some code ∧ q.lastSource = some src ∧ q.lastTime = some now ∧ q.sensor = some (classify code) := by
    cases h : (r.reading code).value with
    | none =>
      have same : q = _ := record_none h src now
      rw [same]
      exact ⟨rfl, rfl, rfl, rfl⟩
    | some p =>
      have same : q = _ := record_value (v := p.1) (b := p.2) h src now
      rw [same]
      exact ⟨rfl, rfl, rfl, rfl⟩
  obtain ⟨raw, source, time, sensor⟩ := seen
  refine ⟨raw, source, time, sensor, fun x sub => ?_, fun v b h => ?_, fun h => ?_⟩
  · have same : q = _ := record_value (reading_substitute code sub) src now
    rw [same, sub]
    exact ⟨rfl, rfl, rfl⟩
  · have same : q = _ := record_value h src now
    rw [same]
    refine ⟨rfl, rfl, rfl, rfl, rfl, ?_⟩
    by_cases last : 3 ≤ r.good + 1
    · rw [if_pos ((bump_full _).2 last), decide_eq_false (by omega), Bool.and_false]
    · rw [if_neg (fun q => last ((bump_full _).1 q)), decide_eq_true (by omega), Bool.and_true]
  · have same : q = _ := record_none h src now
    rw [same]
    refine ⟨rfl, rfl, rfl, rfl, rfl, ?_⟩
    by_cases last : 3 ≤ r.bad + 1
    · rw [if_pos ((bump_full _).2 last), decide_eq_true last, Bool.or_true]
    · rw [if_neg (fun q => last ((bump_full _).1 q)), decide_eq_false last, Bool.or_false]

end Sys2Proof.Machine

namespace Sys2Proof.Machine

/-! ### The completion of a conversion (R64, R66, R67, R72, R79) -/

/-- The state of a completion before the watcher is told: the request consumed, the result recorded (R66, R79). -/
def recorded (s : State) (v : Conversion) (code : BitVec 12) : State :=
  (s.onSched fun k => k.consume v).onChannel v.chan fun r => r.record v.source code s.uptime

theorem recorded_handed (s : State) (v : Conversion) (code : BitVec 12) : Acts 2 (recorded s v code) (handed s v code) :=
  acts_handed _ _ _ (le_refl 2) .refl

theorem recorded_same (s : State) (v : Conversion) (code : BitVec 12) : (recorded s v code).sched.ch.get v.chan =
    ((s.sched.ch.get v.chan).consume v.source).record v.source code s.uptime := by
  simp [recorded, Scheduler.consume]

theorem recorded_other (s : State) (v : Conversion) (code : BitVec 12) {c : Chan} (h : c ≠ v.chan) :
    (recorded s v code).sched.ch.get c = s.sched.ch.get c := by
  simp only [recorded, State.onChannel_sched, State.onSched_sched, Scheduler.consume]
  rw [Channels.get_set_ne _ _ h, Channels.get_set_ne _ _ h]

/-- A record leaves the flags (R79). -/
theorem record_flags (r : Channel) (src : Source) (code : BitVec 12) (now : Time) :
    (r.record src code now).scanFlag = r.scanFlag ∧ (r.record src code now).injectFlag = r.injectFlag := by
  cases h : (r.reading code).value with
  | none => rw [record_none h]; exact ⟨rfl, rfl⟩
  | some p => rw [record_value (v := p.1) (b := p.2) h]; exact ⟨rfl, rfl⟩

/-- A completion consumes its own flag, with a JOINT channel both (R66). -/
theorem consume_flags (r : Channel) (src : Source) :
    (r.consume src).scanFlag = (r.scanFlag && r.policy == .single && src != .scan)
      ∧ (r.consume src).injectFlag = (r.injectFlag && r.policy == .single && src != .inject) := by
  unfold Channel.consume
  cases r.policy
  · cases src <;> simp
  · simp

/-- The record of each channel after a completion (R66, R79). -/
theorem handed_channels (s : State) (v : Conversion) (code : BitVec 12) : let old := s.sched.ch.get v.chan
    let new := (handed s v code).sched.ch.get v.chan
    new.result = (old.record v.source code s.uptime).result
      ∧ (∀ c, c ≠ v.chan → ((handed s v code).sched.ch.get c).result = (s.sched.ch.get c).result
          ∧ ((handed s v code).sched.ch.get c).scanFlag = (s.sched.ch.get c).scanFlag
          ∧ ((handed s v code).sched.ch.get c).injectFlag = (s.sched.ch.get c).injectFlag)
      ∧ new.scanFlag = (old.scanFlag && old.policy == .single && v.source != .scan)
      ∧ new.injectFlag = (old.injectFlag && old.policy == .single && v.source != .inject) := by
  have results := (recorded_handed s v code).results (by omega)
  obtain ⟨_, _, _, flags⟩ := (complete_sched s v code).2
  have flags : ∀ c, ((handed s v code).sched.ch.get c).scanFlag = ((recorded s v code).sched.ch.get c).scanFlag
      ∧ ((handed s v code).sched.ch.get c).injectFlag = ((recorded s v code).sched.ch.get c).injectFlag := flags
  intro old new
  obtain ⟨scan, inject_⟩ := flags v.chan
  obtain ⟨kept, keeps⟩ := record_flags (old.consume v.source) v.source code s.uptime
  obtain ⟨spends, spent⟩ := consume_flags old v.source
  rw [recorded_same] at scan inject_
  refine ⟨?_, fun c other => ?_, scan.trans (kept.trans spends), inject_.trans (keeps.trans spent)⟩
  · exact (results v.chan).trans ((congrArg Channel.result (recorded_same s v code)).trans (consume_record _ _ _ _ _))
  · obtain ⟨first, second⟩ := flags c
    have result := results c
    rw [recorded_other s v code other] at first second result
    exact ⟨result, first, second⟩

/-- The queue and the tags after a completion (R66, R69). -/
theorem handed_queue (s : State) (v : Conversion) (code : BitVec 12) : (handed s v code).sched.queue =
      (if v.source = .link ∨ v.source = .defrost then s.sched.queue.erase { chan := v.chan, tag := v.tag } else s.sched.queue)
    ∧ (handed s v code).sched.tags = s.sched.tags := by
  obtain ⟨queue, tags, _⟩ := (complete_sched s v code).2
  exact ⟨queue, tags⟩

/-- The MEASURE notice of a completion (R72). -/
def measured (s : State) (v : Conversion) (code : BitVec 12) (tag : Byte) : Notice :=
  { key := .measure tag
    payload := measurePayload v.chan tag ((s.sched.ch.get v.chan).reading code) code
      ((handed s v code).sched.ch.get v.chan).substituted s.uptime }

/-- A MEASURE notice posted by a completion stands, or is on its way, at the end of the event (R72). -/
theorem complete_holds {s : State} {v : Conversion} {tag : Byte} (code : BitVec 12) (h : v.tag = some tag) :
    Holds (settleLink (recheck s (complete s v code))) (measured s v code tag) := by
  have uptime : (handed s v code).uptime = s.uptime := (recorded_handed s v code).same.1
  have posts : Holds (complete s v code) (measured s v code tag) := by
    rw [complete_eq]
    have posted : measureNotice (handed s v code) v ((s.sched.ch.get v.chan).reading code) code =
        postNotice (handed s v code) (.measure tag) (measured s v code tag).payload := by
      simp only [measureNotice, measured, h, uptime]
    rw [posted]
    exact (acts_startNext (w := 0) .refl).holds (by omega) (by simp [NoticeKey.tag?, measured]) (holds_measure _ _)
  exact holds_settle ((acts_recheck (w := 0) s .refl).holds (by omega) (by simp [NoticeKey.tag?, measured]) posts)

theorem scanDue_of {s : State} {c : Chan} (periodic : (s.sched.ch.get c).period ≠ 0) (ended : (s.sched.ch.get c).countdown = 0) :
    scanDue s c = true := by
  unfold scanDue
  simp [periodic, ended]

/-- A scheduler with a SCAN flag set has a winner (R64). -/
theorem winner_scans {k : Scheduler} {c : Chan} (h : (k.ch.get c).scanFlag = true) : k.winner.isSome = true := by
  unfold Scheduler.winner
  cases k.firstInject with
  | some x => rfl
  | none =>
    cases k.queue with
    | cons q rest => rfl
    | nil =>
      have listed : c ∈ Chan.all := by cases c <;> decide
      have found : k.firstScan.isSome = true := List.find?_isSome.2 ⟨c, listed, h⟩
      simpa using found

/-- A SCAN countdown's end changes the scheduler alone (R67). -/
theorem scanExpiry_eq (s : State) (c : Chan) : scanExpiry s c = { s with sched := (scanExpiry s c).sched } := rfl

/-- The next conversion is that of the lowest INJECT flag, else of the oldest queue entry, else of the lowest SCAN flag (R64). -/
theorem winner_cases (k : Scheduler) : (∀ c, Chan.all.find? (fun c => (k.ch.get c).injectFlag) = some c →
      k.winner = some { chan := c, source := .inject, tag := none, left := 20 })
    ∧ (∀ q rest, Chan.all.find? (fun c => (k.ch.get c).injectFlag) = none → k.queue = q :: rest → k.winner =
        some { chan := q.chan, source := if q.tag.isSome then .link else .defrost, tag := q.tag, left := 20 })
    ∧ (Chan.all.find? (fun c => (k.ch.get c).injectFlag) = none → k.queue = [] → k.winner =
        (Chan.all.find? fun c => (k.ch.get c).scanFlag).map fun c => { chan := c, source := .scan, tag := none, left := 20 }) := by
  refine ⟨fun c found => ?_, fun q rest none_ queue => ?_, fun none_ queue => ?_⟩
  · simp only [Scheduler.winner, Scheduler.firstInject, found]
    rfl
  · simp only [Scheduler.winner, Scheduler.firstInject, none_, queue]
    rfl
  · simp only [Scheduler.winner, Scheduler.firstInject, none_, queue]
    rfl

/-- Settles O55: `handed_channels` and `handed_queue` for the requests, `winner_cases` for the next conversion,
`complete_holds` for the notice. -/
theorem conversionsComplete : Obligations.ConversionsComplete := by
  intro s code hl
  refine ⟨fun v conv due => ?completed, fun waits => ?waits, fun c periodic ended => ?scans⟩
  case completed =>
    obtain ⟨y, runs, kept, _, made⟩ := completes hl conv due code
    have sched : (settleLink (recheck s y)).sched = { (handed s v code).sched with conv := (handed s v code).sched.winner } := by
      rw [settleLink_sched, recheck_sched, ← made]
      exact (complete_sched s v code).1
    obtain ⟨result, others, scan, inject_⟩ := handed_channels s v code
    obtain ⟨queue, tags⟩ := handed_queue s v code
    refine ⟨_, runs, kept, ?_⟩
    rw [sched]
    refine ⟨result, others, scan, inject_, queue, tags, ?_, fun tag tagged => made ▸ complete_holds code tagged⟩
    obtain ⟨injects, queues, scans⟩ := winner_cases (handed s v code).sched
    split
    · next c found => exact injects c found
    · next q rest none_ entries => exact queues q rest none_ entries
    · next none_ empty => exact scans none_ empty
  case waits =>
    have stays : exec (.conversionComplete code) s = outcome s s := by
      show execConversionComplete code s = _
      unfold execConversionComplete
      cases conv : s.sched.conv with
      | none => rfl
      | some v => exact congrArg (outcome s) (if_neg (waits v conv))
    exact stays.trans (idle_event hl)
  case scans =>
    have only := scanExpiry_eq s c
    refine ⟨scanExpiry s c, (when_true (scanDue_of periodic ended)).trans (tame_quiet hl rfl (Or.inl (moved_arb rfl))), only,
      startNext_queue _, startNext_tags _, startNext_ch _, fun v busy => ?_, ?_⟩
    · exact (congrArg Scheduler.conv (startNext_busy (by simp [busy]))).trans busy
    · let k := (s.onChannel c fun r => { r with countdown := r.period, scanFlag := true, overrun := r.overrun || r.scanFlag }).sched
      show k.startNext.conv.isSome = true
      cases conv : k.conv with
      | some v => rw [startNext_busy (by simp [conv]), conv]; rfl
      | none => rw [startNext_free conv]; exact winner_scans (c := c) (by simp [k])

end Sys2Proof.Machine

namespace Sys2Proof.Machine

/-! ### The fault record (R152, R153, R155, R157) -/

/-- The Fault Unit's record after a declaration (R153, R157). -/
theorem declareFault_fault (s : State) (c : FaultCode) (o : FaultObject) (d : Option Sensor) : (declareFault s c o d).fault =
    { s.fault with table := declareIn s.fault.table c o d (faultNow s), capture := captureIn s.fault.capture c o d (faultNow s) } :=
  postFault_fault_eq _ _ _

theorem onlyNotices_declare (s : State) (c : FaultCode) (o : FaultObject) (d : Option Sensor) :
    OnlyNotices { s with fault := (declareFault s c o d).fault } (declareFault s c o d) := by
  rw [declareFault_fault]
  exact onlyNotices_postFault _ _ _

/-- A first declaration appends its entry (R153). -/
theorem declareIn_new {t : List FaultEntry} {c : FaultCode} {o : FaultObject} (h : ∀ e ∈ t, ¬ (e.code = c ∧ e.object = o))
    (d : Option Sensor) (now : FaultTime) : declareIn t c o d now =
      t ++ [{ code := c, object := o, detail := d, first := now, last := now, occurrences := 1, active := true }] := by
  have unmatched : ∀ e ∈ t, ¬ e.matches c o = true := fun e he k => h e he ((matches_iff e c o).1 k)
  have absent : t.any (fun x => x.matches c o) = false := List.any_eq_false.2 unmatched
  have none_ : t.find? (fun e => e.matches c o) = none := List.find?_eq_none.2 unmatched
  simp only [declareIn, declaredEntry, absent, none_]
  rfl

/-- A repeated declaration raises its entry where it stands (R153). -/
theorem declareIn_again {l r : List FaultEntry} {e : FaultEntry} {c : FaultCode} {o : FaultObject} (he : e.code = c ∧ e.object = o)
    (h : ∀ x ∈ l ++ r, ¬ (x.code = c ∧ x.object = o)) (d : Option Sensor) (now : FaultTime) : declareIn (l ++ e :: r) c o d now =
      l ++ { e with detail := d, last := now, occurrences := min (e.occurrences + 1) 255, active := true } :: r := by
  have present : (l ++ e :: r).any (fun x => x.matches c o) = true :=
    List.any_eq_true.2 ⟨e, by simp, (matches_iff e c o).2 he⟩
  simp only [declareIn, declaredEntry, present, find_one he h, if_true]
  exact map_one (f := fun _ => { e with detail := d, last := now, occurrences := min (e.occurrences + 1) 255, active := true }) he h

/-- An end with no ACTIVE entry changes nothing (R155). -/
theorem endFault_none {s : State} {c : FaultCode} {o : FaultObject}
    (h : ∀ e ∈ s.fault.table, e.code = c ∧ e.object = o → e.active = false) : endFault s c o = s := by
  have none_ : s.fault.table.find? (fun e => e.matches c o && e.active) = none := List.find?_eq_none.2 fun e he k => by
    obtain ⟨matching, active⟩ := Bool.and_eq_true_iff.1 k
    rw [h e he ((matches_iff e c o).1 matching)] at active
    cases active
  unfold endFault
  rw [none_]

/-- An end latches its entry where it stands (R155). -/
theorem endFault_latches {s : State} {l r : List FaultEntry} {e : FaultEntry} {c : FaultCode} {o : FaultObject}
    (table : s.fault.table = l ++ e :: r) (he : e.code = c ∧ e.object = o) (h : ∀ x ∈ l ++ r, ¬ (x.code = c ∧ x.object = o)) :
    (endFault s c o).fault.table = l ++ { e with active := false } :: r := by
  rw [endFault_fault_eq]
  simp only [table, ← matches_iff]
  exact map_one (f := fun x => { x with active := false }) he h

/-- Settles O60: `declareIn_new` and `declareIn_again` for a declaration, `endFault_latches` and `endFault_none` for an end. -/
theorem faultsAreRecorded : Obligations.FaultsAreRecorded := by
  intro s c o d now of t u new
  have record : t.fault = _ := declareFault_fault s c o d
  obtain ⟨ends, capture, count⟩ := endFault_ends s c o
  refine ⟨onlyNotices_declare s c o d, ends, by rw [record], count, fun h => ?_, fun l e r table he h => ?_,
    fun l e r table he h => endFault_latches table he h, endFault_none, capture, fun empty => ?_, fun k full higher => ?_,
    fun k full lower => ?_⟩
  · rw [record]
    exact declareIn_new h d _
  · rw [record]
    simp only [table]
    exact declareIn_again he h d _
  · rw [record]
    simp only [captureIn, empty]
    rfl
  · rw [record]
    simp only [captureIn, full, higher, if_true]
    rfl
  · rw [record]
    simp only [captureIn, full, Nat.not_lt.2 lower, if_false]

end Sys2Proof.Machine

namespace Sys2Proof.Machine

/-! ### The air paths' timers and the damper (R96, R101, R102, R104) -/

/-- The position switch shows the end travelled to (R101). -/
theorem arrives_runs {s : State} {e : DamperEnd} {t : Attempt} {n : Nat} (h : s.air.damper = .travelling e t n) :
    exec (.damperPositionSwitch (some e)) s = outcome s (damperArrive (s.onPins fun p => { p with damperSwitch := some e }) e t) := by
  show execDamperPositionSwitch (some e) s = _
  unfold execDamperPositionSwitch
  rw [h]
  exact congrArg (outcome s) (if_pos rfl)

/-- The position switch shows nothing that confirms a travel (R101). -/
theorem switch_disregards {s : State} {x : Option DamperEnd} (h : ∀ e t n, s.air.damper = .travelling e t n → x ≠ some e) :
    exec (.damperPositionSwitch x) s = outcome s (s.onPins fun p => { p with damperSwitch := x }) := by
  show execDamperPositionSwitch x s = _
  unfold execDamperPositionSwitch
  cases damper : s.air.damper with
  | travelling e t n => exact congrArg (outcome s) (if_neg (h e t n damper))
  | resting e => rfl
  | failed => rfl

/-- A damper's travel check that has ended (R102). -/
theorem damperCheck_runs {s : State} {e : DamperEnd} {t : Attempt} (h : s.air.damper = .travelling e t 0) :
    exec .damperCheckEnd s = outcome s (damperMiss s t) := by
  have due : damperCheckDue s = some t := by simp only [damperCheckDue, h]
  show execDamperCheckEnd s = _
  unfold execDamperCheckEnd
  rw [due]

theorem runOnDue_iff {s : State} {x : Time} (h : s.air.runOn = some x) : runOnDue s = true ↔ 480 ≤ elapsed s.uptime x := by
  unfold runOnDue
  rw [h]
  exact decide_eq_true_iff

/-- A confirmed travel as a chain of acts (R101, R104). -/
theorem acts_damperArrive {s : State} {e d : DamperEnd} {t u : Attempt} {n : Nat} (h : s.air.damper = .travelling e t n) :
    Acts 1 s (damperArrive s d u) := by
  have rests : Acts 1 s (damperConfirm s d) := acts_damperConfirm d (by rw [h]; simp) .refl
  unfold damperArrive
  dsimp only
  have told := acts_ite (u = .recovery) (acts_drawerRecovered (le_refl 1) rests) rests
  exact acts_airInput _ (by simp) (le_refl 1) told

/-- A confirmed travel evaluates the target anew (R101). -/
theorem damperArrive_air {s : State} {e : DamperEnd} {t : Attempt} (h : t ≠ .recovery) :
    (damperArrive s e t).air = ({ s.air with damper := .resting e } : AirPath).settle ∧ (damperArrive s e t).arb = s.arb := by
  have made : damperArrive s e t = airInput (damperConfirm s e) fun a => a := by
    unfold damperArrive
    dsimp only
    rw [if_neg h]
  rw [made]
  simp [airInput, damperConfirm]

/-- The end of a recovery attempt hands the DRAWER zone its recovered event (R22, R104). -/
theorem damperArrive_recovered (s : State) (e : DamperEnd) :
    (damperArrive s e .recovery).zones.drawer.damperFaulted = false := recovered_faulted _

/-- A second check that ends: the damper FAILED, the fault declared, the DRAWER zone faulted (R21, R102). -/
theorem damperMiss_second {s z : State} (k : Acts 0 (damperMiss s .second) z) : let t := settleLink z
    Kept s t ∧ t.air.damper = .failed ∧ t.damperDrive = none ∧ Recorded t .damperTravel .damper
      ∧ t.zones.drawer.damperFaulted = true
      ∧ (s.zones.drawer.state ≠ .disabled → s.zones.drawer.state ≠ .paused → t.zones.drawer.state = .fault) := by
  let x := s.onAir fun a => { a with damper := .failed }
  let y := declareFault x .damperTravel .damper none
  have told : Acts 1 y (damperMiss s .second) := acts_drawerFaulted (le_refl 1) .refl
  have rest : Acts 1 y z := told.trans (k.widen (by omega))
  have declared : Acts 1 x y := acts_declareFault _ _ _ .refl
  have zones : y.zones = s.zones := by simp [x, y]
  obtain ⟨faulted, enters⟩ := faulted_faulted y
  rw [zones] at enters
  have core : z.zones.drawer.core = (drawerFaulted y).zones.drawer.core := drawer_core k
  have failed : z.air.damper = .failed := (declared.trans rest).failed (by omega) rfl
  intro t
  have endZones : t.zones = z.zones := settleLink_zones z
  have endAir : t.air = z.air := settleLink_air z
  refine ⟨(kept_onAir s _).trans (kept_event (declared.trans told) (by omega) k), by rw [endAir]; exact failed, ?_,
    recorded_settle (recorded_acts (declare_recorded x _ _ _) rest (by omega)), ?_, fun enabled running => ?_⟩
  · unfold State.damperDrive
    rw [endAir, failed]
  · rw [endZones]
    exact (congrArg (fun c => c.1.damperFaulted) core :).trans faulted
  · rw [endZones]
    exact settle_served core (enters enabled running)

/-- Settles O59: one lemma for each of the damper's events, the rest by their arms. -/
theorem airPathEvents : Obligations.AirPathEvents := by
  intro s hl air shows
  refine ⟨fun x runs long => ?_, fun x runs short => ?_, fun x other => ?_, fun e t n travels first => ?_, fun e n travels => ?_,
    fun e travels => ?_, fun e travels => ?_, fun e travels => ?_⟩
  · exact (when_true ((runOnDue_iff runs).2 long)).trans (tame_quiet hl rfl (Or.inl (moved_arb rfl)))
  · refine when_false hl ?_
    by_contra due
    exact absurd ((runOnDue_iff runs).1 (by simpa using due)) (by omega)
  · exact (switch_disregards other).trans (tame_quiet hl rfl (Or.inl (moved_arb rfl)))
  · have own : Acts 1 (shows (some e)) (damperArrive (shows (some e)) e t) := acts_damperArrive travels
    obtain ⟨rests, arb⟩ := damperArrive_air (s := shows (some e)) (e := e) first
    refine leads_checked (y := shows (some e)) hl (arrives_runs travels) rfl own fun z made k => ?_
    have still : z = damperArrive (shows (some e)) e t := made.trans (recheck_still (Or.inl (moved_arb arb)))
    refine ⟨kept_event own (by omega) k, ?_⟩
    rw [settleLink_air, still]
    exact rests
  · have own : Acts 1 (shows (some e)) (damperArrive (shows (some e)) e .recovery) := acts_damperArrive travels
    refine leads_checked (y := shows (some e)) hl (arrives_runs travels) rfl own fun z _ k => ?_
    refine ⟨kept_event own (by omega) k, ?_⟩
    rw [settleLink_zones]
    exact (congrArg (fun c => c.1.damperFaulted) (drawer_core k) :).trans (damperArrive_recovered _ e)
  · exact (damperCheck_runs travels).trans (tame_quiet hl rfl (Or.inl (moved_arb rfl)))
  · have own : Acts 1 (s.onAir fun a => { a with damper := .failed }) (damperMiss s .second) :=
      acts_drawerFaulted (le_refl 1) (acts_declareFault _ _ _ .refl)
    exact leads_checked (y := s.onAir fun a => { a with damper := .failed }) hl (damperCheck_runs travels) rfl own
      fun z _ k => damperMiss_second k
  · exact (damperCheck_runs travels).trans (tame_quiet hl rfl (Or.inl (moved_arb rfl)))

end Sys2Proof.Machine

namespace Sys2Proof.Machine

/-! ### Doors (R16, R17, R74, R86 to R92) -/

theorem onDoor_onDoor (s : State) (d : DoorId) (f g : Door → Door) : (s.onDoor d f).onDoor d g = s.onDoor d fun r => g (f r) := by
  unfold State.onDoor
  simp only [Doors.get_set, doors_set_set]

/-- The end of a debounce window leaves the link to the end of the event. -/
theorem tame_debounceDone (s : State) (d : DoorId) : Tame s (debounceDone s d) :=
  debounceDone_keeps d (fun k h => h.trans k.tame) (fun _ _ h => h.trans (tame_link rfl)) (tame_link rfl)

/-- An event whose acts leave the link, with the feeding check that follows it (R55). -/
theorem leads_settled {c : Instr} {s x : State} {Q : State → Prop} (hl : LinkLaw s) (runs : exec c s = outcome s x)
    (tame : Tame s x) (hQ : ∀ z, Acts 0 x z → Q (settleLink z)) : Leads c s Q :=
  ⟨_, runs.trans (congrArg Host.Outcome.next (finish_tame hl tame)), hQ _ (acts_recheck s .refl)⟩

/-- A zone in a state that no grant and no return moves stands in it (R6, R13). -/
theorem core_state_stands {r q : Zone} (h : r.core = q.core) (hs : q.state.served ≠ .calling) : r.state = q.state := by
  have served := core_state h
  cases hr : r.state <;> cases hq : q.state <;> simp_all [ZoneState.served]

/-- A door's debounce window has ended with a new level (R86). -/
theorem debounce_runs {s : State} {d : DoorId} (h : (s.doors.get d).window = some 0) :
    exec (.debounceEnd d) s = outcome s (debounceDone s d) := when_true (by unfold windowDue; rw [h]; rfl)

/-! #### An open event (R16, R88) -/

/-- The doors after a door has opened (R88). -/
def opened (s : State) (d : DoorId) : State :=
  s.onDoor d fun r => { r with window := none, state := .opened, openedAt := some s.uptime, delivered := 0 }

/-- What an open event does after the door's own record (R16, R88). -/
def afterOpen (s : State) (d : DoorId) : State :=
  postDoor (freezerDoorTo (airDoor (zoneOpened s (doorZone d)) d .opened) d .opened) d none

theorem debounceDone_opens {s : State} {d : DoorId} (level : (s.doors.get d).state = .closed) (input : (s.doors.get d).input = true) :
    debounceDone s d = afterOpen (opened s d) d := by
  unfold debounceDone Door.level
  dsimp only
  rw [level, if_neg (by rw [input]; decide), if_pos input]
  unfold openEvent
  dsimp only
  rw [onDoor_onDoor]
  rfl

theorem kept_afterOpen (s : State) (d : DoorId) : Kept s (afterOpen s d) := by
  have zone : Acts 1 s (zoneOpened s (doorZone d)) := acts_zoneOpened _ (le_refl 1) .refl
  have air : Kept (zoneOpened s (doorZone d)) (airDoor (zoneOpened s (doorZone d)) d .opened) := kept_onAir _ _
  have rest : Acts 2 (airDoor (zoneOpened s (doorZone d)) d .opened) (afterOpen s d) :=
    acts_postDoor _ _ (acts_freezerDoorTo _ _ (le_refl 2) .refl)
  exact (zone.kept (by omega)).trans (air.trans (rest.kept (by omega)))

/-- A zone that a door opens: the time is noted, and a zone at rest or served stops (R16). -/
theorem zoneOpened_zone (s : State) (z : ZoneId) : let q := (zoneOpened s z).zones.get z
    q.doorOpenSince = some ((s.zones.get z).doorOpenSince.getD s.uptime)
      ∧ ((s.zones.get z).state = .idle ∨ (s.zones.get z).state = .calling ∨ (s.zones.get z).state = .cooling → q.state = .door) := by
  let t := s.onZone z fun r => { r with doorOpenSince := some (r.doorOpenSince.getD s.uptime) }
  have noted : (t.zones.get z).doorOpenSince = some ((s.zones.get z).doorOpenSince.getD s.uptime) := by simp [t]
  intro q
  by_cases stops : (s.zones.get z).state = .idle ∨ (s.zones.get z).state = .calling ∨ (s.zones.get z).state = .cooling
  · have made : zoneOpened s z = enterState ((standDown t z).onZone z fun r => { r with timer := none }) z .door .doorOpen := if_pos stops
    have core := (acts_standDown (w := 0) z (.refl (s := t))).below1 (by omega)
    have same : q = _ := (congrArg (fun x => x.zones.get z) made).trans (enterState_get _ z .door .doorOpen)
    rw [same]
    refine ⟨?_, fun _ => rfl⟩
    have since : ((standDown t z).zones.get z).doorOpenSince = (t.zones.get z).doorOpenSince :=
      (congrArg (fun c => c.1.doorOpenSince) (core.1 z) :)
    simp [since, noted]
  · have made : zoneOpened s z = t := if_neg stops
    have same : q = t.zones.get z := congrArg (fun x => x.zones.get z) made
    rw [same]
    exact ⟨noted, fun h => absurd h stops⟩

/-- What a door's opening leaves of the zone at the end of the event (R16). -/
theorem afterOpen_core {s z : State} {d : DoorId} (k : Acts 0 (afterOpen s d) z) : ((settleLink z).zones.get (doorZone d)).core =
    ((zoneOpened s (doorZone d)).zones.get (doorZone d)).core := by
  rw [zone_core_ends k]
  unfold afterOpen
  rw [postDoor_zones, freezerDoorTo_zones]
  rfl

/-! #### A close event (R17, R74, R90, R91) -/

/-- The doors after a door has closed (R90). -/
def closed (s : State) (d : DoorId) : State :=
  s.onDoor d fun r => { r with window := none, state := .closed, openedAt := none, delivered := 0
                               lastOpen := some (r.openFor s.uptime) }

/-- The zone, the air path and the Defrost Unit told of a door's close (R17, R74, R90). -/
def toldClosed (s : State) (d : DoorId) : State :=
  freezerDoorTo (airDoor (closeInject (zoneClosed s (doorZone d)) (doorZone d)) d .closed) d .closed

/-- The open seconds not yet delivered, handed over at a close (R91). -/
def handRest (s : State) (d : DoorId) (n : Nat) : State := if doorCounted d then handSeconds s d n else s

theorem debounceDone_closes {s : State} {d : DoorId} (level : (s.doors.get d).state ≠ .closed) (input : (s.doors.get d).input = false) :
    debounceDone s d = postDoor (handRest (toldClosed (closed s d) d) d
      ((s.doors.get d).openFor s.uptime - (s.doors.get d).delivered)) d (some ((s.doors.get d).openFor s.uptime)) := by
  have isOpen : (s.doors.get d).state.isOpen = true := by
    cases state : (s.doors.get d).state with
    | closed => exact absurd state level
    | _ => rfl
  have record : (s.onDoor d fun r => { r with window := none }).doors.get d = { s.doors.get d with window := none } := by
    simp [State.onDoor]
  unfold debounceDone Door.level
  dsimp only
  rw [if_neg (by rw [input, isOpen]; decide), if_neg (by rw [input]; decide)]
  unfold closeEvent
  dsimp only
  rw [record, onDoor_onDoor]
  rfl

theorem acts_handRest {w : Nat} {s x : State} (d : DoorId) (n : Nat) (hw : 2 ≤ w) (h : Acts w s x) : Acts w s (handRest x d n) := by
  unfold handRest
  exact acts_ite _ (acts_handSeconds _ _ hw h) h

/-- The zone's and the scheduler's part of a close (R17, R74). -/
def zoneTold (s : State) (d : DoorId) : State := closeInject (zoneClosed s (doorZone d)) (doorZone d)

theorem acts_zoneTold (s : State) (d : DoorId) : Acts 1 s (zoneTold s d) := acts_closeInject _ (acts_zoneClosed _ (le_refl 1) .refl)

/-- What follows the air path's change at a close. -/
theorem acts_afterAir (s : State) (d : DoorId) (n m : Nat) : Acts 2 (airDoor (zoneTold s d) d .closed)
    (postDoor (handRest (toldClosed s d) d n) d (some m)) :=
  acts_postDoor _ _ (acts_handRest _ _ (le_refl 2) (acts_freezerDoorTo _ _ (le_refl 2) .refl))

theorem kept_afterClose (s : State) (d : DoorId) (n m : Nat) : Kept s (postDoor (handRest (toldClosed s d) d n) d (some m)) :=
  ((acts_zoneTold s d).kept (by omega)).trans ((kept_onAir (zoneTold s d) _).trans ((acts_afterAir s d n m).kept (by omega)))

/-- The zone's record at the end of a close is the one that the zone made (R17). -/
theorem afterClose_core {s z : State} {d : DoorId} {n m : Nat} (k : Acts 0 (postDoor (handRest (toldClosed s d) d n) d (some m)) z) :
    ((settleLink z).zones.get (doorZone d)).core = ((zoneClosed s (doorZone d)).zones.get (doorZone d)).core := by
  have rest : ∀ x : State, ((handRest x d n).zones.get (doorZone d)).core = (x.zones.get (doorZone d)).core := fun x => by
    unfold handRest
    split
    · exact handSeconds_zones x d n _
    · rfl
  have told : ((toldClosed s d).zones.get (doorZone d)).core = ((zoneTold s d).zones.get (doorZone d)).core :=
    freezerDoorTo_zones _ d .closed _
  have injects : (zoneTold s d).zones = (zoneClosed s (doorZone d)).zones := by
    unfold zoneTold closeInject inject startNext
    split <;> rfl
  rw [zone_core_ends k, postDoor_zones, rest, told, injects]

/-- The inject of the last close of a compartment stands at the end of the event (R74). -/
theorem afterClose_injects {s z : State} {d : DoorId} {n m : Nat} (shut : zoneDoorOpen s.doors (doorZone d) = false)
    (k : Acts 0 (postDoor (handRest (toldClosed s d) d n) d (some m)) z) :
    ((settleLink z).sched.ch.get (zoneChan (doorZone d))).injectFlag = true := by
  have doors : (zoneClosed s (doorZone d)).doors = s.doors := ((acts_zoneClosed _ (le_refl 1) (.refl (s := s))).kept (by omega)).2.2.2.2.1
  have made : zoneTold s d = inject (zoneClosed s (doorZone d)) (zoneChan (doorZone d)) := if_neg (by rw [doors, shut]; decide)
  have flag : ((airDoor (zoneTold s d) d .closed).sched.ch.get (zoneChan (doorZone d))).injectFlag = true := by
    show ((zoneTold s d).sched.ch.get _).injectFlag = true
    rw [made]
    simp [inject, startNext]
  rw [settleLink_sched]
  exact k.injects (by omega) _ ((acts_afterAir s d n m).injects (by omega) _ flag)

/-- The zone's record at the last close of its compartment (R17). -/
theorem zoneClosed_zone {s : State} {z : ZoneId} (shut : zoneDoorOpen s.doors z = false) : let r := s.zones.get z
    let q := (zoneClosed s z).zones.get z
    q.doorOpenSince = none ∧ (r.state = .door → q = { r with
      state := .idle, enteredAt := s.uptime, doorOpenSince := none
      closeMark := if r.mode = .thermostat then
          some (if 30 ≤ (r.doorOpenSince.map (elapsed s.uptime)).getD 0 then .recovery else .normal)
        else r.closeMark
      timer := if r.mode = .timed then some { kind := .off, left := r.offTime } else r.timer }) := by
  intro r q
  let n := (r.doorOpenSince.map (elapsed s.uptime)).getD 0
  let t := s.onZone z fun r => r.closed n
  have made : zoneClosed s z = if r.state = .door then enterState t z .idle .doorClosed else t :=
    if_neg (by rw [shut]; decide)
  have record : t.zones.get z = r.closed n := by simp [t, r]
  have since : (r.closed n).doorOpenSince = none := by
    unfold Zone.closed
    dsimp only
    split
    · split <;> rfl
    · rfl
  by_cases door : r.state = .door
  · have same : q = _ := (congrArg (fun x => x.zones.get z) (made.trans (if_pos door))).trans (enterState_get t z .idle .doorClosed)
    rw [same, record]
    refine ⟨since, fun _ => ?_⟩
    unfold Zone.closed
    dsimp only
    rw [if_pos door]
    cases mode : r.mode <;> rfl
  · have same : q = t.zones.get z := congrArg (fun x => x.zones.get z) (made.trans (if_neg door))
    rw [same, record]
    exact ⟨since, fun h => absurd h door⟩

end Sys2Proof.Machine

namespace Sys2Proof.Machine

/-! #### The credit of a close (R91, R108, R109) -/

/-- The credit that open seconds of a door add (R108). -/
def doorCredit (d : DoorId) (n : Nat) : Nat := (if d = .drawer then 4 else if d = .freezer then 8 else 0) * n

theorem zoneTold_defrost (s : State) (d : DoorId) : (zoneTold s d).defrost = s.defrost := by
  have zone : ∀ z, (zoneClosed s z).defrost = s.defrost := fun z => by
    unfold zoneClosed
    dsimp only
    split
    · rfl
    · split <;> simp
  unfold zoneTold closeInject inject startNext
  split
  · exact zone _
  · exact zone _

/-- What a close tells the Defrost Unit of the FREEZER door: in IDLE nothing more, else at most PRECHILL begins (R110). -/
theorem toldClosed_defrost (s : State) (d : DoorId) :
    (s.defrost.phase = .idle → (toldClosed s d).defrost =
      { s.defrost with freezerDoor := if d = .freezer then .closed else s.defrost.freezerDoor })
    ∧ (s.defrost.phase ≠ .idle → (toldClosed s d).defrost.credit = s.defrost.credit ∧ (toldClosed s d).defrost.phase ≠ .idle) := by
  let x := airDoor (zoneTold s d) d .closed
  have before : x.defrost = s.defrost := zoneTold_defrost s d
  have made : toldClosed s d = if d = .freezer then evaluate (x.onDefrost fun q => { q with freezerDoor := .closed }) else x := rfl
  rw [made]
  by_cases freezer : d = .freezer
  · let y := x.onDefrost fun q => { q with freezerDoor := .closed }
    have record : y.defrost = { s.defrost with freezerDoor := .closed } := by
      show { x.defrost with freezerDoor := .closed } = _
      rw [before]
    rw [if_pos freezer, if_pos freezer]
    refine ⟨fun idle => ?_, fun busy => ?_⟩
    · have rests : evaluate y = y := if_neg fun h => by
        rw [record] at h
        rw [idle] at h
        cases h.1
      rw [rests, record]
    · obtain ⟨_, _, credit, _⟩ := evaluate_same y
      rw [record] at credit
      refine ⟨credit, ?_⟩
      rcases evaluate_phase y with same | chills
      · rw [same, record]
        exact busy
      · rw [chills]
        decide
  · rw [if_neg freezer, if_neg freezer, before]
    exact ⟨fun _ => rfl, fun busy => ⟨rfl, busy⟩⟩

theorem handRest_adds (s : State) (d : DoorId) (n : Nat) : (doorCredit d n = 0 → handRest s d n = s)
    ∧ (doorCredit d n ≠ 0 → handRest s d n = addCredit s (doorCredit d n)) := by
  have counted : ∀ w, 0 < w → (w * n = 0 → n = 0) ∧ (w * n ≠ 0 → n ≠ 0) := fun w pos =>
    ⟨fun h => (Nat.mul_eq_zero.1 h).resolve_left (by omega), fun h none_ => h (by rw [none_]; rfl)⟩
  cases d with
  | left => exact ⟨fun _ => rfl, fun h => absurd (Nat.zero_mul n) h⟩
  | right => exact ⟨fun _ => rfl, fun h => absurd (Nat.zero_mul n) h⟩
  | drawer => exact ⟨fun h => if_pos ((counted 4 (by decide)).1 h), fun h => if_neg ((counted 4 (by decide)).2 h)⟩
  | freezer => exact ⟨fun h => if_pos ((counted 8 (by decide)).1 h), fun h => if_neg ((counted 8 (by decide)).2 h)⟩

/-- Open seconds handed over add to the credit in IDLE alone, and the credit is then tested (R91, R108, R109). -/
theorem handRest_defrost (s : State) (d : DoorId) (n : Nat) :
    (s.defrost.phase = .idle → (handRest s d n).defrost.credit = s.defrost.credit + doorCredit d n
      ∧ (handRest s d n).defrost.phase = if doorCredit d n = 0 then .idle else
          ({ s.defrost with credit := s.defrost.credit + doorCredit d n } : Defrost).restPhase)
    ∧ (s.defrost.phase ≠ .idle → handRest s d n = s) := by
  obtain ⟨nothing, something⟩ := handRest_adds s d n
  refine ⟨fun idle => ?_, fun busy => ?_⟩
  · by_cases none_ : doorCredit d n = 0
    · rw [nothing none_, if_pos none_, none_]
      exact ⟨rfl, idle⟩
    · rw [something none_, if_neg none_, addCredit_idle _ idle]
      obtain ⟨_, _, credit, _⟩ := dueTest_same (s.onDefrost fun q => { q with credit := q.credit + doorCredit d n })
      exact ⟨credit, dueTest_rest idle⟩
  · by_cases none_ : doorCredit d n = 0
    · exact nothing none_
    · rw [something none_]
      exact addCredit_not _ busy

/-- The credit and the phase at the end of a close (R91, R108, R109). -/
theorem afterClose_credit {s z : State} {d : DoorId} {n m : Nat} (k : Acts 0 (postDoor (handRest (toldClosed s d) d n) d (some m)) z) :
    let t := settleLink z
    t.defrost.credit = s.defrost.credit + (if s.defrost.phase = .idle then doorCredit d n else 0)
      ∧ (s.defrost.phase = .idle → t.defrost.phase = if doorCredit d n = 0 then .idle else
          ({ s.defrost with credit := s.defrost.credit + doorCredit d n
                            freezerDoor := if d = .freezer then .closed else s.defrost.freezerDoor } : Defrost).restPhase) := by
  have core := k.below2 (by omega)
  rw [postDoor_defrost] at core
  intro t
  have same : t.defrost = z.defrost := settleLink_defrost z
  rw [same]
  have credit : z.defrost.credit = (handRest (toldClosed s d) d n).defrost.credit := (congrArg Defrost.credit core :)
  have phase : z.defrost.phase = (handRest (toldClosed s d) d n).defrost.phase := (congrArg Defrost.phase core :)
  obtain ⟨idleTold, busyTold⟩ := toldClosed_defrost s d
  obtain ⟨idleRest, busyRest⟩ := handRest_defrost (toldClosed s d) d n
  by_cases idle : s.defrost.phase = .idle
  · have told := idleTold idle
    obtain ⟨added, tested⟩ := idleRest (by rw [told]; exact idle)
    rw [told] at added tested
    exact ⟨by rw [credit, added, if_pos idle], fun _ => by rw [phase, tested]⟩
  · obtain ⟨stands, busy⟩ := busyTold idle
    have rests := busyRest busy
    refine ⟨by rw [credit, rests, stands, if_neg idle, Nat.add_zero], fun h => absurd h idle⟩

/-! #### The events of a door -/

/-- The last door of a compartment has closed (R17). -/
theorem closed_shut {s : State} {d : DoorId}
    (h : d = .drawer ∨ d = .freezer ∨ ∀ e, e ≠ d → doorZone e = doorZone d → (s.doors.get e).state = .closed) :
    zoneDoorOpen (closed s d).doors (doorZone d) = false := by
  have here : ((closed s d).doors.get d).state = .closed := by simp [closed, State.onDoor]
  have away : ∀ e, e ≠ d → (closed s d).doors.get e = s.doors.get e := fun e other => Doors.get_set_ne _ _ other
  cases d with
  | drawer => exact congrArg DoorState.isOpen here
  | freezer => exact congrArg DoorState.isOpen here
  | left =>
    have other : ((closed s .left).doors.get .right).state = .closed := by
      rw [away .right (by decide)]
      exact ((h.resolve_left (by decide)).resolve_left (by decide)) .right (by decide) rfl
    exact Bool.or_eq_false_iff.2 ⟨congrArg DoorState.isOpen here, congrArg DoorState.isOpen other⟩
  | right =>
    have other : ((closed s .right).doors.get .left).state = .closed := by
      rw [away .left (by decide)]
      exact ((h.resolve_left (by decide)).resolve_left (by decide)) .left (by decide) rfl
    exact Bool.or_eq_false_iff.2 ⟨congrArg DoorState.isOpen other, congrArg DoorState.isOpen here⟩

theorem ajarDue_of {s : State} {d : DoorId} {o : Time} (state : (s.doors.get d).state = .opened)
    (since : (s.doors.get d).openedAt = some o) (long : s.doors.ajarTime ≤ elapsed s.uptime o) : ajarDue s d = true := by
  unfold ajarDue Door.openFor
  rw [state, since]
  simpa using long

/-- Settles O58: `zoneOpened_zone` for an open event, `zoneClosed_zone`, `afterClose_injects` and `afterClose_credit` for a
close. -/
theorem doorsOpenAndClose : Obligations.DoorsOpenAndClose := by
  intro s d hl r z put
  refine ⟨fun b => ?input, fun waits => ?waits, fun due same => ?same, fun due input level => ?opens, fun due input level => ?closes,
    fun o state since long => ?ajar⟩
  case input =>
    have made : put (r.change b) = put (if r.input = b then r else
        { r with input := b, window := if b = r.state.isOpen then none else some 50 }) := rfl
    rw [← made]
    exact tame_quiet hl rfl (Or.inl (moved_arb rfl))
  case waits =>
    refine when_false hl ?_
    unfold windowDue
    simpa using waits
  case same =>
    have made : debounceDone s d = put { r with window := none } := if_pos same
    rw [debounce_runs due, made]
    exact tame_quiet hl rfl (Or.inl (moved_arb rfl))
  case opens =>
    have made := debounceDone_opens level input
    refine leads_settled hl (debounce_runs due) (tame_debounceDone s d) fun w k => ?_
    rw [made] at k
    have core := afterOpen_core k
    obtain ⟨noted, stops⟩ := zoneOpened_zone (opened s d) z
    refine ⟨(kept_afterOpen (opened s d) d).trans ((k.kept (by omega)).trans (kept_settle _)), ?_, fun active => ?_⟩
    · exact (congrArg (fun c => c.1.doorOpenSince) core :).trans noted
    · have door := stops active
      exact (core_state_stands core (by rw [door]; decide)).trans door
  case closes =>
    have made := debounceDone_closes level input
    refine leads_settled hl (debounce_runs due) (tame_debounceDone s d) fun w k => ?_
    rw [made] at k
    obtain ⟨credit, phase⟩ := afterClose_credit k
    refine ⟨(kept_afterClose _ _ _ _).trans ((k.kept (by omega)).trans (kept_settle _)), credit, phase, fun last => ?_⟩
    have shut := closed_shut last
    have core := afterClose_core k
    obtain ⟨since, rests⟩ := zoneClosed_zone shut
    refine ⟨afterClose_injects shut k, (congrArg (fun c => c.1.doorOpenSince) core :).trans since, fun door => ?_⟩
    have ended := rests door
    exact (core_eq core (by rw [ended]; simp [ZoneState.served])).trans ended
  case ajar =>
    have told : OnlyNotices (put { r with state := .ajar }) (becomeAjar s d) := onlyNotices_door _ _ _
    have own : Acts 0 (put { r with state := .ajar }) (becomeAjar s d) := acts_postDoor _ _ .refl
    refine leads_checked (y := put { r with state := .ajar }) hl (when_true (ajarDue_of state since long)) rfl own fun w made k => ?_
    have still : w = becomeAjar s d := made.trans (recheck_still (Or.inl (moved_arb (by simp [becomeAjar]))))
    rw [still]
    exact told.trans (onlyNotices_settle _)

end Sys2Proof.Machine

namespace Sys2Proof.Machine

/-! ### What a completion tells the units (R81 to R84) -/

/-- The event of a completion, to its end. -/
theorem conversion_leads {s : State} {v : Conversion} {code : BitVec 12} {Q : State → Prop} (hl : LinkLaw s)
    (conv : s.sched.conv = some v) (due : v.left = 0)
    (hQ : ∀ y, UnitsOf (handed s v code) y → Q (settleLink (recheck s y))) :
    Leads (.conversionComplete code) s fun t => Kept s t ∧ Q t := by
  obtain ⟨y, runs, kept, units, _⟩ := completes hl conv due code
  exact ⟨_, runs, kept, hQ y units⟩

/-- The watcher's part of a completion (R81). -/
def delivered (s : State) (v : Conversion) (code : BitVec 12) : State :=
  deliver (recorded s v code) v.chan ((s.sched.ch.get v.chan).reading code)

theorem handed_eq (s : State) (v : Conversion) (code : BitVec 12) : handed s v code =
    sensorEvents (delivered s v code) v.chan (s.sched.ch.get v.chan) ((s.sched.ch.get v.chan).reading code) := rfl

section
variable (x : State) (c : Chan) {old : Channel} {r : Reading}

/-- A result with a value that is not the third in a row of a faulted channel tells the watcher of no fault (R83). -/
theorem sensorEvents_quiet (h : r.value ≠ none) (hn : ¬ (old.faulted = true ∧ 2 ≤ old.good)) :
    sensorEvents x c old r = x ∨ sensorEvents x c old r = endFault x .sensor (.channel c) := by
  obtain ⟨p, hp⟩ := Option.ne_none_iff_exists'.1 h
  unfold sensorEvents
  rw [hp]
  dsimp only
  rw [if_neg fun q => hn ⟨q.2, by have := (bump_full _).1 q.1; omega⟩]
  split
  · exact Or.inr rfl
  · exact Or.inl rfl

/-- The third result in a row with a value of a faulted channel is its recovery (R83). -/
theorem sensorEvents_recovers (h : r.value ≠ none) (hf : old.faulted = true) (hg : 2 ≤ old.good) :
    sensorEvents x c old r = deliverRecovered (endFault x .sensor (.channel c)) c := by
  obtain ⟨p, hp⟩ := Option.ne_none_iff_exists'.1 h
  unfold sensorEvents
  rw [hp]
  exact if_pos ⟨(bump_full _).2 (by omega), hf⟩

/-- The third result in a row without a value is the channel's fault (R82). -/
theorem sensorEvents_faults (h : r.value = none) (hf : old.faulted = false) (hb : 2 ≤ old.bad) :
    sensorEvents x c old r = deliverFaulted (declareFault x .sensor (.channel c) (some r.sensor)) c := by
  unfold sensorEvents
  rw [h]
  exact if_pos ⟨(bump_full _).2 (by omega), hf⟩

/-- A result without a value is else no event (R82). -/
theorem sensorEvents_none (h : r.value = none) (hn : ¬ (old.faulted = false ∧ 2 ≤ old.bad)) : sensorEvents x c old r = x := by
  unfold sensorEvents
  rw [h]
  exact if_neg fun q => hn ⟨q.2, by have := (bump_full _).1 q.1; omega⟩

end

section
variable {s H y : State}

/-- A zone's record at the end of a completion is the one that the units left, but for a grant or a return. -/
theorem conversion_core (h : UnitsOf H y) (z : ZoneId) : ((settleLink (recheck s y)).zones.get z).core = (H.zones.get z).core := by
  rw [zone_core_ends (x := y) (acts_recheck s .refl), h.1]

/-- It is that record where the arbiter was not moved. -/
theorem conversion_zones (h : UnitsOf H y) (still : H.arb = s.arb) : (settleLink (recheck s y)).zones = H.zones := by
  obtain ⟨zones, arb, _⟩ := h
  rw [settleLink_zones, recheck_same (arb.trans still), zones]

theorem conversion_more (h : UnitsOf H y) : More H (settleLink (recheck s y)) :=
  (more_arb h.2.1).trans ((more_recheck s y).trans (more_settle _))

theorem conversion_fewer {l : List Requester} (h : UnitsOf H y) : Fewer l H (settleLink (recheck s y)) :=
  (fewer_arb h.2.1).trans ((fewer_recheck s y).trans (fewer_settle _))

theorem conversion_recorded (h : UnitsOf H y) {c : FaultCode} {o : FaultObject} (k : Recorded H c o) :
    Recorded (settleLink (recheck s y)) c o := by
  have here : Recorded y c o := by
    unfold Recorded
    rw [h.2.2.2.2.2]
    exact k
  exact recorded_settle (recorded_acts here (acts_recheck (w := 0) s .refl) (by omega))

end

/-- A zone's record but for its state and when it entered it. -/
theorem core_but_state {r q : Zone} (h : r.core = q.core) : r = { q with state := r.state, enteredAt := r.enteredAt } := by
  have rest := core_rest h
  cases r
  cases q
  simp_all

/-! ### The zones (R8, R10 to R12, R18 to R20) -/

/-- The result of an air channel goes to its zone (R81). -/
theorem deliver_zone {s : State} {z : ZoneId} {r : Reading} {v : Temp} {b : Band} (h : r.value = some (v, b)) :
    deliver s (zoneChan z) r = zoneResult s z v b := by
  cases z <;> simp only [zoneChan, deliver, h]

theorem deliver_zone_none {s : State} {z : ZoneId} {r : Reading} (h : r.value = none) : deliver s (zoneChan z) r = s := by
  cases z <;> simp only [zoneChan, deliver, h]

theorem deliverFaulted_zone (s : State) (z : ZoneId) : deliverFaulted s (zoneChan z) = zoneFaulted s z := by cases z <;> rfl

theorem deliverRecovered_zone (s : State) (z : ZoneId) : deliverRecovered s (zoneChan z) = zoneRecovered s z := by cases z <;> rfl

/-- The record that an OK result leaves (R8, R10). -/
theorem record_eq (r : Zone) (x : Temp) (b : Band) : r.record x b =
    { r with lastAir := some x, lastBand := some b, checkDue := r.checkDue && r.state != .idle
             cls := if (r.state = .idle ∧ r.checkDue = true) ∧ r.setpoint + r.halfBand + 50 < x then .recovery else r.cls } := by
  have warm : ({ r with lastAir := some x, lastBand := some b } : Zone).warm = decide (r.setpoint + r.halfBand + 50 < x) := rfl
  unfold Zone.record
  dsimp only
  rw [warm]
  by_cases idle : r.state = .idle <;> cases check : r.checkDue <;> simp [idle]

/-- The state after an OK result's record (R10). -/
def taken (s : State) (z : ZoneId) (v : Temp) (b : Band) : State := s.onZone z fun r => r.record v b

theorem taken_get (s : State) (z : ZoneId) (v : Temp) (b : Band) : (taken s z v b).zones.get z = (s.zones.get z).record v b := by
  simp [taken]

theorem record_mode (r : Zone) (x : Temp) (b : Band) : (r.record x b).mode = r.mode ∧ (r.record x b).state = r.state := by
  rw [record_eq]
  exact ⟨rfl, rfl⟩

section
variable {s : State} {z : ZoneId} {v : Temp} {b : Band}

theorem zoneResult_eq : zoneResult s z v b =
    if (s.zones.get z).mode = .thermostat then
      if (s.zones.get z).state = .idle then
        if b = .above then zoneCall (taken s z v b) z
        else classChanged ((taken s z v b).onZone z fun r => r.idleResult b) z (s.zones.get z).cls
      else if ((s.zones.get z).state = .calling ∨ (s.zones.get z).state = .cooling) ∧ b = .below then
        zoneSatisfied (taken s z v b) z
      else taken s z v b
    else classChanged (taken s z v b) z (s.zones.get z).cls := by
  obtain ⟨mode, state⟩ := record_mode (s.zones.get z) v b
  have same : (s.onZone z fun r => r.record v b) = taken s z v b := rfl
  unfold zoneResult
  dsimp only
  rw [same]
  simp only [taken_get, mode, state]

end

/-- A change of class leaves the zone, but for grants and returns (R7, R110). -/
theorem classChanged_core (s : State) (z : ZoneId) (c : Cls) : ((classChanged s z c).zones.get z).core = (s.zones.get z).core := by
  unfold classChanged
  split
  · rfl
  · rw [handClass_zones, postZone_zones]

/-- An IDLE zone calls: the record, and the entry it makes (R10). -/
theorem zoneCall_core (s : State) (z : ZoneId) : ((zoneCall s z).zones.get z).core =
    ({ s.zones.get z with cls := (s.zones.get z).callClass z, closeMark := none, postDefrost := false, state := .calling
                          enteredAt := s.uptime } : Zone).core := by
  let c := (s.zones.get z).callClass z
  let t := enterState (s.onZone z fun r => { r with cls := c, closeMark := none, postDefrost := false }) z .calling .call
  have posts : Acts 0 t (zonePost t z c) := acts_zonePost z c .refl
  have made : zoneCall s z = handClass (zonePost t z c) := rfl
  rw [made, handClass_zones]
  refine ((posts.below1 (by omega)).1 z).trans (congrArg Zone.core ?_)
  simp only [t]
  rw [enterState_get, State.onZone_zones, Zones.get_set, State.onZone_uptime]

theorem zoneCall_listed {s : State} (z : ZoneId) (h : s.ctl.mode = .run) : zoneRequester z ∈ (zoneCall s z).arb.requesters := by
  let c := (s.zones.get z).callClass z
  let t := enterState (s.onZone z fun r => { r with cls := c, closeMark := none, postDefrost := false }) z .calling .call
  have run : t.ctl.mode = .run := by
    simp only [t, enterState_ctl, State.onZone_ctl]
    exact h
  exact more_handClass (zonePost t z c) _ ((more_post t (zoneRequester z) c _).1 run)

/-- A satisfied zone enters IDLE with class NORMAL and leaves the arbiter (R11, R12). -/
theorem zoneSatisfied_core (s : State) (z : ZoneId) : ((zoneSatisfied s z).zones.get z).core =
    ({ s.zones.get z with cls := .normal, state := .idle, enteredAt := s.uptime } : Zone).core := by
  have down := acts_standDown (w := 0) z (.refl (s := s))
  have record := core_rest ((down.below1 (by omega)).1 z)
  obtain ⟨uptime, _⟩ := down.same
  unfold zoneSatisfied
  rw [handClass_zones, enterState_get, State.onZone_zones, Zones.get_set, State.onZone_uptime, uptime]
  exact (congrArg (fun r : Zone => ({ r with cls := .normal, state := .idle, enteredAt := s.uptime } : Zone).core) record :)

theorem zoneSatisfied_unlisted {s : State} {z : ZoneId} (h : (s.zones.get z).state = .calling ∨ (s.zones.get z).state = .cooling) :
    Unlisted (zoneSatisfied s z) (zoneRequester z) := by
  let x := enterState ((standDown s z).onZone z fun r => { r with cls := .normal }) z .idle .satisfied
  have out : zoneSatisfied s z = handClass x := rfl
  have down : standDown s z = withdraw s (zoneRequester z) := if_pos h
  have gone : Unlisted (standDown s z) (zoneRequester z) := by
    rw [down]
    exact (withdraw_fewer (l := []) s (zoneRequester z)).2
  have same : Fewer [] (standDown s z) x := fewer_arb (by simp [x])
  rw [out]
  exact unlisted_of (fewer_handClass x) (by cases z <;> decide) (unlisted_of same (by simp) gone)

/-- A zone that is not IDLE keeps its class at a result in TIMED mode (R19). -/
theorem zoneResult_timed {s : State} {z : ZoneId} (v : Temp) (b : Band) (timed : (s.zones.get z).mode = .timed)
    (busy : (s.zones.get z).state ≠ .idle) : zoneResult s z v b = taken s z v b := by
  rw [zoneResult_eq, if_neg (by rw [timed]; decide)]
  refine if_pos ?_
  rw [taken_get, record_eq]
  exact if_neg fun h => busy h.1.1

end Sys2Proof.Machine

namespace Sys2Proof.Machine

section
variable {s : State} {z : ZoneId} {v : Conversion} {code : BitVec 12}

/-- An OK result of a zone's channel that is no recovery leaves what the zone made of it (R10, R83). -/
theorem handed_zone_quiet {x : Temp} {b : Band} (chan : v.chan = zoneChan z)
    (value : ((s.sched.ch.get v.chan).reading code).value = some (x, b))
    (hn : ¬ ((s.sched.ch.get v.chan).faulted = true ∧ 2 ≤ (s.sched.ch.get v.chan).good)) :
    (handed s v code).zones = (zoneResult (recorded s v code) z x b).zones
      ∧ (handed s v code).arb = (zoneResult (recorded s v code) z x b).arb := by
  have told : delivered s v code = zoneResult (recorded s v code) z x b := by
    unfold delivered
    rw [chan] at value ⊢
    exact deliver_zone value
  rw [handed_eq, told]
  rcases sensorEvents_quiet (zoneResult (recorded s v code) z x b) v.chan (by rw [value]; simp) hn with same | ends
  · rw [same]
    exact ⟨rfl, rfl⟩
  · rw [ends]
    exact ⟨endFault_zones _ _ _, endFault_arb _ _ _⟩

/-- The recovery of a zone's channel returns it to THERMOSTAT mode (R20). -/
theorem handed_zone_recovers {x : Temp} {b : Band} (chan : v.chan = zoneChan z)
    (value : ((s.sched.ch.get v.chan).reading code).value = some (x, b))
    (faulted : (s.sched.ch.get v.chan).faulted = true) (good : 2 ≤ (s.sched.ch.get v.chan).good) :
    (handed s v code).zones.get z =
        { (zoneResult (recorded s v code) z x b).zones.get z with mode := .thermostat, timer := none }
      ∧ (handed s v code).arb = (zoneResult (recorded s v code) z x b).arb := by
  have told : delivered s v code = zoneResult (recorded s v code) z x b := by
    unfold delivered
    rw [chan] at value ⊢
    exact deliver_zone value
  rw [handed_eq, told, sensorEvents_recovers _ _ (by rw [value]; simp) faulted good, chan, deliverRecovered_zone]
  simp [zoneRecovered]

/-- The fault of a zone's channel puts it into TIMED mode (R18). -/
theorem handed_zone_faults (chan : v.chan = zoneChan z) (value : ((s.sched.ch.get v.chan).reading code).value = none)
    (faulted : (s.sched.ch.get v.chan).faulted = false) (bad : 2 ≤ (s.sched.ch.get v.chan).bad) :
    (handed s v code).zones.get z = { s.zones.get z with mode := .timed, timer := (s.zones.get z).faultTimer, closeMark := none }
      ∧ (handed s v code).arb = s.arb ∧ Recorded (handed s v code) .sensor (.channel v.chan) := by
  let d := declareFault (recorded s v code) .sensor (.channel v.chan) (some ((s.sched.ch.get v.chan).reading code).sensor)
  have told : delivered s v code = recorded s v code := by
    unfold delivered
    rw [chan] at value ⊢
    exact deliver_zone_none value
  have made : handed s v code = zoneFaulted d z := by
    rw [handed_eq, told, sensorEvents_faults _ _ value faulted bad]
    simp only [chan, deliverFaulted_zone, d]
  have same : d.zones = s.zones ∧ d.arb = s.arb := by simp [d, recorded]
  have rest : Acts 1 d (zoneFaulted d z) := acts_zoneFaulted z (le_refl 1) .refl
  refine ⟨?_, ?_, by rw [made]; exact recorded_acts (declare_recorded _ _ _ _) rest (by omega)⟩
  · rw [made]
    simp [zoneFaulted, same.1]
  · rw [made]
    simp [zoneFaulted, same.2]

theorem handed_zone_none (chan : v.chan = zoneChan z) (value : ((s.sched.ch.get v.chan).reading code).value = none)
    (hn : ¬ ((s.sched.ch.get v.chan).faulted = false ∧ 2 ≤ (s.sched.ch.get v.chan).bad)) :
    (handed s v code).zones = s.zones ∧ (handed s v code).arb = s.arb := by
  have told : delivered s v code = recorded s v code := by
    unfold delivered
    rw [chan] at value ⊢
    exact deliver_zone_none value
  rw [handed_eq, told, sensorEvents_none _ _ value hn]
  exact ⟨rfl, rfl⟩

end

/-- The phase timer at the loss of the sensor (R18). -/
theorem faultTimer_eq (r : Zone) : r.faultTimer =
    if r.state = .idle then some { kind := .off, left := r.offTime }
    else if r.state = .calling ∨ r.state = .cooling then some { kind := .on, left := r.onTime } else none := by
  unfold Zone.faultTimer Zone.offPhase Zone.onPhase
  cases r.state <;> simp

/-- In TIMED mode a result is recorded, and a change of class told (R8, R19). -/
theorem zoneResult_timed_core {s : State} {z : ZoneId} (v : Temp) (b : Band) (timed : (s.zones.get z).mode = .timed) :
    ((zoneResult s z v b).zones.get z).core = ((s.zones.get z).record v b).core := by
  rw [zoneResult_eq, if_neg (by rw [timed]; decide), classChanged_core, taken_get]

/-- Settles O56: `zoneCall_core`, `zoneSatisfied_core` and `classChanged_core` for the results, `handed_zone_recovers` and
`handed_zone_faults` for the channel's faults. -/
theorem zonesActOnTheirSensor : Obligations.ZonesActOnTheirSensor := by
  intro s z v code hl conv due chan r old served ends
  have start : (recorded s v code).zones.get z = r := rfl
  refine ⟨fun x b value => ?ok, fun value => ⟨fun quiet => ?none_, fun faulted bad => ?lost⟩⟩
  case ok =>
    intro check took posted
    have record : r.record x b = took := record_eq r x b
    have result : (taken (recorded s v code) z x b).zones.get z = took := (taken_get _ _ _ _).trans record
    refine ⟨fun mode faulted => ?thermostat, fun mode => ?timed⟩
    case thermostat =>
      obtain ⟨zones, arb⟩ := handed_zone_quiet chan value fun h => by rw [show old.faulted = false from faulted] at h; cases h.1
      have acts := zoneResult_eq (s := recorded s v code) (z := z) (v := x) (b := b)
      rw [start, if_pos mode] at acts
      refine ⟨fun idle above => ?calls, fun idle inside => ?spends, fun idle below => ?rests, fun active below => ?satisfied,
        fun busy warm => ?stays⟩
      case calls =>
        rw [acts, if_pos idle, if_pos above] at zones arb
        refine conversion_leads hl conv due fun y units => ?_
        have core := (conversion_core (s := s) units z).trans ((congrArg (fun k => (k.get z).core) zones).trans (zoneCall_core _ z))
        rw [result] at core
        refine ⟨served_calling (core_state core), core_but_state core, fun run => ?_⟩
        refine conversion_more units _ ?_
        rw [arb]
        exact zoneCall_listed z run
      case spends =>
        rw [acts, if_pos idle, if_neg (by rw [inside]; decide)] at zones
        refine conversion_leads hl conv due fun y units => ?_
        have core := (conversion_core (s := s) units z).trans ((congrArg (fun k => (k.get z).core) zones).trans (classChanged_core _ z _))
        rw [State.onZone_zones, Zones.get_set, result, inside] at core
        exact core_eq core (by show r.state.served ≠ _; rw [idle]; decide)
      case rests =>
        rw [acts, if_pos idle, if_neg (by rw [below]; decide)] at zones
        refine conversion_leads hl conv due fun y units => ?_
        have core := (conversion_core (s := s) units z).trans ((congrArg (fun k => (k.get z).core) zones).trans (classChanged_core _ z _))
        rw [State.onZone_zones, Zones.get_set, result, below] at core
        exact core_eq core (by show r.state.served ≠ _; rw [idle]; decide)
      case satisfied =>
        have busy : r.state ≠ .idle := by rcases active with h | h <;> rw [h] <;> decide
        rw [acts, if_neg busy, if_pos ⟨active, below⟩] at zones arb
        refine conversion_leads hl conv due fun y units => ?_
        have core := (conversion_core (s := s) units z).trans ((congrArg (fun k => (k.get z).core) zones).trans (zoneSatisfied_core _ z))
        rw [result] at core
        refine ⟨core_eq core (by simp [ZoneState.served]), ?_⟩
        refine unlisted_of (conversion_fewer (l := []) units) (by simp) ?_
        unfold Unlisted
        rw [arb]
        exact zoneSatisfied_unlisted (by rw [result]; exact active)
      case stays =>
        rw [acts, if_neg busy, if_neg fun h => warm h.1 h.2] at zones arb
        refine conversion_leads hl conv due fun y units => ?_
        rw [conversion_zones (s := s) units arb, zones]
        exact result
    case timed =>
      have inMode : ((recorded s v code).zones.get z).mode = .timed := mode
      have core := zoneResult_timed_core (s := recorded s v code) x b inMode
      rw [start, record] at core
      refine conversion_leads hl conv due fun y units => ?_
      by_cases idle : r.state = .idle
      · have stands : (zoneResult (recorded s v code) z x b).zones.get z = took := core_eq core (by show r.state.served ≠ _; rw [idle]; decide)
        have final : ∀ q, (handed s v code).zones.get z = q → q.state = .idle → (settleLink (recheck s y)).zones.get z = q :=
          fun q made rest => (core_eq (conversion_core (s := s) units z) (by rw [made, rest]; decide)).trans made
        split
        · next back => exact final _ ((handed_zone_recovers chan value back.1 back.2).1.trans (by rw [stands])) idle
        · next quiet =>
          obtain ⟨zones, _⟩ := handed_zone_quiet chan value quiet
          exact final _ (by rw [zones]; exact stands) idle
      · have told := zoneResult_timed (s := recorded s v code) x b inMode idle
        split
        · next back =>
          obtain ⟨zone, arb⟩ := handed_zone_recovers chan value back.1 back.2
          rw [told] at zone arb
          rw [conversion_zones (s := s) units arb, zone, result]
        · next quiet =>
          obtain ⟨zones, arb⟩ := handed_zone_quiet chan value quiet
          rw [told] at zones arb
          rw [conversion_zones (s := s) units arb, zones]
          exact result
  case none_ =>
    obtain ⟨zones, arb⟩ := handed_zone_none chan value fun h => by
      rcases quiet with q | q
      · rw [show old.faulted = false from h.1] at q
        cases q
      · exact absurd (show 2 ≤ old.bad from h.2) (Nat.not_le.2 q)
    refine conversion_leads hl conv due fun y units => ?_
    rw [conversion_zones (s := s) units arb, zones]
  case lost =>
    obtain ⟨zone, arb, recorded_⟩ := handed_zone_faults chan value faulted bad
    refine conversion_leads hl conv due fun y units => ⟨conversion_recorded units recorded_, ?_⟩
    rw [conversion_zones (s := s) units arb, zone, faultTimer_eq]

end Sys2Proof.Machine

namespace Sys2Proof.Machine

/-! ### What the other watchers do with a result (R48, R49, R97, R142) -/

/-- A reading with a value is OK (R75, R77). -/
theorem reading_value_ok {r : Channel} {code : BitVec 12} {p : Temp × Band} (h : (r.reading code).value = some p) :
    (r.reading code).sensor = .ok := by
  obtain ⟨_, _, _, _, _, _, valueless⟩ := readingsAreJudged r code
  by_contra bad
  rw [valueless bad] at h
  cases h

section
variable {s y : State} {v : Conversion} {code : BitVec 12}

/-- Where the arbiter was not moved, the event ends as the units left it. -/
theorem conversion_still {H : State} (h : UnitsOf H y) (still : H.arb = s.arb) :
    (settleLink (recheck s y)).air = H.air ∧ (settleLink (recheck s y)).defrost = H.defrost := by
  obtain ⟨_, arb, air, defrost, _⟩ := h
  rw [settleLink_air, settleLink_defrost, recheck_same (arb.trans still)]
  exact ⟨air, defrost⟩

/-- What a result with a value hands on beside the watcher's act: nothing, the end of the sensor fault, or with it the recovered
event of a faulted channel (R83). -/
theorem handed_value (value : ((s.sched.ch.get v.chan).reading code).value ≠ none) :
    (¬ ((s.sched.ch.get v.chan).faulted = true ∧ 2 ≤ (s.sched.ch.get v.chan).good) →
      handed s v code = delivered s v code ∨ handed s v code = endFault (delivered s v code) .sensor (.channel v.chan))
    ∧ ((s.sched.ch.get v.chan).faulted = true → 2 ≤ (s.sched.ch.get v.chan).good →
      handed s v code = deliverRecovered (endFault (delivered s v code) .sensor (.channel v.chan)) v.chan) := by
  rw [handed_eq]
  exact ⟨sensorEvents_quiet _ _ value, sensorEvents_recovers _ _ value⟩

/-- What the third result in a row without a value hands on (R82). -/
theorem handed_lost (value : ((s.sched.ch.get v.chan).reading code).value = none) (faulted : (s.sched.ch.get v.chan).faulted = false)
    (bad : 2 ≤ (s.sched.ch.get v.chan).bad) : ∃ d, handed s v code =
      deliverFaulted (declareFault (delivered s v code) .sensor (.channel v.chan) d) v.chan :=
  ⟨_, (handed_eq s v code).trans (sensorEvents_faults _ _ value faulted bad)⟩

/-! #### FRESH_EVAP (R97) -/

theorem sensorEvents_freshEvap (x : State) (old : Channel) (r : Reading) :
    (sensorEvents x .freshEvap old r).air = x.air ∧ (sensorEvents x .freshEvap old r).arb = x.arb := by
  unfold sensorEvents
  (repeat' split) <;> simp [deliverFaulted, deliverRecovered]

/-- A FRESH_EVAP result ABOVE ends an active run-on (R97). -/
theorem handed_freshEvap (chan : v.chan = .freshEvap) : let value := ((s.sched.ch.get v.chan).reading code).value
    (handed s v code).arb = s.arb ∧ (handed s v code).air =
      if value.map (·.2) = some .above ∧ s.air.runOn ≠ none then ({ s.air with runOn := none } : AirPath).settle else s.air := by
  intro value
  let x := (s.sched.ch.get v.chan).reading code
  have made : delivered s v code = freshEvapResult (recorded s v code) x.sensor (value.map (·.2)) := by
    unfold delivered
    rw [chan]
    simp only [deliver, x, value, chan]
  obtain ⟨air, arb⟩ := sensorEvents_freshEvap (delivered s v code) (s.sched.ch.get v.chan) x
  rw [← chan] at air arb
  rw [handed_eq, air, arb, made]
  by_cases above : value.map (·.2) = some .above ∧ s.air.runOn ≠ none
  · have ok : x.sensor = .ok := by
      obtain ⟨p, hp, _⟩ := Option.map_eq_some_iff.1 above.1
      exact reading_value_ok hp
    have ends : freshEvapResult (recorded s v code) x.sensor (value.map (·.2)) = endRunOn (recorded s v code) :=
      if_pos ⟨ok, above.1, Option.isSome_iff_ne_none.2 above.2⟩
    rw [ends, if_pos above]
    exact ⟨rfl, rfl⟩
  · have stays : freshEvapResult (recorded s v code) x.sensor (value.map (·.2)) = recorded s v code :=
      if_neg fun h => above ⟨h.2.1, Option.isSome_iff_ne_none.1 h.2.2⟩
    rw [stays, if_neg above]
    exact ⟨rfl, rfl⟩

/-! #### AMBIENT (R142) -/

/-- A change of the wish leaves what the unit's own change left, but for what settles (R141). -/
theorem wishChange_core (x : State) (f : Budget → Budget) : (wishChange x f).budget.core = (f x.budget).core := by
  unfold wishChange
  split
  · rw [State.onBudget_budget]
  · let u := x.onBudget fun b => (f b).unwish
    have settled : Acts 0 u (settleFrom u x.budget) := acts_settleFrom x.budget .refl
    have own : (budgetChange x fun b => (f b).unwish).budget.core = u.budget.core := (settled.below1 (by omega)).2.2.1
    have asked : u.budget = (f x.budget).unwish := rfl
    rw [own, asked, Budget.unwish_core]

/-- An AMBIENT result with a value (R142). -/
theorem handed_ambient {x : Temp} {b : Band} (chan : v.chan = .ambient)
    (value : ((s.sched.ch.get v.chan).reading code).value = some (x, b)) :
    (¬ ((s.sched.ch.get v.chan).faulted = true ∧ 2 ≤ (s.sched.ch.get v.chan).good) →
      (handed s v code).budget.core = (s.budget.ambientResult b).core)
    ∧ ((s.sched.ch.get v.chan).faulted = true → 2 ≤ (s.sched.ch.get v.chan).good →
      (handed s v code).budget.core = (s.budget.ambientResult b).ambientRecover.core) := by
  have made : delivered s v code = wishChange (recorded s v code) fun k => k.ambientResult b := by
    unfold delivered
    rw [chan] at value ⊢
    simp only [deliver, value]
  have core : (delivered s v code).budget.core = (s.budget.ambientResult b).core := by
    rw [made]
    exact wishChange_core _ _
  obtain ⟨quiet, back⟩ := handed_value (s := s) (v := v) (code := code) (by rw [value]; simp)
  refine ⟨fun hn => ?_, fun faulted good => ?_⟩
  · rcases quiet hn with same | ends
    · rw [same, core]
    · rw [ends, endFault_budget, core]
  · rw [back faulted good, chan]
    show (wishChange (endFault (delivered s v code) _ _) Budget.ambientRecover).budget.core = _
    rw [wishChange_core, endFault_budget]
    simp only [Budget.core, Budget.ambientRecover] at core ⊢
    simp only [Prod.mk.injEq] at core ⊢
    obtain ⟨mode, _, pos, _, force, unit, asked⟩ := core
    rw [mode, pos, force, unit, asked]
    simp

/-- A fault of AMBIENT (R142). -/
theorem handed_ambient_lost (chan : v.chan = .ambient) (value : ((s.sched.ch.get v.chan).reading code).value = none)
    (faulted : (s.sched.ch.get v.chan).faulted = false) (bad : 2 ≤ (s.sched.ch.get v.chan).bad) :
    (handed s v code).budget.core = s.budget.ambientFault.core := by
  have made : delivered s v code = recorded s v code := by
    unfold delivered
    rw [chan] at value ⊢
    simp only [deliver, value]
  obtain ⟨d, lost⟩ := handed_lost value faulted bad
  rw [lost, made, chan]
  show (wishChange (declareFault (recorded s v code) _ _ _) Budget.ambientFault).budget.core = _
  rw [wishChange_core, declareFault_budget]
  rfl

theorem conversion_budget {H : State} (h : UnitsOf H y) : (settleLink (recheck s y)).budget.core = H.budget.core := by
  rw [settleLink_budget]
  exact ((acts_recheck (w := 0) s (.refl (s := y))).below1 (by omega)).2.2.1.trans (congrArg Budget.core h.2.2.2.2.1)

/-! #### DISCHARGE (R48, R49) -/

/-- The marks of the discharge line. -/
def Arbiter.line (a : Arbiter) : Option Nat × Option Band × Bool × Bool :=
  (a.dischargeCap, a.dischargePos, a.dischargeFaulted, a.dischargeHigh)

/-- Acts of the lowest level leave the marks of the discharge line. -/
theorem Acts.line {x z : State} (k : Acts 0 x z) : z.arb.line = x.arb.line :=
  (congrArg (fun c => (c.1, c.2.1, c.2.2.1, c.2.2.2.1)) (k.below1 (by omega)).2.1 :)

theorem stopHot_line (x : State) : (stopHot x).arb.line = x.arb.line := by
  unfold stopHot
  split
  · have stops : Acts 0 x (compStop x) := acts_compStop .refl
    let u := (compStop x).onArb fun a => { a with forcedLevel := none }
    have rest : Acts 0 u (tryMove (select (unserve u))) := acts_tryMove (acts_select (acts_unserve .refl))
    exact rest.line.trans stops.line
  · rfl

/-- The marks after a DISCHARGE result (R48). -/
theorem dischargeResult_line (x : State) (b : Band) : (dischargeResult x b).arb.line = (x.arb.capAfter b, some b, x.arb.dischargeFaulted,
    if b = .above then true else if b = .below then false else x.arb.dischargeHigh) := by
  let t := x.onArb fun a => { a with dischargePos := some b, dischargeCap := a.capAfter b }
  cases b with
  | below =>
    refine ((acts_advance (w := 0) .refl).line).trans ?_
    rw [endFault_arb]
    rfl
  | inside => exact (acts_advance (w := 0) .refl).line
  | above =>
    have line := stopHot_line t
    simp only [Arbiter.line, Prod.mk.injEq] at line ⊢
    obtain ⟨cap, pos, faulted, _⟩ := line
    have made : dischargeResult x .above = if (stopHot t).arb.dischargeHigh then stopHot t
      else declareFault ((stopHot t).onArb fun a => { a with dischargeHigh := true }) .dischargeHigh .compressor none := rfl
    rw [made]
    split
    · next high => exact ⟨cap, pos, faulted, high⟩
    · rw [declareFault_arb]
      exact ⟨cap, pos, faulted, rfl⟩

/-- The compressor is off by a hot discharge line: its forced level ended, its ACTIVE grant PREPARING again (R48). -/
def StoppedHot (s x : State) : Prop :=
  Off3 x ∧ x.arb.forcedLevel = none
    ∧ ∀ g, s.arb.grant = some g → g.phase = .active → x.arb.grant = some g.prepare

theorem StoppedHot.of_eq {s x u : State} (h : StoppedHot s x) (comp : u.arb.comp = x.arb.comp) (timing : u.arb.timing = x.arb.timing)
    (forced : u.arb.forcedLevel = x.arb.forcedLevel) (grant : u.arb.grant = x.arb.grant) (budget : u.budget = x.budget) :
    StoppedHot s u := by
  obtain ⟨⟨locked, left, load⟩, none_, prepared⟩ := h
  refine ⟨⟨by rw [comp]; exact locked, by rw [comp, timing]; exact left, loadLaw_of_arb load comp budget⟩, by rw [forced]; exact none_, ?_⟩
  rw [grant]
  exact prepared

/-- With the compressor locked the arbiter goes on without its grant's activation (R32, R38). -/
theorem advance_locked_grant {s : State} (h : s.arb.comp.state = .offLocked) : (advance s).arb.grant = s.arb.grant := by
  unfold advance
  rw [leaveRunout_not (by rw [h]; decide), tryActivate_not (by rw [h]; decide)]
  have comp : (tryMove s).arb.comp = s.arb.comp := by
    rcases tryMove_arb s with same | ⟨_, _, _, _, _, _, moved⟩
    · rw [same]
    · rw [moved]
  have waits : tryStart (tryMove s) = tryMove s := if_neg fun q => by
    have ready := q.2.1
    rw [comp, h] at ready
    cases ready
  rw [waits, evalAim_off (by rw [comp, h]; rfl)]
  exact (tryMove_rolls s).2

theorem StoppedHot.advance {s x : State} (h : StoppedHot s x) : StoppedHot s (advance x) := by
  obtain ⟨off, none_, prepared⟩ := h
  have k : Acts 0 x (Machine.advance x) := acts_advance .refl
  refine ⟨off.acts k (by omega), forced_acts k none_, fun g hg active => ?_⟩
  rw [advance_locked_grant off.1]
  exact prepared g hg active

/-- A hot discharge line stops a compressor that turns (R48). -/
theorem stopHot_stops {s : State} (load : LoadLaw s) (hn : s.arb.comp.state.turning = true) : StoppedHot s (stopHot s) := by
  let u := (compStop s).onArb fun a => { a with forcedLevel := none }
  have made : stopHot s = tryMove (select (unserve u)) := if_pos hn
  have rest : Acts 0 u (tryMove (select (unserve u))) := acts_tryMove (acts_select (acts_unserve .refl))
  have off : Off3 (compStop s) := compStop_off3 load hn
  rw [made]
  refine ⟨Off3.acts (s := u) off rest (by omega), forced_acts rest rfl, fun g hg active => ?_⟩
  have granted : u.arb.grant = some g := (compStop_arb s).2.1.trans hg
  have back : (unserve u).arb.grant = some g.prepare := by
    rw [unserve_arb granted]
    exact congrArg some (if_pos active)
  rw [(tryMove_rolls _).2, select_granted (by rw [back]; simp)]
  exact back

/-- A DISCHARGE result ABOVE stops a compressor that turns (R48). -/
theorem dischargeResult_stops {s : State} (load : LoadLaw s) (hn : s.arb.comp.state.turning = true) :
    StoppedHot s (dischargeResult s .above) := by
  let t := s.onArb fun a => { a with dischargePos := some .above, dischargeCap := a.capAfter .above }
  have stopped : StoppedHot t (stopHot t) := stopHot_stops (loadLaw_of_arb load rfl rfl) hn
  have made : dischargeResult s .above = if (stopHot t).arb.dischargeHigh then stopHot t
      else declareFault ((stopHot t).onArb fun a => { a with dischargeHigh := true }) .dischargeHigh .compressor none := rfl
  rw [made]
  split
  · exact stopped
  · exact stopped.of_eq (by simp) (by simp) (by simp) (by simp) (by simp)

/-- A DISCHARGE result ABOVE declares DISCHARGE_HIGH when it does not stand (R48). -/
theorem dischargeResult_declares {s : State} (low : s.arb.dischargeHigh = false) :
    Recorded (dischargeResult s .above) .dischargeHigh .compressor := by
  let t := s.onArb fun a => { a with dischargePos := some .above, dischargeCap := a.capAfter .above }
  have high : (stopHot t).arb.dischargeHigh = false := (congrArg (fun c => c.2.2.2) (stopHot_line t) :).trans low
  have made : dischargeResult s .above = declareFault ((stopHot t).onArb fun a => { a with dischargeHigh := true })
      .dischargeHigh .compressor none := if_neg (by rw [high]; decide)
  rw [made]
  exact declare_recorded _ _ _ _

/-- What a DISCHARGE result with a value leaves (R48, R49). -/
theorem handed_discharge {x : Temp} {b : Band} (chan : v.chan = .discharge)
    (value : ((s.sched.ch.get v.chan).reading code).value = some (x, b)) :
    (¬ ((s.sched.ch.get v.chan).faulted = true ∧ 2 ≤ (s.sched.ch.get v.chan).good) →
      (handed s v code).arb.line = (dischargeResult (recorded s v code) b).arb.line)
    ∧ ((s.sched.ch.get v.chan).faulted = true → 2 ≤ (s.sched.ch.get v.chan).good → (handed s v code).arb.line =
      (if b = .inside then some 2 else none, some b, false, (dischargeResult (recorded s v code) b).arb.dischargeHigh))
    ∧ (StoppedHot s (dischargeResult (recorded s v code) b) → StoppedHot s (handed s v code))
    ∧ (Recorded (dischargeResult (recorded s v code) b) .dischargeHigh .compressor →
      Recorded (handed s v code) .dischargeHigh .compressor) := by
  let w := dischargeResult (recorded s v code) b
  have made : delivered s v code = w := by
    unfold delivered
    rw [chan] at value ⊢
    simp only [deliver, value, w]
  have ended : Acts 0 w (endFault w .sensor (.channel v.chan)) := acts_endFault _ _ .refl
  have stops : StoppedHot s w → StoppedHot s (endFault w .sensor (.channel v.chan)) := fun h =>
    h.of_eq (by simp) (by simp) (by simp) (by simp) (by simp)
  have pos : w.arb.dischargePos = some b := (congrArg (fun c => c.2.1) (dischargeResult_line (recorded s v code) b) :)
  obtain ⟨quiet, back⟩ := handed_value (s := s) (v := v) (code := code) (by rw [value]; simp)
  rw [made] at quiet back
  by_cases hb : (s.sched.ch.get v.chan).faulted = true ∧ 2 ≤ (s.sched.ch.get v.chan).good
  · let f := endFault w .sensor (.channel v.chan)
    have same : handed s v code = advance (f.onArb fun a =>
        { a with dischargeFaulted := false, dischargeCap := if a.dischargePos = some .inside then some 2 else none }) := by
      rw [back hb.1 hb.2, chan]
      simp only [f, chan]
      rfl
    have told : Acts 1 w (dischargeRecover f) := acts_dischargeRecover (le_refl 1) (ended.widen (by omega))
    refine ⟨fun hn => absurd hb hn, fun _ _ => ?_, fun h => ?_, fun h => ?_⟩
    · rw [same]
      refine (acts_advance (w := 0) .refl).line.trans ?_
      simp [Arbiter.line, f, pos, w]
    · rw [same]
      refine StoppedHot.advance ?_
      exact (stops h).of_eq rfl rfl rfl rfl rfl
    · rw [same]
      exact recorded_acts h told (by omega)
  · refine ⟨fun _ => ?_, fun faulted good => absurd ⟨faulted, good⟩ hb, fun h => ?_, fun h => ?_⟩
    · rcases quiet hb with same | ends
      · rw [same]
      · rw [ends]
        exact ended.line
    · rcases quiet hb with same | ends
      · rw [same]
        exact h
      · rw [ends]
        exact stops h
    · rcases quiet hb with same | ends
      · rw [same]
        exact h
      · rw [ends]
        exact recorded_acts h ended (by omega)

/-- A fault of DISCHARGE (R49). -/
theorem handed_discharge_lost (chan : v.chan = .discharge) (value : ((s.sched.ch.get v.chan).reading code).value = none)
    (faulted : (s.sched.ch.get v.chan).faulted = false) (bad : 2 ≤ (s.sched.ch.get v.chan).bad) :
    (handed s v code).arb.line = (if s.arb.dischargePos = some .inside then some 2 else some 3, none, true, s.arb.dischargeHigh) := by
  have made : delivered s v code = recorded s v code := by
    unfold delivered
    rw [chan] at value ⊢
    simp only [deliver, value]
  obtain ⟨d, lost⟩ := handed_lost value faulted bad
  rw [lost, made, chan]
  refine (acts_advance (w := 0) .refl).line.trans ?_
  simp [Arbiter.line, recorded]

theorem conversion_line {H : State} (h : UnitsOf H y) : (settleLink (recheck s y)).arb.line = H.arb.line := by
  rw [settleLink_arb]
  exact (acts_recheck (w := 0) s (.refl (s := y))).line.trans (congrArg Arbiter.line h.2.1)

/-- A stop by a hot discharge line stands to the end of the event. -/
theorem conversion_stopped {H : State} (h : UnitsOf H y) (stopped : StoppedHot s H) : let t := settleLink (recheck s y)
    OffFull t ∧ t.arb.forcedLevel = none ∧ ∀ g, s.arb.grant = some g → g.phase = .active → t.arb.grant = some g.prepare := by
  obtain ⟨_, arb, _, _, budget, _⟩ := h
  obtain ⟨off, none_, prepared⟩ := stopped.of_eq (u := y) (by rw [arb]) (by rw [arb]) (by rw [arb]) (by rw [arb]) budget
  have k : Acts 0 y (recheck s y) := acts_recheck s .refl
  intro t
  have same : t.arb = (recheck s y).arb := settleLink_arb _
  refine ⟨off.ends k, by rw [same]; exact forced_acts k none_, fun g hg active => ?_⟩
  have granted := prepared g hg active
  rw [same, (recheck_granted s y (by rw [granted]; simp)).2, granted]

end

end Sys2Proof.Machine

namespace Sys2Proof.Machine

/-! #### FREEZER_EVAP (R118, R119, R123, R130) -/

section
variable {s y : State} {v : Conversion} {code : BitVec 12}

/-- The watcher's state once the sample timer is set in HEAT (R118). -/
def sampled (s : State) : State :=
  if s.defrost.phase = .heat then s.onDefrost fun d => { d with sampleTimer := some (s.uptime + 10) } else s

theorem delivered_coil (chan : v.chan = .freezerEvap) :
    (((s.sched.ch.get v.chan).reading code).value = none → delivered s v code = sampled (recorded s v code))
    ∧ (∀ x b, ((s.sched.ch.get v.chan).reading code).value = some (x, b) →
      delivered s v code = coilOk (sampled (recorded s v code)) x b) := by
  unfold delivered
  rw [chan]
  refine ⟨fun value => ?_, fun x b value => ?_⟩ <;> simp only [deliver, coilResult, value] <;> rfl

/-- What a FREEZER_EVAP result hands on beside the watcher's act: the probe's marks (R82, R83, R118). -/
theorem handed_coil (chan : v.chan = .freezerEvap) : let r := s.sched.ch.get v.chan
    let w := delivered s v code
    let lost := (r.reading code).value = none ∧ r.faulted = false ∧ 2 ≤ r.bad
    let back := (r.reading code).value ≠ none ∧ r.faulted = true ∧ 2 ≤ r.good
    (handed s v code).arb = w.arb ∧ (handed s v code).air = w.air
    ∧ (lost → (handed s v code).defrost =
        { w.defrost with probeFaulted := true, probeLost := w.defrost.probeLost || w.defrost.phase == .heat })
    ∧ (back → (handed s v code).defrost = { w.defrost with probeFaulted := false })
    ∧ (¬ lost → ¬ back → (handed s v code).defrost = w.defrost)
    ∧ (∀ c o, Recorded w c o → Recorded (handed s v code) c o) := by
  intro r w lost back
  by_cases value : (r.reading code).value = none
  · have notBack : ¬ back := fun h => h.1 value
    by_cases gone : r.faulted = false ∧ 2 ≤ r.bad
    · obtain ⟨d, made⟩ := handed_lost value gone.1 gone.2
      rw [chan] at made
      have declared : Acts 0 w (declareFault w .sensor (.channel .freezerEvap) d) := acts_declareFault _ _ _ .refl
      have same : handed s v code = coilFault (declareFault w .sensor (.channel .freezerEvap) d) := made
      rw [same]
      refine ⟨declareFault_arb _ _ _ _, declareFault_air _ _ _ _, fun _ => ?_, fun h => absurd h notBack,
        fun h => absurd ⟨value, gone⟩ h, fun c o h => ?_⟩
      · simp [coilFault]
      · have declaredStill : Recorded (declareFault w .sensor (.channel .freezerEvap) d) c o := recorded_acts h declared (by omega)
        exact declaredStill
    · have same : handed s v code = w := (handed_eq s v code).trans (sensorEvents_none _ _ value gone)
      rw [same]
      exact ⟨rfl, rfl, fun h => absurd h.2 gone, fun h => absurd h notBack, fun _ _ => rfl, fun _ _ h => h⟩
  · have notLost : ¬ lost := fun h => value h.1
    have ended : Acts 0 w (endFault w .sensor (.channel v.chan)) := acts_endFault _ _ .refl
    obtain ⟨quiet, recovers⟩ := handed_value (s := s) (v := v) (code := code) value
    by_cases returns : r.faulted = true ∧ 2 ≤ r.good
    · have made := recovers returns.1 returns.2
      rw [chan] at made ended
      have same : handed s v code = coilRecover (endFault w .sensor (.channel .freezerEvap)) := made
      rw [same]
      refine ⟨endFault_arb _ _ _, endFault_air _ _ _, fun h => absurd h notLost, fun _ => ?_,
        fun _ h => absurd ⟨value, returns⟩ h, fun c o h => ?_⟩
      · simp [coilRecover]
      · have recordedStill : Recorded (endFault w .sensor (.channel .freezerEvap)) c o := recorded_acts h ended (by omega)
        exact recordedStill
    · rcases quiet returns with same | ends
      · rw [same]
        exact ⟨rfl, rfl, fun h => absurd h notLost, fun h => absurd h.2 returns, fun _ _ => rfl, fun _ _ h => h⟩
      · rw [ends]
        exact ⟨endFault_arb _ _ _, endFault_air _ _ _, fun h => absurd h notLost, fun h => absurd h.2 returns,
          fun _ _ => endFault_defrost _ _ _, fun c o h => recorded_acts h ended (by omega)⟩

/-- The probe's marks are all that the fault and the recovery of FREEZER_EVAP touch (R118). -/
theorem handed_coil_marks (chan : v.chan = .freezerEvap) : ∃ f l, (handed s v code).defrost =
    { (delivered s v code).defrost with probeFaulted := f, probeLost := l } := by
  obtain ⟨_, _, lost, back, quiet, _⟩ := handed_coil (s := s) (code := code) chan
  by_cases gone : ((s.sched.ch.get v.chan).reading code).value = none ∧ (s.sched.ch.get v.chan).faulted = false
      ∧ 2 ≤ (s.sched.ch.get v.chan).bad
  · exact ⟨_, _, lost gone⟩
  · by_cases returns : ((s.sched.ch.get v.chan).reading code).value ≠ none ∧ (s.sched.ch.get v.chan).faulted = true
        ∧ 2 ≤ (s.sched.ch.get v.chan).good
    · exact ⟨_, _, back returns⟩
    · exact ⟨_, _, quiet gone returns⟩

/-- The record of a defrost whose HEAT has ended (R120, R121). -/
def Dripped (d : Defrost) (now : Time) (c : HeatCause) (t : Defrost) : Prop :=
  t.phase = .drip ∧ t.lastCause = some c ∧ t.lastDuration = some (d.heatClock.getD 0) ∧ t.heater = .off
    ∧ t.dripTimer = some (now + 300) ∧ t.sampleTimer = none

theorem heatEnd_dripped (x : State) (c : HeatCause) : Dripped x.defrost x.uptime c (heatEnd x c).defrost := by
  obtain ⟨d, ended, core, off⟩ := heatEnd_defrost x c
  have clock : d.heatClock = x.defrost.heatClock := (congrArg Defrost.heatClock core :)
  rw [ended]
  unfold Dripped
  rw [← clock]
  exact ⟨rfl, rfl, rfl, off, rfl, rfl⟩

theorem Dripped.marks {d t : Defrost} {now : Time} {c : HeatCause} (h : Dripped d now c t) (f l : Bool) :
    Dripped d now c { t with probeFaulted := f, probeLost := l } := h

/-- Where neither the compressor's state nor the valve nor the grant moved, the Defrost Unit's record stands to the end. -/
theorem conversion_defrost {H : State} (h : UnitsOf H y) (still : feedingMoved s H = false ∨ H.arb.hold = false) :
    (settleLink (recheck s y)).defrost = H.defrost := by
  obtain ⟨_, arb, _, defrost, _⟩ := h
  have unmoved : feedingMoved s y = false ∨ y.arb.hold = false := by
    unfold feedingMoved at still ⊢
    rw [arb]
    exact still
  rw [settleLink_defrost, recheck_still unmoved, defrost]

/-- The end of HEAT by a result, to the end of the event (R119, R120). -/
theorem conversion_dripped {x : State} {c : HeatCause} (chan : v.chan = .freezerEvap) (units : UnitsOf (handed s v code) y)
    (made : delivered s v code = heatEnd x c) (arb : x.arb = s.arb) (clock : x.defrost.heatClock = s.defrost.heatClock)
    (uptime : x.uptime = s.uptime) : Dripped s.defrost s.uptime c (settleLink (recheck s y)).defrost := by
  obtain ⟨same, _⟩ := handed_coil (s := s) (code := code) chan
  obtain ⟨f, l, marks⟩ := handed_coil_marks (s := s) (code := code) chan
  have unmoved : feedingMoved s (handed s v code) = false := by
    have ended := heatEnd_unmoved x c
    unfold feedingMoved at ended ⊢
    rw [same, made, ← arb]
    exact ended
  have dripped := (heatEnd_dripped x c).marks f l
  rw [conversion_defrost units (Or.inl unmoved), marks, made]
  unfold Dripped at dripped ⊢
  rw [uptime, clock] at dripped
  exact dripped

end

/-- Outside the record that `coilOk` acts on, a result leaves the unit (R119). -/
theorem coilOk_waits {s : State} {x : Temp} {b : Band} (phase : s.defrost.phase = .heat)
    (h : b = .below ∨ s.defrost.heater ≠ .on ∨ s.defrost.probeLost = true) : coilOk s x b = s := by
  unfold coilOk
  rw [if_pos phase]
  rcases h with below | cold | lost
  · rw [below]
    split <;> rfl
  · exact if_neg fun q => cold q.1
  · exact if_neg fun q => by rw [lost] at q; cases q.2

theorem coilOk_ends {s : State} (x : Temp) (phase : s.defrost.phase = .heat) (on : s.defrost.heater = .on)
    (there : s.defrost.probeLost = false) : coilOk s x .inside = heatEnd s .probe
      ∧ coilOk s x .above = heatEnd (declareFault s .defrostOvertemp .heater none) .overtemp := by
  unfold coilOk
  rw [if_pos phase, if_pos ⟨on, there⟩, if_pos phase, if_pos ⟨on, there⟩]
  exact ⟨rfl, rfl⟩

section
variable {s y : State} {v : Conversion} {code : BitVec 12}

/-- The state that HEAT's watcher acts on (R118). -/
theorem sampled_heat (phase : s.defrost.phase = .heat) : let x := sampled (recorded s v code)
    x.defrost = { s.defrost with sampleTimer := some (s.uptime + 10) } ∧ x.arb = s.arb ∧ x.uptime = s.uptime := by
  intro x
  have same : x = (recorded s v code).onDefrost fun d => { d with sampleTimer := some ((recorded s v code).uptime + 10) } :=
    if_pos phase
  rw [same]
  exact ⟨rfl, rfl, rfl⟩

theorem sampled_not (phase : s.defrost.phase ≠ .heat) : sampled (recorded s v code) = recorded s v code := if_neg phase

/-- A result that HEAT waits on sets the sample timer (R118). -/
theorem delivered_waits (chan : v.chan = .freezerEvap) (phase : s.defrost.phase = .heat)
    (h : ((s.sched.ch.get v.chan).reading code).value.map (·.2) = none
      ∨ ((s.sched.ch.get v.chan).reading code).value.map (·.2) = some .below ∨ s.defrost.heater ≠ .on ∨ s.defrost.probeLost = true) :
    delivered s v code = sampled (recorded s v code) := by
  obtain ⟨none_, some_⟩ := delivered_coil (s := s) (code := code) chan
  obtain ⟨defrost, _⟩ := sampled_heat (v := v) (code := code) phase
  cases value : ((s.sched.ch.get v.chan).reading code).value with
  | none => exact none_ value
  | some p =>
    rw [some_ p.1 p.2 value]
    refine coilOk_waits (by rw [defrost]; exact phase) ?_
    rw [defrost]
    rw [value] at h
    rcases h with absent | below | rest
    · cases absent
    · exact Or.inl (Option.some.inj below)
    · exact Or.inr rest

end

end Sys2Proof.Machine

namespace Sys2Proof.Machine

/-! #### The watchers, to the end of the event (O57) -/

/-- The record of an ended HEAT with the output that its heater drives, in the order of the statement. -/
theorem Dripped.full {d : Defrost} {now : Time} {c : HeatCause} {t : State} (h : Dripped d now c t.defrost) :
    t.defrost.phase = .drip ∧ t.defrost.lastCause = some c ∧ t.defrost.lastDuration = some (d.heatClock.getD 0)
      ∧ t.defrost.heater = .off ∧ t.heaterOutput = false ∧ t.defrost.dripTimer = some (now + 300)
      ∧ t.defrost.sampleTimer = none := by
  obtain ⟨phase, cause, duration, off, drip, sample⟩ := h
  have output : t.heaterOutput = false := by
    unfold State.heaterOutput
    rw [off]
    rfl
  exact ⟨phase, cause, duration, off, output, drip, sample⟩

section
variable {s y : State} {v : Conversion} {code : BitVec 12}

/-- A FRESH_EVAP result, to the end of the event (R97). -/
theorem freshEvap_ends (chan : v.chan = .freshEvap) (units : UnitsOf (handed s v code) y) :
    (settleLink (recheck s y)).air = if ((s.sched.ch.get v.chan).reading code).value.map (·.2) = some .above ∧ s.air.runOn ≠ none
      then ({ s.air with runOn := none } : AirPath).settle else s.air := by
  obtain ⟨arb, air⟩ := handed_freshEvap (s := s) (code := code) chan
  exact (conversion_still units arb).1.trans air

/-- A result in HEAT that the unit waits on, to the end of the event (R118). -/
theorem heat_waits (chan : v.chan = .freezerEvap) (phase : s.defrost.phase = .heat)
    (waits : let value := ((s.sched.ch.get v.chan).reading code).value
      value.map (·.2) = none ∨ value.map (·.2) = some .below ∨ s.defrost.heater ≠ .on ∨ s.defrost.probeLost = true)
    (units : UnitsOf (handed s v code) y) : let r := s.sched.ch.get v.chan
    let lost := (r.reading code).value = none ∧ r.faulted = false ∧ 2 ≤ r.bad
    let back := (r.reading code).value ≠ none ∧ r.faulted = true ∧ 2 ≤ r.good
    (settleLink (recheck s y)).defrost =
      { s.defrost with sampleTimer := some (s.uptime + 10), probeLost := s.defrost.probeLost || decide lost
                       probeFaulted := if lost then true else if back then false else s.defrost.probeFaulted } := by
  intro r lost back
  obtain ⟨sampledDefrost, sampledArb, _⟩ := sampled_heat (v := v) (code := code) phase
  obtain ⟨arb, _, whenLost, whenBack, otherwise, _⟩ := handed_coil (s := s) (code := code) chan
  rw [delivered_waits chan phase waits] at arb whenLost whenBack otherwise
  rw [conversion_defrost units (Or.inl (moved_arb (arb.trans sampledArb)))]
  by_cases isLost : lost
  · rw [whenLost isLost, sampledDefrost]
    simp [isLost, phase]
  · by_cases isBack : back
    · rw [whenBack isBack, sampledDefrost]
      simp [isLost, isBack]
    · rw [otherwise isLost isBack, sampledDefrost]
      simp [isLost, isBack]

/-- A result that ends HEAT (R119): INSIDE by the probe, ABOVE by the overtemperature. -/
theorem heat_ends_delivered (chan : v.chan = .freezerEvap) (phase : s.defrost.phase = .heat) (on : s.defrost.heater = .on)
    (there : s.defrost.probeLost = false) : let value := ((s.sched.ch.get v.chan).reading code).value
    let x := sampled (recorded s v code)
    (value.map (·.2) = some .inside → delivered s v code = heatEnd x .probe)
    ∧ (value.map (·.2) = some .above → delivered s v code = heatEnd (declareFault x .defrostOvertemp .heater none) .overtemp) := by
  intro value x
  obtain ⟨defrost, _⟩ := sampled_heat (v := v) (code := code) phase
  have ends := fun t => coilOk_ends (s := x) t (by rw [defrost]; exact phase) (by rw [defrost]; exact on)
    (by rw [defrost]; exact there)
  refine ⟨fun inside => ?_, fun above => ?_⟩
  · obtain ⟨⟨t, b⟩, result, band⟩ := Option.map_eq_some_iff.1 inside
    obtain rfl : b = .inside := band
    exact ((delivered_coil chan).2 t _ result).trans (ends t).1
  · obtain ⟨⟨t, b⟩, result, band⟩ := Option.map_eq_some_iff.1 above
    obtain rfl : b = .above := band
    exact ((delivered_coil chan).2 t _ result).trans (ends t).2

/-- The end of HEAT by the overtemperature is declared, to the end of the event (R119). -/
theorem overtemp_recorded (chan : v.chan = .freezerEvap) (phase : s.defrost.phase = .heat)
    (made : delivered s v code = heatEnd (declareFault (sampled (recorded s v code)) .defrostOvertemp .heater none) .overtemp)
    (units : UnitsOf (handed s v code) y) : Recorded (settleLink (recheck s y)) .defrostOvertemp .heater := by
  let x := declareFault (sampled (recorded s v code)) .defrostOvertemp .heater none
  obtain ⟨defrost, _⟩ := sampled_heat (v := v) (code := code) phase
  have inHeat : x.defrost.phase = .heat := by
    rw [declareFault_defrost, defrost]
    exact phase
  have ended : Acts 2 x (heatEnd x .overtemp) := acts_heatEnd _ inHeat (le_refl 2) .refl
  obtain ⟨_, _, _, _, _, kept⟩ := handed_coil (s := s) (code := code) chan
  refine conversion_recorded units (kept _ _ ?_)
  rw [made]
  exact recorded_acts (declare_recorded _ _ _ _) ended (by omega)

/-- A BELOW result in RECOVER ends it, to the end of the event (R123, R109). -/
theorem recover_ends (chan : v.chan = .freezerEvap) (phase : s.defrost.phase = .recover)
    (below : ((s.sched.ch.get v.chan).reading code).value.map (·.2) = some .below) (works : s.defrost.probeFaulted = false)
    (units : UnitsOf (handed s v code) y) : let t := settleLink (recheck s y)
    t.defrost.phase = ({ s.defrost with current := s.defrost.next } : Defrost).restPhase ∧ t.defrost.current = s.defrost.next
      ∧ t.defrost.recoveryLimit = none ∧ t.air.permit = true := by
  intro t
  obtain ⟨⟨x, b⟩, result, band⟩ := Option.map_eq_some_iff.1 below
  obtain rfl : b = .below := band
  have made : delivered s v code = recoverEnd (recorded s v code) := by
    rw [(delivered_coil chan).2 x _ result, sampled_not (by rw [phase]; decide)]
    have inRecover : (recorded s v code).defrost.phase = .recover := phase
    unfold coilOk
    rw [if_neg (by rw [inRecover]; decide), if_pos inRecover]
    exact if_pos ⟨rfl, works⟩
  obtain ⟨rest, current, limit, _, permit⟩ := recoverEnd_leaves (recorded s v code)
  rw [← made] at rest current limit permit
  obtain ⟨_, air, _⟩ := handed_coil (s := s) (code := code) chan
  obtain ⟨f, l, marks⟩ := handed_coil_marks (s := s) (code := code) chan
  obtain ⟨_, _, toldAir, toldDefrost, _⟩ := units
  have checked : Acts 0 y (recheck s y) := acts_recheck s .refl
  obtain ⟨phaseStands, _⟩ := checked.phase (by omega)
  have core : (recheck s y).defrost.core = y.defrost.core := checked.below2 (by omega)
  have airCore : (recheck s y).air.core = y.air.core := (checked.below1 (by omega)).2.2.2
  rw [toldDefrost, marks] at core phaseStands
  rw [toldAir, air] at airCore
  have ends : t.defrost = (recheck s y).defrost := settleLink_defrost _
  have endsAir : t.air = (recheck s y).air := settleLink_air _
  rw [ends, endsAir]
  exact ⟨phaseStands.trans rest, (congrArg Defrost.current core :).trans current,
    (congrArg Defrost.recoveryLimit core :).trans limit, (congrArg (fun c => c.2.1) airCore :).trans permit⟩

/-- A result above +20.0 with no defrost under way cuts a SERVICE heater, to the end of the event (R130). -/
theorem service_cut (chan : v.chan = .freezerEvap) (rest : s.defrost.phase = .idle ∨ s.defrost.phase = .due)
    (on : s.defrost.heater = .on) (use : s.defrost.use = some .service)
    (hot : ∃ x ∈ ((s.sched.ch.get v.chan).reading code).value, 200 < x.1) (free : s.arb.hold = false)
    (units : UnitsOf (handed s v code) y) : (settleLink (recheck s y)).defrost.heater = .off := by
  obtain ⟨⟨x, b⟩, result, above⟩ := hot
  let r := recorded s v code
  have notHeat : s.defrost.phase ≠ .heat := by rcases rest with h | h <;> rw [h] <;> decide
  have notRecover : s.defrost.phase ≠ .recover := by rcases rest with h | h <;> rw [h] <;> decide
  have made : delivered s v code = serviceCut r := by
    rw [(delivered_coil chan).2 x b result, sampled_not notHeat]
    unfold coilOk
    have cut : r.defrost.heater = .on ∧ r.defrost.use = some .service ∧ Config.coilHigh < x := ⟨on, use, above⟩
    rw [if_neg (show r.defrost.phase ≠ .heat from notHeat), if_neg (show r.defrost.phase ≠ .recover from notRecover)]
    exact if_pos cut
  obtain ⟨off, _, hold⟩ := heaterEnds_off r
  obtain ⟨arb, _⟩ := handed_coil (s := s) (code := code) chan
  obtain ⟨f, l, marks⟩ := handed_coil_marks (s := s) (code := code) chan
  rw [made] at arb marks
  rw [conversion_defrost units (Or.inr (by rw [arb]; exact hold.trans free)), marks]
  exact off

/-- An AMBIENT result with a value, to the end of the event (R142). -/
theorem ambient_ends {x : Temp} {b : Band} (chan : v.chan = .ambient)
    (value : ((s.sched.ch.get v.chan).reading code).value = some (x, b)) (units : UnitsOf (handed s v code) y) :
    let r := s.sched.ch.get v.chan
    let back := (r.reading code).value ≠ none ∧ r.faulted = true ∧ 2 ≤ r.good
    let t := (settleLink (recheck s y)).budget
    t.ambientPos = some b ∧ t.ambientFaulted = (s.budget.ambientFaulted && !decide back)
      ∧ t.ambientWish = if back then b != .below else if s.budget.ambientFaulted = true then s.budget.ambientWish
          else if b = .above then true else if b = .below then false else s.budget.ambientWish := by
  intro r back t
  have core : t.core = (handed s v code).budget.core := conversion_budget units
  obtain ⟨quiet, recovers⟩ := handed_ambient chan value
  by_cases isBack : back
  · obtain ⟨_, faulted, good⟩ := id isBack
    have marks := core.trans (recovers faulted good)
    simp only [Budget.core, Budget.ambientRecover, Budget.ambientResult, Prod.mk.injEq] at marks
    obtain ⟨_, wish, pos, gone, _⟩ := marks
    have compares : (some b != some Band.below) = (b != .below) := by cases b <;> rfl
    rw [wish, pos, gone, compares]
    simp [isBack]
  · have marks := core.trans (quiet fun h => isBack ⟨by rw [value]; simp, h⟩)
    simp only [Budget.core, Budget.ambientResult, Prod.mk.injEq] at marks
    obtain ⟨_, wish, pos, stands, _⟩ := marks
    rw [wish, pos, stands]
    simp only [isBack, decide_false, if_false, Bool.not_false, Bool.and_true, true_and]
    cases b <;> simp

/-- A DISCHARGE result with a value, to the end of the event: the marks of the line (R48, R49). -/
theorem discharge_marks {x : Temp} {b : Band} (chan : v.chan = .discharge)
    (value : ((s.sched.ch.get v.chan).reading code).value = some (x, b)) (units : UnitsOf (handed s v code) y) :
    let r := s.sched.ch.get v.chan
    let back := (r.reading code).value ≠ none ∧ r.faulted = true ∧ 2 ≤ r.good
    let t := (settleLink (recheck s y)).arb
    t.dischargePos = some b ∧ t.dischargeFaulted = (s.arb.dischargeFaulted && !decide back)
      ∧ t.dischargeCap = (if back then (if b = .inside then some 2 else none) else if b = .inside then some 2
          else if b = .above then s.arb.dischargeCap else if s.arb.dischargeFaulted = true then some 3 else none)
      ∧ t.dischargeHigh = if b = .above then true else if b = .below then false else s.arb.dischargeHigh := by
  intro r back t
  have line : t.line = (handed s v code).arb.line := conversion_line units
  obtain ⟨quiet, recovers, _⟩ := handed_discharge chan value
  have result := dischargeResult_line (recorded s v code) b
  by_cases isBack : back
  · obtain ⟨_, faulted, good⟩ := id isBack
    have marks := line.trans (recovers faulted good)
    simp only [Arbiter.line, Prod.mk.injEq] at marks result
    obtain ⟨cap, pos, gone, high⟩ := marks
    rw [cap, pos, gone, high, result.2.2.2]
    simp only [isBack, decide_true, if_true, Bool.not_true, Bool.and_false, true_and]
    rfl
  · have marks := (line.trans (quiet fun h => isBack ⟨by rw [value]; simp, h⟩)).trans result
    simp only [Arbiter.line, Prod.mk.injEq] at marks
    obtain ⟨cap, pos, stands, high⟩ := marks
    rw [cap, pos, stands, high]
    simp only [isBack, decide_false, if_false, Bool.not_false, Bool.and_true, true_and]
    refine ⟨rfl, ?_, rfl⟩
    cases b <;> rfl

/-- A fault of AMBIENT, to the end of the event (R142). -/
theorem ambient_lost_ends (chan : v.chan = .ambient) (value : ((s.sched.ch.get v.chan).reading code).value = none)
    (faulted : (s.sched.ch.get v.chan).faulted = false) (bad : 2 ≤ (s.sched.ch.get v.chan).bad)
    (units : UnitsOf (handed s v code) y) : let t := settleLink (recheck s y)
    t.budget.ambientFaulted = true ∧ t.budget.ambientWish = true := by
  intro t
  have core : t.budget.core = s.budget.ambientFault.core :=
    (conversion_budget (s := s) units).trans (handed_ambient_lost chan value faulted bad)
  simp only [Budget.core, Budget.ambientFault, Prod.mk.injEq] at core
  obtain ⟨_, wish, _, gone, _⟩ := core
  exact ⟨gone, wish⟩

/-- A DISCHARGE result ABOVE declares DISCHARGE_HIGH when it does not stand, to the end of the event (R48). -/
theorem discharge_declares {x : Temp} (chan : v.chan = .discharge)
    (value : ((s.sched.ch.get v.chan).reading code).value = some (x, .above)) (low : s.arb.dischargeHigh = false)
    (units : UnitsOf (handed s v code) y) : Recorded (settleLink (recheck s y)) .dischargeHigh .compressor := by
  obtain ⟨_, _, _, declares⟩ := handed_discharge chan value
  have lowAtResult : (recorded s v code).arb.dischargeHigh = false := low
  exact conversion_recorded units (declares (dischargeResult_declares lowAtResult))

/-- A DISCHARGE result ABOVE stops a compressor that turns, to the end of the event (R48). -/
theorem discharge_stops {x : Temp} (chan : v.chan = .discharge)
    (value : ((s.sched.ch.get v.chan).reading code).value = some (x, .above)) (turning : s.arb.comp.state.turning = true)
    (load : LoadLaw s) (units : UnitsOf (handed s v code) y) : let t := settleLink (recheck s y)
    OffFull t ∧ t.arb.forcedLevel = none ∧ ∀ g, s.arb.grant = some g → g.phase = .active → t.arb.grant = some g.prepare := by
  obtain ⟨_, _, stops, _⟩ := handed_discharge chan value
  have arb : (recorded s v code).arb = s.arb := rfl
  have loadAtResult : LoadLaw (recorded s v code) := loadLaw_of_arb load (congrArg Arbiter.comp arb) rfl
  have stopped := dischargeResult_stops loadAtResult (by rw [arb]; exact turning)
  unfold StoppedHot at stopped
  rw [arb] at stopped
  exact conversion_stopped units (stops stopped)

/-- A fault of DISCHARGE, to the end of the event (R49). -/
theorem discharge_lost_ends (chan : v.chan = .discharge) (value : ((s.sched.ch.get v.chan).reading code).value = none)
    (faulted : (s.sched.ch.get v.chan).faulted = false) (bad : 2 ≤ (s.sched.ch.get v.chan).bad)
    (units : UnitsOf (handed s v code) y) : let t := settleLink (recheck s y)
    t.arb.dischargeFaulted = true ∧ t.arb.dischargePos = none
      ∧ t.arb.dischargeCap = if s.arb.dischargePos = some .inside then some 2 else some 3 := by
  intro t
  have line : t.arb.line = _ := (conversion_line (s := s) units).trans (handed_discharge_lost chan value faulted bad)
  simp only [Arbiter.line, Prod.mk.injEq] at line
  obtain ⟨cap, pos, gone, _⟩ := line
  exact ⟨gone, pos, cap⟩

end

/-- Settles O57: each watcher's part of a completed conversion, to the end of the event. -/
theorem unitsActOnTheirSensors : Obligations.UnitsActOnTheirSensors := by
  intro s v code hl conv due old value lost back d ends dripped
  refine ⟨fun chan => ?_, fun chan phase => ⟨fun waits => ?_, fun inside on there => ?_, fun above on there => ?_⟩,
    fun chan phase below works => ?_, fun chan rest on use hot free => ?_,
    fun chan => ⟨fun x b result => ?_, fun isLost => ?_⟩, fun chan => ⟨fun x b result => ?_, fun isLost => ?_⟩⟩ <;>
    refine conversion_leads hl conv due fun y units => ?_
  case refine_1 => exact freshEvap_ends chan units
  case refine_2 => exact heat_waits chan phase waits units
  case refine_3 =>
    obtain ⟨defrost, arb, uptime⟩ := sampled_heat (v := v) (code := code) phase
    have made := (heat_ends_delivered chan phase on there).1 inside
    exact (conversion_dripped chan units made arb (by rw [defrost]) uptime).full
  case refine_4 =>
    obtain ⟨defrost, arb, uptime⟩ := sampled_heat (v := v) (code := code) phase
    have made := (heat_ends_delivered chan phase on there).2 above
    refine ⟨(conversion_dripped chan units made ?_ ?_ ?_).full, overtemp_recorded chan phase made units⟩
    · rw [declareFault_arb, arb]
    · rw [declareFault_defrost, defrost]
    · rw [declareFault_uptime, uptime]
  case refine_5 => exact recover_ends chan phase below works units
  case refine_6 =>
    have off := service_cut chan rest on use hot free units
    exact ⟨off, by unfold State.heaterOutput; rw [off]; rfl⟩
  case refine_7 => exact ambient_ends chan result units
  case refine_8 =>
    obtain ⟨absent, faulted, bad⟩ := isLost
    exact ambient_lost_ends chan absent faulted bad units
  case refine_9 =>
    obtain ⟨pos, gone, cap, high⟩ := discharge_marks chan result units
    refine ⟨pos, gone, cap, high, fun above low => ?_, fun above turning load => ?_⟩ <;> rw [above] at result
    · exact discharge_declares chan result low units
    · exact discharge_stops chan result turning load units
  case refine_10 =>
    obtain ⟨absent, faulted, bad⟩ := isLost
    exact discharge_lost_ends chan absent faulted bad units

end Sys2Proof.Machine
